-- ==== Sys2Proof/Word.lean ====
section
/-!
DEFINITION. Word.lean: the words of the SP4. Fields of carriage packets and quantities that wrap are bit
vectors (R1, R10, R11, R12); counts, sizes and instants are numbers.
-/

namespace Sys2Proof

/-- One byte of a stream (R1). -/
abbrev Byte := BitVec 8

/-- A stream label, 12 bits (R1). -/
abbrev Label := BitVec 12

/-- A frame number, taken modulo 65,536 (R10). -/
abbrev FrameNo := BitVec 16

/-- A clock sample, a splice offset or the value of a parameter unit: 40 bits (R2, R7, R11). -/
abbrev Sample := BitVec 40

/-- A counter of the part: 32 bits, saturating (R12). -/
abbrev Count := BitVec 32

/-- A set of the sixteen event flags, bit k for position k (R8). -/
abbrev FlagSet := BitVec 16

/-- A slot's place in a frame sequence: a frame number and a slot index (R10). -/
abbrev Point := FrameNo × Nat

/-- A table of numbered records that lists only the records that differ from their reset value,
in rising order of number. -/
abbrev Table (α : Type) := List (Nat × α)

end Sys2Proof
end

