-- ==== Sys2Proof/Config.lean ====
section
/-!
DEFINITION. Config.lean: what the part fixes (sizes, limits), and the one thing the spec leaves open as a
value, the contents of the store blocks before anything is written.
-/

namespace Sys2Proof.Config

/-- A site second holds 20,000,000 ticks of 50 ns (R9). -/
abbrev ticksPerSecond : Nat := 20000000

/-- One millisecond in ticks (R34, R167). -/
abbrev ticksPerMs : Nat := 20000

/-- The pulse watch expires at 1.02 s of ticks (R26). -/
abbrev pulseWatchLimit : Nat := 20400000

/-- A carriage packet is 160 bytes (R1). -/
abbrev packetBytes : Nat := 160

/-- The fixed lead byte of a carriage packet (R1). -/
abbrev lead : Byte := 0x5A#8

/-- How many earlier bytes the alignment search looks back over: p + 640 is compared with p (R32). -/
abbrev searchSpan : Nat := 640

/-- The Packet Pool keeps 262,144 buffers (R70). -/
abbrev poolBuffers : Nat := 262144

/-- The monitor queue holds up to 1,024 entries (R77). -/
abbrev monitorRoom : Nat := 1024

/-- The monitor port sends a packet in 128 ticks (R78). -/
abbrev monitorTicks : Nat := 128

/-- A frame queue holds up to 64 records (R84). -/
abbrev frameQueueRoom : Nat := 64

/-- The control queue holds up to 64 cells (R161). -/
abbrev controlRoom : Nat := 64

/-- The report queue has 32 places (R165). -/
abbrev reportRoom : Nat := 32

/-- A slot's bits in the unit of the grid: 1,280 bits of 20,000,000 ticks (R87). -/
abbrev slotBitTicks : Nat := 25600000000

/-- A record is TOO_EARLY when its release start is more than 2 s ahead at intake (R85). -/
abbrev tooEarlyTicks : Int := 40000000

/-- A jump of more than this sends an output to FREE_RUN (R90). -/
abbrev jumpLimit : Int := 20000000

/-- A tracker older than one second is stale (R116). -/
abbrev trackerLife : Int := 20000000

/-- There are 8,192 store blocks of 256 packets (R120). -/
abbrev storeBlocks : Nat := 8192

/-- Packets in a store block (R120). -/
abbrev blockPackets : Nat := 256

/-- A search that enters entries this many times fails with BAD_LINK (R151). -/
abbrev searchEnterings : Nat := 8192

/-- Byte `i` of the packet place `place` of the store blocks before anything was written there: R134 says that
the blocks hold "whatever the memory holds". A free value, log entry 8. -/
opaque dramByte (place i : Nat) : Byte

end Sys2Proof.Config
end

