-- ==== Sys2Proof/Syntax.lean ====
section
/-!
DEFINITION. Syntax.lean: the commands of the SP4, one constructor for each row of spec/opcode_table.json.
The table gives the rows no operands; the operands here are what the row's rule reads from outside the part.
-/

namespace Sys2Proof

/-- The three input ports (section 3.1). -/
inductive Port where
  | a
  | b
  | l
  deriving DecidableEq, Repr

/-- The two copies of the distribution feed. -/
inductive Feed where
  | a
  | b
  deriving DecidableEq, Repr

/-- The source of a packet or of a control cell: the taken feed or the local port (R49, R50, R161).
The order is that of the named values FEED, LOCAL (R54). -/
inductive Source where
  | feed
  | localPort
  deriving DecidableEq, Repr

/-- A parameter unit: a presence byte and a 40-bit value (R7). -/
structure ParamUnit where
  presence : Byte
  value    : Sample
  deriving DecidableEq, Repr

/-- A control cell: the fields of R6, its parameters as the 25 units of R7. -/
structure Cell where
  originator : Byte
  tag        : BitVec 16
  code       : Byte
  units      : List ParamUnit
  deriving DecidableEq, Repr

/-- A control cell as sorting hands it to the Management Unit, with its source (R161). -/
structure Handed where
  source : Source
  cell   : Cell
  deriving DecidableEq, Repr

/-- The commands. `wait` is the number of ticks that pass before an arrival (log entry 4). The `handed` operand
of a command row is a control cell that sorting hands on as the step begins, if there is one: the row then takes
the head of the control queue, as R162 gives (log entry 2). -/
inductive Instr where
  /-- POWER_ON (R177). -/
  | powerOn
  /-- RESET_PIN (R177). -/
  | resetPin
  /-- BYTE_ARRIVES (R31): the byte at the port, after `wait` ticks. -/
  | byteArrives (wait : Nat) (port : Port) (byte : Byte)
  /-- PACKET_ARRIVES (R33): the bytes that complete the packet in assembly, the last of them its 160th. -/
  | packetArrives (wait : Nat) (port : Port) (bytes : List Byte)
  /-- LOSS_TIMER_EXPIRY (R34). -/
  | lossTimerExpiry (port : Port)
  /-- REF10_LOST (R25). -/
  | ref10Lost (wait : Nat)
  /-- REF10_RESTORED (R16). -/
  | ref10Restored (wait : Nat)
  /-- PULSE_EDGE (R19). -/
  | pulseEdge (wait : Nat)
  /-- PULSE_WATCH_EXPIRY (R26). -/
  | pulseWatchExpiry
  /-- SECOND_BOUNDARY (R17). -/
  | secondBoundary
  /-- HOLDOVER_EXPIRY (R27). -/
  | holdoverExpiry
  /-- HOLD_TIMEOUT (R167). -/
  | holdTimeout
  /-- SLOT_START (R88). -/
  | slotStart (output : Fin 4)
  /-- REANCHOR_START (R92). -/
  | reanchorStart (output : Fin 4)
  /-- ACQUISITION_START (R98). -/
  | acquisitionStart (output : Fin 4)
  /-- BREAK_END (R155). -/
  | breakEnd
  /-- SLOT_ENDS (R75). -/
  | slotEnds (output : Fin 4)
  /-- MONITOR_PACKET_SENT (R78). -/
  | monitorPacketSent
  /-- SWAP_BANKS_COMPLETION (R66). -/
  | swapBanksCompletion
  /-- UNKNOWN_CODE_CELL (R163). -/
  | unknownCodeCell (handed : Option Handed)
  /-- HOLD (R166). -/
  | hold (handed : Option Handed)
  /-- ABANDON_HOLD (R168): the cell that sorting hands on. -/
  | abandonHold (cell : Cell)
  /-- SET_GRANTS (R172). -/
  | setGrants (handed : Option Handed)
  /-- SET_EVENT_ENABLE (R170). -/
  | setEventEnable (handed : Option Handed)
  /-- ACK_EVENTS (R171). -/
  | ackEvents (handed : Option Handed)
  /-- STATUS (R173). -/
  | status (handed : Option Handed)
  /-- READ_COUNTERS (R174). -/
  | readCounters (handed : Option Handed)
  /-- CLEAR_COUNTERS (R175). -/
  | clearCounters (handed : Option Handed)
  /-- SITE_RESET (R176). -/
  | siteReset (handed : Option Handed)
  /-- SET_SECONDS (R23). -/
  | setSeconds (handed : Option Handed)
  /-- SET_CLOCK_POLICY (R24). -/
  | setClockPolicy (handed : Option Handed)
  /-- SET_OUTPUT (R82). -/
  | setOutput (handed : Option Handed)
  /-- OUTPUT_MUTE (R103). -/
  | outputMute (handed : Option Handed)
  /-- OUTPUT_RESTART (R104). -/
  | outputRestart (handed : Option Handed)
  /-- WRITE_ROUTE (R64). -/
  | writeRoute (handed : Option Handed)
  /-- COPY_BANK (R65). -/
  | copyBank (handed : Option Handed)
  /-- SWAP_BANKS (R66). -/
  | swapBanks (handed : Option Handed)
  /-- SET_DEFAULT_ACTION (R67). -/
  | setDefaultAction (handed : Option Handed)
  /-- WRITE_PROGRAMME (R109). -/
  | writeProgramme (handed : Option Handed)
  /-- CLEAR_PROGRAMME (R110). -/
  | clearProgramme (handed : Option Handed)
  /-- SET_FEED_POLICY (R47). -/
  | setFeedPolicy (handed : Option Handed)
  /-- SELECT_FEED (R48). -/
  | selectFeed (handed : Option Handed)
  /-- DEFINE_SEGMENT (R123). -/
  | defineSegment (handed : Option Handed)
  /-- RELEASE_SEGMENT (R124). -/
  | releaseSegment (handed : Option Handed)
  /-- START_FILL (R126). -/
  | startFill (handed : Option Handed)
  /-- SEAL_FILL (R130). -/
  | sealFill (handed : Option Handed)
  /-- ABORT_FILL (R131). -/
  | abortFill (handed : Option Handed)
  /-- SEGMENT_STATUS (R132). -/
  | segmentStatus (handed : Option Handed)
  /-- WRITE_PLAY_ENTRY (R137). -/
  | writePlayEntry (handed : Option Handed)
  /-- CONFIGURE_CONTEXT (R139). -/
  | configureContext (handed : Option Handed)
  /-- START_CONTEXT (R140). -/
  | startContext (handed : Option Handed)
  /-- STOP_CONTEXT (R141). -/
  | stopContext (handed : Option Handed)
  /-- WAKE_CONTEXT (R142). -/
  | wakeContext (handed : Option Handed)
  /-- CONTEXT_STATUS (R143). -/
  | contextStatus (handed : Option Handed)
  deriving DecidableEq, Repr

end Sys2Proof
end

