-- ==== Sys2Proof/Machine/State.lean ====
section
/-!
DEFINITION. State.lean: all the state the spec gives the SP4, block by block, as plain data, with the value each
piece has right after power-on. The reset tables are R29, R52, R68, R80, R105, R118, R134, R159 and R177.
-/

namespace Sys2Proof.Machine

/-- The part has no faults: a packet it cannot use is discarded, a command it cannot take is answered with a
status (R164). So this type has no constructor and no meaning ends in a fault. -/
inductive Fault where
  deriving DecidableEq, Repr

/-- Why a step has no meaning. -/
inductive Refusal where
  /-- Raised by Dispatch alone, for a row without a meaning (safe: the model stops where the part goes on).
  No row is left without one. -/
  | notModelled (mnemonic : String)
  deriving DecidableEq, Repr

/-! ### Packets and cells -/

/-- A carriage packet with a good lead: the header fields of R1 and the 156 payload bytes. -/
structure Packet where
  label   : Label
  c       : Bool
  d       : Bool
  seq     : BitVec 6
  cls     : BitVec 4
  payload : List Byte
  deriving DecidableEq, Repr

/-- The status codes of a reply, in the order of their codes (R8). -/
inductive Status where
  | ok
  | notGranted
  | badCommand
  | range
  | busy
  | state
  | overlap
  | duplicate
  | labelConflict
  | notReady
  | holdTimeout
  | holdAbandoned
  deriving DecidableEq, Repr

/-- A result unit: absent, or a value (R7). -/
abbrev ResultUnit := Option Sample

/-- A report cell before it is given its sequence (R8). -/
inductive Report where
  /-- A reply: originator, tag and code as they stood in the cell, the status and the result units. -/
  | reply (originator : Byte) (tag : BitVec 16) (code : Byte) (status : Status) (units : List ResultUnit)
  /-- An event report: the flags newly set, and the site time at which the cell was made. -/
  | event (flags : FlagSet) (seconds : BitVec 32) (tick : Nat)
  deriving DecidableEq, Repr

/-! ### Site Clock (section 2.1) -/

/-- The clock states (section 2.2). -/
inductive ClockMode where
  | free
  | locked
  | holdover
  | expired
  deriving DecidableEq, Repr

/-- The eight counters of R30. -/
structure ClockCounters where
  steps            : Count := 0
  outlierEdges     : Count := 0
  forcedSteps      : Count := 0
  secondsSet       : Count := 0
  unusedEdges      : Count := 0
  ref10Losses      : Count := 0
  pulseTimeouts    : Count := 0
  holdoverExpiries : Count := 0
  deriving DecidableEq, Repr

/-- The Site Clock; the defaults are the power-on values of R29. `absentTicks` is the monitor's count of ticks, while REF10 is
ABSENT, since it became so or since the last gap in its cycles, held at the 20,000 that R16 asks for, and 0 while it is
PRESENT (log entry 22). -/
structure SiteClock where
  seconds         : BitVec 32 := 0
  tick            : Nat := 0
  mode            : ClockMode := .free
  stepLimit       : Nat := 20
  holdoverExp     : Nat := 6
  holdoverSeconds : Nat := 0
  outliers        : Nat := 0
  pendingSeconds  : Option (BitVec 32) := none
  ref10           : Bool := false
  absentTicks     : Nat := 0
  pulseWatch      : Option Nat := none
  counters        : ClockCounters := {}
  deriving DecidableEq, Repr

/-! ### Feed Intake Unit (chapter 3) -/

/-- A port's alignment state, in the order of R173. -/
inductive Alignment where
  | down
  | seeking
  | up
  deriving DecidableEq, Repr

/-- The alignment of one port (section 3.1). `assembly` holds the bytes of the packet in assembly in the order
of arrival, empty for none. `search` holds the bytes the search has examined, newest first, as far back as it
compares (R32). -/
structure PortState where
  alignment  : Alignment := .down
  wrongLeads : Nat := 0
  lossTimer  : Option Nat := none
  assembly   : List Byte := []
  search     : List Byte := []
  wrongLeadCount  : Count := 0
  alignmentLosses : Count := 0
  deriving DecidableEq, Repr

/-- An entry of a continuity table (R36, R128). -/
structure Continuity where
  last : BitVec 6 := 0
  seen : Bool := false
  deriving DecidableEq, Repr

/-- What the unit keeps for one feed beside its port (R36, R37, R38, R53). -/
structure FeedState where
  continuity       : Table Continuity := []
  erroredMark      : Bool := false
  upThroughout     : Bool := false
  erroredRun       : Nat := 0
  cleanRun         : Nat := 0
  currentFrame     : Option FrameNo := none
  continuityErrors : Count := 0
  erroredSeconds   : Count := 0
  discards         : Count := 0
  deriving DecidableEq, Repr

/-- The selection states, `active x` and `handoverTo x` for x one of the feeds (section 3.4). -/
inductive Selection where
  | active (feed : Feed)
  | handoverTo (feed : Feed)
  | noFeed
  deriving DecidableEq, Repr

/-- The old phase of a handover record (section 3.4). -/
inductive OldPhase where
  | running
  | stopped
  deriving DecidableEq, Repr

/-- The target of a handover record (section 3.4). -/
inductive Target where
  | absent
  | frame (number : FrameNo)
  | any
  deriving DecidableEq, Repr

/-- The handover record (section 3.4); the defaults are the cleared record. -/
structure Handover where
  oldFeed : Option Feed := none
  phase   : OldPhase := .stopped
  target  : Target := .absent
  deriving DecidableEq, Repr

/-- The switching modes, in the order of R47. -/
inductive SwitchMode where
  | auto
  | manual
  deriving DecidableEq, Repr

/-- The Feed Intake Unit; the defaults are the reset values of R52. -/
structure FeedIntake where
  portA : PortState := {}
  portB : PortState := {}
  portL : PortState := {}
  feedA : FeedState := {}
  feedB : FeedState := {}
  selection : Selection := .noFeed
  handover  : Handover := {}
  mode      : SwitchMode := .auto
  threshold : Nat := 3
  lossExp   : Nat := 5
  seekingTimeouts     : Count := 0
  reservedDiscards    : Count := 0
  localTimingDiscards : Count := 0
  localCueDiscards    : Count := 0
  feedSwitches        : Count := 0
  handoverReversals   : Count := 0
  deriving DecidableEq, Repr

/-! ### Route Decoder (chapter 4) -/

/-- A route entry (R54); the defaults are an entry that is not valid after a reset (R68).
Bit 4 of the output set is M. -/
structure Route where
  valid     : Bool := false
  input     : Source := .feed
  value     : Label := 0
  mask      : BitVec 12 := 0
  exclude   : BitVec 16 := 0
  outputs   : BitVec 5 := 0
  rewrite   : Option Label := none
  programme : Option Nat := none
  deriving DecidableEq, Repr

/-- The start-up route of R68. -/
def startUpRoute : Route := { valid := true, mask := 0xFFF, outputs := 0x0F }

/-- The default actions, in the order of R67. -/
inductive DefaultAction where
  | drop
  | monitor
  deriving DecidableEq, Repr

/-- The eleven counters of R69. -/
structure RouteCounters where
  feedDecoded          : Count := 0
  localDecoded         : Count := 0
  noMatch              : Count := 0
  conflicts            : Count := 0
  defaultDrops         : Count := 0
  defaultMonitorCopies : Count := 0
  emptyRouteDiscards   : Count := 0
  plainCopies          : Count := 0
  programmeCopies      : Count := 0
  routeMonitorCopies   : Count := 0
  unboundProgrammes    : Count := 0
  deriving DecidableEq, Repr

/-- The Route Decoder; the defaults are the reset values of R68. `active` is the active bank indicator, false
for bank 0. The two decodes in progress are none between steps (log entry 10). -/
structure RouteDecoder where
  bank0 : Table Route := [(0, startUpRoute)]
  bank1 : Table Route := []
  active : Bool := false
  defaultAction : DefaultAction := .drop
  feedDecode  : Option Packet := none
  localDecode : Option Packet := none
  counters : RouteCounters := {}
  deriving DecidableEq, Repr

/-! ### Packet Pool (chapter 5) -/

/-- A buffer: its reference count and its packet. A buffer of count 0 is in the free list and its contents are
of no further use (R70). -/
structure Buffer where
  refs     : Nat := 0
  contents : Option Packet := none
  deriving DecidableEq, Repr

/-- What the monitor port is sending (R78, R79). -/
structure Sending where
  isCopy    : Bool
  packet    : Packet
  remaining : Nat
  deriving DecidableEq, Repr

/-- The counters of R81 but for those kept with their output. -/
structure PoolCounters where
  claimed               : Count := 0
  returned              : Count := 0
  emissionReleases      : Count := 0
  substitutionReleases  : Count := 0
  passedReleases        : Count := 0
  flushReleases         : Count := 0
  monitorReleases       : Count := 0
  refusedPackets        : Count := 0
  monitorFullDrops      : Count := 0
  monitorPoolRefusals   : Count := 0
  deriving DecidableEq, Repr

/-- The Packet Pool but for the delay queues and shares, which stand with their output; the defaults are the
reset values of R80. `buffers` lists the buffers that are not free. -/
structure Pool where
  buffers      : Table Buffer := []
  lowMark      : Nat := Config.poolBuffers
  monitorQueue : List Nat := []
  port         : Option Sending := none
  counters     : PoolCounters := {}
  deriving DecidableEq, Repr

/-- An entry of a delay queue (R73); `point` is none for UNFRAMED. -/
structure Entry where
  buffer    : Nat
  point     : Option Point
  programme : Option Nat
  label     : Label
  deriving DecidableEq, Repr

/-! ### Emission Schedulers (chapter 6) -/

/-- The sync states, in the order of R173. -/
inductive Sync where
  | freeRun
  | acquiring
  | locked
  | holdover
  | muted
  deriving DecidableEq, Repr

/-- The mute causes (section 6.1). -/
inductive MuteCause where
  | command
  | fallback
  deriving DecidableEq, Repr

/-- The fallbacks, in the order of R82. -/
inductive Fallback where
  | mute
  | freeRun
  deriving DecidableEq, Repr

/-- A frame record (section 6.1), but for its packets received, which the open intake frame keeps. Instants
are absolute times in ticks (R9). -/
structure FrameRecord where
  number   : FrameNo
  length   : Nat
  target   : Int
  release  : Int
  rate     : Nat
  interval : Nat
  rem      : Nat
  tooEarly : Bool
  deriving DecidableEq, Repr

/-- The open intake frame: its record and the slots given out in it (R85, R86). -/
structure OpenFrame where
  record   : FrameRecord
  received : Nat
  deriving DecidableEq, Repr

/-- A release grid (R87): the next slot start, the interval I, the remainder r, the rate and the phase p. -/
structure Grid where
  next     : Int
  interval : Nat
  rem      : Nat
  rate     : Nat
  phase    : Nat
  deriving DecidableEq, Repr

/-- The current frame: the record being emitted, its start S0, the number of its slots that have begun, its
displacement E, and whether it is late (section 6.1). -/
structure Current where
  record : FrameRecord
  start  : Int
  slot   : Nat
  displ  : Int
  late   : Bool
  deriving DecidableEq, Repr

/-- The slot in progress: the ticks to its own end, and whether it sends the head entry (R75, R89). -/
structure SlotInProgress where
  remaining : Nat
  sends     : Bool
  deriving DecidableEq, Repr

/-- The sixteen counters of R106, and the refusals of R81 units 8 to 15 for this output. -/
structure OutputCounters where
  timingTaken      : Count := 0
  badTiming        : Count := 0
  frameQueueFull   : Count := 0
  frameGaps        : Count := 0
  overflowCopies   : Count := 0
  mutedRefusals    : Count := 0
  framesStarted    : Count := 0
  reAnchors        : Count := 0
  acquisitions     : Count := 0
  lateFrames       : Count := 0
  recordsDiscarded : Count := 0
  underrunSlots    : Count := 0
  fillSlots        : Count := 0
  packetsEmitted   : Count := 0
  passedSlots      : Count := 0
  timeJumps        : Count := 0
  shareRefusals    : Count := 0
  poolRefusals     : Count := 0
  deriving DecidableEq, Repr

/-- The default rate after a reset (R105). -/
def resetRate : Nat := 24000000

/-- The free-running grid of a reset at absolute time 0 (R105, R87). -/
def resetGrid : Grid :=
  { next := 0, interval := Config.slotBitTicks / resetRate, rem := Config.slotBitTicks % resetRate,
    rate := resetRate, phase := 0 }

/-- One Emission Scheduler with its delay queue and share; the defaults are the reset values of R105 and R80,
but for the multiplex number. `waiting` marks the head of the frame queue as the waiting record. `line` is the
packet of the slot in progress, none while the line is idle. -/
structure Output where
  multiplex   : Fin 4 := 0
  offset      : Nat := 0
  tolerance   : Nat := 100
  lateLimit   : Nat := 4
  fallback    : Fallback := .mute
  defaultRate : Nat := resetRate
  share       : Nat := 65536
  sync        : Sync := .freeRun
  muteCause   : Option MuteCause := none
  openFrame   : Option OpenFrame := none
  previous    : Option FrameNo := none
  frameQueue  : List FrameRecord := []
  grid        : Option Grid := some resetGrid
  current     : Option Current := none
  lastBegun   : Option FrameNo := none
  lateCount   : Nat := 0
  waiting     : Bool := false
  position    : Option Point := none
  queue       : List Entry := []
  slot        : Option SlotInProgress := none
  line        : Option Packet := none
  counters    : OutputCounters := {}
  deriving DecidableEq, Repr

/-! ### Programme Table (chapter 7) -/

/-- A programme record (R107); the defaults are a record that is not valid. The tracker is (V, R_V). -/
structure Programme where
  valid         : Bool := false
  output        : Option (Fin 4) := none
  cueLabel      : Option Label := none
  owner         : Option (Fin 16) := none
  tracker       : Option (Sample × Int) := none
  discontinuity : Bool := false
  deriving DecidableEq, Repr

/-- The eight counters of R119. -/
structure ProgrammeCounters where
  programmeSamples     : Count := 0
  plainSamples         : Count := 0
  nonzeroDisplacements : Count := 0
  advertSamples        : Count := 0
  discontinuityMarks   : Count := 0
  spliceOffsets        : Count := 0
  staleSplices         : Count := 0
  absentA0Splices      : Count := 0
  deriving DecidableEq, Repr

/-- The Programme Table. -/
structure ProgrammeTable where
  records  : Table Programme := []
  counters : ProgrammeCounters := {}
  deriving DecidableEq, Repr

/-! ### Segment Store (chapter 8) -/

/-- The segment states, in the order of R132. -/
inductive SegmentState where
  | free
  | empty
  | filling
  | ready
  deriving DecidableEq, Repr

/-- A segment record (R121); the defaults are a FREE record. A FREE record holds no block range, and its block
count is 0. -/
structure Segment where
  state      : SegmentState := .free
  firstBlock : Nat := 0
  blocks     : Nat := 0
  packets    : Nat := 0
  a0         : Option Sample := none
  errors     : Nat := 0
  uses       : Nat := 0
  deriving DecidableEq, Repr

/-- What a FILLING store context holds: its segment, its label set and its continuity table (R122). -/
structure Fill where
  segment    : Nat
  labels     : List Label
  continuity : Table Continuity
  deriving DecidableEq, Repr

/-- The six counters of R135. -/
structure StoreCounters where
  packetsStored    : Count := 0
  continuityErrors : Count := 0
  completedFull    : Count := 0
  sealed           : Count := 0
  aborted          : Count := 0
  started          : Count := 0
  deriving DecidableEq, Repr

/-- The Segment Store. A store context is none while IDLE. `dram` lists the packet places of the store blocks
that have been written, place = block x 256 + position (R120). -/
structure SegmentStore where
  segments : Table Segment := []
  contexts : Vector (Option Fill) 2 := Vector.replicate 2 none
  dram     : Table (Option Packet) := []
  counters : StoreCounters := {}
  deriving DecidableEq, Repr

/-! ### Insertion Engine (chapter 9) -/

/-- A play entry (R136); the defaults are an unused entry (R159). `next` is none for END. -/
structure PlayEntry where
  segment : Option Nat := none
  repeats : Nat := 1
  next    : Option Nat := none
  deriving DecidableEq, Repr

/-- The states of an insertion context, in the order of R143. -/
inductive ContextState where
  | idle
  | armed
  | active
  | halted
  deriving DecidableEq, Repr

/-- The start modes, in the order of R139. -/
inductive StartMode where
  | cue
  | frame
  deriving DecidableEq, Repr

/-- The halt reasons, in the order of R143. -/
inductive HaltReason where
  | segmentNotReady
  | badLink
  | emptyEntry
  deriving DecidableEq, Repr

/-- A latched cue (section 9.2). -/
structure Cue where
  id       : BitVec 16
  point    : Point
  duration : Nat
  deriving DecidableEq, Repr

/-- A pending splice (section 9.2); its cue id is absent for a splice set by START CONTEXT in FRAME mode. -/
structure Splice where
  point    : Point
  duration : Nat
  id       : Option (BitVec 16)
  deriving DecidableEq, Repr

/-- A play position (section 9.2). -/
inductive Position where
  | absent
  | at_ (entry pass index : Nat)
  | atEnd (entry : Nat)
  deriving DecidableEq, Repr

/-- An insertion context (section 9.2); the defaults are the reset values of R159. -/
structure Context where
  state      : ContextState := .idle
  programme  : Nat := 0
  priority   : Nat := 0
  mode       : StartMode := .cue
  filter     : Option Byte := none
  lead       : Nat := 0
  labelMap   : List (Label × Label) := [(0, 0)]
  chainHead  : Nat := 0
  rearm      : Bool := false
  latch      : Option Cue := none
  splice     : Option Splice := none
  position   : Position := .absent
  countdown  : Nat := 0
  offset     : Sample := 0
  haltReason : Option HaltReason := none
  completed  : Count := 0
  substituted : Nat := 0
  endSlots    : Nat := 0
  otherSlots  : Nat := 0
  deriving DecidableEq, Repr

/-- The fifteen counters of R160. -/
structure EngineCounters where
  cuesTaken           : Count := 0
  badCues             : Count := 0
  cuesUnclaimed       : Count := 0
  latchOverwrites     : Count := 0
  pendingReplacements : Count := 0
  cancelsApplied      : Count := 0
  splicesMissed       : Count := 0
  activations         : Count := 0
  takeovers           : Count := 0
  breaksCompleted     : Count := 0
  breaksStopped       : Count := 0
  halts               : Count := 0
  substitutedSlots    : Count := 0
  endFillSlots        : Count := 0
  discardsAndSkips    : Count := 0
  deriving DecidableEq, Repr

/-- The Insertion Engine. -/
structure Engine where
  entries  : Table PlayEntry := []
  contexts : Vector Context 16 := Vector.replicate 16 {}
  counters : EngineCounters := {}
  deriving DecidableEq, Repr

/-! ### Management Unit (chapter 10) -/

/-- One group of the acceptance table; the defaults are the power-on values of R177. -/
structure Grant where
  originators : BitVec 64 := 0
  any         : Bool := true
  deriving DecidableEq, Repr

/-- The HOLD in force: its conditions, its timeout in ms and its elapsed ticks (R166, R167). -/
structure Hold where
  frame   : Option (Fin 4 × FrameNo)
  context : Option (Fin 16)
  store   : Option (Fin 2)
  seconds : Option (BitVec 32)
  timeout : Nat
  elapsed : Nat
  deriving DecidableEq, Repr

/-- The reset causes, in the order of R173. -/
inductive ResetCause where
  | powerOn
  | resetPin
  | siteReset
  deriving DecidableEq, Repr

/-- The counters of R177. -/
structure ManagementCounters where
  cellsFromFeed      : Count := 0
  cellsFromLocal     : Count := 0
  overflowDrops      : Count := 0
  repliesMade        : Count := 0
  acceptanceRefusals : Count := 0
  executionRefusals  : Count := 0
  eventReports       : Count := 0
  owedReports        : Count := 0
  holdTimeouts       : Count := 0
  holdsAbandoned     : Count := 0
  abandonDiscards    : Count := 0
  outputChanges      : Vector Count 4 := Vector.replicate 4 0
  deriving DecidableEq, Repr

/-- The Management Unit; the defaults are the power-on values of R177. -/
structure Management where
  grants       : Vector Grant 5 := Vector.replicate 5 {}
  controlQueue : List Cell := []
  executing    : Option Cell := none
  hold         : Option Hold := none
  reportQueue  : List Report := []
  abandonReply : Option Report := none
  flags        : FlagSet := 0
  enabled      : FlagSet := 0
  owed         : FlagSet := 0
  sequence     : BitVec 6 := 0
  resetCause   : ResetCause := .powerOn
  counters     : ManagementCounters := {}
  deriving DecidableEq, Repr

/-! ### The whole part -/

/-- The four Emission Schedulers after a reset: output k takes multiplex k (R105). -/
def resetOutputs : Vector Output 4 :=
  #v[{ multiplex := 0 }, { multiplex := 1 }, { multiplex := 2 }, { multiplex := 3 }]

/-- The state of the part, and the queue of commands that wait. -/
structure State where
  clock   : SiteClock
  feed    : FeedIntake
  route   : RouteDecoder
  pool    : Pool
  outs    : Vector Output 4
  progs   : ProgrammeTable
  store   : SegmentStore
  engine  : Engine
  mgmt    : Management
  pending : List Instr
  deriving DecidableEq, Repr

/-- The part right after power-on (R29, R52, R68, R80, R105, R118, R134, R159, R177). -/
def State.reset : State :=
  { clock := {}, feed := {}, route := {}, pool := {}, outs := resetOutputs, progs := {}, store := {},
    engine := {}, mgmt := {}, pending := [] }

end Sys2Proof.Machine
end

