-- ==== Sys2Proof/Decode.lean ====
section
/-!
DEFINITION. Decode.lean: the byte layouts of chapter 1 (carriage packets, clock samples, timing packets, cue
messages, control cells, report cells), and decodeTableWord, which the host asks for: spec/opcode_table.json gives
no row any bits, so no word spells a command.
-/

namespace Sys2Proof

open Sys2Proof.Machine

/-! ### Fields of several bytes, most significant byte first (R1) -/

/-- Byte `i` of a run of bytes. -/
def byteAt (l : List Byte) (i : Nat) : Byte := l.getD i 0

/-- The number in `n` bytes from byte `i`, most significant byte first. -/
def fieldAt (l : List Byte) (i : Nat) : Nat → Nat
  | 0 => 0
  | n + 1 => fieldAt l i n * 256 + (byteAt l (i + n)).toNat

/-- The `n` low bytes of a number, most significant byte first. -/
def fieldBytes : Nat → Nat → List Byte
  | 0, _ => []
  | n + 1, v => BitVec.ofNat 8 (v / 256 ^ n) :: fieldBytes n v

/-! ### The carriage packet (R1, R2, R3) -/

/-- The packet whose 160 bytes these are, the lead byte apart (R1). -/
def packetOfBytes (b : List Byte) : Packet :=
  { label := byteAt b 1 ++ (byteAt b 2).extractLsb' 4 4
    c := (byteAt b 2).getLsbD 3
    d := (byteAt b 2).getLsbD 2
    seq := (byteAt b 2).extractLsb' 0 2 ++ (byteAt b 3).extractLsb' 4 4
    cls := (byteAt b 3).extractLsb' 0 4
    payload := b.drop 4 }

/-- The bytes of a packet as they cross a port (R1). -/
def packetBytes (p : Packet) : List Byte :=
  Config.lead ::
  p.label.extractLsb' 4 8 ::
  (p.label.extractLsb' 0 4 ++ BitVec.ofBool p.c ++ BitVec.ofBool p.d ++ p.seq.extractLsb' 4 2) ::
  (p.seq.extractLsb' 0 4 ++ p.cls) ::
  p.payload

/-- The clock sample in payload bytes 0 to 4 (R2). -/
def clockSample (p : Packet) : Sample := BitVec.ofNat 40 (fieldAt p.payload 0 5)

/-- Write a clock sample into all five bytes (R2). -/
def withSample (p : Packet) (v : Sample) : Packet := { p with payload := fieldBytes 5 v.toNat ++ p.payload.drop 5 }

/-- A fill packet (R3). -/
def fillPacket : Packet :=
  { label := 4095, c := false, d := false, seq := 0, cls := 0, payload := List.replicate 156 0xFF#8 }

/-- The reserved labels of R6, R8 and R4, and the discarded ones of section 1.2. -/
def controlLabel : Label := 4088
def reportLabel : Label := 4089
def timingLabel : Label := 4090
def fillLabel : Label := 4095

/-- Labels 4089 and 4091 to 4094, which sorting discards and counts (R49, R50). -/
def isReserved (l : Label) : Bool := l == reportLabel || (decide (4091 ≤ l.toNat) && decide (l.toNat ≤ 4094))

/-- The number of traffic labels: 0 to 4087 (section 1.2). -/
def trafficLabels : Nat := 4088

/-! ### Timing packets (R4) -/

/-- The fields of a timing packet (R4). -/
structure TimingPacket where
  number    : FrameNo
  multiplex : Nat
  length    : Nat
  low8      : Nat
  tick      : Nat
  rate      : Nat
  deriving DecidableEq, Repr

/-- The timing packet in a packet's payload (R4). -/
def timingOf (p : Packet) : TimingPacket :=
  { number := BitVec.ofNat 16 (fieldAt p.payload 0 2)
    multiplex := fieldAt p.payload 2 1
    length := fieldAt p.payload 3 2
    low8 := fieldAt p.payload 5 1
    tick := fieldAt p.payload 6 4
    rate := fieldAt p.payload 10 4 }

/-! ### Cue messages (R5) -/

/-- A cue message that the engine does not ignore (R5). -/
inductive CueMessage where
  | out (avail : Byte) (cue : Cue)
  | cancel (avail : Byte) (id : BitVec 16)
  deriving DecidableEq, Repr

/-- The cue message in a packet's payload, none when R5 has the engine ignore it. -/
def cueOf (p : Packet) : Option CueMessage :=
  let id : BitVec 16 := BitVec.ofNat 16 (fieldAt p.payload 0 2)
  let kind := fieldAt p.payload 2 1
  let avail := byteAt p.payload 3
  let slot := fieldAt p.payload 6 2
  let duration := fieldAt p.payload 8 3
  if kind = 1 then
    if slot = 65535 ∨ duration = 0 then none
    else some (.out avail { id := id, point := (BitVec.ofNat 16 (fieldAt p.payload 4 2), slot), duration := duration })
  else if kind = 2 then some (.cancel avail id)
  else none

/-! ### Control cells (R6, R7) -/

/-- Parameter unit `k` of a control cell's payload (R7). -/
def unitOf (payload : List Byte) (k : Nat) : ParamUnit :=
  { presence := byteAt payload (4 + 6 * k), value := BitVec.ofNat 40 (fieldAt payload (5 + 6 * k) 5) }

/-- The control cell in a packet's payload (R6, R7). -/
def cellOf (p : Packet) : Cell :=
  { originator := byteAt p.payload 0
    tag := BitVec.ofNat 16 (fieldAt p.payload 1 2)
    code := byteAt p.payload 3
    units := (List.range 25).map (unitOf p.payload) }

/-- The five command groups, in the order of section 10.1, by their number. -/
abbrev Group := Fin 5

/-- The group of a command code, none for a code that is in no table (R6). -/
def groupOf (code : Byte) : Option Group :=
  let n := code.toNat
  if 0x01 ≤ n ∧ n ≤ 0x09 then some 0
  else if 0x10 ≤ n ∧ n ≤ 0x14 then some 1
  else if 0x20 ≤ n ∧ n ≤ 0x27 then some 2
  else if 0x30 ≤ n ∧ n ≤ 0x35 then some 3
  else if 0x40 ≤ n ∧ n ≤ 0x45 then some 4
  else none

/-- The row that takes a cell of this command code from the control queue (R6, R163). -/
def rowOfCode (code : Byte) : Instr :=
  match code.toNat with
  | 0x01 => .hold none
  | 0x03 => .setGrants none
  | 0x04 => .setEventEnable none
  | 0x05 => .ackEvents none
  | 0x06 => .status none
  | 0x07 => .readCounters none
  | 0x08 => .clearCounters none
  | 0x09 => .siteReset none
  | 0x10 => .setSeconds none
  | 0x11 => .setClockPolicy none
  | 0x12 => .setOutput none
  | 0x13 => .outputMute none
  | 0x14 => .outputRestart none
  | 0x20 => .writeRoute none
  | 0x21 => .copyBank none
  | 0x22 => .swapBanks none
  | 0x23 => .setDefaultAction none
  | 0x24 => .writeProgramme none
  | 0x25 => .clearProgramme none
  | 0x26 => .setFeedPolicy none
  | 0x27 => .selectFeed none
  | 0x30 => .defineSegment none
  | 0x31 => .releaseSegment none
  | 0x32 => .startFill none
  | 0x33 => .sealFill none
  | 0x34 => .abortFill none
  | 0x35 => .segmentStatus none
  | 0x40 => .writePlayEntry none
  | 0x41 => .configureContext none
  | 0x42 => .startContext none
  | 0x43 => .stopContext none
  | 0x44 => .wakeContext none
  | 0x45 => .contextStatus none
  | _ => .unknownCodeCell none

/-- The command code of ABANDON HOLD, whose cells do not enter the control queue (R161). -/
def abandonCode : Byte := 0x02

/-! ### Report cells (R3, R8) -/

/-- The code of a status (R8). -/
def statusCode : Status → Nat
  | .ok => 0
  | .notGranted => 1
  | .badCommand => 2
  | .range => 3
  | .busy => 4
  | .state => 5
  | .overlap => 6
  | .duplicate => 7
  | .labelConflict => 8
  | .notReady => 9
  | .holdTimeout => 10
  | .holdAbandoned => 11

/-- The six bytes of a result unit (R7). The value bytes of an absent unit are sent as 0. -/
def unitBytes : ResultUnit → List Byte
  | none => List.replicate 6 0
  | some v => 1#8 :: fieldBytes 5 v.toNat

/-- The payload of a report cell, padded with zeros to 156 bytes (R8). -/
def reportPayload (r : Report) : List Byte :=
  let head := match r with
    | .reply originator tag code status units =>
      [0#8, originator] ++ fieldBytes 2 tag.toNat ++ [code, BitVec.ofNat 8 (statusCode status)] ++ units.flatMap unitBytes
    | .event flags seconds tick =>
      [1#8, 255#8, 0, 0, 0, 0] ++ fieldBytes 2 flags.toNat ++ fieldBytes 4 seconds.toNat ++ fieldBytes 4 tick
  (head ++ List.replicate (156 - head.length) 0).take 156

/-- A report cell as a packet with its sequence (R3, R8). -/
def reportPacket (r : Report) (sequence : BitVec 6) : Packet :=
  { label := reportLabel, c := false, d := false, seq := sequence, cls := 0, payload := reportPayload r }

/-! ### The host's words -/

/-- The command that a word spells by the bits of spec/opcode_table.json. No row of the table gives bits: the
part's commands are cells, bytes and events, and none is spelled by a word. -/
def decodeTableWord (_nbits _w : Nat) : Option Instr := none

end Sys2Proof
end

