-- ==== Sys2Proof/Machine/Table.lean ====
section
/-!
DEFINITION. Table.lean: reading and writing a table of numbered records. A table lists, in strictly rising order
of number, only the records that differ from the record `d` that an unlisted number reads as, so that equal
contents are equal data.
-/

namespace Sys2Proof.Machine

/-- Record `k` of a table; an unlisted number reads as `d`. -/
def tableGet {α : Type} (d : α) : Table α → Nat → α
  | [], _ => d
  | (k', v) :: t, k => if k < k' then d else if k = k' then v else tableGet d t k

/-- Put record `k` at the head of a table of higher numbers, unless it is the record an unlisted number reads as. -/
def tableCons {α : Type} [DecidableEq α] (d : α) (k : Nat) (v : α) (t : Table α) : Table α :=
  if v = d then t else (k, v) :: t

/-- Write record `k` of a table. -/
def tablePut {α : Type} [DecidableEq α] (d : α) : Table α → Nat → α → Table α
  | [], k, v => tableCons d k v []
  | (k', v') :: t, k, v =>
    if k < k' then tableCons d k v ((k', v') :: t)
    else if k = k' then tableCons d k v t
    else (k', v') :: tablePut d t k v

/-- Apply `f` to every listed record, keeping the canonical form. -/
def tableMap {α : Type} [DecidableEq α] (d : α) (f : α → α) : Table α → Table α
  | [] => []
  | (k, v) :: t => tableCons d k (f v) (tableMap d f t)

/-- Every listed number is above `lo` (when given), the numbers rise strictly, and no listed record is `d`. -/
def tableWfFrom {α : Type} [DecidableEq α] (d : α) : Option Nat → Table α → Bool
  | _, [] => true
  | lo, (k, v) :: t => (match lo with | none => true | some l => decide (l < k)) && decide (v ≠ d) && tableWfFrom d (some k) t

/-- The canonical form of a table. -/
def tableWf {α : Type} [DecidableEq α] (d : α) (t : Table α) : Bool := tableWfFrom d none t

/-- The lowest number from `n` on that a canonical table does not list. -/
def tableGap {α : Type} : Table α → Nat → Nat
  | [], n => n
  | (k, _) :: t, n => if k = n then tableGap t (n + 1) else n

/-- How many listed records satisfy `p`. -/
def tableCount {α : Type} (p : α → Bool) (t : Table α) : Nat := (t.filter fun e => p e.2).length

end Sys2Proof.Machine
end

