-- ==== Sys2Proof/Machine/Ops.lean ====
section
/-!
DEFINITION. Ops.lean: the named operations over State that every block uses: replacing one block, reading and
writing numbered records, counting, absolute time, the comparisons of R10 and the port and feed records.
-/

namespace Sys2Proof.Machine

/-! ### One block at a time -/

/-- Replace the Site Clock. -/
def mapClock (f : SiteClock → SiteClock) (s : State) : State := { s with clock := f s.clock }
/-- Replace the Feed Intake Unit. -/
def mapFeed (f : FeedIntake → FeedIntake) (s : State) : State := { s with feed := f s.feed }
/-- Replace the Route Decoder. -/
def mapRoute (f : RouteDecoder → RouteDecoder) (s : State) : State := { s with route := f s.route }
/-- Replace the Packet Pool. -/
def mapPool (f : Pool → Pool) (s : State) : State := { s with pool := f s.pool }
/-- Replace output `k`. -/
def mapOut (k : Fin 4) (f : Output → Output) (s : State) : State := { s with outs := s.outs.set k (f s.outs[k]) }
/-- Replace the Programme Table. -/
def mapProgs (f : ProgrammeTable → ProgrammeTable) (s : State) : State := { s with progs := f s.progs }
/-- Replace the Segment Store. -/
def mapStore (f : SegmentStore → SegmentStore) (s : State) : State := { s with store := f s.store }
/-- Replace the Insertion Engine. -/
def mapEngine (f : Engine → Engine) (s : State) : State := { s with engine := f s.engine }
/-- Replace the Management Unit. -/
def mapMgmt (f : Management → Management) (s : State) : State := { s with mgmt := f s.mgmt }

/-! ### Counting -/

/-- A counted event adds one, and a counter that is full keeps its value (R12). -/
def bump (c : Count) : Count := if c = BitVec.allOnes 32 then c else c + 1

/-- `n` counted events (R12). -/
def bumpBy (c : Count) (n : Nat) : Count := BitVec.ofNat 32 (min (c.toNat + n) 0xFFFFFFFF)

/-- A 16-bit count held at 65,535 (R37, R121). -/
def hold16 (n : Nat) : Nat := min (n + 1) 65535

/-! ### Numbered records -/

/-- Programme record `p`. -/
def programme (s : State) (p : Nat) : Programme := tableGet {} s.progs.records p

/-- Replace programme record `p`. -/
def mapProgramme (p : Nat) (f : Programme → Programme) (s : State) : State :=
  mapProgs (fun t => { t with records := tablePut {} t.records p (f (tableGet {} t.records p)) }) s

/-- Segment record `g`. -/
def segment (s : State) (g : Nat) : Segment := tableGet {} s.store.segments g

/-- Replace segment record `g`. -/
def mapSegment (g : Nat) (f : Segment → Segment) (s : State) : State :=
  mapStore (fun t => { t with segments := tablePut {} t.segments g (f (tableGet {} t.segments g)) }) s

/-- Play entry `e`. -/
def playEntry (s : State) (e : Nat) : PlayEntry := tableGet {} s.engine.entries e

/-- Insertion context `c`. -/
def context (s : State) (c : Fin 16) : Context := s.engine.contexts[c]

/-- Replace insertion context `c`. -/
def mapContext (c : Fin 16) (f : Context → Context) (s : State) : State :=
  mapEngine (fun e => { e with contexts := e.contexts.set c (f e.contexts[c]) }) s

/-- Change the Insertion Engine's counters. -/
def countEngine (f : EngineCounters → EngineCounters) (s : State) : State :=
  mapEngine (fun e => { e with counters := f e.counters }) s

/-- Change output `k`'s counters. -/
def countOut (k : Fin 4) (f : OutputCounters → OutputCounters) (s : State) : State :=
  mapOut k (fun o => { o with counters := f o.counters }) s

/-- Change the Packet Pool's counters. -/
def countPool (f : PoolCounters → PoolCounters) (s : State) : State :=
  mapPool (fun p => { p with counters := f p.counters }) s

/-- Change the Programme Table's counters. -/
def countProgs (f : ProgrammeCounters → ProgrammeCounters) (s : State) : State :=
  mapProgs (fun p => { p with counters := f p.counters }) s

/-- Change the Route Decoder's counters. -/
def countRoute (f : RouteCounters → RouteCounters) (s : State) : State :=
  mapRoute (fun r => { r with counters := f r.counters }) s

/-- Change the Segment Store's counters. -/
def countStore (f : StoreCounters → StoreCounters) (s : State) : State :=
  mapStore (fun r => { r with counters := f r.counters }) s

/-- Change the Management Unit's counters. -/
def countMgmt (f : ManagementCounters → ManagementCounters) (s : State) : State :=
  mapMgmt (fun m => { m with counters := f m.counters }) s

/-- Change the Site Clock's counters. -/
def countClock (f : ClockCounters → ClockCounters) (s : State) : State :=
  mapClock (fun c => { c with counters := f c.counters }) s

/-- The four outputs in order. -/
def allOutputs : List (Fin 4) := [0, 1, 2, 3]

/-- The sixteen contexts in order. -/
def allContexts : List (Fin 16) := [0, 1, 2, 3, 4, 5, 6, 7, 8, 9, 10, 11, 12, 13, 14, 15]

/-- Do `f` for each member of a list, in order. -/
def forAll {α : Type} (l : List α) (f : α → State → State) (s : State) : State := l.foldl (fun s a => f a s) s

/-! ### Ports and feeds -/

/-- The other feed. -/
def otherFeed : Feed → Feed
  | .a => .b
  | .b => .a

/-- The port of a feed. -/
def feedPort : Feed → Port
  | .a => .a
  | .b => .b

/-- The alignment of a port. -/
def portState (u : FeedIntake) : Port → PortState
  | .a => u.portA
  | .b => u.portB
  | .l => u.portL

/-- Replace the alignment of a port. -/
def setPort (p : Port) (x : PortState) (u : FeedIntake) : FeedIntake :=
  match p with
  | .a => { u with portA := x }
  | .b => { u with portB := x }
  | .l => { u with portL := x }

/-- Change the alignment of a port. -/
def mapPort (p : Port) (f : PortState → PortState) (s : State) : State :=
  mapFeed (fun u => setPort p (f (portState u p)) u) s

/-- What the unit keeps for a feed. -/
def feedState (u : FeedIntake) : Feed → FeedState
  | .a => u.feedA
  | .b => u.feedB

/-- Replace what the unit keeps for a feed. -/
def setFeedState (x : Feed) (v : FeedState) (u : FeedIntake) : FeedIntake :=
  match x with
  | .a => { u with feedA := v }
  | .b => { u with feedB := v }

/-- Change what the unit keeps for a feed. -/
def mapFeedState (x : Feed) (f : FeedState → FeedState) (s : State) : State :=
  mapFeed (fun u => setFeedState x (f (feedState u x)) u) s

/-- A feed is UP (R31). -/
def feedUp (s : State) (x : Feed) : Bool := (portState s.feed (feedPort x)).alignment == .up

/-! ### Time (R9, R28) -/

/-- Absolute site time of a second and a tick: seconds x 20,000,000 + tick (R9). -/
def absolute (seconds : Int) (tick : Nat) : Int := seconds * (Config.ticksPerSecond : Int) + (tick : Int)

/-- Now, in absolute site time (R9). -/
def now (s : State) : Int := absolute (s.clock.seconds.toNat : Int) s.clock.tick

/-- Second resolution: the integer s with s = low8 (mod 256) and nowsec - 128 <= s <= nowsec + 127 (R28). -/
def resolveSecond (nowsec low8 : Nat) : Int :=
  ((nowsec : Int) - 128) + (((low8 : Int) - ((nowsec : Int) - 128)) % 256)

/-! ### Comparison of frame numbers and points (R10) -/

/-- Frame number `a` is at or after `b`. -/
def frameAtOrAfter (a b : FrameNo) : Bool := decide ((a - b).toNat ≤ 32767)

/-- Frame number `a` is after `b`. -/
def frameAfter (a b : FrameNo) : Bool := frameAtOrAfter a b && decide (a ≠ b)

/-- Point `x` is at or after point `y`. -/
def pointAtOrAfter (x y : Point) : Bool := frameAfter x.1 y.1 || (decide (x.1 = y.1) && decide (y.2 ≤ x.2))

/-- Point `x` is before point `y`. -/
def pointBefore (x y : Point) : Bool := !pointAtOrAfter x y

/-! ### Clock samples (R11) -/

/-- Add a signed number of ticks to a clock sample, modulo 2^40. -/
def sampleAdd (v : Sample) (d : Int) : Sample := v + BitVec.ofInt 40 d

/-- A number as the value of a result unit. -/
def natUnit (n : Nat) : ResultUnit := some (BitVec.ofNat 40 n)

/-- A truth value as the value of a result unit: 0 or 1. -/
def boolUnit (b : Bool) : ResultUnit := natUnit (if b then 1 else 0)

/-- A counter as the value of a result unit. -/
def countUnit (c : Count) : ResultUnit := natUnit c.toNat

end Sys2Proof.Machine
end

