-- ==== Sys2Proof/Machine/Flags.lean ====
section
/-!
DEFINITION. Flags.lean: the event flags (R169), the places of the report queue (R165), the monitor port's choice
(R78, R79) and the replies of the Management Unit (R164).
-/

namespace Sys2Proof.Machine

/-- The event flags, in the order of their positions (R8). -/
inductive Flag where
  | feedADown
  | feedBDown
  | feedSwitch
  | noFeed
  | refLost
  | holdoverExpired
  | outputState
  | lateFrame
  | poolExhausted
  | controlOverflow
  | contextHalted
  | breakEnd
  | cueMissed
  | segmentFull
  | routeConflict
  | ppsOutlier
  deriving DecidableEq, Repr

/-- The position of a flag in every set of flags (R8). -/
def flagPosition : Flag → Nat
  | .feedADown => 0
  | .feedBDown => 1
  | .feedSwitch => 2
  | .noFeed => 3
  | .refLost => 4
  | .holdoverExpired => 5
  | .outputState => 6
  | .lateFrame => 7
  | .poolExhausted => 8
  | .controlOverflow => 9
  | .contextHalted => 10
  | .breakEnd => 11
  | .cueMissed => 12
  | .segmentFull => 13
  | .routeConflict => 14
  | .ppsOutlier => 15

/-- The set that holds one flag (R7). -/
def flagBit (f : Flag) : FlagSet := BitVec.twoPow 16 (flagPosition f)

/-- A flag is in a set. -/
def hasFlag (x : FlagSet) (f : Flag) : Bool := x.getLsbD (flagPosition f)

/-! ### The places of the report queue (R165) -/

/-- The command in execution holds one place for its reply (R162). -/
def heldPlaces (m : Management) : Nat := if m.executing.isSome then 1 else 0

/-- A place is free when the cells and the held places together number fewer than 32 (R165). -/
def placeFree (m : Management) : Bool := decide (m.reportQueue.length + heldPlaces m < Config.reportRoom)

/-- Place a report cell at the tail of the report queue. -/
def appendReport (r : Report) (s : State) : State := mapMgmt (fun m => { m with reportQueue := m.reportQueue ++ [r] }) s

/-- The event report that carries the flags `x`, made now (R8, R169). -/
def eventReport (x : FlagSet) (s : State) : Report := .event x s.clock.seconds s.clock.tick

/-- Give a free place to the reply that waits in the abandon reply place (R165). -/
def placeAbandonReply (s : State) : State :=
  match s.mgmt.abandonReply with
  | none => s
  | some r =>
    if placeFree s.mgmt then
      appendReport r (mapMgmt (fun m => { m with
        abandonReply := none
        counters := { m.counters with repliesMade := bump m.counters.repliesMade } }) s)
    else s

/-- Give a free place to one event report of all the owed flags (R165, R169). -/
def placeOwedReport (s : State) : State :=
  if s.mgmt.owed ≠ 0 ∧ placeFree s.mgmt = true then
    appendReport (eventReport s.mgmt.owed s) (mapMgmt (fun m => { m with
      owed := 0
      counters := { m.counters with
        eventReports := bump m.counters.eventReports
        owedReports := bump m.counters.owedReports } }) s)
  else s

/-- The arbiter of the report queue's places: first the abandon reply place, then the owed flags (R165). The third
in its order, the taking of the next command, is a step of its own. -/
def givePlaces (s : State) : State := placeOwedReport (placeAbandonReply s)

/-! ### The monitor port (R78, R79) -/

/-- Begin to send the oldest report cell: it leaves the queue, takes the report sequence count, and the count
advances (R79, R3). -/
def sendReport (r : Report) (rest : List Report) (s : State) : State :=
  mapPool (fun p => { p with port := some {
      isCopy := false, packet := reportPacket r s.mgmt.sequence, remaining := Config.monitorTicks } })
    (mapMgmt (fun m => { m with reportQueue := rest, sequence := m.sequence + 1 }) s)

/-- Begin to send the head monitor entry's packet as it arrived; the entry stays at the head (R77, R79). -/
def sendCopy (b : Nat) (s : State) : State :=
  mapPool (fun p => { p with port := some {
      isCopy := true, packet := ((tableGet {} p.buffers b).contents).getD fillPacket,
      remaining := Config.monitorTicks } }) s

/-- The monitor port's arbiter: an idle port sends the oldest report cell, else the head monitor entry (R78). The
place that a report cell leaves is given on at once (R165). -/
def choosePort (s : State) : State :=
  if s.pool.port.isSome then s
  else
    match s.mgmt.reportQueue with
    | r :: rest => givePlaces (sendReport r rest s)
    | [] =>
      match s.pool.monitorQueue with
      | b :: _ => sendCopy b s
      | [] => s

/-- Place a report cell in a free or held place; an idle monitor port begins to send it (R165, R78). -/
def placeReport (r : Report) (s : State) : State := choosePort (appendReport r s)

/-! ### Event flags (R169) -/

/-- Set an event flag. A flag that goes from clear to set and is enabled makes one event report, or becomes
owed when no place is free (R169). -/
def setFlag (f : Flag) (s : State) : State :=
  if hasFlag s.mgmt.flags f then s
  else
    let s1 := mapMgmt (fun m => { m with flags := m.flags ||| flagBit f }) s
    if hasFlag s.mgmt.enabled f then
      if placeFree s.mgmt then
        placeReport (eventReport (flagBit f) s1)
          (countMgmt (fun c => { c with eventReports := bump c.eventReports }) s1)
      else mapMgmt (fun m => { m with owed := m.owed ||| flagBit f }) s1
    else s1

/-! ### Replies (R8, R164) -/

/-- The reply to a cell (R8). -/
def replyTo (c : Cell) (status : Status) (units : List ResultUnit) : Report :=
  .reply c.originator c.tag c.code status units

/-- The execution of the command in execution ends: its reply is placed in its held place (R164). -/
def endCommand (status : Status) (units : List ResultUnit) (s : State) : State :=
  match s.mgmt.executing with
  | none => s
  | some c =>
    placeReport (replyTo c status units)
      (mapMgmt (fun m => { m with
        executing := none
        counters := { m.counters with repliesMade := bump m.counters.repliesMade } }) s)

/-! ### The HOLD in force (R166, R167) -/

/-- The output condition of a HOLD: the last frame begun is present and at or after the frame. -/
def holdFrameTrue (h : Hold) (s : State) : Bool :=
  match h.frame with
  | none => true
  | some (k, n) =>
    match s.outs[k].lastBegun with
    | none => false
    | some b => frameAtOrAfter b n

/-- The context condition of a HOLD: the context is IDLE or HALTED. -/
def holdContextTrue (h : Hold) (s : State) : Bool :=
  match h.context with
  | none => true
  | some c => (context s c).state == .idle || (context s c).state == .halted

/-- The store condition of a HOLD: the store context is IDLE. -/
def holdStoreTrue (h : Hold) (s : State) : Bool :=
  match h.store with
  | none => true
  | some i => s.store.contexts[i].isNone

/-- The seconds condition of a HOLD: site seconds are v or more. -/
def holdSecondsTrue (h : Hold) (s : State) : Bool :=
  match h.seconds with
  | none => true
  | some v => decide (v.toNat ≤ s.clock.seconds.toNat)

/-- A HOLD is satisfied when every condition it names is true at once (R166). -/
def holdSatisfied (h : Hold) (s : State) : Bool :=
  holdFrameTrue h s && holdContextTrue h s && holdStoreTrue h s && holdSecondsTrue h s

/-- The named conditions that are true: bit 0 the output, 1 the context, 2 the store context, 3 the seconds (R167). -/
def holdTrueSet (h : Hold) (s : State) : Nat :=
  (if h.frame.isSome && holdFrameTrue h s then 1 else 0) + (if h.context.isSome && holdContextTrue h s then 2 else 0)
    + (if h.store.isSome && holdStoreTrue h s then 4 else 0) + (if h.seconds.isSome && holdSecondsTrue h s then 8 else 0)

/-- The three result units of a HOLD's reply (R167). -/
def holdUnits (h : Hold) (s : State) : List ResultUnit :=
  [h.seconds.map (fun v => BitVec.ofNat 40 v.toNat), natUnit h.timeout, natUnit (holdTrueSet h s)]

/-- The HOLD in force ends with a status, and its reply is placed (R167). -/
def endHold (status : Status) (s : State) : State :=
  match s.mgmt.hold with
  | none => s
  | some h => endCommand status (holdUnits h s) (mapMgmt (fun m => { m with hold := none }) s)

/-- Test the HOLD in force: when it is satisfied, it ends OK (R166). -/
def testHold (s : State) : State :=
  match s.mgmt.hold with
  | none => s
  | some h => if holdSatisfied h s then endHold .ok s else s

end Sys2Proof.Machine
end

