-- ==== Sys2Proof/Machine/Pool.lean ====
section
/-!
DEFINITION. Pool.lean: buffers and the free list (R70), admission and the claim (R71, R72), and the ways an entry
leaves a delay queue (R75).
-/

namespace Sys2Proof.Machine

/-- Buffer `b`. -/
def buffer (s : State) (b : Nat) : Buffer := tableGet {} s.pool.buffers b

/-- The free list's length: every buffer whose count is 0 is in it (R70). -/
def freeBuffers (p : Pool) : Nat := Config.poolBuffers - p.buffers.length

/-- A removed entry releases its reference: the buffer's count falls by one and, at 0, the buffer joins the free
list and is counted as returned (R70, R75). -/
def releaseBuffer (b : Nat) (s : State) : State :=
  let x := buffer s b
  if x.refs = 0 then s
  else if x.refs = 1 then
    mapPool (fun p => { p with
      buffers := tablePut {} p.buffers b {}
      counters := { p.counters with returned := bump p.counters.returned } }) s
  else mapPool (fun p => { p with buffers := tablePut {} p.buffers b { x with refs := x.refs - 1 } }) s

/-- The kinds of removal from a delay queue (R75). -/
inductive Removal where
  | emission
  | substitution
  | passed
  | flush
  deriving DecidableEq, Repr

/-- Each kind of removal adds one to its own release counter (R75). -/
def countRemoval (kind : Removal) (c : PoolCounters) : PoolCounters :=
  match kind with
  | .emission => { c with emissionReleases := bump c.emissionReleases }
  | .substitution => { c with substitutionReleases := bump c.substitutionReleases }
  | .passed => { c with passedReleases := bump c.passedReleases }
  | .flush => { c with flushReleases := bump c.flushReleases }

/-- An entry that leaves a queue is counted and releases its buffer (R75). -/
def releaseEntry (kind : Removal) (e : Entry) (s : State) : State :=
  releaseBuffer e.buffer (countPool (countRemoval kind) s)

/-- Remove the head entry of output `k`'s delay queue (R75). -/
def removeHead (kind : Removal) (k : Fin 4) (s : State) : State :=
  match s.outs[k].queue with
  | [] => s
  | e :: rest => releaseEntry kind e (mapOut k (fun o => { o with queue := rest }) s)

/-- Remove head entries as passed for as long as they satisfy `p`; `l` is the queue (R89, R98). -/
def passHeads (k : Fin 4) (p : Entry → Bool) : List Entry → State → State
  | [], s => s
  | e :: rest, s => if p e then passHeads k p rest (removeHead .passed k s) else s

/-- Flush the entries `drop` of output `k`'s queue, in order, and keep `keep` (R75). -/
def flushQueue (k : Fin 4) (keep drop : List Entry) (s : State) : State :=
  mapOut k (fun o => { o with queue := keep }) (forAll drop (releaseEntry .flush) s)

/-- The entry whose packet the output is sending, as a list of at most one: it stays at the head of the delay
queue until its slot ends (R75, R89). -/
def sendingEntry (o : Output) : List Entry :=
  match o.slot with
  | some x => if x.sends then o.queue.take 1 else []
  | none => []

/-- The entries behind the one being sent. -/
def waitingEntries (o : Output) : List Entry := o.queue.drop (sendingEntry o).length

/-! ### Admission and the claim (R71, R72) -/

/-- A candidate copy: to an output, with the entry it would make there but for the buffer, or to M. -/
inductive Candidate where
  | output (k : Fin 4) (point : Option Point) (programme : Option Nat) (label : Label)
  | monitor
  deriving DecidableEq, Repr

/-- The room test of a candidate copy (R71). -/
def hasRoom (s : State) : Candidate → Bool
  | .output k _ _ _ => s.outs[k].sync != .muted && decide (s.outs[k].queue.length < s.outs[k].share)
  | .monitor => decide (s.pool.monitorQueue.length < Config.monitorRoom)

/-- A copy that finds no room is counted (R71). -/
def refuseForRoom (c : Candidate) (s : State) : State :=
  match c with
  | .output k _ _ _ =>
    if s.outs[k].sync = .muted then countOut k (fun x => { x with mutedRefusals := bump x.mutedRefusals }) s
    else countOut k (fun x => { x with shareRefusals := bump x.shareRefusals }) s
  | .monitor => countPool (fun x => { x with monitorFullDrops := bump x.monitorFullDrops }) s

/-- A copy refused for a full pool is counted (R72). -/
def refuseForPool (c : Candidate) (s : State) : State :=
  match c with
  | .output k _ _ _ => countOut k (fun x => { x with poolRefusals := bump x.poolRefusals }) s
  | .monitor => countPool (fun x => { x with monitorPoolRefusals := bump x.monitorPoolRefusals }) s

/-- Append the entry of an admitted copy to its queue (R73, R77). -/
def appendCopy (b : Nat) (c : Candidate) (s : State) : State :=
  match c with
  | .output k point programme label =>
    mapOut k (fun o => { o with queue := o.queue ++ [{ buffer := b, point, programme, label }] }) s
  | .monitor => mapPool (fun p => { p with monitorQueue := p.monitorQueue ++ [b] }) s

/-- The Packet Pool claims one buffer for the copies that have room. Which free buffer it takes cannot be seen
(R70); the model takes the lowest (log entry 7). An idle monitor port begins to send a copy at once (R78). -/
def claim (pkt : Packet) (admitted : List Candidate) (s : State) : State :=
  if freeBuffers s.pool = 0 then
    setFlag .poolExhausted
      (countPool (fun x => { x with refusedPackets := bump x.refusedPackets }) (forAll admitted refuseForPool s))
  else
    let b := tableGap s.pool.buffers 0
    let s1 := mapPool (fun p =>
      let buffers := tablePut {} p.buffers b { refs := admitted.length, contents := some pkt }
      { p with
        buffers := buffers
        lowMark := min p.lowMark (Config.poolBuffers - buffers.length)
        counters := { p.counters with claimed := bump p.counters.claimed } }) s
    choosePort (forAll admitted (appendCopy b) s1)

/-- Admission of a packet's candidate copies: each is tested for room, and one buffer is claimed when at least one
has room (R71, R72). -/
def admission (pkt : Packet) (candidates : List Candidate) (s : State) : State :=
  let admitted := candidates.filter (hasRoom s)
  let s1 := forAll (candidates.filter fun c => !hasRoom s c) refuseForRoom s
  if admitted.isEmpty then s1 else claim pkt admitted s1

end Sys2Proof.Machine
end

