-- ==== Sys2Proof/Machine/Programme.lean ====
section
/-!
DEFINITION. Programme.lean: the operations of the Programme Table: what an entry stands for (R108), changes of owner
(R114), and the restamping, tracker and discontinuity mark of an emitted packet (R111 to R115).
-/

namespace Sys2Proof.Machine

/-- The output that carries programme `p`, none when its record is not valid (R107). -/
def programmeOutput (s : State) (p : Nat) : Option (Fin 4) :=
  let r := programme s p
  if r.valid then r.output else none

/-- An entry that output `k` takes up stands for its programme when the record is valid and names that output (R108). -/
def standsFor (s : State) (k : Fin 4) (e : Entry) : Option Nat :=
  match e.programme with
  | none => none
  | some p => if programmeOutput s p = some k then some p else none

/-- How many programme records satisfy `q`. -/
def countProgrammes (q : Programme → Bool) (s : State) : Nat := tableCount q s.progs.records

/-- Make `c` the owner of programme `p`; every change of owner sets the discontinuity pending (R114). -/
def setOwner (p : Nat) (c : Option (Fin 16)) (s : State) : State :=
  mapProgramme p (fun r => { r with owner := c, discontinuity := true }) s

/-- Set the discontinuity pending of programme `p` (R114). -/
def markDiscontinuity (p : Nat) (s : State) : State := mapProgramme p (fun r => { r with discontinuity := true }) s

/-- The D bit of a clock-bearing packet that goes out for programme `p`: set when the discontinuity is pending,
else as it stands (R115). -/
def markedD (s : State) (p : Nat) (pkt : Packet) : Packet :=
  { pkt with d := pkt.d || (programme s p).discontinuity }

/-- A clock-bearing packet goes out for programme `p` in a slot that starts at `start`: it writes the tracker
(R113), and it clears a pending discontinuity, which is counted (R115). -/
def recordSample (p : Nat) (start : Int) (v : Sample) (s : State) : State :=
  let s1 := if (programme s p).discontinuity then
      countProgs (fun c => { c with discontinuityMarks := bump c.discontinuityMarks }) s
    else s
  mapProgramme p (fun r => { r with tracker := some (v, start), discontinuity := false }) s1

/-- The packet that goes out for an entry: the buffer's, with the entry's label (R74), its sample moved by `displ`
when it is clock-bearing (R111), and D where a mark is due (R115). -/
def entryPacket (s : State) (k : Fin 4) (displ : Int) (e : Entry) : Packet :=
  let pkt := { ((buffer s e.buffer).contents).getD fillPacket with label := e.label }
  if pkt.c then
    let out := withSample pkt (sampleAdd (clockSample pkt) displ)
    match standsFor s k e with
    | some p => markedD s p out
    | none => out
  else pkt

/-- The records that a sent entry changes: the samples counted, and the programme's tracker and mark (R111, R113,
R115, R119). -/
def recordEntry (k : Fin 4) (displ : Int) (start : Int) (e : Entry) (s : State) : State :=
  let pkt := ((buffer s e.buffer).contents).getD fillPacket
  if pkt.c then
    let s1 := if displ = 0 then s else
      countProgs (fun c => { c with nonzeroDisplacements := bump c.nonzeroDisplacements }) s
    match standsFor s k e with
    | some p =>
      recordSample p start (sampleAdd (clockSample pkt) displ)
        (countProgs (fun c => { c with programmeSamples := bump c.programmeSamples }) s1)
    | none => countProgs (fun c => { c with plainSamples := bump c.plainSamples }) s1
  else s

/-- The packet that a programme's owner substitutes: the stored packet with its output label, its sample moved by
the owner's splice offset when it is clock-bearing (R112), and D where a mark is due (R115). -/
def advertPacket (s : State) (p : Nat) (offset : Sample) (stored : Packet) (label : Label) : Packet :=
  let pkt := { stored with label := label }
  if pkt.c then markedD s p (withSample pkt (clockSample pkt + offset)) else pkt

/-- The records that a substituted packet changes (R112, R113, R115, R119). -/
def recordAdvert (p : Nat) (start : Int) (offset : Sample) (stored : Packet) (s : State) : State :=
  if stored.c then
    recordSample p start (clockSample stored + offset)
      (countProgs (fun c => { c with advertSamples := bump c.advertSamples }) s)
  else s

end Sys2Proof.Machine
end

