-- ==== Sys2Proof/Machine/Insertion.lean ====
section
/-!
DEFINITION. Insertion.lean: the operations of the Insertion Engine: play positions and use counts (R133, R150, R151),
halts, stops and break ends (R141, R153, R155), ownership (R149, R157), splices and cues (R144 to R147), activation
and the splice offset (R116, R117, R148), the decision of a programme slot (R152) and the countdown (R154).
-/

namespace Sys2Proof.Machine

/-! ### Stored packets -/

/-- The packet place of packet index `i` of segment `g` (R120). -/
def packetPlace (s : State) (g i : Nat) : Nat :=
  ((segment s g).firstBlock + i / Config.blockPackets) * Config.blockPackets + i % Config.blockPackets

/-- The packet at a place of the store blocks; a place that nothing has written holds what the memory holds (R134). -/
def dramPacket (s : State) (place : Nat) : Packet :=
  match tableGet none s.store.dram place with
  | some p => p
  | none => packetOfBytes ((List.range Config.packetBytes).map (Config.dramByte place))

/-- Packet `i` of segment `g` (R120). -/
def storedPacket (s : State) (g i : Nat) : Packet := dramPacket s (packetPlace s g i)

/-- The output label that a label map pairs with a stored label (R152). -/
def mapLabel (m : List (Label × Label)) (l : Label) : Option Label := (m.find? fun e => e.1 == l).map Prod.snd

/-! ### Positions and use counts (R133) -/

/-- The segment that a play position lies in (R136). -/
def positionSegment (s : State) : Position → Option Nat
  | .at_ e _ _ => (playEntry s e).segment
  | _ => none

/-- Give context `c` a position. The use counts change when the position goes to another segment (R133). -/
def setPosition (c : Fin 16) (pos : Position) (s : State) : State :=
  let old := positionSegment s (context s c).position
  let new := positionSegment s pos
  let s1 := if old = new then s else
    match old with
    | some g => mapSegment g (fun x => { x with uses := x.uses - 1 }) s
    | none => s
  let s2 := if old = new then s1 else
    match new with
    | some g => mapSegment g (fun x => { x with uses := x.uses + 1 }) s1
    | none => s1
  mapContext c (fun x => { x with position := pos }) s2

/-! ### The search for a playable packet (R150, R151) -/

/-- The check made on each entering of an entry: none when it passes (R151). -/
def entryCheck (s : State) (e : Nat) : Option HaltReason :=
  match (playEntry s e).segment with
  | none => some .emptyEntry
  | some g => if (segment s g).state = .ready then none else some .segmentNotReady

/-- Read up to `n` packets of segment `g` from index `i`: the first whose label the map holds, with its output
label and the index after it, and the skips so far (R150, step 1). -/
def scanPackets (s : State) (g : Nat) (m : List (Label × Label)) :
    Nat → Nat → Nat → Option (Packet × Label × Nat) × Nat
  | 0, _, skips => (none, skips)
  | n + 1, i, skips =>
    match mapLabel m (storedPacket s g i).label with
    | some l => (some (storedPacket s g i, l, i + 1), skips)
    | none => scanPackets s g m n (i + 1) (skips + 1)

/-- What the search of R150 ends with. -/
inductive SearchEnd where
  | found (packet : Packet) (label : Label) (entry pass index : Nat)
  | ended (entry : Nat)
  | failed (reason : HaltReason)
  deriving DecidableEq, Repr

/-- The entering that follows a complete pass `k` through entry `e`: the entry again, the next entry, or none at
END (R150, step 2). -/
def nextEntering (s : State) (e k : Nat) : Option (Nat × Nat) :=
  let x := playEntry s e
  if k < x.repeats then some (e, k + 1)
  else
    match x.next with
    | none => none
    | some e' => some (e', 1)

/-- Scan the rest of the pass that a position is in. -/
def scanPass (s : State) (m : List (Label × Label)) (e i skips : Nat) : Option (Packet × Label × Nat) × Nat :=
  match (playEntry s e).segment with
  | none => (none, skips)
  | some g => scanPackets s g m ((segment s g).packets - i) i skips

/-- The search from position (e, k, i), which may still enter `fuel` entries; one entering more fails with BAD_LINK
(R150, R151). Also answers the packets skipped. -/
def searchChain (s : State) (m : List (Label × Label)) : Nat → Nat → Nat → Nat → Nat → SearchEnd × Nat
  | 0, e, k, i, skips =>
    match scanPass s m e i skips with
    | (some (p, l, i'), n) => (.found p l e k i', n)
    | (none, n) =>
      match nextEntering s e k with
      | none => (.ended e, n)
      | some _ => (.failed .badLink, n)
  | fuel + 1, e, k, i, skips =>
    match scanPass s m e i skips with
    | (some (p, l, i'), n) => (.found p l e k i', n)
    | (none, n) =>
      match nextEntering s e k with
      | none => (.ended e, n)
      | some (e', k') =>
        match entryCheck s e' with
        | some r => (.failed r, n)
        | none => searchChain s m fuel e' k' 0 n

/-! ### Ownership (R149, R157) -/

/-- A context is ACTIVE on programme `p`. -/
def activeOn (s : State) (p : Nat) (c : Fin 16) : Bool :=
  (context s c).state == .active && (context s c).programme == p

/-- The context of highest priority of a list in rising order of number; of equal priorities, the lowest number. -/
def bestOf (s : State) (l : List (Fin 16)) : Option (Fin 16) :=
  l.foldl (fun best c =>
    match best with
    | none => some c
    | some b => if (context s b).priority < (context s c).priority then some c else some b) none

/-- Ownership of programme `p` passes to the best ACTIVE context on it, or to none (R157). -/
def passOwnership (p : Nat) (s : State) : State := setOwner p (bestOf s (allContexts.filter (activeOn s p))) s

/-- A context that has left ACTIVE gives up its programme if it owned it (R157). -/
def relinquish (c : Fin 16) (s : State) : State :=
  if (programme s (context s c).programme).owner = some c then passOwnership (context s c).programme s else s

/-! ### Halts and stops (R141, R153, R158) -/

/-- A context halts (R153). -/
def haltContext (c : Fin 16) (reason : HaltReason) (s : State) : State :=
  let s1 := mapContext c (fun x => { x with state := .halted, haltReason := some reason }) (setPosition c .absent s)
  relinquish c (setFlag .contextHalted (countEngine (fun n => { n with halts := bump n.halts }) s1))

/-- An ACTIVE context is stopped: IDLE at once, its position and latch removed (R141). Ownership passes after. -/
def leaveByStop (c : Fin 16) (s : State) : State :=
  countEngine (fun n => { n with breaksStopped := bump n.breaksStopped })
    (mapContext c (fun x => { x with state := .idle, latch := none }) (setPosition c .absent s))

/-- ACTIVE contexts are stopped together: all leave ACTIVE, then ownership passes (R141, R158). -/
def stopActive (l : List (Fin 16)) (s : State) : State := forAll l relinquish (forAll l leaveByStop s)

/-! ### Pending splices (R140, R145, R147, R155) -/

/-- A splice point is ahead of output `k`: the output is LOCKED or HOLDOVER and its emission position is absent or
before the point (R147). -/
def pointAhead (s : State) (k : Fin 4) (x : Point) : Bool :=
  (s.outs[k].sync == .locked || s.outs[k].sync == .holdover) &&
    match s.outs[k].position with
    | none => true
    | some y => pointBefore y x

/-- A splice point is ahead on the output of programme `p`. -/
def pointAheadOn (s : State) (p : Nat) (x : Point) : Bool :=
  match programmeOutput s p with
  | none => false
  | some k => pointAhead s k x

/-- CUE_MISSED is set and counted (R147). -/
def cueMissed (s : State) : State :=
  setFlag .cueMissed (countEngine (fun n => { n with splicesMissed := bump n.splicesMissed }) s)

/-- A context takes a splice: it becomes pending when its point is ahead, and is missed when it is not (R140, R145). -/
def offerSplice (c : Fin 16) (x : Splice) (s : State) : State :=
  if pointAheadOn s (context s c).programme x.point then mapContext c (fun y => { y with splice := some x }) s
  else cueMissed (mapContext c (fun y => { y with splice := none }) s)

/-- A context takes its latched cue, if any, out of the latch (R140, R155). -/
def takeLatch (c : Fin 16) (s : State) : State :=
  match (context s c).latch with
  | none => s
  | some q =>
    offerSplice c { point := q.point, duration := q.duration, id := some q.id }
      (mapContext c (fun y => { y with latch := none }) s)

/-- A pending splice is removed and missed (R147). -/
def dropSplice (c : Fin 16) (s : State) : State :=
  match (context s c).splice with
  | none => s
  | some _ => cueMissed (mapContext c (fun y => { y with splice := none }) s)

/-- The contexts on programmes that output `k` carries. -/
def contextsOn (s : State) (k : Fin 4) : List (Fin 16) :=
  allContexts.filter fun c => programmeOutput s (context s c).programme == some k

/-- Every pending splice of contexts on programmes that output `k` carries is removed (R147). -/
def dropSplices (k : Fin 4) (s : State) : State := forAll (contextsOn s k) dropSplice s

/-- A slot of a frame begins at point `x`: the pending splices before it are removed (R147). -/
def dropPassedSplices (k : Fin 4) (x : Point) (s : State) : State :=
  forAll ((contextsOn s k).filter fun c =>
    match (context s c).splice with
    | none => false
    | some y => pointBefore y.point x) dropSplice s

/-! ### Break ends (R155) -/

/-- A break's countdown stands at 0 and the context is still ACTIVE: its break end is due. -/
def breakEndDue (s : State) (c : Fin 16) : Bool := (context s c).state == .active && (context s c).countdown == 0

/-- A context leaves ACTIVE at its break's end: ARMED when it rearms, else IDLE (R155). -/
def leaveByEnd (c : Fin 16) (s : State) : State :=
  setFlag .breakEnd
    (countEngine (fun n => { n with breaksCompleted := bump n.breaksCompleted })
      (mapContext c (fun x => { x with
          completed := bump x.completed
          state := if x.mode = .cue ∧ x.rearm = true then .armed else .idle })
        (setPosition c .absent s)))

/-- A context that has rearmed takes its latched cue (R155). -/
def rearmLatch (c : Fin 16) (s : State) : State := if (context s c).state = .armed then takeLatch c s else s

/-- The breaks on output `k`'s programmes whose end is due end together; ownership passes once all of them have left
ACTIVE, and rearmed contexts take their latched cues (R155). -/
def endBreaks (k : Fin 4) (s : State) : State :=
  let due := (contextsOn s k).filter (breakEndDue s)
  forAll due rearmLatch (forAll due relinquish (forAll due leaveByEnd s))

/-! ### Activation (R116, R117, R148, R149) -/

/-- The first clock sample of the head segment, absent when the chain head entry cannot be played (R117). -/
def headA0 (s : State) (c : Fin 16) : Option Sample :=
  match (playEntry s (context s c).chainHead).segment with
  | none => none
  | some g => if (segment s g).state = .ready then (segment s g).a0 else none

/-- The programme clock estimate at the splice slot's start: the tracker run forward, when it is fresh (R116). -/
def clockEstimate (s : State) (p : Nat) (start : Int) : Option Sample :=
  match (programme s p).tracker with
  | none => none
  | some (v, at_) =>
    if 0 ≤ start - at_ ∧ start - at_ ≤ Config.trackerLife then some (sampleAdd v (start - at_)) else none

/-- The splice offset of context `c` is worked at the start of its splice slot (R116, R117). -/
def workOffset (start : Int) (c : Fin 16) (s : State) : State :=
  let x := context s c
  let s1 := countProgs (fun n => { n with spliceOffsets := bump n.spliceOffsets }) s
  match clockEstimate s x.programme start, headA0 s c with
  | some est, some a0 =>
    mapContext c (fun y => { y with offset := est + BitVec.ofNat 40 x.lead - a0 }) s1
  | some _, none =>
    mapContext c (fun y => { y with offset := 0 })
      (markDiscontinuity x.programme
        (countProgs (fun n => { n with absentA0Splices := bump n.absentA0Splices }) s1))
  | none, _ =>
    mapContext c (fun y => { y with offset := 0 })
      (markDiscontinuity x.programme
        (countProgs (fun n => { n with staleSplices := bump n.staleSplices }) s1))

/-- Step 1 of an activation (R148); the position is given at step 4. -/
def beginBreak (c : Fin 16) (s : State) : State :=
  countEngine (fun n => { n with activations := bump n.activations })
    (mapContext c (fun x => { x with
      state := .active
      countdown := match x.splice with | some y => y.duration | none => 0
      splice := none
      substituted := 0
      endSlots := 0
      otherSlots := 0 }) s)

/-- Ownership of programme `p` after the slot's activations `l` (R149, log entry 15). -/
def settleOwner (l : List (Fin 16)) (p : Nat) (s : State) : State :=
  match bestOf s (l.filter fun c => (context s c).programme == p), (programme s p).owner with
  | none, _ => s
  | some c, none => setOwner p (some c) s
  | some c, some o =>
    if (context s o).priority < (context s c).priority then
      setOwner p (some c) (countEngine (fun n => { n with takeovers := bump n.takeovers }) s)
    else s

/-- Step 4 of an activation: the chain head entry is checked, and the position lies in it or the context halts (R148). -/
def enterHead (c : Fin 16) (s : State) : State :=
  match entryCheck s (context s c).chainHead with
  | some r => haltContext c r s
  | none => setPosition c (.at_ (context s c).chainHead 1 0) s

/-- The contexts whose pending splice equals the point of the slot that begins on output `k` (R148). -/
def activating (s : State) (k : Fin 4) (x : Point) : List (Fin 16) :=
  (contextsOn s k).filter fun c =>
    (context s c).state == .armed && ((context s c).splice.map fun y => y.point) == some x

/-- The activations of the slot of output `k` that begins at point `x` and instant `start` (R148, R149). -/
def activate (k : Fin 4) (x : Point) (start : Int) (s : State) : State :=
  let l := activating s k x
  let programmes := (l.map fun c => (context s c).programme).eraseDups
  forAll l enterHead (forAll programmes (settleOwner l) (forAll l (workOffset start) (forAll l beginBreak s)))

/-! ### The decision of a programme slot (R152) -/

/-- What advancing a context comes to. -/
inductive Drawn where
  | packet (stored : Packet) (label : Label)
  | ended
  | halted
  deriving DecidableEq, Repr

/-- Advance an ACTIVE context once: find its next playable packet, reach END, or halt (R150). -/
def draw (c : Fin 16) (s : State) : Drawn × State :=
  match (context s c).position with
  | .absent => (.ended, s)
  | .atEnd _ => (.ended, s)
  | .at_ e k i =>
    let r := searchChain s (context s c).labelMap Config.searchEnterings e k i 0
    let s1 := countEngine (fun n => { n with discardsAndSkips := bumpBy n.discardsAndSkips r.2 }) s
    match r.1 with
    | .found p l e' k' i' => (.packet p l, setPosition c (.at_ e' k' i') s1)
    | .ended e' => (.ended, setPosition c (.atEnd e') s1)
    | .failed reason => (.halted, haltContext c reason s1)

/-- What a programme slot carries for its programme's owner: the owner's packet, or fill. -/
inductive OwnerSlot where
  | advert (offset : Sample) (stored : Packet) (label : Label)
  | fill
  deriving DecidableEq, Repr

/-- The owner is advanced; when it halts, ownership passes and the new owner is advanced for this slot. None when no
owner remains (R152). The first argument bounds the owners, of which there are at most sixteen. That a slot which a jump
passes is counted here like any other is the model's choice, log entry 42. -/
def drawOwner : Nat → Nat → State → Option OwnerSlot × State
  | 0, _, s => (none, s)
  | n + 1, p, s =>
    match (programme s p).owner with
    | none => (none, s)
    | some c =>
      match draw c s with
      | (.packet stored label, s1) =>
        (some (.advert (context s1 c).offset stored label),
          countEngine (fun m => { m with substitutedSlots := bump m.substitutedSlots })
            (mapContext c (fun x => { x with substituted := x.substituted + 1 }) s1))
      | (.ended, s1) =>
        (some .fill,
          countEngine (fun m => { m with endFillSlots := bump m.endFillSlots })
            (mapContext c (fun x => { x with endSlots := x.endSlots + 1 }) s1))
      | (.halted, s1) => drawOwner n p s1

/-- A shadowed context is advanced once: its packet is discarded (R152). -/
def drawShadow (c : Fin 16) (s : State) : State :=
  match draw c s with
  | (.packet _ _, s1) =>
    countEngine (fun m => { m with discardsAndSkips := bump m.discardsAndSkips })
      (mapContext c (fun x => { x with substituted := x.substituted + 1 }) s1)
  | (.ended, s1) => mapContext c (fun x => { x with endSlots := x.endSlots + 1 }) s1
  | (.halted, s1) => s1

/-- The shadowed contexts on programme `p`. -/
def shadowsOn (s : State) (p : Nat) : List (Fin 16) :=
  allContexts.filter fun c => activeOn s p c && (programme s p).owner != some c

/-- The slot of a due programme copy is decided for the programme's contexts: the owner, then each shadowed one (R152). -/
def decideProgramme (p : Nat) (s : State) : Option OwnerSlot × State :=
  match drawOwner 17 p s with
  | (none, s1) => (none, s1)
  | (some x, s1) => (some x, forAll (shadowsOn s1 p) drawShadow s1)

/-! ### The countdown (R154, R156) -/

/-- One slot of its output is counted for an ACTIVE context; `due` is the programme whose copy was due in it (R154). -/
def countSlot (due : Option Nat) (c : Fin 16) (s : State) : State :=
  mapContext c (fun x => { x with
    countdown := x.countdown - 1
    otherSlots := if due = some x.programme then x.otherSlots else x.otherSlots + 1 }) s

/-- A slot that output `k` reports is counted for every ACTIVE context on its programmes (R154). -/
def countSlots (k : Fin 4) (due : Option Nat) (s : State) : State :=
  forAll ((contextsOn s k).filter fun c => (context s c).state == .active) (countSlot due) s

/-- Output `k` reports a slot whose contents have been decided: the countdowns fall, and the breaks that this brings to
their end are ended before the slot's decision is over (R154, R155, log entry 5). -/
def reportSlot (k : Fin 4) (due : Option Nat) (s : State) : State := endBreaks k (countSlots k due s)

/-! ### Cues (R144, R145, R146) -/

/-- A cue is offered to the contexts in CUE mode on its programme whose filter is ANY or its avail number (R144). -/
def offeredTo (s : State) (p : Nat) (avail : Byte) : List (Fin 16) :=
  allContexts.filter fun c =>
    let x := context s c
    x.mode == .cue && x.programme == p && (x.filter == none || x.filter == some avail)

/-- An OUT cue acts on a context it is offered to (R145). -/
def outCue (q : Cue) (c : Fin 16) (s : State) : State :=
  if (context s c).state = .armed then
    let ahead := pointAheadOn s (context s c).programme q.point
    let s1 := if (context s c).splice.isSome && ahead then
        countEngine (fun n => { n with pendingReplacements := bump n.pendingReplacements }) s
      else s
    offerSplice c { point := q.point, duration := q.duration, id := some q.id } s1
  else
    let s1 := if (context s c).latch.isSome then
        countEngine (fun n => { n with latchOverwrites := bump n.latchOverwrites }) s
      else s
    mapContext c (fun x => { x with latch := some q }) s1

/-- One splice or latched cue is removed by a CANCEL (R146). -/
def countCancel (s : State) : State := countEngine (fun n => { n with cancelsApplied := bump n.cancelsApplied }) s

/-- A CANCEL cue removes the pending splice and the latched cue that carry its id (R146). -/
def cancelCue (id : BitVec 16) (c : Fin 16) (s : State) : State :=
  let s1 := if ((context s c).splice.bind fun y => y.id) = some id then
      countCancel (mapContext c (fun x => { x with splice := none }) s)
    else s
  if ((context s1 c).latch.map fun y => y.id) = some id then
    countCancel (mapContext c (fun x => { x with latch := none }) s1)
  else s1

/-- A cue message for programme `p` (R5, R144). -/
def takeCue (p : Nat) (pkt : Packet) (s : State) : State :=
  match cueOf pkt with
  | none => countEngine (fun n => { n with badCues := bump n.badCues }) s
  | some m =>
    let s1 := countEngine (fun n => { n with cuesTaken := bump n.cuesTaken }) s
    let avail := match m with | .out a _ => a | .cancel a _ => a
    let l := offeredTo s1 p avail
    let s2 := if l.isEmpty then countEngine (fun n => { n with cuesUnclaimed := bump n.cuesUnclaimed }) s1 else s1
    match m with
    | .out _ q => forAll l (outCue q) s2
    | .cancel _ id => forAll l (cancelCue id) s2

end Sys2Proof.Machine
end

