-- ==== Sys2Proof/Machine/Emission.lean ====
section
/-!
DEFINITION. Emission.lean: the operations of the Emission Schedulers: the grid (R87), changes of sync state (R96, R97,
R100, R101, R102), intake framing (R84, R85, R86), the release side's slots (R88, R89, R91 to R95, R98) and jumps of
site time (R90).
-/

namespace Sys2Proof.Machine

/-! ### The grid (R87) -/

/-- The grid at a rate, anchored at an instant with phase 0 (R87). -/
def gridFrom (rate : Nat) (anchor : Int) : Grid :=
  { next := anchor, interval := Config.slotBitTicks / rate, rem := Config.slotBitTicks % rate, rate := rate, phase := 0 }

/-- The length of the slot that starts next: I, plus one tick when p + r reaches R (R87). -/
def slotLength (g : Grid) : Nat := if g.rate ≤ g.phase + g.rem then g.interval + 1 else g.interval

/-- The grid after the slot that starts next has begun (R87). -/
def stepGrid (g : Grid) : Grid :=
  { g with
    next := g.next + (slotLength g : Int)
    phase := if g.rate ≤ g.phase + g.rem then g.phase + g.rem - g.rate else g.phase + g.rem }

/-- The output is LOCKED or HOLDOVER, the states that follow frames (R99). -/
def following (o : Output) : Bool := o.sync == .locked || o.sync == .holdover

/-- The release start of the waiting record, which stands at the head of the frame queue (R92, R98). -/
def waitingRelease (o : Output) : Option Int :=
  if o.waiting then o.frameQueue.head?.map FrameRecord.release else none

/-- The slot that starts next ends at or before the waiting record's F (R87, R92, R98). -/
def fitsBefore (g : Grid) (f : Int) : Bool := decide (g.next + (slotLength g : Int) ≤ f)

/-- The next event of an output's release side: the start of a slot at an instant, or of the waiting record's frame
at its F once no fill slot fits before it (R92, R98). -/
inductive OutputEvent where
  | slot (start : Int)
  | frame (start : Int)
  deriving DecidableEq, Repr

/-- The next event of an output (R88, R92, R98); none when it has neither a grid nor a waiting record. -/
def nextEvent (o : Output) : Option OutputEvent :=
  match o.grid, waitingRelease o with
  | some g, some f => if fitsBefore g f then some (.slot g.next) else some (.frame f)
  | some g, none => some (.slot g.next)
  | none, some f => some (.frame f)
  | none, none => none

/-! ### Changes of sync state -/

/-- A change of sync state sets OUTPUT_STATE and is counted, and the Insertion Engine removes the pending splices
when the output enters FREE_RUN, MUTED or ACQUIRING (R102, R147), in that order (log entry 47). The emission position is
absent there (R88). A change between LOCKED and HOLDOVER keeps it, the return to LOCKED between frames included: the model's
reading of R88 and R99, log entry 48. -/
def changeSync (k : Fin 4) (new : Sync) (s : State) : State :=
  if s.outs[k].sync = new then s
  else
    let stays := new == .locked || new == .holdover
    let s1 := mapOut k (fun o => { o with sync := new, position := if stays then o.position else none }) s
    let s2 := setFlag .outputState
      (countMgmt (fun c => { c with outputChanges := c.outputChanges.set k (bump c.outputChanges[k]) }) s1)
    if stays then s2 else dropSplices k s2

/-- The head record leaves the frame queue without being begun (R98, R94). -/
def discardHead (k : Fin 4) (s : State) : State :=
  mapOut k (fun o => { o with
    frameQueue := o.frameQueue.tail
    counters := { o.counters with recordsDiscarded := bump o.counters.recordsDiscarded } }) s

/-- Every record in the frame queue is removed and counted as discarded (R96, R101, R104). -/
def discardRecords (k : Fin 4) (s : State) : State :=
  mapOut k (fun o => { o with
    frameQueue := []
    counters := { o.counters with recordsDiscarded := bumpBy o.counters.recordsDiscarded o.frameQueue.length } }) s

/-- The output enters FREE_RUN, or is anchored afresh there: its records are discarded and a free-running grid is
anchored at `anchor` (R96). -/
def enterFreeRun (k : Fin 4) (anchor : Int) (s : State) : State :=
  changeSync k .freeRun
    (mapOut k (fun o => { o with
        grid := some (gridFrom o.defaultRate anchor), current := none, waiting := false, muteCause := none })
      (discardRecords k s))

/-- Where an output that enters FREE_RUN anchors its grid: at the end of the slot in progress when it has a grid, and
now when it has no grid or no slot is in progress (R96, log entry 13). -/
def slotEnd (s : State) (k : Fin 4) : Int :=
  match s.outs[k].grid, s.outs[k].slot with
  | some _, some x => now s + (x.remaining : Int)
  | _, _ => now s

/-- The output enters MUTED: a packet that is being sent goes out whole, every other entry is flushed, the records
are discarded, and the grid, current frame and waiting record become absent (R101). -/
def enterMuted (k : Fin 4) (cause : MuteCause) (s : State) : State :=
  changeSync k .muted
    (mapOut k (fun o => { o with grid := none, current := none, waiting := false, muteCause := some cause })
      (discardRecords k (flushQueue k (sendingEntry s.outs[k]) (waitingEntries s.outs[k]) s)))

/-- An entry belongs to no queued record: it is UNFRAMED, or its frame number is that of no record (R97, R98). -/
def belongsToNone (o : Output) (e : Entry) : Bool :=
  match e.point with
  | none => true
  | some x => !(o.frameQueue.any fun r => r.number == x.1)

/-- A record is discarded when the release side seeks a frame: it is TOO_EARLY, its F has passed, or its F is before
the grid's next slot start (R98). -/
def unsought (s : State) (k : Fin 4) (r : FrameRecord) : Bool :=
  r.tooEarly || decide (r.release ≤ now s) ||
    match s.outs[k].grid with
    | some g => decide (r.release < g.next)
    | none => false

/-- The release side in ACQUIRING seeks a frame to start: records that fail the test are discarded, and the first
that passes becomes the waiting record (R98). The list is the frame queue. -/
def seek (k : Fin 4) : List FrameRecord → State → State
  | [], s => s
  | r :: rest, s =>
    if unsought s k r then seek k rest (discardHead k s) else mapOut k (fun o => { o with waiting := true }) s

/-- The entries that an output's entry to ACQUIRING flushes: those at the head of the delay queue that belong to no queued
record, as far as the first that belongs to one (R97). The one that is being sent, when it belongs to none, stays until its
slot ends, and the entries behind it are flushed (log entry 14). -/
def unclaimedEntries (o : Output) : List Entry :=
  if (sendingEntry o).all (belongsToNone o) then (waitingEntries o).takeWhile (belongsToNone o) else []

/-- The output enters ACQUIRING: head entries that belong to no queued record are flushed (R97), and a frame is sought
(R98). -/
def enterAcquiring (k : Fin 4) (s : State) : State :=
  let o := s.outs[k]
  let flushed := unclaimedEntries o
  let s1 := flushQueue k (sendingEntry o ++ (waitingEntries o).drop flushed.length) flushed s
  let s2 := changeSync k .acquiring
    (mapOut k (fun o => { o with current := none, waiting := false, lateCount := 0, muteCause := none }) s1)
  seek k s2.outs[k].frameQueue s2

/-- A change of the site clock's state changes an output's sync state (R100). -/
def followClock (old new : ClockMode) (k : Fin 4) (s : State) : State :=
  match old, new, s.outs[k].sync with
  | .locked, .holdover, .locked => changeSync k .holdover s
  | .locked, .holdover, .acquiring => enterFreeRun k (slotEnd s k) s
  | .holdover, .locked, .holdover => changeSync k .locked s
  | .expired, .locked, .holdover => changeSync k .locked s
  | .holdover, .expired, .holdover =>
    match s.outs[k].fallback with
    | .mute => enterMuted k .fallback s
    | .freeRun => enterFreeRun k (slotEnd s k) s
  | _, _, _ => s

/-- The Site Clock hands a change of its state to the four outputs (R18, R100). -/
def handClockMode (old new : ClockMode) (s : State) : State := forAll allOutputs (followClock old new) s

/-! ### Intake framing (R84, R85, R86) -/

/-- The frame record of a valid timing packet (R85). -/
def recordOf (s : State) (k : Fin 4) (t : TimingPacket) : FrameRecord :=
  let target := absolute (resolveSecond s.clock.seconds.toNat t.low8) t.tick
  let release := target + (s.outs[k].offset : Int)
  { number := t.number, length := t.length, target := target, release := release, rate := t.rate
    interval := Config.slotBitTicks / t.rate, rem := Config.slotBitTicks % t.rate
    tooEarly := decide (release - now s > Config.tooEarlyTicks) }

/-- The checks of a timing packet (R84). -/
def timingValid (t : TimingPacket) : Bool :=
  decide (1 ≤ t.length) && decide (t.tick ≤ 19999999) && decide (1000000 ≤ t.rate) && decide (t.rate ≤ 80000000)

/-- A frame record is made: it becomes the open intake frame and joins the frame queue (R85). -/
def makeRecord (k : Fin 4) (r : FrameRecord) (s : State) : State :=
  mapOut k (fun o => { o with
    openFrame := some { record := r, received := 0 }
    previous := some r.number
    frameQueue := o.frameQueue ++ [r]
    counters := { o.counters with
      timingTaken := bump o.counters.timingTaken
      frameGaps := match o.previous with
        | none => o.counters.frameGaps
        | some p => if r.number = p + 1 then o.counters.frameGaps else bump o.counters.frameGaps } }) s

/-- The release side deals with a record just made, as its sync state requires (R85, R96, R98, R101). -/
def dealWithRecord (k : Fin 4) (s : State) : State :=
  let o := s.outs[k]
  match o.sync with
  | .freeRun => if s.clock.mode = .locked then enterAcquiring k s else discardRecords k s
  | .acquiring => if o.waiting then s else seek k o.frameQueue s
  | .locked => s
  | .holdover => s
  | .muted =>
    if o.muteCause = some .fallback ∧ s.clock.mode = .locked then enterAcquiring k s else discardRecords k s

/-- A timing packet reaches the intake framing of output `k` (R84). -/
def takeTiming (t : TimingPacket) (k : Fin 4) (s : State) : State :=
  let o := s.outs[k]
  if t.multiplex ≠ o.multiplex.val then s
  else if timingValid t = false then countOut k (fun c => { c with badTiming := bump c.badTiming }) s
  else if Config.frameQueueRoom ≤ o.frameQueue.length then
    countOut k (fun c => { c with frameQueueFull := bump c.frameQueueFull }) s
  else dealWithRecord k (makeRecord k (recordOf s k t) s)

/-- What intake framing makes of a copy: refused, or passed on with its slot or UNFRAMED (R86). -/
inductive Framing where
  | refused
  | passed (point : Option Point)
  deriving DecidableEq, Repr

/-- A copy reaches the intake framing of output `k` (R86). -/
def frameCopy (k : Fin 4) (s : State) : Framing × State :=
  let o := s.outs[k]
  if o.sync = .muted then (.refused, countOut k (fun c => { c with mutedRefusals := bump c.mutedRefusals }) s)
  else
    match o.openFrame with
    | none => (.passed none, s)
    | some f =>
      if f.received < f.record.length then
        (.passed (some (f.record.number, f.received)),
          mapOut k (fun o => { o with openFrame := some { f with received := f.received + 1 } }) s)
      else (.refused, countOut k (fun c => { c with overflowCopies := bump c.overflowCopies }) s)

/-! ### Slots of the release side -/

/-- The slot in progress ends: an entry that was being sent leaves as an emission release (R75). That a slot which is cut
by the next one ends so too is the model's choice, log entry 40. -/
def endSlot (k : Fin 4) (s : State) : State :=
  match s.outs[k].slot with
  | none => s
  | some x =>
    mapOut k (fun o => { o with slot := none, line := none }) (if x.sends then removeHead .emission k s else s)

/-- The slot that starts next begins on the grid with a packet on the line; a slot that a jump passes puts nothing on
the line and is counted (R87, R88, R90). -/
def takeSlot (k : Fin 4) (passed sends : Bool) (pkt : Packet) (s : State) : State :=
  match s.outs[k].grid with
  | none => s
  | some g =>
    mapOut k (fun o => { o with
      grid := some (stepGrid g)
      slot := if passed then none else some { remaining := slotLength g, sends := sends }
      line := if passed then none else some pkt
      counters := if passed then { o.counters with passedSlots := bump o.counters.passedSlots } else o.counters }) s

/-- The slot carries fill (R88, R3). -/
def fillSlot (k : Fin 4) (passed : Bool) (s : State) : State :=
  takeSlot k passed false fillPacket
    (if passed then s else countOut k (fun c => { c with fillSlots := bump c.fillSlots }) s)

/-- The slot carries the head entry `e` (R74, R88). In a passed slot the entry leaves at once and writes nothing
(R90, R113, log entry 12). -/
def sendEntry (k : Fin 4) (passed : Bool) (displ start : Int) (e : Entry) (s : State) : State :=
  if passed then takeSlot k true false fillPacket (removeHead .passed k s)
  else
    takeSlot k false true (entryPacket s k displ e)
      (countOut k (fun c => { c with packetsEmitted := bump c.packetsEmitted }) (recordEntry k displ start e s))

/-- The slot carries the owner's packet in place of the programme copy, which leaves as the slot begins (R75, R152). -/
def sendAdvert (k : Fin 4) (passed : Bool) (p : Nat) (start : Int) (offset : Sample) (stored : Packet) (label : Label)
    (s : State) : State :=
  takeSlot k passed false (advertPacket s p offset stored label)
    (removeHead .substitution k (if passed then s else recordAdvert p start offset stored s))

/-- The head entry `e` is due in the slot: it is sent, or substituted when it is a programme copy of an owned programme
(R88, R152). Also answers the programme whose copy was due. -/
def carryEntry (k : Fin 4) (passed : Bool) (displ start : Int) (e : Entry) (s : State) : Option Nat × State :=
  match standsFor s k e with
  | none => (none, sendEntry k passed displ start e s)
  | some p =>
    if (programme s p).owner.isSome then
      match decideProgramme p s with
      | (none, s1) => (some p, sendEntry k passed displ start e s1)
      | (some .fill, s1) => (some p, fillSlot k passed (removeHead .substitution k s1))
      | (some (.advert offset stored label), s1) => (some p, sendAdvert k passed p start offset stored label s1)
    else (some p, sendEntry k passed displ start e s)

/-- A head entry is for an earlier point than the slot, or of the late frame whose slot it is (R89). -/
def passedAt (x : Point) (late : Bool) (e : Entry) : Bool :=
  match e.point with
  | none => true
  | some y => pointBefore y x || (late && y.1 == x.1)

/-- What the slot of a frame carries, once earlier entries have been passed (R89). -/
def carryFrame (k : Fin 4) (passed : Bool) (x : Point) (start : Int) (c : Current) (s : State) : Option Nat × State :=
  match s.outs[k].queue with
  | [] => (none, fillSlot k passed s)
  | e :: _ =>
    if c.late = false ∧ e.point = some x then carryEntry k passed c.displ start e s else (none, fillSlot k passed s)

/-- A slot of the current frame begins (R88, R89, R147, R148, R154, R155). That the pending splices it passes are removed before
the contexts at its point are activated is the model's choice, log entry 45. -/
def frameSlot (k : Fin 4) (passed : Bool) (start : Int) (c : Current) (s : State) : State :=
  let x : Point := (c.record.number, c.slot)
  let s1 := mapOut k (fun o => { o with current := some { c with slot := c.slot + 1 }, position := some x }) s
  let s2 := activate k x start (dropPassedSplices k x s1)
  let r := carryFrame k passed x start c (passHeads k (passedAt x c.late) s2.outs[k].queue s2)
  reportSlot k r.1 r.2

/-- A slot of fill between frames or while acquiring (R92, R95, R98). -/
def plainFill (k : Fin 4) (passed : Bool) (s : State) : State := reportSlot k none (fillSlot k passed s)

/-- A slot of an output in FREE_RUN carries the head entry, whatever its frame and slot (R96). -/
def freeSlot (k : Fin 4) (passed : Bool) (start : Int) (s : State) : State :=
  let r := match s.outs[k].queue with
    | [] => (none, fillSlot k passed s)
    | e :: _ => carryEntry k passed 0 start e s
  reportSlot k r.1 r.2

/-! ### Reconciliation (R91 to R95) -/

/-- The record at the head of the frame queue starts as the current frame (R91, R92, R93, R98). -/
def beginFrame (k : Fin 4) (r : FrameRecord) (start displ : Int) (late : Bool) (s : State) : State :=
  mapOut k (fun o => { o with
    frameQueue := o.frameQueue.tail
    grid := some (gridFrom r.rate start)
    current := some { record := r, start := start, slot := 0, displ := displ, late := late }
    lastBegun := some r.number
    waiting := false }) s

/-- A frame starts: the consecutive-late count is 0, and it is counted (R91). -/
def startFrame (k : Fin 4) (r : FrameRecord) (start displ : Int) (s : State) : State :=
  mapOut k (fun o => { o with
      lateCount := 0
      counters := { o.counters with framesStarted := bump o.counters.framesStarted } })
    (beginFrame k r start displ false s)

/-- The head record is late at P: its slots are fill, or at the late limit the output stops following (R93, R94). That the
late record leaves the frame queue before the entries are flushed is the model's choice, log entry 41; so is that LATE_FRAME
is set before the sync state changes, whose OUTPUT_STATE and CUE_MISSED come after it, log entry 46. -/
def lateRecord (k : Fin 4) (r : FrameRecord) (p : Int) (s : State) : State :=
  let count := min (s.outs[k].lateCount + 1) 255
  let s1 := setFlag .lateFrame (mapOut k (fun o => { o with
    lateCount := count
    counters := { o.counters with lateFrames := bump o.counters.lateFrames } }) s)
  if s1.outs[k].lateLimit ≤ count then
    if s1.outs[k].sync = .locked then enterAcquiring k (discardHead k s1)
    else mapOut k (fun o => { o with lateCount := 0 }) (enterFreeRun k p s1)
  else beginFrame k r p 0 true s1

/-- The frame in progress has had all its slots, or there is none: the output is between frames. -/
def frameOver (o : Output) : Bool :=
  match o.current with
  | none => true
  | some c => decide (c.record.length ≤ c.slot)

/-- At the end P of a frame the emission position is (n, L), and there is no current frame (R88). -/
def endFrame (k : Fin 4) (s : State) : State :=
  mapOut k (fun o => { o with
    current := none
    position := match o.current with
      | some c => some (c.record.number, c.record.length)
      | none => o.position }) s

/-- At P the output takes the record at the head of its frame queue and reconciles it; with no record it is in underrun
(R91 to R95). -/
def reconcileAt (k : Fin 4) (p : Int) (s : State) : State :=
  match s.outs[k].frameQueue with
  | [] => s
  | r :: _ =>
    let tol : Int := s.outs[k].tolerance
    if r.tooEarly = true ∨ r.release < p - tol then lateRecord k r p s
    else if r.release ≤ p + tol then startFrame k r p (p - r.release) s
    else mapOut k (fun o => { o with waiting := true }) s

/-- Reconcile when an output that follows frames is between frames with no record waiting (R91, R95). -/
def reconcile (k : Fin 4) (p : Int) (s : State) : State :=
  let o := s.outs[k]
  if following o && !o.waiting && frameOver o then reconcileAt k p (endFrame k s) else s

/-- What the slot that starts next carries, by the sync state and the current frame (R88). A slot that would carry the
line past a waiting record's F does not begin (R92, R98). -/
def decideSlot (k : Fin 4) (passed : Bool) (s : State) : State :=
  let o := s.outs[k]
  match nextEvent o with
  | some (.slot start) =>
    match o.sync with
    | .freeRun => freeSlot k passed start s
    | .acquiring => plainFill k passed (passHeads k (belongsToNone o) o.queue s)
    | .muted => s
    | _ =>
      match o.current with
      | some c => frameSlot k passed start c s
      | none =>
        plainFill k passed (if o.waiting || passed then s else
          countOut k (fun c => { c with underrunSlots := bump c.underrunSlots }) s)
  | _ => s

/-- The slot at the grid's next start begins: the slot before it has ended, and at a frame's end the next record is
reconciled first (R75, R88, R91). A slot that is still in progress, as after a jump, is cut (log entry 40). The HOLD in
force is tested before the slot is decided, since a frame may have been begun; what begins the slot tests it again after
the decision (R166, log entry 35). -/
def beginSlot (k : Fin 4) (passed : Bool) (start : Int) (s : State) : State :=
  decideSlot k passed (testHold (reconcile k start (endSlot k s)))

/-- The waiting record starts at its F: an acquisition in ACQUIRING, a re-anchoring otherwise (R92, R98). A slot that is
still in progress is cut (log entry 40). -/
def startWaiting (k : Fin 4) (s : State) : State :=
  let s0 := endSlot k s
  match s0.outs[k].frameQueue with
  | [] => s
  | r :: _ =>
    if s0.outs[k].sync = .acquiring then
      changeSync k .locked
        (countOut k (fun c => { c with acquisitions := bump c.acquisitions }) (startFrame k r r.release 0 s0))
    else countOut k (fun c => { c with reAnchors := bump c.reAnchors }) (startFrame k r r.release 0 s0)

/-! ### Jumps of site time (R90) -/

/-- The events of an output that a forward jump has passed are taken at once, in order, as far as the present time: each
slot is decided and reported, and the breaks that it ends are over, before the next event, and the HOLD in force is tested
at each of them (R90, R154, R166, log entry 35). The first argument bounds their number. -/
def passEvents (k : Fin 4) : Nat → State → State
  | 0, s => s
  | n + 1, s =>
    match nextEvent s.outs[k] with
    | some (.slot g) => if g < now s then passEvents k n (testHold (beginSlot k true g s)) else s
    | some (.frame f) => if f < now s then passEvents k n (testHold (startWaiting k s)) else s
    | none => s

/-- An output deals with a jump of `d` ticks that has just happened (R90). The slot in progress stays as it is until the
next slot begins (log entry 40). -/
def jumpOutput (d : Int) (k : Fin 4) (s : State) : State :=
  if s.outs[k].sync = .muted then s
  else if d < -Config.jumpLimit ∨ Config.jumpLimit < d then
    enterFreeRun k (now s) (countOut k (fun c => { c with timeJumps := bump c.timeJumps }) s)
  else if 0 < d then passEvents k (3 * d.toNat + 8) s
  else s

/-- Site time has jumped by `d` ticks (R90). That the outputs deal with it one after the other, from 0 to 3, is the model's
choice, log entry 44. -/
def jump (d : Int) (s : State) : State := if d = 0 then s else forAll allOutputs (jumpOutput d) s

end Sys2Proof.Machine
end

