-- ==== Sys2Proof/Machine/Feed.lean ====
section
/-!
DEFINITION. Feed.lean: the operations of the Feed Intake Unit: leaving and entering UP (R31 to R35), continuity (R36),
errored seconds (R37), the selection state machine (R38 to R46) and its gate (R39).
-/

namespace Sys2Proof.Machine

/-! ### The selection state machine -/

/-- Set the selection state and the handover record. -/
def setSelection (x : Selection) (h : Handover) (s : State) : State :=
  mapFeed (fun u => { u with selection := x, handover := h }) s

/-- A feed stops being taken: its current feed frame becomes absent (R38). -/
def stopTaking (x : Feed) (s : State) : State := mapFeedState x (fun f => { f with currentFrame := none }) s

/-- The target after a loss: the last frame started plus 1, or ANY when that is absent (R40, R43). -/
def targetAfter (s : State) (x : Feed) : Target :=
  match (feedState s.feed x).currentFrame with
  | none => .any
  | some n => .frame (n + 1)

/-- Both feeds stop being taken at entry to NO_FEED, which sets its flag (R38, R40, R45). -/
def enterNoFeed (s : State) : State :=
  setFlag .noFeed (setSelection .noFeed {} (stopTaking .a (stopTaking .b s)))

/-- A turning back is counted (R45, R48). -/
def countReversal (s : State) : State := mapFeed (fun u => { u with handoverReversals := bump u.handoverReversals }) s

/-- Feed `x`, the new feed of a handover, leaves UP: the handover turns back (R45). -/
def turnBack (x : Feed) (s : State) : State :=
  let w := otherFeed x
  let h := s.feed.handover
  if feedUp s w then
    match h.phase with
    | .running => countReversal (setSelection (.active w) {} s)
    | .stopped => countReversal (setSelection (.handoverTo w) { oldFeed := some x, phase := .stopped, target := h.target } s)
  else enterNoFeed s

/-- Feed `x` has left UP; the selection state machine acts on it (R40, R43, R45). -/
def feedLeft (x : Feed) (s : State) : State :=
  match s.feed.selection with
  | .active y =>
    if y = x then
      if feedUp s (otherFeed x) then
        stopTaking x (setSelection (.handoverTo (otherFeed x))
          { oldFeed := some x, phase := .stopped, target := targetAfter s x } s)
      else enterNoFeed s
    else s
  | .handoverTo y =>
    if y = x then turnBack x s
    else
      match s.feed.handover.phase with
      | .running => stopTaking x (setSelection (.handoverTo y)
          { s.feed.handover with phase := .stopped, target := targetAfter s x } s)
      | .stopped => s
  | .noFeed => s

/-- Feed `x` has reached UP: in NO_FEED the first to do so starts a handover to it (R46). -/
def feedReached (x : Feed) (s : State) : State :=
  match s.feed.selection with
  | .noFeed => setSelection (.handoverTo x) { oldFeed := none, phase := .stopped, target := .any } s
  | _ => s

/-! ### Alignment (R31 to R35) -/

/-- The DOWN flag of a feed (R35). -/
def downFlag : Feed → Flag
  | .a => .feedADown
  | .b => .feedBDown

/-- What leaving UP does to feed `x` beyond its port: its flag, its seen flags, its up-throughout mark and the
selection (R35, R37). -/
def feedLeavesUp (x : Feed) (s : State) : State :=
  feedLeft x (mapFeedState x (fun f => { f with
    continuity := tableMap {} (fun e => { e with seen := false }) f.continuity
    upThroughout := false }) (setFlag (downFlag x) s))

/-- A port leaves UP for another state (R35). The local port's leaving UP reaches no other block. -/
def leaveUp (p : Port) (new : Alignment) (s : State) : State :=
  let s1 := mapPort p (fun x => { x with
    alignment := new, assembly := [], search := [], alignmentLosses := bump x.alignmentLosses }) s
  match p with
  | .a => feedLeavesUp .a s1
  | .b => feedLeavesUp .b s1
  | .l => s1

/-- The alignment search succeeds with this byte: it and the bytes 160, 320, 480 and 640 before it are leads (R32). -/
def searchSucceeds (history : List Byte) (b : Byte) : Bool :=
  b == Config.lead && history[159]? == some Config.lead && history[319]? == some Config.lead
    && history[479]? == some Config.lead && history[639]? == some Config.lead

/-- A byte goes to the search of a port in SEEKING; on success it is the first byte of the first packet in UP (R32). -/
def searchByte (p : Port) (b : Byte) (s : State) : State :=
  let x := portState s.feed p
  if searchSucceeds x.search b then
    let s1 := mapPort p (fun x => { x with alignment := .up, wrongLeads := 0, assembly := [b], search := [] }) s
    match p with
    | .a => feedReached .a s1
    | .b => feedReached .b s1
    | .l => s1
  else mapPort p (fun x => { x with search := (b :: x.search).take Config.searchSpan }) s

/-- The first byte of a search that starts from DOWN: SEEKING, the loss timer at 0 (R31). -/
def startSearch (p : Port) (b : Byte) (s : State) : State :=
  searchByte p b (mapPort p (fun x => { x with alignment := .seeking, lossTimer := some 0, search := [] }) s)

/-- The loss time in ticks: 2^t ms (R34). -/
def lossLimit (u : FeedIntake) : Nat := 2 ^ u.lossExp * Config.ticksPerMs

/-- A port's loss timer expires and stops, and the port goes to DOWN (R34). -/
def expireLossTimer (p : Port) (s : State) : State :=
  let s1 := mapPort p (fun x => { x with lossTimer := none }) s
  match (portState s.feed p).alignment with
  | .up => leaveUp p .down s1
  | .seeking =>
    mapFeed (fun u => { u with seekingTimeouts := bump u.seekingTimeouts })
      (mapPort p (fun x => { x with alignment := .down, search := [] }) s1)
  | .down => s1

/-- Mark the present site second errored for a feed (R37). -/
def markErrored (x : Feed) (s : State) : State := mapFeedState x (fun f => { f with erroredMark := true }) s

/-- A packet with a wrong lead is discarded and counted; the third in a row takes the port from UP to SEEKING (R33). -/
def wrongLead (p : Port) (s : State) : State :=
  let s1 := mapPort p (fun x => { x with wrongLeads := x.wrongLeads + 1, wrongLeadCount := bump x.wrongLeadCount }) s
  let s2 := match p with
    | .a => markErrored .a s1
    | .b => markErrored .b s1
    | .l => s1
  if 3 ≤ (portState s2.feed p).wrongLeads then leaveUp p .seeking s2 else s2

/-- A good lead sets the consecutive wrong leads to 0 and restarts the loss timer (R33, R34). -/
def goodLead (p : Port) (s : State) : State := mapPort p (fun x => { x with wrongLeads := 0, lossTimer := some 0 }) s

/-! ### Continuity (R36) -/

/-- A packet is a continuity error against its label's entry; label 4095 is never one at intake (R36). -/
def continuityError (e : Continuity) (pkt : Packet) : Bool :=
  e.seen && pkt.seq != e.last + 1 && !pkt.d

/-- The continuity check of a good-lead packet of feed `x` (R36). -/
def checkContinuity (x : Feed) (pkt : Packet) (s : State) : State :=
  let e := tableGet {} (feedState s.feed x).continuity pkt.label.toNat
  let s1 := if continuityError e pkt && pkt.label != fillLabel then
      markErrored x (mapFeedState x (fun f => { f with continuityErrors := bump f.continuityErrors }) s)
    else s
  mapFeedState x (fun f => { f with
    continuity := tablePut {} f.continuity pkt.label.toNat { last := pkt.seq, seen := true } }) s1

/-! ### Errored seconds (R37) and the quality handover (R41) -/

/-- A feed's second is closed at a boundary (R37). -/
def closeFeedSecond (up : Bool) (f : FeedState) : FeedState :=
  let f1 :=
    if f.erroredMark then
      { f with erroredRun := hold16 f.erroredRun, cleanRun := 0, erroredSeconds := bump f.erroredSeconds }
    else if f.upThroughout then { f with erroredRun := 0, cleanRun := hold16 f.cleanRun }
    else { f with erroredRun := 0, cleanRun := 0 }
  { f1 with erroredMark := false, upThroughout := up }

/-- The quality cause of feed `x` while it is taken (R41). -/
def qualityCause (s : State) (x : Feed) : Bool :=
  let fx := feedState s.feed x
  let fy := feedState s.feed (otherFeed x)
  s.feed.mode == .auto && decide (s.feed.threshold ≤ fx.erroredRun) && feedUp s (otherFeed x)
    && decide (fx.erroredRun ≤ fy.cleanRun)

/-- A handover to feed `y` begins with the old feed still taken (R41, R48). -/
def beginHandover (y : Feed) (s : State) : State :=
  setSelection (.handoverTo y) { oldFeed := some (otherFeed y), phase := .running, target := .absent } s

/-- The quality test at a second boundary (R41). -/
def testQuality (s : State) : State :=
  match s.feed.selection with
  | .active x => if qualityCause s x then beginHandover (otherFeed x) s else s
  | _ => s

/-- The unit closes the second for both feeds and tests the quality cause once (R37, R41). -/
def closeSecond (s : State) : State :=
  testQuality
    (mapFeedState .b (closeFeedSecond (feedUp s .b)) (mapFeedState .a (closeFeedSecond (feedUp s .a)) s))

/-! ### The selection gate (R38, R39, R42, R44) -/

/-- A timing packet's frame number (R4). -/
def frameOf (pkt : Packet) : FrameNo := (timingOf pkt).number

/-- A timing packet of feed `x` is a feed-frame boundary (R38). -/
def isBoundary (s : State) (x : Feed) (pkt : Packet) : Bool := (feedState s.feed x).currentFrame != some (frameOf pkt)

/-- A timing packet taken from a feed gives the feed its current feed frame (R38). -/
def noteFrame (x : Feed) (pkt : Packet) (s : State) : State :=
  if pkt.label = timingLabel then mapFeedState x (fun f => { f with currentFrame := some (frameOf pkt) }) s else s

/-- A packet that the gate discards is counted; one on a reserved label is counted there too (R39, R49). -/
def gateDiscard (x : Feed) (pkt : Packet) (s : State) : State :=
  let s1 := mapFeedState x (fun f => { f with discards := bump f.discards }) s
  if isReserved pkt.label then mapFeed (fun u => { u with reservedDiscards := bump u.reservedDiscards }) s1 else s1

/-- A timing packet of the new feed may start the taking (R44). -/
def meetsTarget (t : Target) (n : FrameNo) : Bool :=
  match t with
  | .any => true
  | .frame m => frameAtOrAfter n m
  | .absent => false

/-- Taking starts on the new feed (R44). -/
def startTaking (x : Feed) (pkt : Packet) (s : State) : State :=
  setFlag .feedSwitch
    (mapFeed (fun u => { u with feedSwitches := bump u.feedSwitches })
      (mapFeedState x (fun f => { f with currentFrame := some (frameOf pkt) }) (setSelection (.active x) {} s)))

/-- The gate passes a good-lead packet of feed `x` to sorting, or discards it (R38, R39, R42, R44). -/
def gate (x : Feed) (pkt : Packet) (s : State) : Bool × State :=
  match s.feed.selection with
  | .active y => if y = x then (true, noteFrame x pkt s) else (false, gateDiscard x pkt s)
  | .noFeed => (false, gateDiscard x pkt s)
  | .handoverTo y =>
    match s.feed.handover.phase with
    | .running =>
      if y = x then (false, gateDiscard x pkt s)
      else if pkt.label = timingLabel ∧ isBoundary s x pkt = true then
        (false, gateDiscard x pkt (stopTaking x (setSelection (.handoverTo y)
          { s.feed.handover with phase := .stopped, target := .frame (frameOf pkt) } s)))
      else (true, noteFrame x pkt s)
    | .stopped =>
      if y = x ∧ pkt.label = timingLabel ∧ meetsTarget s.feed.handover.target (frameOf pkt) = true then
        (true, startTaking x pkt s)
      else (false, gateDiscard x pkt s)

end Sys2Proof.Machine
end

