-- ==== Sys2Proof/Machine/Time.lean ====
section
/-!
DEFINITION. Time.lean: the ticks of site time (R15, R17), the second boundary (R17, R27, R37, R166) and the pulse edge
(R19 to R22), with the monitor of REF10 (R16) and the holdover (R25 to R27).
-/

namespace Sys2Proof.Machine

/-- A count of ticks that is running goes on by `n`. -/
def addTicks (n : Nat) : Option Nat → Option Nat
  | none => none
  | some c => some (c + n)

/-- `n` ticks pass at a port: its loss timer counts them (R34). -/
def passPort (n : Nat) (x : PortState) : PortState := { x with lossTimer := addTicks n x.lossTimer }

/-- `n` ticks pass at an output: its slot in progress comes nearer its own end (R90). -/
def passOutput (n : Nat) (k : Fin 4) (s : State) : State :=
  mapOut k (fun o => { o with slot := o.slot.map fun x => { x with remaining := x.remaining - n } }) s

/-- The ticks for which REF10 must run before it is judged PRESENT: 1 ms (R16). -/
abbrev ref10Settles : Nat := Config.ticksPerMs

/-- `n` ticks pass at the Site Clock: the tick and the pulse watch count them, and so does the monitor of REF10 while
REF10 is ABSENT, as far as it needs (R15, R16, R26). -/
def passClock (n : Nat) (c : SiteClock) : SiteClock :=
  { c with
    tick := c.tick + n
    pulseWatch := addTicks n c.pulseWatch
    absentTicks := if c.ref10 then c.absentTicks else max c.absentTicks (min (c.absentTicks + n) ref10Settles) }

/-- `n` ticks pass within a site second: the Site Clock, the loss timers, the HOLD's timeout, the slots in progress and
the monitor port count them (R15, R16, R26, R34, R78, R167). -/
def runTicks (n : Nat) (s : State) : State :=
  forAll allOutputs (passOutput n)
    (mapClock (passClock n)
      (mapFeed (fun u => { u with portA := passPort n u.portA, portB := passPort n u.portB, portL := passPort n u.portL })
        (mapPool (fun p => { p with port := p.port.map fun x => { x with remaining := x.remaining - n } })
          (mapMgmt (fun m => { m with hold := m.hold.map fun h => { h with elapsed := h.elapsed + n } }) s))))

/-- The holdover limit in seconds: 2^h (R24). -/
def holdoverLimit (c : SiteClock) : Nat := 2 ^ c.holdoverExp

/-- In HOLDOVER the holdover timer adds one at a second boundary (R27). -/
def countHoldover (c : SiteClock) : SiteClock :=
  if c.mode = .holdover then { c with holdoverSeconds := c.holdoverSeconds + 1 } else c

/-- HOLDOVER has lasted its full limit: the clock goes to EXPIRED, its flag is set, and the outputs take their fallback
(R27, R100). That the flag comes before the outputs is the model's choice, log entry 37. -/
def expireHoldover (s : State) : State :=
  handClockMode .holdover .expired
    (setFlag .holdoverExpired (mapClock (fun c => { c with
      mode := .expired
      counters := { c.counters with holdoverExpiries := bump c.counters.holdoverExpiries } }) s))

/-- In HOLDOVER, the holdover seconds elapsed stand at or above the limit (R24, R27). -/
def holdoverDue (s : State) : Bool :=
  s.clock.mode == .holdover && decide (holdoverLimit s.clock ≤ s.clock.holdoverSeconds)

/-- The holdover timer counts a boundary, and a holdover that this brings to its limit expires (R27). -/
def countBoundary (s : State) : State :=
  let s1 := mapClock countHoldover s
  if holdoverDue s1 then expireHoldover s1 else s1

/-- The Site Clock marks a second boundary: the holdover timer counts it, and the Feed Intake Unit closes the second
(R17, R27, R37). -/
def markBoundary (s : State) : State := closeSecond (countBoundary s)

/-- The tick wraps to 0 and site seconds advance (R15, R17). The HOLD in force is tested as they change (R166). A wrap of
the seconds is a jump of site time, with which the outputs deal last (R90). What comes first of these, and that all of it
comes before a HOLD's timeout of the same tick, is the model's choice, log entry 43. -/
def wrapSecond (s : State) : State :=
  let before := absolute (s.clock.seconds.toNat : Int) Config.ticksPerSecond
  let s1 := mapClock (fun c => { c with seconds := c.seconds + 1, tick := 0 }) s
  jump (now s1 - before) (testHold (markBoundary s1))

/-- `n` ticks pass, which take the tick no further than the next second boundary (R15, R17). -/
def advance (n : Nat) (s : State) : State :=
  let s1 := runTicks n s
  if Config.ticksPerSecond ≤ s1.clock.tick then wrapSecond s1 else s1

/-! ### The pulse edge (R19 to R22) -/

/-- The error of an edge that finds the tick at c (R19). -/
def edgeError (c : Nat) : Int := if c < 10000000 then (c : Int) else (c : Int) - 20000000

/-- Take an edge as a step: the tick is set to 0, and site seconds advance when the edge came early (R19). -/
def stepClock (c : SiteClock) : SiteClock :=
  { c with tick := 0, seconds := if c.tick < 10000000 then c.seconds else c.seconds + 1 }

/-- What an edge does to the Site Clock itself, and whether it marks a second boundary (R19 to R22). -/
structure EdgeResult where
  clock    : SiteClock
  boundary : Bool
  outlier  : Bool
  deriving DecidableEq, Repr

/-- An edge that changes nothing is counted as unused (R21). -/
def unusedEdge (c : SiteClock) : EdgeResult :=
  { clock := { c with counters := { c.counters with unusedEdges := bump c.counters.unusedEdges } }
    boundary := false, outlier := false }

/-- The pending seconds value is applied (R22). -/
def applySeconds (v : BitVec 32) (c : SiteClock) : EdgeResult :=
  let c1 := { c with
    seconds := v, tick := 0, pendingSeconds := none, outliers := 0
    counters := { c.counters with secondsSet := bump c.counters.secondsSet } }
  let c2 := match c.mode with
    | .free => if c.ref10 then { c1 with mode := .locked, pulseWatch := some 0 } else c1
    | .locked => { c1 with pulseWatch := some 0 }
    | .holdover => { c1 with mode := .locked, holdoverSeconds := 0, pulseWatch := some 0 }
    | .expired => { c1 with mode := .locked, holdoverSeconds := 0, pulseWatch := some 0 }
  { clock := c2, boundary := true, outlier := false }

/-- An edge in LOCKED with no pending value (R20). -/
def lockedEdge (c : SiteClock) : EdgeResult :=
  let e := edgeError c.tick
  let early := decide (10000000 ≤ c.tick)
  if 3 ≤ c.outliers then
    { clock := { stepClock c with
        outliers := 0, pulseWatch := some 0
        counters := { c.counters with forcedSteps := bump c.counters.forcedSteps } }
      boundary := early, outlier := false }
  else if e = 0 then
    { clock := { c with outliers := 0, pulseWatch := some 0 }, boundary := false, outlier := false }
  else if e.natAbs ≤ c.stepLimit then
    { clock := { stepClock c with
        outliers := 0, pulseWatch := some 0
        counters := { c.counters with steps := bump c.counters.steps } }
      boundary := early, outlier := false }
  else
    { clock := { c with
        outliers := c.outliers + 1, pulseWatch := some 0
        counters := { c.counters with outlierEdges := bump c.counters.outlierEdges } }
      boundary := false, outlier := true }

/-- An edge in HOLDOVER or EXPIRED with REF10 PRESENT and no pending value returns the clock to LOCKED (R21). -/
def returnEdge (c : SiteClock) : EdgeResult :=
  { clock := { stepClock c with
      mode := .locked, holdoverSeconds := 0, outliers := 0, pulseWatch := some 0
      counters := { c.counters with forcedSteps := bump c.counters.forcedSteps } }
    boundary := decide (10000000 ≤ c.tick), outlier := false }

/-- A pulse edge at the Site Clock (R20, R21, R22). -/
def edgeResult (c : SiteClock) : EdgeResult :=
  match c.mode with
  | .free =>
    match c.pendingSeconds with
    | some v => applySeconds v c
    | none => unusedEdge c
  | .locked =>
    match c.pendingSeconds with
    | some v => applySeconds v c
    | none => lockedEdge c
  | _ =>
    if c.ref10 then
      match c.pendingSeconds with
      | some v => applySeconds v c
      | none => returnEdge c
    else unusedEdge c

/-- A pulse edge arrives. The clock takes it; a boundary is marked; a change of clock state is handed to the outputs; the
HOLD in force is tested, since site seconds may have changed; the outputs deal with the jump, which tests it at each slot
and frame that it passes (R17 to R22, R90, R166, log entry 11). -/
def pulseEdge (s : State) : State :=
  let r := edgeResult s.clock
  let s1 := mapClock (fun _ => r.clock) s
  let s2 := if r.outlier then setFlag .ppsOutlier s1 else s1
  let s3 := if r.boundary then markBoundary s2 else s2
  let s4 := if r.clock.mode = s.clock.mode then s3 else handClockMode s.clock.mode r.clock.mode s3
  jump (now s1 - now s) (testHold s4)

/-! ### Loss of reference (R16, R25, R26) -/

/-- A reference is lost in LOCKED: HOLDOVER, with REF_LOST set, and the outputs follow (R25, R26, R100). That the flag
comes before the outputs is the model's choice, log entry 36. -/
def enterHoldover (s : State) : State :=
  handClockMode .locked .holdover
    (setFlag .refLost (mapClock (fun c => { c with mode := .holdover, holdoverSeconds := 0, pulseWatch := none }) s))

/-- The monitor sees no cycle of REF10 within 20 ticks (R16). While REF10 is PRESENT, it is lost: it becomes ABSENT, is
counted, and a LOCKED clock enters HOLDOVER (R25). While REF10 is ABSENT, this is a gap, which restarts the 1 ms (log entry
22). -/
def loseRef10 (s : State) : State :=
  if s.clock.ref10 then
    let s1 := mapClock (fun c => { c with
      ref10 := false, absentTicks := 0
      counters := { c.counters with ref10Losses := bump c.counters.ref10Losses } }) s
    if s.clock.mode = .locked then enterHoldover s1 else s1
  else mapClock (fun c => { c with absentTicks := 0 }) s

/-- REF10 restored: it becomes PRESENT once 1 ms has passed since it became ABSENT and since the last gap, and no clock state
changes (R16). -/
def restoreRef10 (s : State) : State :=
  mapClock (fun c => if c.ref10 = false ∧ ref10Settles ≤ c.absentTicks then { c with ref10 := true, absentTicks := 0 } else c) s

/-- The pulse watch expires (R26). -/
def expirePulseWatch (s : State) : State :=
  enterHoldover (mapClock (fun c => { c with
    counters := { c.counters with pulseTimeouts := bump c.counters.pulseTimeouts } }) s)

end Sys2Proof.Machine
end

