-- ==== Sys2Proof/Machine/Management.lean ====
section
/-!
DEFINITION. Management.lean: the control queue (R161), the taking and checking of a command (R162, R163), its one reply
(R164), and ABANDON HOLD at its arrival (R168).
-/

namespace Sys2Proof.Machine

/-! ### The control queue -/

/-- A control cell enters the control queue, or is dropped when 64 cells stand there (R161). -/
def queueCell (src : Source) (c : Cell) (s : State) : State :=
  if s.mgmt.controlQueue.length < Config.controlRoom then
    mapMgmt (fun m => { m with
      controlQueue := m.controlQueue ++ [c]
      counters := match src with
        | .feed => { m.counters with cellsFromFeed := bump m.counters.cellsFromFeed }
        | .localPort => { m.counters with cellsFromLocal := bump m.counters.cellsFromLocal } }) s
  else setFlag .controlOverflow (countMgmt (fun n => { n with overflowDrops := bump n.overflowDrops }) s)

/-- The originator is granted a group: its ANY flag is YES or the originator is in its grant set (R163). -/
def grantedIn (s : State) (g : Group) (originator : Byte) : Bool :=
  s.mgmt.grants[g].any || s.mgmt.grants[g].originators.getLsbD originator.toNat

/-- The originator of a cell is in 0 to 63 (R6, R163). -/
def originatorValid (c : Cell) : Bool := decide (c.originator.toNat < 64)

/-- The acceptance checks of R163, in their order: originator, command code, grant. None when the cell passes. -/
def acceptance (s : State) (c : Cell) : Option Status :=
  if originatorValid c = false then some .notGranted
  else
    match groupOf c.code with
    | none => some .badCommand
    | some g => if grantedIn s g c.originator then none else some .notGranted

/-- A refusal at originator, code or grant is counted (R163, R177). -/
def countAcceptanceRefusal (s : State) : State :=
  countMgmt (fun n => { n with acceptanceRefusals := bump n.acceptanceRefusals }) s

/-- A refusal at a later check is counted (R163, R177). -/
def countExecutionRefusal (s : State) : State :=
  countMgmt (fun n => { n with executionRefusals := bump n.executionRefusals }) s

/-! ### ABANDON HOLD (R168) -/

/-- The reply to ABANDON HOLD is placed at once when a place is free, and waits in the abandon reply place otherwise. -/
def placeOrWait (r : Report) (s : State) : State :=
  if placeFree s.mgmt then
    placeReport r (countMgmt (fun n => { n with repliesMade := bump n.repliesMade }) s)
  else mapMgmt (fun m => { m with abandonReply := some r }) s

/-- The HOLD in force, if any, ends with HOLD_ABANDONED and is counted. -/
def abandonInForce (s : State) : State :=
  if s.mgmt.hold.isSome then
    endHold .holdAbandoned (countMgmt (fun n => { n with holdsAbandoned := bump n.holdsAbandoned }) s)
  else s

/-- The checks of an ABANDON HOLD: its originator, and its grant in group SYSTEM (R168, R163). -/
def abandonAccepted (s : State) (c : Cell) : Bool := originatorValid c && grantedIn s 0 c.originator

/-- An ABANDON HOLD cell is dealt with at its arrival (R168). -/
def abandon (c : Cell) (s : State) : State :=
  if s.mgmt.abandonReply.isSome then
    setFlag .controlOverflow (countMgmt (fun n => { n with abandonDiscards := bump n.abandonDiscards }) s)
  else if abandonAccepted s c then placeOrWait (replyTo c .ok []) (abandonInForce s)
  else placeOrWait (replyTo c .notGranted []) (countAcceptanceRefusal s)

/-- Sorting hands on a control cell: ABANDON HOLD is dealt with at once, every other cell goes to the control queue
(R161, R168). -/
def handCell (src : Source) (c : Cell) (s : State) : State :=
  if c.code = abandonCode then abandon c s else queueCell src c s

/-- The control cell that sorting hands on as a command's step begins, if there is one (log entry 2). -/
def arrive (handed : Option Handed) (s : State) : State :=
  match handed with
  | none => s
  | some h => handCell h.source h.cell s

/-! ### Taking a command (R162, R163, R164) -/

/-- What the execution of an accepted command comes to. -/
inductive Result where
  /-- The command is refused with a status and changes nothing (R163). -/
  | refused (status : Status)
  /-- The command has taken effect, and its reply is OK with these result units. -/
  | done (units : List ResultUnit) (s : State)
  /-- The command stays in execution: HOLD and SWAP BANKS (R162). -/
  | stays (s : State)

/-- What a command does with its parameter units. -/
abbrev Command := List ParamUnit → State → Result

/-- A command can be taken: none is in execution and the report queue has a free place (R162). -/
def canTake (s : State) : Bool := s.mgmt.executing.isNone && placeFree s.mgmt

/-- The cell leaves the control queue and becomes the command in execution, which holds a report place (R162). -/
def takeHead (c : Cell) (rest : List Cell) (s : State) : State :=
  mapMgmt (fun m => { m with controlQueue := rest, executing := some c }) s

/-- The command in execution is checked and, if accepted, executed; unless it stays in execution, its one reply is made
(R163, R164). -/
def runCell (cmd : Command) (c : Cell) (s : State) : State :=
  match acceptance s c with
  | some status => endCommand status [] (countAcceptanceRefusal s)
  | none =>
    match cmd c.units s with
    | .refused status => endCommand status [] (countExecutionRefusal s)
    | .done units s1 => endCommand .ok units s1
    | .stays s1 => s1

/-- A command row: the cell at the head of the control queue is taken when it satisfies `isRow` and can be taken
(R162). Otherwise the step does not come about (log entry 3). -/
def takeCell (isRow : Cell → Bool) (cmd : Command) (handed : Option Handed) (s : State) : State :=
  let s1 := arrive handed s
  match s1.mgmt.controlQueue with
  | [] => s1
  | c :: rest => if isRow c && canTake s1 then runCell cmd c (takeHead c rest s1) else s1

/-- The command row of a command code. -/
def takeCommand (code : Byte) (cmd : Command) (handed : Option Handed) (s : State) : State :=
  takeCell (fun c => c.code == code) cmd handed s

/-- No other row takes the cell: its code is in no table, or its originator is out of range (R163). -/
def isUnknownCell (c : Cell) : Bool := (groupOf c.code).isNone || !originatorValid c || c.code == abandonCode

end Sys2Proof.Machine
end

