-- ==== Sys2Proof/Machine/Operands.lean ====
section
/-!
DEFINITION. Operands.lean: reading the parameters of a command: the parameter units of R7, the index ranges of R13 and
the clamping of R14.
-/

namespace Sys2Proof.Machine

/-- Parameter unit `k` of a cell. -/
def unitAt (u : List ParamUnit) (k : Nat) : ParamUnit := u.getD k { presence := 0, value := 0 }

/-- An optional field: none when the presence byte is other than 0 or 1 (R7). -/
def optField (u : List ParamUnit) (k : Nat) : Option (Option Nat) :=
  let x := unitAt u k
  if x.presence = 0 then some none
  else if x.presence = 1 then some (some x.value.toNat)
  else none

/-- A field that must be present: none when it is absent or its presence byte is other than 0 or 1 (R7). -/
def field (u : List ParamUnit) (k : Nat) : Option Nat := (optField u k).bind id

/-- `n` fields in a row that must be present, from unit `k` (R7). -/
def fields (u : List ParamUnit) (k : Nat) : Nat → Option (List Nat)
  | 0 => some []
  | n + 1 =>
    match field u k, fields u (k + 1) n with
    | some v, some l => some (v :: l)
    | _, _ => none

/-- A field of list type of 1 to `size` members at unit `k`: its count, then its members (R7). -/
def listField (u : List ParamUnit) (k size : Nat) : Option (List Nat) :=
  match field u k with
  | none => none
  | some n => if 1 ≤ n ∧ n ≤ size then fields u (k + 1) n else none

/-- A quantity clamped to the nearer limit of its range (R14). -/
def clamp (lo hi v : Nat) : Nat := max lo (min hi v)

/-- An optional index is absent or below its bound (R13). -/
def optBelow (bound : Nat) : Option Nat → Bool
  | none => true
  | some v => decide (v < bound)

/-- An optional quantity, clamped, or the parameter as it stands (R14, R24, R47, R82). -/
def clampOr (lo hi old : Nat) : Option Nat → Nat
  | none => old
  | some v => clamp lo hi v

/-- A named value NO or YES (R7). -/
def yes (v : Nat) : Bool := v == 1

/-- An index as the number of an output. -/
def asOutput (v : Nat) : Fin 4 := Fin.ofNat 4 v

/-- An index as the number of a context. -/
def asContext (v : Nat) : Fin 16 := Fin.ofNat 16 v

/-- An index as the number of a store context. -/
def asStore (v : Nat) : Fin 2 := Fin.ofNat 2 v

end Sys2Proof.Machine
end

