-- ==== Sys2Proof/Machine/Intake.lean ====
section
/-!
DEFINITION. Intake.lean: sorting (R49, R50, R51), route decoding (R56 to R62), appending to a segment (R127 to R129), and
the arrival of bytes and packets at a port (R31, R33).
-/

namespace Sys2Proof.Machine

/-! ### Route decoding (chapter 4) -/

/-- The bank that the active bank indicator names (R55). -/
def activeBank (r : RouteDecoder) : Table Route := if r.active then r.bank1 else r.bank0

/-- A route entry matches a packet (R57). -/
def routeMatches (src : Source) (pkt : Packet) (r : Route) : Bool :=
  r.valid && r.input == src && ((pkt.label ^^^ r.value) &&& ~~~r.mask) == 0 && !r.exclude.getLsbD pkt.cls.toNat

/-- The valid entries of the active bank that match a packet (R57). -/
def matching (s : State) (src : Source) (pkt : Packet) : List Route :=
  ((activeBank s.route).map Prod.snd).filter (routeMatches src pkt)

/-- The outputs 0 to 3 of an output set. -/
def routeOutputs (r : Route) : List (Fin 4) := allOutputs.filter fun k => r.outputs.getLsbD k.val

/-- The output set holds M (R54). -/
def routeMonitors (r : Route) : Bool := r.outputs.getLsbD 4

/-- The programme a copy to output `k` is tagged with, none for a plain copy (R61). -/
def copyTag (s : State) (r : Route) (k : Fin 4) : Option Nat :=
  match r.programme with
  | none => none
  | some p => if programmeOutput s p = some k then some p else none

/-- A copy handed on to an output is counted (R69). -/
def countCopy (tag : Option Nat) (s : State) : State :=
  match tag with
  | none => countRoute (fun c => { c with plainCopies := bump c.plainCopies }) s
  | some _ => countRoute (fun c => { c with programmeCopies := bump c.programmeCopies }) s

/-- The copy of a packet to output `k` is handed to its intake framing; it is a candidate for admission unless it is
refused there (R60, R61, R62, R86). -/
def handCopy (pkt : Packet) (r : Route) (k : Fin 4) (acc : List Candidate × State) : List Candidate × State :=
  let tag := copyTag acc.2 r k
  match frameCopy k (countCopy tag acc.2) with
  | (.refused, s1) => (acc.1, s1)
  | (.passed point, s1) => (acc.1 ++ [.output k point tag (r.rewrite.getD pkt.label)], s1)

/-- The matching entry names a programme whose record is not valid (R61). -/
def unbound (s : State) (r : Route) : Bool :=
  match r.programme with
  | none => false
  | some p => !(programme s p).valid

/-- One entry matched: one copy for each destination of its output set (R60, R61, R62). -/
def makeCopies (pkt : Packet) (r : Route) (s : State) : State :=
  let s1 := if unbound s r then
      countRoute (fun c => { c with unboundProgrammes := bump c.unboundProgrammes }) s
    else s
  if r.outputs = 0 then countRoute (fun c => { c with emptyRouteDiscards := bump c.emptyRouteDiscards }) s1
  else
    let r1 := (routeOutputs r).foldl (fun acc k => handCopy pkt r k acc) ([], s1)
    if routeMonitors r then
      admission pkt (r1.1 ++ [.monitor])
        (countRoute (fun c => { c with routeMonitorCopies := bump c.routeMonitorCopies }) r1.2)
    else admission pkt r1.1 r1.2

/-- The default action (R59). -/
def applyDefault (pkt : Packet) (s : State) : State :=
  match s.route.defaultAction with
  | .drop => countRoute (fun c => { c with defaultDrops := bump c.defaultDrops }) s
  | .monitor =>
    admission pkt [.monitor] (countRoute (fun c => { c with defaultMonitorCopies := bump c.defaultMonitorCopies }) s)

/-- The outcome of a decode by the number of entries that matched (R58). At a conflict the flag, with its report, comes
before the default action and its copy to M, which is the model's choice, log entry 39. -/
def routePacket (src : Source) (pkt : Packet) (s : State) : State :=
  match matching s src pkt with
  | [] => applyDefault pkt (countRoute (fun c => { c with noMatch := bump c.noMatch }) s)
  | [r] => makeCopies pkt r s
  | _ =>
    applyDefault pkt
      (setFlag .routeConflict (countRoute (fun c => { c with conflicts := bump c.conflicts }) s))

/-- The decode in progress of a source (section 4.1). -/
def setDecode (src : Source) (pkt : Option Packet) (s : State) : State :=
  match src with
  | .feed => mapRoute (fun r => { r with feedDecode := pkt }) s
  | .localPort => mapRoute (fun r => { r with localDecode := pkt }) s

/-- The decode of a packet, from its start to its end (R56, R69). It begins and ends within one step (log entry 10). -/
def decodePacket (src : Source) (pkt : Packet) (s : State) : State :=
  let s1 := countRoute (fun c =>
    match src with
    | .feed => { c with feedDecoded := bump c.feedDecoded }
    | .localPort => { c with localDecoded := bump c.localDecoded }) (setDecode src (some pkt) s)
  setDecode src none (routePacket src pkt s1)

/-! ### The Segment Store's appends (R127, R128, R129) -/

/-- A segment's capacity in packets (R121). -/
def capacity (g : Segment) : Nat := g.blocks * Config.blockPackets

/-- Replace store context `i`. -/
def setFill (i : Fin 2) (x : Option Fill) (s : State) : State :=
  mapStore (fun t => { t with contexts := t.contexts.set i x }) s

/-- The segment of store context `i` is full: it becomes READY, the context IDLE, and SEGMENT_FULL is set (R129). -/
def fillUp (i : Fin 2) (g : Nat) (s : State) : State :=
  setFlag .segmentFull
    (countStore (fun c => { c with completedFull := bump c.completedFull })
      (setFill i none (mapSegment g (fun x => { x with state := .ready }) s)))

/-- The packet is written at the index equal to the packet count (R120, R127). -/
def writeStored (g : Nat) (pkt : Packet) (s : State) : State :=
  mapStore (fun t => { t with dram := tablePut none t.dram (packetPlace s g (segment s g).packets) (some pkt) }) s

/-- A packet is appended to the segment of FILLING store context `i` (R127, R128, R129). -/
def appendPacket (i : Fin 2) (f : Fill) (pkt : Packet) (s : State) : State :=
  let g := f.segment
  let err := continuityError (tableGet {} f.continuity pkt.label.toNat) pkt
  let s1 := mapSegment g (fun x => { x with
      packets := x.packets + 1
      a0 := if pkt.c && x.a0.isNone then some (clockSample pkt) else x.a0
      errors := if err then hold16 x.errors else x.errors }) (writeStored g pkt s)
  let s2 := countStore (fun c => { c with
      packetsStored := bump c.packetsStored
      continuityErrors := if err then bump c.continuityErrors else c.continuityErrors }) s1
  let s3 := setFill i (some { f with
      continuity := tablePut {} f.continuity pkt.label.toNat { last := pkt.seq, seen := true } }) s2
  if capacity (segment s3 g) ≤ (segment s3 g).packets then fillUp i g s3 else s3

/-! ### Sorting (R49, R50) -/

/-- The valid programme record whose cue label is `l` (R49, R107). -/
def cueProgramme (s : State) (l : Label) : Option Nat :=
  (s.progs.records.find? fun e => e.2.valid && e.2.cueLabel == some l).map Prod.fst

/-- The FILLING store context whose label set holds `l` (R50, R122). -/
def storeContextOf (s : State) (l : Label) : Option (Fin 2 × Fill) :=
  let holds (f : Option Fill) := match f with | none => false | some x => x.labels.contains l
  match s.store.contexts[(0 : Fin 2)], s.store.contexts[(1 : Fin 2)] with
  | some f, g => if holds (some f) then some (0, f) else (match g with | some h => if holds (some h) then some (1, h) else none | none => none)
  | none, some h => if holds (some h) then some (1, h) else none
  | none, none => none

/-- A packet on a reserved label is discarded and counted (R49, R50). -/
def discardReserved (s : State) : State := mapFeed (fun u => { u with reservedDiscards := bump u.reservedDiscards }) s

/-- A packet that the gate takes is sorted by its label (R49). -/
def sortFeed (pkt : Packet) (s : State) : State :=
  if pkt.label = controlLabel then handCell .feed (cellOf pkt) s
  else if isReserved pkt.label then discardReserved s
  else if pkt.label = timingLabel then forAll allOutputs (takeTiming (timingOf pkt)) s
  else if pkt.label = fillLabel then s
  else
    match cueProgramme s pkt.label with
    | some p => takeCue p pkt s
    | none => decodePacket .feed pkt s

/-- A good-lead packet of the local port is sorted by its label (R50). -/
def sortLocal (pkt : Packet) (s : State) : State :=
  if pkt.label = controlLabel then handCell .localPort (cellOf pkt) s
  else if isReserved pkt.label then discardReserved s
  else if pkt.label = timingLabel then mapFeed (fun u => { u with localTimingDiscards := bump u.localTimingDiscards }) s
  else if pkt.label = fillLabel then s
  else
    match storeContextOf s pkt.label with
    | some (i, f) => appendPacket i f pkt s
    | none =>
      match cueProgramme s pkt.label with
      | some _ => mapFeed (fun u => { u with localCueDiscards := bump u.localCueDiscards }) s
      | none => decodePacket .localPort pkt s

/-! ### Arrivals (R31, R33) -/

/-- A good-lead packet of feed `x`: the continuity check, then the gate, then sorting (R31). -/
def feedPacket (x : Feed) (pkt : Packet) (s : State) : State :=
  match gate x pkt (checkContinuity x pkt s) with
  | (true, s1) => sortFeed pkt s1
  | (false, s1) => s1

/-- A packet of 160 bytes arrives at a port in UP and is handled by its lead byte (R31, R33). -/
def packetArrived (p : Port) (bytes : List Byte) (s : State) : State :=
  if byteAt bytes 0 = Config.lead then
    let pkt := packetOfBytes bytes
    let s1 := goodLead p s
    match p with
    | .a => feedPacket .a pkt s1
    | .b => feedPacket .b pkt s1
    | .l => sortLocal pkt s1
  else wrongLead p s

/-- Replace the packet in assembly at a port. -/
def setAssembly (p : Port) (l : List Byte) (s : State) : State := mapPort p (fun x => { x with assembly := l }) s

/-- In UP, arriving bytes are gathered; a packet arrives when its 160th byte does (R31). -/
def gather (p : Port) (bytes : List Byte) (s : State) : State :=
  let l := (portState s.feed p).assembly ++ bytes
  if l.length = Config.packetBytes then packetArrived p l (setAssembly p [] s) else setAssembly p l s

/-- A byte arrives at a port (R31). -/
def arriveByte (p : Port) (s : State) (b : Byte) : State :=
  match (portState s.feed p).alignment with
  | .down => startSearch p b s
  | .seeking => searchByte p b s
  | .up => gather p [b] s

/-- Bytes arrive at a port one after the other; in UP, as far as the packet in assembly goes, they are gathered
together (R31, log entry 6). -/
def arriveBytes (p : Port) (bytes : List Byte) (s : State) : State :=
  if (portState s.feed p).alignment = .up
      ∧ (portState s.feed p).assembly.length + bytes.length = Config.packetBytes ∧ bytes ≠ [] then
    gather p bytes s
  else bytes.foldl (arriveByte p) s

end Sys2Proof.Machine
end

