-- ==== Sys2Proof/Machine/Reset.lean ====
section
/-!
DEFINITION. Reset.lean: POWER_ON, RESET_PIN and SITE_RESET (R29, R52, R68, R80, R105, R118, R134, R159, R176, R177).
-/

namespace Sys2Proof.Machine

/-- Output `k` after a reset: its free-running grid is anchored at the reset (R105). -/
def outputAfterReset (anchor : Int) (k : Fin 4) : Output := { multiplex := k, grid := some (gridFrom resetRate anchor) }

/-- SITE RESET at the Site Clock: site time, the clock state and the pulse watch are kept (R29). -/
def clockAfterSiteReset (c : SiteClock) : SiteClock :=
  { c with stepLimit := 20, holdoverExp := 6, pendingSeconds := none, counters := {} }

/-- SITE RESET at a programme record: a record that had an owner is marked (R118). -/
def programmeAfterSiteReset (r : Programme) : Programme :=
  { r with owner := none, tracker := none, discontinuity := r.discontinuity || r.owner.isSome }

/-- A segment that loses its fill is EMPTY, with its block range kept (R131, R134). -/
def emptied (g : Segment) : Segment := { g with state := .empty, packets := 0, a0 := none, errors := 0 }

/-- SITE RESET at a segment record (R134). -/
def segmentAfterSiteReset (g : Segment) : Segment :=
  { (if g.state = .filling then emptied g else g) with uses := 0 }

/-- SITE RESET at the Segment Store: the records and the blocks are kept (R134). -/
def storeAfterSiteReset (t : SegmentStore) : SegmentStore :=
  { segments := tableMap {} segmentAfterSiteReset t.segments, dram := t.dram }

/-- SITE RESET at the Management Unit: the acceptance table is kept, and the command in execution, SITE RESET itself,
still has its reply to come (R176). -/
def mgmtAfterSiteReset (m : Management) : Management :=
  { grants := m.grants, executing := m.executing, resetCause := .siteReset }

/-- Every block is reset at one moment by SITE RESET (R176). -/
def siteReset (s : State) : State :=
  { clock := clockAfterSiteReset s.clock
    feed := {}
    route := {}
    pool := {}
    outs := Vector.ofFn (outputAfterReset (now s))
    progs := { records := tableMap {} programmeAfterSiteReset s.progs.records }
    store := storeAfterSiteReset s.store
    engine := {}
    mgmt := mgmtAfterSiteReset s.mgmt
    pending := s.pending }

/-- SITE RESET carries no field; its reply is made once every block is reset (R176). -/
def cmdSiteReset : Command := fun _ s => .done [] (siteReset s)

/-- POWER_ON (R177): every block has its power-on values. What the sender has waiting stays. -/
def execPowerOn (s : State) : Host.Outcome State Fault Refusal := .next { State.reset with pending := s.pending }

/-- The part after the RESET pin: as after power-on, but for the reset cause and for the DRAM, which holds whatever it
holds (R134, R177). -/
def pinReset (s : State) : State :=
  { State.reset with
    store := { ({} : SegmentStore) with dram := s.store.dram }
    mgmt := { ({} : Management) with resetCause := .resetPin }
    pending := s.pending }

/-- RESET_PIN (R177). -/
def execResetPin (s : State) : Host.Outcome State Fault Refusal := .next (pinReset s)

/-- SITE_RESET (R176). -/
def execSiteReset (handed : Option Handed) (s : State) : Host.Outcome State Fault Refusal :=
  .next (takeCommand 0x09 cmdSiteReset handed s)

end Sys2Proof.Machine
end

