-- ==== Sys2Proof/Machine/Events.lean ====
section
/-!
DEFINITION. Events.lean: the internal events of the part: when each is due, and what it does. The timers of the Site
Clock, the ports and the HOLD, the events of the outputs, the monitor port and the end of SWAP BANKS.
-/

namespace Sys2Proof.Machine

/-! ### Timers of the Site Clock, the ports and the HOLD -/

/-- The ticks until a timer that runs reaches its limit. -/
def timerLeft (limit : Nat) (timer : Option Nat) : Option Nat := timer.map (limit - ·)

/-- A timer is running and has reached its limit. -/
def timerDue (limit : Nat) (timer : Option Nat) : Bool :=
  match timer with
  | none => false
  | some c => decide (limit ≤ c)

/-- A port's loss timer has reached its limit (R34). -/
def lossTimerDue (p : Port) (s : State) : Bool := timerDue (lossLimit s.feed) (portState s.feed p).lossTimer

/-- The pulse watch runs, in LOCKED, and has reached its limit (R26). -/
def pulseWatchDue (s : State) : Bool := s.clock.mode == .locked && timerDue Config.pulseWatchLimit s.clock.pulseWatch

/-- The timeout of a HOLD in ticks, none when it has no limit (R167). -/
def holdLimit (h : Hold) : Option Nat := if h.timeout = 0 then none else some (h.timeout * Config.ticksPerMs)

/-- The HOLD in force has a timeout that has run out (R167). -/
def holdTimeoutDue (s : State) : Bool :=
  match s.mgmt.hold with
  | none => false
  | some h =>
    match holdLimit h with
    | none => false
    | some l => decide (l ≤ h.elapsed)

/-- The ticks until the timeout of the HOLD in force runs out (R167). -/
def holdLeft (s : State) : Option Nat := s.mgmt.hold.bind fun h => (holdLimit h).map (· - h.elapsed)

/-- The HOLD in force ends with HOLD_TIMEOUT, and is counted (R167). -/
def timeOutHold (s : State) : State :=
  endHold .holdTimeout (countMgmt (fun n => { n with holdTimeouts := bump n.holdTimeouts }) s)

/-! ### Events of the outputs -/

/-- The next slot start of output `k`, when its next event is a slot start (R88). -/
def slotAt (s : State) (k : Fin 4) : Option Int :=
  match nextEvent s.outs[k] with
  | some (.slot g) => some g
  | _ => none

/-- The release start of output `k`'s waiting record, when its next event is that frame's start (R92, R98). -/
def frameAt (s : State) (k : Fin 4) : Option Int :=
  match nextEvent s.outs[k] with
  | some (.frame f) => some f
  | _ => none

/-- An instant is given and has come. -/
def hasCome (s : State) (t : Option Int) : Bool :=
  match t with
  | none => false
  | some x => decide (x ≤ now s)

/-- Output `k` begins the slot whose start has come, and the HOLD in force is tested once it is decided (R88, R166). -/
def startSlot (k : Fin 4) (s : State) : State :=
  match slotAt s k with
  | none => s
  | some g => if g ≤ now s then testHold (beginSlot k false g s) else s

/-- Output `k` starts the waiting record whose release start has come, and the HOLD in force is tested as the frame is
begun (R92, R98, R166). -/
def startFrameNow (k : Fin 4) (s : State) : State :=
  if hasCome s (frameAt s k) then testHold (startWaiting k s) else s

/-- The slot in progress at output `k` has come to its own end (R75). -/
def slotEndDue (s : State) (k : Fin 4) : Bool :=
  match s.outs[k].slot with
  | none => false
  | some x => x.remaining == 0

/-! ### The monitor port -/

/-- The monitor port has sent its packet's last byte (R78). -/
def monitorSentDue (s : State) : Bool :=
  match s.pool.port with
  | none => false
  | some x => x.remaining == 0

/-- The head monitor entry leaves, its reference is released and counted (R77). -/
def releaseMonitorHead (s : State) : State :=
  match s.pool.monitorQueue with
  | [] => s
  | b :: rest =>
    releaseBuffer b (countPool (fun c => { c with monitorReleases := bump c.monitorReleases })
      (mapPool (fun p => { p with monitorQueue := rest }) s))

/-- The monitor port's packet has gone out; the port chooses its next packet (R77, R78). -/
def finishMonitor (s : State) : State :=
  match s.pool.port with
  | none => s
  | some x =>
    choosePort (mapPool (fun p => { p with port := none }) (if x.isCopy then releaseMonitorHead s else s))

/-! ### The end of SWAP BANKS -/

/-- The number of the active bank (R55). -/
def activeNumber (r : RouteDecoder) : Nat := if r.active then 1 else 0

/-- How many entries of a bank are valid. -/
def validRoutes (bank : Table Route) : Nat := tableCount Route.valid bank

/-- SWAP BANKS is in execution, and every decode that began before its change has ended (R66). -/
def swapDue (s : State) : Bool :=
  (match s.mgmt.executing with | none => false | some c => c.code == 0x22)
    && s.route.feedDecode.isNone && s.route.localDecode.isNone

/-- SWAP BANKS ends: its reply is made (R66). -/
def completeSwap (s : State) : State :=
  endCommand .ok [natUnit (activeNumber s.route), natUnit (validRoutes (activeBank s.route))] s

end Sys2Proof.Machine
end

