-- ==== Sys2Proof/Machine/Codes.lean ====
section
/-!
DEFINITION. Codes.lean: the positions of named values in their lists, which replies carry and fields name (R7).
-/

namespace Sys2Proof.Machine

/-- Alignment states (R173). -/
def alignmentCode : Alignment → Nat
  | .down => 0
  | .seeking => 1
  | .up => 2

/-- Selection states, in the order of section 3.4 (R48, R173). -/
def selectionCode : Selection → Nat
  | .active .a => 0
  | .active .b => 1
  | .handoverTo .a => 2
  | .handoverTo .b => 3
  | .noFeed => 4

/-- Clock states (R173). -/
def clockCode : ClockMode → Nat
  | .free => 0
  | .locked => 1
  | .holdover => 2
  | .expired => 3

/-- Sync states (R173). -/
def syncCode : Sync → Nat
  | .freeRun => 0
  | .acquiring => 1
  | .locked => 2
  | .holdover => 3
  | .muted => 4

/-- Reset causes (R173). -/
def resetCauseCode : ResetCause → Nat
  | .powerOn => 0
  | .resetPin => 1
  | .siteReset => 2

/-- Fallbacks (R82). -/
def fallbackCode : Fallback → Nat
  | .mute => 0
  | .freeRun => 1

/-- Switching modes (R47). -/
def switchModeCode : SwitchMode → Nat
  | .auto => 0
  | .manual => 1

/-- Default actions (R67). -/
def defaultActionCode : DefaultAction → Nat
  | .drop => 0
  | .monitor => 1

/-- Segment states (R132). -/
def segmentStateCode : SegmentState → Nat
  | .free => 0
  | .empty => 1
  | .filling => 2
  | .ready => 3

/-- Context states (R143). -/
def contextStateCode : ContextState → Nat
  | .idle => 0
  | .armed => 1
  | .active => 2
  | .halted => 3

/-- Start modes (R143). -/
def startModeCode : StartMode → Nat
  | .cue => 0
  | .frame => 1

/-- Halt reasons (R143). -/
def haltReasonCode : HaltReason → Nat
  | .segmentNotReady => 0
  | .badLink => 1
  | .emptyEntry => 2

/-- FEED or LOCAL (R54). -/
def sourceOf (v : Nat) : Source := if v = 0 then .feed else .localPort

/-- A or B (R48). -/
def feedOf (v : Nat) : Feed := if v = 0 then .a else .b

/-- MUTE or FREE_RUN (R82). -/
def fallbackOf (v : Nat) : Fallback := if v = 0 then .mute else .freeRun

/-- AUTO or MANUAL (R47). -/
def switchModeOf (v : Nat) : SwitchMode := if v = 0 then .auto else .manual

/-- DROP or MONITOR (R67). -/
def defaultActionOf (v : Nat) : DefaultAction := if v = 0 then .drop else .monitor

/-- CUE or FRAME (R139). -/
def startModeOf (v : Nat) : StartMode := if v = 0 then .cue else .frame

/-- An optional number as a result unit. -/
def optUnit (v : Option Nat) : ResultUnit := v.map (BitVec.ofNat 40)

/-- A bit vector as a result unit. -/
def bitsUnit {w : Nat} (v : BitVec w) : ResultUnit := natUnit v.toNat

/-- A splice point as a result unit: frame x 65,536 + slot (R143). -/
def pointUnit (x : Point) : ResultUnit := natUnit (x.1.toNat * 65536 + x.2)

end Sys2Proof.Machine
end

