-- ==== Sys2Proof/Machine/ClockCommands.lean ====
section
/-!
DEFINITION. ClockCommands.lean: SET_SECONDS and SET_CLOCK_POLICY (R23, R24).
-/

namespace Sys2Proof.Machine

/-- SET SECONDS: the value, clamped, becomes the pending seconds value (R23). -/
def cmdSetSeconds : Command := fun u s =>
  match field u 0 with
  | none => .refused .badCommand
  | some v =>
    let taken := clamp 0 4294967295 v
    .done [natUnit taken] (mapClock (fun c => { c with pendingSeconds := some (BitVec.ofNat 32 taken) }) s)

/-- The policy of SET CLOCK POLICY: a field that is present sets its parameter, clamped (R24). -/
def withClockPolicy (limit exponent : Option Nat) (s : State) : State :=
  mapClock (fun c => { c with
    stepLimit := clampOr 0 1000 c.stepLimit limit
    holdoverExp := clampOr 0 12 c.holdoverExp exponent }) s

/-- SET CLOCK POLICY: a new exponent that the holdover has already reached expires it at once (R24). -/
def cmdSetClockPolicy : Command := fun u s =>
  match optField u 0, optField u 1 with
  | some limit, some exponent =>
    let s1 := withClockPolicy limit exponent s
    .done [natUnit s1.clock.stepLimit, natUnit s1.clock.holdoverExp]
      (if exponent.isSome && holdoverDue s1 then expireHoldover s1 else s1)
  | _, _ => .refused .badCommand

/-- SET_SECONDS (R23). -/
def execSetSeconds (handed : Option Handed) (s : State) : Host.Outcome State Fault Refusal :=
  .next (takeCommand 0x10 cmdSetSeconds handed s)

/-- SET_CLOCK_POLICY (R24). -/
def execSetClockPolicy (handed : Option Handed) (s : State) : Host.Outcome State Fault Refusal :=
  .next (takeCommand 0x11 cmdSetClockPolicy handed s)

end Sys2Proof.Machine
end

