-- ==== Sys2Proof/Machine/ContextCommands.lean ====
section
/-!
DEFINITION. ContextCommands.lean: the six commands of the Insertion Engine (R137, R139 to R143).
-/

namespace Sys2Proof.Machine

/-! ### WRITE PLAY ENTRY -/

/-- Context `c` is ACTIVE and its position lies in entry `e` (R136). -/
def liesIn (s : State) (e : Nat) (c : Fin 16) : Bool :=
  (context s c).state == .active &&
    match (context s c).position with
    | .at_ e' _ _ => e' == e
    | _ => false

/-- How many ACTIVE contexts have a position that lies in entry `e` (R137). -/
def positionsIn (s : State) (e : Nat) : Nat := (allContexts.filter (liesIn s e)).length

/-- Replace play entry `e`. -/
def putPlayEntry (e : Nat) (x : PlayEntry) (s : State) : State :=
  mapEngine (fun n => { n with entries := tablePut {} n.entries e x }) s

/-- WRITE PLAY ENTRY (R137). -/
def cmdWritePlayEntry : Command := fun u s =>
  match field u 0, optField u 1, field u 2, optField u 3 with
  | some e, some g, some repeats, some next =>
    if 512 ≤ e ∨ optBelow 1024 g = false ∨ optBelow 512 next = false then .refused .range
    else if (playEntry s e).segment ≠ g ∧ 0 < positionsIn s e then .refused .busy
    else
      let taken := clamp 1 16 repeats
      .done [natUnit taken, natUnit (positionsIn s e)]
        (putPlayEntry e { segment := g, repeats := taken, next := next } s)
  | _, _, _, _ => .refused .badCommand

/-! ### CONFIGURE CONTEXT -/

/-- The pair of labels in a unit: the first label x 4,096 plus the second (R7). -/
def labelPair (v : Nat) : Nat × Nat := (v / 4096, v % 4096)

/-- A pair whose two labels are traffic labels (R139). -/
def pairInRange (x : Nat × Nat) : Bool := decide (x.1 < trafficLabels) && decide (x.2 < trafficLabels)

/-- CONFIGURE CONTEXT (R139). -/
def cmdConfigureContext : Command := fun u s =>
  match fields u 0 4, optField u 4, fields u 5 3, listField u 8 4 with
  | some [c, p, priority, mode], some filter, some [lead, head, rearm], some list =>
    let pairs := list.map labelPair
    if 16 ≤ c ∨ 64 ≤ p ∨ 2 ≤ mode ∨ optBelow 256 filter = false ∨ 512 ≤ head ∨ 2 ≤ rearm
        ∨ pairs.all pairInRange = false then .refused .range
    else if (context s (asContext c)).state ≠ .idle then .refused .busy
    else if (pairs.map Prod.fst).eraseDups.length < pairs.length then .refused .duplicate
    else
      let takenPriority := clamp 0 7 priority
      let takenLead := clamp 0 2000000 lead
      .done [natUnit takenPriority, natUnit takenLead]
        (mapContext (asContext c) (fun x => { x with
          programme := p
          priority := takenPriority
          mode := startModeOf mode
          filter := filter.map (BitVec.ofNat 8)
          lead := takenLead
          labelMap := pairs.map fun e => (BitVec.ofNat 12 e.1, BitVec.ofNat 12 e.2)
          chainHead := head
          rearm := yes rearm
          latch := none
          haltReason := none }) s)
  | _, _, _, _ => .refused .badCommand

/-! ### START CONTEXT -/

/-- The context becomes ARMED (R140). -/
def arm (c : Fin 16) (s : State) : State := mapContext c (fun x => { x with state := .armed }) s

/-- A splice is pending, as a result unit (R140). -/
def pendingUnit (s : State) (c : Fin 16) : ResultUnit := boolUnit (context s c).splice.isSome

/-- The checks that START CONTEXT makes of the context's state and its programme (R140). -/
def startRefusal (s : State) (c : Fin 16) : Option Status :=
  if (context s c).state ≠ .idle then some .state
  else if (programme s (context s c).programme).valid then none
  else some .notReady

/-- START CONTEXT in CUE mode: the latched cue, if any, is taken out of the latch (R140). -/
def startCue (c : Fin 16) (s : State) : Result :=
  match startRefusal s c with
  | some r => .refused r
  | none =>
    let s1 := takeLatch c (arm c s)
    .done [none, pendingUnit s1 c] s1

/-- START CONTEXT in FRAME mode, with its three fields as they were sent (R140). -/
def startFrameMode (c : Fin 16) (frame slot duration : Option Nat) (s : State) : Result :=
  if optBelow 65536 frame = false ∨ optBelow 65535 slot = false then .refused .range
  else
    match frame, slot, duration with
    | some n, some j, some d =>
      match startRefusal s c with
      | some r => .refused r
      | none =>
        let taken := clamp 1 16777215 d
        let s1 := offerSplice c { point := (BitVec.ofNat 16 n, j), duration := taken, id := none } (arm c s)
        .done [natUnit taken, pendingUnit s1 c] s1
    | _, _, _ => .refused .badCommand

/-- START CONTEXT (R140). The units after the first are read in FRAME mode alone. -/
def cmdStartContext : Command := fun u s =>
  match field u 0 with
  | none => .refused .badCommand
  | some v =>
    if 16 ≤ v then .refused .range
    else if (context s (asContext v)).mode = .cue then startCue (asContext v) s
    else
      match optField u 1, optField u 2, optField u 3 with
      | some frame, some slot, some duration => startFrameMode (asContext v) frame slot duration s
      | _, _, _ => .refused .badCommand

/-! ### STOP CONTEXT and WAKE CONTEXT -/

/-- Stop context `c` (R141). -/
def stopContext (c : Fin 16) (s : State) : State :=
  match (context s c).state with
  | .idle => s
  | .armed => mapContext c (fun x => { x with state := .idle, splice := none, latch := none }) s
  | .active => stopActive [c] s
  | .halted => mapContext c (fun x => { x with state := .idle, latch := none }) s

/-- STOP CONTEXT (R141). -/
def cmdStopContext : Command := fun u s =>
  match field u 0 with
  | none => .refused .badCommand
  | some v =>
    if 16 ≤ v then .refused .range
    else
      let s1 := stopContext (asContext v) s
      .done [natUnit (contextStateCode (context s1 (asContext v)).state)] s1

/-- A position is at-end. -/
def isAtEnd : Position → Bool
  | .atEnd _ => true
  | _ => false

/-- Resume a chain that has reached its end: the next link of the last entry is read as it stands (R142). -/
def wakeContext (c : Fin 16) (s : State) : State :=
  match (context s c).position with
  | .atEnd e =>
    match (playEntry s e).next with
    | none => s
    | some e' =>
      match entryCheck s e' with
      | some r => haltContext c r s
      | none => setPosition c (.at_ e' 1 0) s
  | _ => s

/-- WAKE CONTEXT (R142). -/
def cmdWakeContext : Command := fun u s =>
  match field u 0 with
  | none => .refused .badCommand
  | some v =>
    if 16 ≤ v then .refused .range
    else
      let c := asContext v
      if (context s c).state = .idle ∨ (context s c).state = .halted then .refused .state
      else
        let s1 := if (context s c).state = .active then wakeContext c s else s
        .done [natUnit (contextStateCode (context s1 c).state), boolUnit (isAtEnd (context s1 c).position)] s1

/-! ### CONTEXT STATUS -/

/-- The role of a context: none, owner or shadowed (R143). -/
def roleCode (s : State) (c : Fin 16) : Nat :=
  if (context s c).state ≠ .active then 0
  else if (programme s (context s c).programme).owner = some c then 1
  else 2

/-- Result units 15 to 17: the entry, the repeat number and the packet index of a position (R143). -/
def positionUnits : Position → List ResultUnit
  | .absent => [none, none, none]
  | .at_ e k i => [natUnit e, natUnit k, natUnit i]
  | .atEnd e => [natUnit e, none, none]

/-- The twenty-five result units of CONTEXT STATUS (R143). -/
def contextUnits (s : State) (c : Fin 16) : List ResultUnit :=
  let x := context s c
  [natUnit (contextStateCode x.state), natUnit (roleCode s c), natUnit x.programme, natUnit x.priority,
    natUnit (startModeCode x.mode), x.filter.bind bitsUnit, natUnit x.lead, natUnit x.chainHead, boolUnit x.rearm,
    x.latch.bind (fun q => bitsUnit q.id), x.latch.bind (fun q => pointUnit q.point),
    x.latch.bind (fun q => natUnit q.duration),
    x.splice.bind (fun y => y.id.bind bitsUnit), x.splice.bind (fun y => pointUnit y.point),
    x.splice.bind (fun y => natUnit y.duration)]
  ++ positionUnits x.position ++
  [natUnit x.countdown, some x.offset, optUnit (x.haltReason.map haltReasonCode), countUnit x.completed,
    natUnit x.substituted, natUnit x.endSlots, natUnit x.otherSlots]

/-- CONTEXT STATUS (R143). -/
def cmdContextStatus : Command := fun u s =>
  match field u 0 with
  | none => .refused .badCommand
  | some v => if 16 ≤ v then .refused .range else .done (contextUnits s (asContext v)) s

/-! ### The rows -/

/-- WRITE_PLAY_ENTRY (R137). -/
def execWritePlayEntry (handed : Option Handed) (s : State) : Host.Outcome State Fault Refusal :=
  .next (takeCommand 0x40 cmdWritePlayEntry handed s)

/-- CONFIGURE_CONTEXT (R139). -/
def execConfigureContext (handed : Option Handed) (s : State) : Host.Outcome State Fault Refusal :=
  .next (takeCommand 0x41 cmdConfigureContext handed s)

/-- START_CONTEXT (R140). -/
def execStartContext (handed : Option Handed) (s : State) : Host.Outcome State Fault Refusal :=
  .next (takeCommand 0x42 cmdStartContext handed s)

/-- STOP_CONTEXT (R141). -/
def execStopContext (handed : Option Handed) (s : State) : Host.Outcome State Fault Refusal :=
  .next (takeCommand 0x43 cmdStopContext handed s)

/-- WAKE_CONTEXT (R142). -/
def execWakeContext (handed : Option Handed) (s : State) : Host.Outcome State Fault Refusal :=
  .next (takeCommand 0x44 cmdWakeContext handed s)

/-- CONTEXT_STATUS (R143). -/
def execContextStatus (handed : Option Handed) (s : State) : Host.Outcome State Fault Refusal :=
  .next (takeCommand 0x45 cmdContextStatus handed s)

end Sys2Proof.Machine
end

