-- ==== Sys2Proof/Machine/FeedCommands.lean ====
section
/-!
DEFINITION. FeedCommands.lean: SET_FEED_POLICY and SELECT_FEED (R47, R48).
-/

namespace Sys2Proof.Machine

/-- The three ports in order. -/
def allPorts : List Port := [.a, .b, .l]

/-- A loss timer that stands at or above a new limit expires as the command executes (R47). -/
def settleLossTimer (p : Port) (s : State) : State := if lossTimerDue p s then expireLossTimer p s else s

/-- SET FEED POLICY (R47). Several timers that stand at or above a new limit expire in the order A, B, L, which is the
model's choice, log entry 38. -/
def cmdSetFeedPolicy : Command := fun u s =>
  match optField u 0, optField u 1, optField u 2 with
  | some mode, some k, some t =>
    if optBelow 2 mode = false then .refused .range
    else
      let s1 := mapFeed (fun f => { f with
        mode := match mode with | none => f.mode | some v => switchModeOf v
        threshold := clampOr 1 60 f.threshold k
        lossExp := clampOr 0 10 f.lossExp t }) s
      .done [natUnit s1.feed.threshold, natUnit s1.feed.lossExp, natUnit (switchModeCode s1.feed.mode)]
        (if t.isSome then forAll allPorts settleLossTimer s1 else s1)
  | _, _, _ => .refused .badCommand

/-- The selection after SELECT FEED `x` when `x` is UP and not already sought; none where the command is NOT_READY
(R48). -/
def selectFeed (x : Feed) (s : State) : Option State :=
  match s.feed.selection with
  | .active y => if y = x then some s else if feedUp s x then some (beginHandover x s) else none
  | .handoverTo y =>
    if y = x then some s
    else if feedUp s x then
      match s.feed.handover.phase with
      | .running => some (countReversal (setSelection (.active x) {} s))
      | .stopped =>
        some (countReversal (setSelection (.handoverTo x)
          { oldFeed := some y, phase := .stopped, target := s.feed.handover.target } s))
    else none
  | .noFeed => none

/-- SELECT FEED (R48). -/
def cmdSelectFeed : Command := fun u s =>
  match field u 0 with
  | none => .refused .badCommand
  | some v =>
    if 2 ≤ v then .refused .range
    else
      match selectFeed (feedOf v) s with
      | none => .refused .notReady
      | some s1 => .done [natUnit (selectionCode s1.feed.selection)] s1

/-- SET_FEED_POLICY (R47). -/
def execSetFeedPolicy (handed : Option Handed) (s : State) : Host.Outcome State Fault Refusal :=
  .next (takeCommand 0x26 cmdSetFeedPolicy handed s)

/-- SELECT_FEED (R48). -/
def execSelectFeed (handed : Option Handed) (s : State) : Host.Outcome State Fault Refusal :=
  .next (takeCommand 0x27 cmdSelectFeed handed s)

end Sys2Proof.Machine
end

