-- ==== Sys2Proof/Machine/OutputCommands.lean ====
section
/-!
DEFINITION. OutputCommands.lean: SET_OUTPUT, OUTPUT_MUTE and OUTPUT_RESTART (R82, R83, R103, R104).
-/

namespace Sys2Proof.Machine

/-! ### SET OUTPUT -/

/-- The fields of SET OUTPUT after the output number (R82). -/
structure OutputSettings where
  multiplex   : Option Nat
  offset      : Option Nat
  tolerance   : Option Nat
  lateLimit   : Option Nat
  fallback    : Option Nat
  defaultRate : Option Nat
  share       : Option Nat
  deriving DecidableEq, Repr

/-- Read the optional fields of SET OUTPUT; none when a presence byte is bad (R7, R82). -/
def outputSettings (u : List ParamUnit) : Option OutputSettings := do
  let multiplex ← optField u 1
  let offset ← optField u 2
  let tolerance ← optField u 3
  let lateLimit ← optField u 4
  let fallback ← optField u 5
  let defaultRate ← optField u 6
  let share ← optField u 7
  some { multiplex, offset, tolerance, lateLimit, fallback, defaultRate, share }

/-- A changed multiplex number closes the open intake frame (R83). -/
def withMultiplex (v : Option Nat) (o : Output) : Output :=
  match v with
  | none => o
  | some m =>
    { o with multiplex := Fin.ofNat 4 m, openFrame := if Fin.ofNat 4 m = o.multiplex then o.openFrame else none }

/-- A new default rate governs an output in FREE_RUN from its next slot start, with p = 0 there (R83). -/
def withDefaultRate (v : Option Nat) (o : Output) : Output :=
  match v with
  | none => o
  | some r =>
    let rate := clamp 1000000 80000000 r
    { o with
      defaultRate := rate
      grid := if o.sync = .freeRun then o.grid.map (fun g => gridFrom rate g.next) else o.grid }

/-- The parameters of an output after SET OUTPUT (R82, R83). -/
def configureOutput (x : OutputSettings) (o : Output) : Output :=
  withDefaultRate x.defaultRate
    (withMultiplex x.multiplex
      { o with
        offset := clampOr 0 19999999 o.offset x.offset
        tolerance := clampOr 0 1000 o.tolerance x.tolerance
        lateLimit := clampOr 1 255 o.lateLimit x.lateLimit
        fallback := match x.fallback with | none => o.fallback | some v => fallbackOf v
        share := clampOr 1 262144 o.share x.share })

/-- The result units of SET OUTPUT: the parameters in force (R82). -/
def outputUnits (o : Output) : List ResultUnit :=
  [natUnit o.offset, natUnit o.tolerance, natUnit o.lateLimit, natUnit o.defaultRate, natUnit o.share,
    natUnit o.multiplex.val, natUnit (fallbackCode o.fallback)]

/-- SET OUTPUT (R82, R83). -/
def cmdSetOutput : Command := fun u s =>
  match field u 0, outputSettings u with
  | some k, some x =>
    if 4 ≤ k ∨ optBelow 4 x.multiplex = false ∨ optBelow 2 x.fallback = false then .refused .range
    else
      let s1 := mapOut (asOutput k) (configureOutput x) s
      .done (outputUnits s1.outs[asOutput k]) s1
  | _, _ => .refused .badCommand

/-! ### OUTPUT MUTE and OUTPUT RESTART -/

/-- Silence output `k` (R103). -/
def muteOutput (k : Fin 4) (s : State) : State :=
  if s.outs[k].sync = .muted then mapOut k (fun o => { o with muteCause := some .command }) s
  else enterMuted k .command s

/-- OUTPUT MUTE (R103). -/
def cmdOutputMute : Command := fun u s =>
  match field u 0 with
  | none => .refused .badCommand
  | some k =>
    if 4 ≤ k then .refused .range
    else
      let s1 := muteOutput (asOutput k) s
      .done [natUnit (syncCode s1.outs[asOutput k].sync)] s1

/-- The output's own state after OUTPUT RESTART, but for its sync state (R104). -/
def restarted (anchor : Int) (o : Output) : Output :=
  { o with
    muteCause := none, openFrame := none, previous := none, current := none, lastBegun := none, lateCount := 0
    waiting := false, position := none, slot := none, line := none
    grid := some (gridFrom o.defaultRate anchor) }

/-- The ACTIVE contexts on programmes that output `k` carries. -/
def activeContextsOn (s : State) (k : Fin 4) : List (Fin 16) :=
  (contextsOn s k).filter fun c => (context s c).state == .active

/-- Return output `k` to free running (R104, R158). -/
def restartOutput (k : Fin 4) (s : State) : State :=
  let s1 := discardRecords k (flushQueue k [] s.outs[k].queue s)
  let s2 := mapOut k (restarted (now s)) s1
  changeSync k .freeRun (stopActive (activeContextsOn s2 k) s2)

/-- OUTPUT RESTART (R104). -/
def cmdOutputRestart : Command := fun u s =>
  match field u 0 with
  | none => .refused .badCommand
  | some k =>
    if 4 ≤ k then .refused .range
    else
      let s1 := restartOutput (asOutput k) s
      .done [natUnit (syncCode s1.outs[asOutput k].sync)] s1

/-! ### The rows -/

/-- SET_OUTPUT (R82). -/
def execSetOutput (handed : Option Handed) (s : State) : Host.Outcome State Fault Refusal :=
  .next (takeCommand 0x12 cmdSetOutput handed s)

/-- OUTPUT_MUTE (R103). -/
def execOutputMute (handed : Option Handed) (s : State) : Host.Outcome State Fault Refusal :=
  .next (takeCommand 0x13 cmdOutputMute handed s)

/-- OUTPUT_RESTART (R104). -/
def execOutputRestart (handed : Option Handed) (s : State) : Host.Outcome State Fault Refusal :=
  .next (takeCommand 0x14 cmdOutputRestart handed s)

end Sys2Proof.Machine
end

