-- ==== Sys2Proof/Machine/ProgrammeCommands.lean ====
section
/-!
DEFINITION. ProgrammeCommands.lean: WRITE_PROGRAMME and CLEAR_PROGRAMME (R109, R110).
-/

namespace Sys2Proof.Machine

/-- Another valid record than `p` holds the cue label (R107, R109). -/
def cueLabelTaken (s : State) (p : Nat) (l : Label) : Bool :=
  s.progs.records.any fun e => e.1 != p && e.2.valid && e.2.cueLabel == some l

/-- The record that a taken WRITE PROGRAMME writes over `r` (R109). -/
def writtenProgramme (k : Fin 4) (cue : Option Label) (r : Programme) : Programme :=
  { valid := true, output := some k, cueLabel := cue, owner := none, tracker := none
    discontinuity := r.valid && r.discontinuity }

/-- A changed output removes the pending splices of the contexts on the programme (R147). -/
def dropMoved (p : Nat) (s : State) : State :=
  forAll (allContexts.filter fun c => (context s c).programme == p) dropSplice s

/-- Write programme record `p` (R109, R147). -/
def writeProgramme (p : Nat) (k : Fin 4) (cue : Option Label) (s : State) : State :=
  let s1 := mapProgramme p (writtenProgramme k cue) s
  if (programme s p).valid && (programme s p).output != some k then dropMoved p s1 else s1

/-- WRITE PROGRAMME (R109). -/
def cmdWriteProgramme : Command := fun u s =>
  match field u 0, field u 1, optField u 2 with
  | some p, some k, some cue =>
    if 64 ≤ p ∨ 4 ≤ k ∨ optBelow trafficLabels cue = false then .refused .range
    else if (programme s p).owner.isSome then .refused .busy
    else if (match cue with | none => false | some l => cueLabelTaken s p (BitVec.ofNat 12 l)) then .refused .duplicate
    else
      let s1 := writeProgramme p (asOutput k) (cue.map (BitVec.ofNat 12)) s
      .done [natUnit (countProgrammes Programme.valid s1), boolUnit (programme s1 p).discontinuity] s1
  | _, _, _ => .refused .badCommand

/-- A context that is not IDLE names programme `p` (R110). -/
def programmeWanted (s : State) (p : Nat) : Bool :=
  allContexts.any fun c => (context s c).programme == p && (context s c).state != .idle

/-- CLEAR PROGRAMME (R110). -/
def cmdClearProgramme : Command := fun u s =>
  match field u 0 with
  | none => .refused .badCommand
  | some p =>
    if 64 ≤ p then .refused .range
    else if (programme s p).owner.isSome || programmeWanted s p then .refused .busy
    else
      let s1 := mapProgramme p (fun r => if r.valid then {} else r) s
      .done [natUnit (countProgrammes Programme.valid s1)] s1

/-- WRITE_PROGRAMME (R109). -/
def execWriteProgramme (handed : Option Handed) (s : State) : Host.Outcome State Fault Refusal :=
  .next (takeCommand 0x24 cmdWriteProgramme handed s)

/-- CLEAR_PROGRAMME (R110). -/
def execClearProgramme (handed : Option Handed) (s : State) : Host.Outcome State Fault Refusal :=
  .next (takeCommand 0x25 cmdClearProgramme handed s)

end Sys2Proof.Machine
end

