-- ==== Sys2Proof/Machine/RouteCommands.lean ====
section
/-!
DEFINITION. RouteCommands.lean: WRITE_ROUTE, COPY_BANK, SWAP_BANKS and SET_DEFAULT_ACTION (R64 to R67).
-/

namespace Sys2Proof.Machine

/-- The number of the standby bank (R55). -/
def standbyNumber (r : RouteDecoder) : Nat := if r.active then 0 else 1

/-- Replace the standby bank (R55). -/
def mapStandby (f : Table Route → Table Route) (r : RouteDecoder) : RouteDecoder :=
  if r.active then { r with bank0 := f r.bank0 } else { r with bank1 := f r.bank1 }

/-- The fields of a route entry as WRITE ROUTE carries them, in range (R54, R64). -/
def routeInRange (index valid input value mask exclude outputs : Nat) (rewrite programme : Option Nat) : Bool :=
  decide (index < 128) && decide (valid < 2) && decide (input < 2) && decide (value < trafficLabels)
    && decide (mask < 4096) && decide (exclude < 65536) && decide (outputs < 32)
    && optBelow trafficLabels rewrite && optBelow 64 programme

/-- WRITE ROUTE writes all fields of an entry of the standby bank (R64). -/
def cmdWriteRoute : Command := fun u s =>
  match fields u 0 7, optField u 7, optField u 8 with
  | some [index, valid, input, value, mask, exclude, outputs], some rewrite, some programme =>
    if routeInRange index valid input value mask exclude outputs rewrite programme = false then .refused .range
    else
      let r : Route :=
        { valid := yes valid, input := sourceOf input, value := BitVec.ofNat 12 value, mask := BitVec.ofNat 12 mask
          exclude := BitVec.ofNat 16 exclude, outputs := BitVec.ofNat 5 outputs
          rewrite := rewrite.map (BitVec.ofNat 12), programme := programme }
      .done [natUnit (standbyNumber s.route)] (mapRoute (mapStandby (fun b => tablePut {} b index r)) s)
  | _, _, _ => .refused .badCommand

/-- COPY BANK copies the active bank into the standby bank (R65). -/
def cmdCopyBank : Command := fun _ s =>
  .done [natUnit (standbyNumber s.route), natUnit (validRoutes (activeBank s.route))]
    (mapRoute (mapStandby (fun _ => activeBank s.route)) s)

/-- SWAP BANKS changes the indicator; it stays in execution until the decodes that began before have ended (R66). -/
def cmdSwapBanks : Command := fun _ s => .stays (mapRoute (fun r => { r with active := !r.active }) s)

/-- SET DEFAULT ACTION (R67). -/
def cmdSetDefaultAction : Command := fun u s =>
  match field u 0 with
  | none => .refused .badCommand
  | some v =>
    if 2 ≤ v then .refused .range
    else
      let s1 := mapRoute (fun r => { r with defaultAction := defaultActionOf v }) s
      .done [natUnit (defaultActionCode s1.route.defaultAction)] s1

/-- WRITE_ROUTE (R64). -/
def execWriteRoute (handed : Option Handed) (s : State) : Host.Outcome State Fault Refusal :=
  .next (takeCommand 0x20 cmdWriteRoute handed s)

/-- COPY_BANK (R65). -/
def execCopyBank (handed : Option Handed) (s : State) : Host.Outcome State Fault Refusal :=
  .next (takeCommand 0x21 cmdCopyBank handed s)

/-- SWAP_BANKS (R66). -/
def execSwapBanks (handed : Option Handed) (s : State) : Host.Outcome State Fault Refusal :=
  .next (takeCommand 0x22 cmdSwapBanks handed s)

/-- SET_DEFAULT_ACTION (R67). -/
def execSetDefaultAction (handed : Option Handed) (s : State) : Host.Outcome State Fault Refusal :=
  .next (takeCommand 0x23 cmdSetDefaultAction handed s)

end Sys2Proof.Machine
end

