-- ==== Sys2Proof/Machine/StoreCommands.lean ====
section
/-!
DEFINITION. StoreCommands.lean: the six commands of the Segment Store (R123 to R126, R130 to R132).
-/

namespace Sys2Proof.Machine

/-- Two block ranges share at least one block (R123). -/
def rangesMeet (first1 count1 first2 count2 : Nat) : Bool :=
  decide (first1 < first2 + count2) && decide (first2 < first1 + count1)

/-- A segment that is not FREE holds a block of the range (R123). -/
def rangeTaken (s : State) (first count : Nat) : Bool :=
  s.store.segments.any fun e => e.2.state != .free && rangesMeet first count e.2.firstBlock e.2.blocks

/-- The blocks that lie in segments that are not FREE (R135). -/
def allocatedBlocks (s : State) : Nat :=
  (s.store.segments.filter fun e => e.2.state != .free).foldl (fun n e => n + e.2.blocks) 0

/-- The blocks that lie in no segment that is not FREE (R123, R124). -/
def freeBlocks (s : State) : Nat := Config.storeBlocks - allocatedBlocks s

/-- DEFINE SEGMENT (R123). -/
def cmdDefineSegment : Command := fun u s =>
  match fields u 0 3 with
  | some [g, first, count] =>
    if 1024 ≤ g ∨ Config.storeBlocks ≤ first ∨ count = 0 ∨ Config.storeBlocks < first + count then .refused .range
    else if (segment s g).state ≠ .free then .refused .state
    else if rangeTaken s first count then .refused .overlap
    else
      let s1 := mapSegment g (fun _ => { state := .empty, firstBlock := first, blocks := count }) s
      .done [natUnit (freeBlocks s1)] s1
  | _ => .refused .badCommand

/-- RELEASE SEGMENT (R124). -/
def cmdReleaseSegment : Command := fun u s =>
  match field u 0 with
  | none => .refused .badCommand
  | some g =>
    if 1024 ≤ g then .refused .range
    else if (segment s g).state = .free ∨ (segment s g).state = .filling then .refused .state
    else if 0 < (segment s g).uses then .refused .busy
    else
      let s1 := mapSegment g (fun _ => {}) s
      .done [natUnit (freeBlocks s1)] s1

/-- The other store context. -/
def otherStore (i : Fin 2) : Fin 2 := if i = 0 then 1 else 0

/-- A label is in the label set of a store context that is FILLING (R125). -/
def filledBy (s : State) (i : Fin 2) (l : Label) : Bool :=
  match s.store.contexts[i] with
  | none => false
  | some f => f.labels.contains l

/-- A START FILL that passes its checks (R126). -/
def beginFill (i : Fin 2) (g : Nat) (labels : List Label) (s : State) : State :=
  countStore (fun c => { c with started := bump c.started })
    (setFill i (some { segment := g, labels := labels, continuity := [] })
      (mapSegment g (fun x => { x with state := .filling, packets := 0, a0 := none, errors := 0 }) s))

/-- START FILL (R125, R126). -/
def cmdStartFill : Command := fun u s =>
  match field u 0, field u 1, listField u 2 4 with
  | some i, some g, some list =>
    if 2 ≤ i ∨ 1024 ≤ g ∨ list.any (fun l => decide (trafficLabels ≤ l)) = true then .refused .range
    else
      let labels := (list.map (BitVec.ofNat 12)).eraseDups
      if s.store.contexts[asStore i].isSome then .refused .state
      else if (segment s g).state = .free ∨ (segment s g).state = .filling then .refused .state
      else if (segment s g).state = .ready ∧ 0 < (segment s g).uses then .refused .busy
      else if labels.any (filledBy s (otherStore (asStore i))) then .refused .labelConflict
      else if labels.any (fun l => (cueProgramme s l).isSome) then .refused .labelConflict
      else .done [natUnit (capacity (segment s g)), natUnit labels.length] (beginFill (asStore i) g labels s)
  | _, _, _ => .refused .badCommand

/-- SEAL FILL (R130). -/
def cmdSealFill : Command := fun u s =>
  match field u 0 with
  | none => .refused .badCommand
  | some i =>
    if 2 ≤ i then .refused .range
    else
      match s.store.contexts[asStore i] with
      | none => .refused .state
      | some f =>
        .done [natUnit f.segment, natUnit (segment s f.segment).packets, (segment s f.segment).a0]
          (countStore (fun c => { c with sealed := bump c.sealed })
            (setFill (asStore i) none (mapSegment f.segment (fun x => { x with state := .ready }) s)))

/-- ABORT FILL (R131). -/
def cmdAbortFill : Command := fun u s =>
  match field u 0 with
  | none => .refused .badCommand
  | some i =>
    if 2 ≤ i then .refused .range
    else
      match s.store.contexts[asStore i] with
      | none => .refused .state
      | some f =>
        .done [natUnit f.segment]
          (countStore (fun c => { c with aborted := bump c.aborted })
            (setFill (asStore i) none (mapSegment f.segment emptied s)))

/-- The store context that is filling segment `g`, if any (R132). -/
def fillingContext (s : State) (g : Nat) : Option Nat :=
  if (s.store.contexts[(0 : Fin 2)].map Fill.segment) = some g then some 0
  else if (s.store.contexts[(1 : Fin 2)].map Fill.segment) = some g then some 1
  else none

/-- The eight result units of SEGMENT STATUS (R132). -/
def segmentUnits (s : State) (g : Nat) : List ResultUnit :=
  let x := segment s g
  [natUnit (segmentStateCode x.state),
    if x.state = .free then none else natUnit x.firstBlock,
    if x.state = .free then none else natUnit x.blocks,
    natUnit x.packets, x.a0, natUnit x.errors, natUnit x.uses,
    if x.state = .filling then optUnit (fillingContext s g) else none]

/-- SEGMENT STATUS (R132). -/
def cmdSegmentStatus : Command := fun u s =>
  match field u 0 with
  | none => .refused .badCommand
  | some g => if 1024 ≤ g then .refused .range else .done (segmentUnits s g) s

/-- DEFINE_SEGMENT (R123). -/
def execDefineSegment (handed : Option Handed) (s : State) : Host.Outcome State Fault Refusal :=
  .next (takeCommand 0x30 cmdDefineSegment handed s)

/-- RELEASE_SEGMENT (R124). -/
def execReleaseSegment (handed : Option Handed) (s : State) : Host.Outcome State Fault Refusal :=
  .next (takeCommand 0x31 cmdReleaseSegment handed s)

/-- START_FILL (R125, R126). -/
def execStartFill (handed : Option Handed) (s : State) : Host.Outcome State Fault Refusal :=
  .next (takeCommand 0x32 cmdStartFill handed s)

/-- SEAL_FILL (R130). -/
def execSealFill (handed : Option Handed) (s : State) : Host.Outcome State Fault Refusal :=
  .next (takeCommand 0x33 cmdSealFill handed s)

/-- ABORT_FILL (R131). -/
def execAbortFill (handed : Option Handed) (s : State) : Host.Outcome State Fault Refusal :=
  .next (takeCommand 0x34 cmdAbortFill handed s)

/-- SEGMENT_STATUS (R132). -/
def execSegmentStatus (handed : Option Handed) (s : State) : Host.Outcome State Fault Refusal :=
  .next (takeCommand 0x35 cmdSegmentStatus handed s)

end Sys2Proof.Machine
end

