-- ==== Sys2Proof/Machine/Counters.lean ====
section
/-!
DEFINITION. Counters.lean: the counter tables of the twelve blocks as result units (R30, R53, R69, R81, R106, R119, R135,
R160, R177), and the clearing of every counter (R12, R81, R175).
-/

namespace Sys2Proof.Machine

/-! ### The twelve tables (R174) -/

/-- The eight units of the Site Clock (R30). -/
def clockCounterUnits (c : ClockCounters) : List ResultUnit :=
  [c.steps, c.outlierEdges, c.forcedSteps, c.secondsSet, c.unusedEdges, c.ref10Losses, c.pulseTimeouts,
    c.holdoverExpiries].map countUnit

/-- The eighteen units of the Feed Intake Unit (R53). -/
def feedCounterUnits (u : FeedIntake) : List ResultUnit :=
  [u.portA.wrongLeadCount, u.portA.alignmentLosses, u.feedA.continuityErrors, u.feedA.erroredSeconds, u.feedA.discards,
    u.portB.wrongLeadCount, u.portB.alignmentLosses, u.feedB.continuityErrors, u.feedB.erroredSeconds, u.feedB.discards,
    u.portL.wrongLeadCount, u.portL.alignmentLosses, u.seekingTimeouts, u.reservedDiscards, u.localTimingDiscards,
    u.localCueDiscards, u.feedSwitches, u.handoverReversals].map countUnit

/-- The eleven units of the Route Decoder (R69). -/
def routeCounterUnits (c : RouteCounters) : List ResultUnit :=
  [c.feedDecoded, c.localDecoded, c.noMatch, c.conflicts, c.defaultDrops, c.defaultMonitorCopies, c.emptyRouteDiscards,
    c.plainCopies, c.programmeCopies, c.routeMonitorCopies, c.unboundProgrammes].map countUnit

/-- The twenty-five units of the Packet Pool (R81). -/
def poolCounterUnits (s : State) : List ResultUnit :=
  let c := s.pool.counters
  [c.claimed, c.returned, c.emissionReleases, c.substitutionReleases, c.passedReleases, c.flushReleases,
    c.monitorReleases, c.refusedPackets].map countUnit
  ++ allOutputs.map (fun k => countUnit s.outs[k].counters.shareRefusals)
  ++ allOutputs.map (fun k => countUnit s.outs[k].counters.poolRefusals)
  ++ [countUnit c.monitorFullDrops, countUnit c.monitorPoolRefusals, natUnit (freeBuffers s.pool), natUnit s.pool.lowMark]
  ++ allOutputs.map (fun k => natUnit s.outs[k].queue.length)
  ++ [natUnit s.pool.monitorQueue.length]

/-- The eighteen units of an Emission Scheduler (R106). -/
def outputCounterUnits (o : Output) : List ResultUnit :=
  let c := o.counters
  [c.timingTaken, c.badTiming, c.frameQueueFull, c.frameGaps, c.overflowCopies, c.mutedRefusals, c.framesStarted,
    c.reAnchors, c.acquisitions, c.lateFrames, c.recordsDiscarded, c.underrunSlots, c.fillSlots, c.packetsEmitted,
    c.passedSlots, c.timeJumps].map countUnit
  ++ [natUnit o.frameQueue.length, natUnit o.lateCount]

/-- The eleven units of the Programme Table (R119). -/
def programmeCounterUnits (s : State) : List ResultUnit :=
  let c := s.progs.counters
  [c.programmeSamples, c.plainSamples, c.nonzeroDisplacements, c.advertSamples, c.discontinuityMarks, c.spliceOffsets,
    c.staleSplices, c.absentA0Splices].map countUnit
  ++ [natUnit (countProgrammes Programme.valid s), natUnit (countProgrammes (fun r => r.owner.isSome) s),
    natUnit (countProgrammes Programme.discontinuity s)]

/-- How many segment records satisfy `q`. -/
def countSegments (q : Segment → Bool) (s : State) : Nat := tableCount q s.store.segments

/-- The ten units of the Segment Store (R135). -/
def storeCounterUnits (s : State) : List ResultUnit :=
  let c := s.store.counters
  [c.packetsStored, c.continuityErrors, c.completedFull, c.sealed, c.aborted, c.started].map countUnit
  ++ [natUnit (countSegments (fun g => g.state != .free) s), natUnit (countSegments (fun g => g.state == .ready) s),
    natUnit (allocatedBlocks s), natUnit (countSegments (fun g => decide (0 < g.uses)) s)]

/-- How many contexts are in a state. -/
def contextsIn (x : ContextState) (s : State) : Nat := (allContexts.filter fun c => (context s c).state == x).length

/-- The eighteen units of the Insertion Engine (R160). -/
def engineCounterUnits (s : State) : List ResultUnit :=
  let c := s.engine.counters
  [c.cuesTaken, c.badCues, c.cuesUnclaimed, c.latchOverwrites, c.pendingReplacements, c.cancelsApplied, c.splicesMissed,
    c.activations, c.takeovers, c.breaksCompleted, c.breaksStopped, c.halts, c.substitutedSlots, c.endFillSlots,
    c.discardsAndSkips].map countUnit
  ++ [natUnit (contextsIn .armed s), natUnit (contextsIn .active s), natUnit (contextsIn .halted s)]

/-- The output-state changes of the four outputs (R102). -/
def outputChangeUnits (m : Management) : List ResultUnit := allOutputs.map fun k => countUnit m.counters.outputChanges[k]

/-- The seventeen units of the Management Unit (R177). -/
def managementCounterUnits (m : Management) : List ResultUnit :=
  let c := m.counters
  [c.cellsFromFeed, c.cellsFromLocal, c.overflowDrops, c.repliesMade, c.acceptanceRefusals, c.executionRefusals,
    c.eventReports, c.owedReports, c.holdTimeouts, c.holdsAbandoned, c.abandonDiscards].map countUnit
  ++ outputChangeUnits m ++ [natUnit m.controlQueue.length, natUnit m.reportQueue.length]

/-- The counters of the block that READ COUNTERS names (R174). -/
def counterUnits (block : Nat) (s : State) : List ResultUnit :=
  match block with
  | 0 => clockCounterUnits s.clock.counters
  | 1 => feedCounterUnits s.feed
  | 2 => routeCounterUnits s.route.counters
  | 3 => poolCounterUnits s
  | 4 => outputCounterUnits s.outs[(0 : Fin 4)]
  | 5 => outputCounterUnits s.outs[(1 : Fin 4)]
  | 6 => outputCounterUnits s.outs[(2 : Fin 4)]
  | 7 => outputCounterUnits s.outs[(3 : Fin 4)]
  | 8 => programmeCounterUnits s
  | 9 => storeCounterUnits s
  | 10 => engineCounterUnits s
  | _ => managementCounterUnits s.mgmt

/-! ### Clearing (R175) -/

/-- A port's counters at 0. -/
def clearPort (x : PortState) : PortState := { x with wrongLeadCount := 0, alignmentLosses := 0 }

/-- A feed's counters at 0. -/
def clearFeedState (x : FeedState) : FeedState := { x with continuityErrors := 0, erroredSeconds := 0, discards := 0 }

/-- The Feed Intake Unit's counters at 0. -/
def clearFeedIntake (u : FeedIntake) : FeedIntake :=
  { u with
    portA := clearPort u.portA, portB := clearPort u.portB, portL := clearPort u.portL
    feedA := clearFeedState u.feedA, feedB := clearFeedState u.feedB
    seekingTimeouts := 0, reservedDiscards := 0, localTimingDiscards := 0, localCueDiscards := 0
    feedSwitches := 0, handoverReversals := 0 }

/-- Every counter of every block at 0, and the free-list low mark at the free list's length (R81, R175). -/
def clearCounters (s : State) : State :=
  { clock := { s.clock with counters := {} }
    feed := clearFeedIntake s.feed
    route := { s.route with counters := {} }
    pool := { s.pool with counters := {}, lowMark := freeBuffers s.pool }
    outs := s.outs.map fun o => { o with counters := {} }
    progs := { s.progs with counters := {} }
    store := { s.store with counters := {} }
    engine := { s.engine with counters := {} }
    mgmt := { s.mgmt with counters := {} }
    pending := s.pending }

end Sys2Proof.Machine
end

