-- ==== Sys2Proof/Machine/SystemCommands.lean ====
section
/-!
DEFINITION. SystemCommands.lean: HOLD, SET_GRANTS, SET_EVENT_ENABLE, ACK_EVENTS, STATUS, READ_COUNTERS and
CLEAR_COUNTERS (R166, R170 to R175).
-/

namespace Sys2Proof.Machine

/-! ### HOLD -/

/-- The output condition of a HOLD: its output and its frame, which are present together (R166). -/
def frameCondition : Option Nat → Option Nat → Option (Option (Fin 4 × FrameNo))
  | none, none => some none
  | some k, some n => some (some (asOutput k, BitVec.ofNat 16 n))
  | _, _ => none

/-- HOLD: it becomes the HOLD in force, and is tested as it is taken (R166). -/
def cmdHold : Command := fun u s =>
  match optField u 0, optField u 1, optField u 2, optField u 3, optField u 4, field u 5 with
  | some output, some frame, some ctx, some store, some seconds, some timeout =>
    if optBelow 4 output = false ∨ optBelow 65536 frame = false ∨ optBelow 16 ctx = false ∨ optBelow 2 store = false then
      .refused .range
    else
      match frameCondition output frame with
      | none => .refused .badCommand
      | some condition =>
        let h : Hold :=
          { frame := condition
            context := ctx.map asContext
            store := store.map asStore
            seconds := seconds.map fun v => BitVec.ofNat 32 (clamp 0 4294967295 v)
            timeout := clamp 0 65535 timeout
            elapsed := 0 }
        .stays (testHold (mapMgmt (fun m => { m with hold := some h }) s))
  | _, _, _, _, _, _ => .refused .badCommand

/-! ### Grants, enables and flags -/

/-- SET GRANTS: one group's grant set and ANY flag are replaced (R172). -/
def cmdSetGrants : Command := fun u s =>
  match fields u 0 4 with
  | some [g, low, high, any] =>
    if 5 ≤ g ∨ 4294967296 ≤ low ∨ 4294967296 ≤ high ∨ 2 ≤ any then .refused .range
    else
      let x : Grant := { originators := BitVec.ofNat 32 high ++ BitVec.ofNat 32 low, any := yes any }
      .done [natUnit low, natUnit high, natUnit any]
        (mapMgmt (fun m => { m with grants := m.grants.set (Fin.ofNat 5 g) x }) s)
  | _ => .refused .badCommand

/-- SET EVENT ENABLE (R170). -/
def cmdSetEventEnable : Command := fun u s =>
  match field u 0 with
  | none => .refused .badCommand
  | some v =>
    if 65536 ≤ v then .refused .range
    else .done [natUnit v] (mapMgmt (fun m => { m with enabled := BitVec.ofNat 16 v }) s)

/-- ACK EVENTS: each flag in the set is cleared (R171). -/
def cmdAckEvents : Command := fun u s =>
  match field u 0 with
  | none => .refused .badCommand
  | some v =>
    if 65536 ≤ v then .refused .range
    else
      let s1 := mapMgmt (fun m => { m with flags := m.flags &&& ~~~(BitVec.ofNat 16 v) }) s
      .done [bitsUnit s1.mgmt.flags] s1

/-! ### STATUS and the counters -/

/-- The twenty result units of STATUS (R173). -/
def statusUnits (s : State) : List ResultUnit :=
  [natUnit (alignmentCode s.feed.portA.alignment), natUnit (alignmentCode s.feed.portB.alignment),
    natUnit (alignmentCode s.feed.portL.alignment), natUnit (selectionCode s.feed.selection),
    natUnit (clockCode s.clock.mode), bitsUnit s.clock.seconds, natUnit s.clock.tick]
  ++ allOutputs.map (fun k => natUnit (syncCode s.outs[k].sync))
  ++ [bitsUnit s.mgmt.flags, bitsUnit s.mgmt.enabled, natUnit (resetCauseCode s.mgmt.resetCause),
    natUnit s.mgmt.controlQueue.length]
  ++ outputChangeUnits s.mgmt ++ [natUnit s.mgmt.reportQueue.length]

/-- STATUS (R173). -/
def cmdStatus : Command := fun _ s => .done (statusUnits s) s

/-- READ COUNTERS (R174). -/
def cmdReadCounters : Command := fun u s =>
  match field u 0 with
  | none => .refused .badCommand
  | some block => if 12 ≤ block then .refused .range else .done (counterUnits block s) s

/-- CLEAR COUNTERS (R175). -/
def cmdClearCounters : Command := fun _ s => .done [] (clearCounters s)

/-! ### The rows -/

/-- HOLD (R166). -/
def execHold (handed : Option Handed) (s : State) : Host.Outcome State Fault Refusal :=
  .next (takeCommand 0x01 cmdHold handed s)

/-- SET_GRANTS (R172). -/
def execSetGrants (handed : Option Handed) (s : State) : Host.Outcome State Fault Refusal :=
  .next (takeCommand 0x03 cmdSetGrants handed s)

/-- SET_EVENT_ENABLE (R170). -/
def execSetEventEnable (handed : Option Handed) (s : State) : Host.Outcome State Fault Refusal :=
  .next (takeCommand 0x04 cmdSetEventEnable handed s)

/-- ACK_EVENTS (R171). -/
def execAckEvents (handed : Option Handed) (s : State) : Host.Outcome State Fault Refusal :=
  .next (takeCommand 0x05 cmdAckEvents handed s)

/-- STATUS (R173). -/
def execStatus (handed : Option Handed) (s : State) : Host.Outcome State Fault Refusal :=
  .next (takeCommand 0x06 cmdStatus handed s)

/-- READ_COUNTERS (R174). -/
def execReadCounters (handed : Option Handed) (s : State) : Host.Outcome State Fault Refusal :=
  .next (takeCommand 0x07 cmdReadCounters handed s)

/-- CLEAR_COUNTERS (R175). -/
def execClearCounters (handed : Option Handed) (s : State) : Host.Outcome State Fault Refusal :=
  .next (takeCommand 0x08 cmdClearCounters handed s)

end Sys2Proof.Machine
end

