-- ==== Sys2Proof/Machine/Due.lean ====
section
/-!
DEFINITION. Due.lean: the internal events that are due, in a fixed order (log entry 1), and the passing of site time, which
takes each of them at its instant (log entry 4).
-/

namespace Sys2Proof.Machine

/-! ### The cell at the head of the control queue (R162) -/

/-- What the command of a code does with its parameter units. -/
def commandOf (code : Byte) : Command :=
  match code.toNat with
  | 0x01 => cmdHold
  | 0x03 => cmdSetGrants
  | 0x04 => cmdSetEventEnable
  | 0x05 => cmdAckEvents
  | 0x06 => cmdStatus
  | 0x07 => cmdReadCounters
  | 0x08 => cmdClearCounters
  | 0x09 => cmdSiteReset
  | 0x10 => cmdSetSeconds
  | 0x11 => cmdSetClockPolicy
  | 0x12 => cmdSetOutput
  | 0x13 => cmdOutputMute
  | 0x14 => cmdOutputRestart
  | 0x20 => cmdWriteRoute
  | 0x21 => cmdCopyBank
  | 0x22 => cmdSwapBanks
  | 0x23 => cmdSetDefaultAction
  | 0x24 => cmdWriteProgramme
  | 0x25 => cmdClearProgramme
  | 0x26 => cmdSetFeedPolicy
  | 0x27 => cmdSelectFeed
  | 0x30 => cmdDefineSegment
  | 0x31 => cmdReleaseSegment
  | 0x32 => cmdStartFill
  | 0x33 => cmdSealFill
  | 0x34 => cmdAbortFill
  | 0x35 => cmdSegmentStatus
  | 0x40 => cmdWritePlayEntry
  | 0x41 => cmdConfigureContext
  | 0x42 => cmdStartContext
  | 0x43 => cmdStopContext
  | 0x44 => cmdWakeContext
  | 0x45 => cmdContextStatus
  | _ => fun _ _ => .refused .badCommand

/-- The part takes the cell at the head of the control queue by the row that takes it (R162, log entry 2). -/
def takeQueued (s : State) : State :=
  match s.mgmt.controlQueue with
  | [] => s
  | c :: _ =>
    if isUnknownCell c then takeCell isUnknownCell (fun _ _ => .refused .badCommand) none s
    else takeCommand c.code (commandOf c.code) none s

/-! ### The events that are due -/

/-- The internal events that a state can have due. -/
inductive Due where
  | slotEnd (output : Fin 4)
  | frame (output : Fin 4)
  | slot (output : Fin 4)
  | lossTimer (port : Port)
  | pulseWatch
  | holdTimeout
  | monitor
  | swap
  | command
  deriving DecidableEq, Repr

/-- An event that is due. -/
def dueIf (due : Bool) (e : Due) : Option Due := if due then some e else none

/-- The events of one output that are due: the end of its slot before the start of the next frame or slot (R75, R88). -/
def dueOutput (s : State) (k : Fin 4) : List (Option Due) :=
  [dueIf (slotEndDue s k) (.slotEnd k), dueIf (hasCome s (frameAt s k)) (.frame k),
    dueIf (hasCome s (slotAt s k) && s.outs[k].sync != .muted) (.slot k)]

/-- The cell at the head of the control queue can be taken (R162). -/
def commandDue (s : State) : Bool := !s.mgmt.controlQueue.isEmpty && canTake s

/-- The events that are due, in the order in which the part takes them (log entry 1). -/
def dueEvents (s : State) : List (Option Due) :=
  allOutputs.flatMap (dueOutput s)
  ++ [dueIf (lossTimerDue .a s) (.lossTimer .a), dueIf (lossTimerDue .b s) (.lossTimer .b),
    dueIf (lossTimerDue .l s) (.lossTimer .l), dueIf (pulseWatchDue s) .pulseWatch,
    dueIf (holdTimeoutDue s) .holdTimeout, dueIf (monitorSentDue s) .monitor,
    dueIf (swapDue s) .swap, dueIf (commandDue s) .command]

/-- The event that the part takes next, none when nothing is due. -/
def dueNow (s : State) : Option Due := (dueEvents s).findSome? id

/-- An event that is due is taken. -/
def takeDue (e : Due) (s : State) : State :=
  match e with
  | .slotEnd k => endSlot k s
  | .frame k => startFrameNow k s
  | .slot k => startSlot k s
  | .lossTimer p => expireLossTimer p s
  | .pulseWatch => expirePulseWatch s
  | .holdTimeout => timeOutHold s
  | .monitor => finishMonitor s
  | .swap => completeSwap s
  | .command => takeQueued s

/-- The row of the table that names an event that is due. -/
def dueRow (s : State) (e : Due) : Instr :=
  match e with
  | .slotEnd k => .slotEnds k
  | .frame k => if s.outs[k].sync = .acquiring then .acquisitionStart k else .reanchorStart k
  | .slot k => .slotStart k
  | .lossTimer p => .lossTimerExpiry p
  | .pulseWatch => .pulseWatchExpiry
  | .holdTimeout => .holdTimeout
  | .monitor => .monitorPacketSent
  | .swap => .swapBanksCompletion
  | .command =>
    match s.mgmt.controlQueue with
    | [] => .unknownCodeCell none
    | c :: _ => if isUnknownCell c then .unknownCodeCell none else rowOfCode c.code

/-- The row that an idle part takes next, none when nothing is due. -/
def dueEvent (s : State) : Option Instr := (dueNow s).map (dueRow s)

/-! ### The passing of time -/

/-- The ticks until an instant. -/
def ticksTo (s : State) (t : Option Int) : Option Nat := t.map fun x => (x - now s).toNat

/-- The ticks until the events of output `k` that lie ahead (R75, R88, R92, R98). -/
def outputLeft (s : State) (k : Fin 4) : List (Option Nat) :=
  [s.outs[k].slot.map SlotInProgress.remaining, ticksTo s (frameAt s k),
    if s.outs[k].sync = .muted then none else ticksTo s (slotAt s k)]

/-- The ticks until each instant at which something comes about by time alone: the second boundary, and the events of
the outputs, the timers and the monitor port. -/
def ticksAhead (s : State) : List (Option Nat) :=
  [some (Config.ticksPerSecond - s.clock.tick)]
  ++ allOutputs.flatMap (outputLeft s)
  ++ [timerLeft (lossLimit s.feed) s.feed.portA.lossTimer, timerLeft (lossLimit s.feed) s.feed.portB.lossTimer,
    timerLeft (lossLimit s.feed) s.feed.portL.lossTimer,
    if s.clock.mode = .locked then timerLeft Config.pulseWatchLimit s.clock.pulseWatch else none,
    holdLeft s, s.pool.port.map Sending.remaining]

/-- The ticks until the next of them. -/
def timeToNext (s : State) : Nat := (ticksAhead s).foldl (fun m o => min m (o.getD m)) Config.ticksPerSecond

/-- The events that are due are taken, one after the other; the first argument bounds their number. -/
def settle : Nat → State → State
  | 0, s => s
  | n + 1, s =>
    match dueNow s with
    | none => s
    | some e => settle n (takeDue e s)

/-- More events than can come due at one instant (log entry 4). -/
abbrev dueBound : Nat := 4096

/-- Time runs for `n` ticks: what is due is taken, and the ticks to the next instant pass. The first argument bounds the
number of instants. -/
def passTicks : Nat → Nat → State → State
  | 0, _, s => s
  | f + 1, n, s =>
    if n = 0 then s
    else
      let s1 := settle dueBound s
      let d := max 1 (min n (timeToNext s1))
      passTicks f (n - d) (advance d s1)

/-- `n` ticks pass, and each internal event before the last of them is taken at its instant (R15, R88, log entry 4). What
comes due at the last of them is left for the next step. -/
def letPass (n : Nat) (s : State) : State := passTicks n n s

end Sys2Proof.Machine
end

