-- ==== Sys2Proof/Machine/EventRows.lean ====
section
/-!
DEFINITION. EventRows.lean: the rows that are not commands of the control queue: arrivals at the ports, the REF10 and PPS
inputs, and the internal events. A row that names an event of a timer lets time run to the instant at which the event is
due (log entry 4). A row whose event cannot come about in the state at hand leaves the state as it is (log entry 3).
-/

namespace Sys2Proof.Machine

/-! ### Arrivals -/

/-- BYTE_ARRIVES (R31, R32). The arrival of a packet's last byte can change what a HOLD waits for (R166). -/
def execByteArrives (wait : Nat) (port : Port) (byte : Byte) (s : State) : Host.Outcome State Fault Refusal :=
  .next (testHold (arriveByte port (letPass wait s) byte))

/-- PACKET_ARRIVES (R31, R33). -/
def execPacketArrives (wait : Nat) (port : Port) (bytes : List Byte) (s : State) : Host.Outcome State Fault Refusal :=
  .next (testHold (arriveBytes port bytes (letPass wait s)))

/-- REF10_LOST (R16, R25): the monitor sees no cycle within 20 ticks. -/
def execRef10Lost (wait : Nat) (s : State) : Host.Outcome State Fault Refusal := .next (loseRef10 (letPass wait s))

/-- REF10_RESTORED (R16). -/
def execRef10Restored (wait : Nat) (s : State) : Host.Outcome State Fault Refusal := .next (restoreRef10 (letPass wait s))

/-- PULSE_EDGE (R19 to R22). -/
def execPulseEdge (wait : Nat) (s : State) : Host.Outcome State Fault Refusal := .next (pulseEdge (letPass wait s))

/-! ### Timers of the Site Clock, the ports and the HOLD -/

/-- Time runs until port `p`'s loss timer reaches its limit (R34). -/
def untilLossTimer (p : Port) (s : State) : State :=
  letPass ((timerLeft (lossLimit s.feed) (portState s.feed p).lossTimer).getD 0) s

/-- LOSS_TIMER_EXPIRY (R34). -/
def execLossTimerExpiry (port : Port) (s : State) : Host.Outcome State Fault Refusal :=
  let s1 := untilLossTimer port s
  .next (if lossTimerDue port s1 then expireLossTimer port s1 else s1)

/-- PULSE_WATCH_EXPIRY (R26). -/
def execPulseWatchExpiry (s : State) : Host.Outcome State Fault Refusal :=
  let s1 := letPass ((timerLeft Config.pulseWatchLimit s.clock.pulseWatch).getD 0) s
  .next (if pulseWatchDue s1 then expirePulseWatch s1 else s1)

/-- SECOND_BOUNDARY (R15, R17): time runs until the tick wraps. -/
def execSecondBoundary (s : State) : Host.Outcome State Fault Refusal :=
  .next (letPass (Config.ticksPerSecond - s.clock.tick) s)

/-- The ticks to the boundary that brings the holdover seconds elapsed to the limit (R27). -/
def holdoverTicksLeft (c : SiteClock) : Nat :=
  (Config.ticksPerSecond - c.tick) + (holdoverLimit c - (c.holdoverSeconds + 1)) * Config.ticksPerSecond

/-- HOLDOVER_EXPIRY (R27): in HOLDOVER, time runs to the boundary that expires it. -/
def execHoldoverExpiry (s : State) : Host.Outcome State Fault Refusal :=
  .next (if s.clock.mode = .holdover then letPass (holdoverTicksLeft s.clock) s else s)

/-- HOLD_TIMEOUT (R167). -/
def execHoldTimeout (s : State) : Host.Outcome State Fault Refusal :=
  let s1 := letPass ((holdLeft s).getD 0) s
  .next (if holdTimeoutDue s1 then timeOutHold s1 else s1)

/-! ### Events of the outputs -/

/-- Time runs until an instant, when it lies ahead. -/
def untilInstant (t : Int) (s : State) : State := letPass (t - now s).toNat s

/-- SLOT_START (R88 to R95). -/
def execSlotStart (output : Fin 4) (s : State) : Host.Outcome State Fault Refusal :=
  match slotAt s output with
  | none => .next s
  | some g => .next (startSlot output (untilInstant g s))

/-- REANCHOR_START (R92). -/
def execReanchorStart (output : Fin 4) (s : State) : Host.Outcome State Fault Refusal :=
  match frameAt s output with
  | none => .next s
  | some f => .next (if s.outs[output].sync = .acquiring then s else startFrameNow output (untilInstant f s))

/-- ACQUISITION_START (R98). -/
def execAcquisitionStart (output : Fin 4) (s : State) : Host.Outcome State Fault Refusal :=
  match frameAt s output with
  | none => .next s
  | some f => .next (if s.outs[output].sync = .acquiring then startFrameNow output (untilInstant f s) else s)

/-! ### The end of a break (R154, R155)

A break ends in the slot that brings its countdown to 0, so BREAK_END runs the outputs that carry a break, slot by slot, to
that slot (log entry 5). -/

/-- The ACTIVE contexts: their breaks run. -/
def breaksRunning (s : State) : List (Fin 16) := allContexts.filter fun c => (context s c).state == .active

/-- Output `k` carries one of the breaks `l`, and the break still runs. -/
def carriesBreak (l : List (Fin 16)) (s : State) (k : Fin 4) : Bool :=
  (contextsOn s k).any fun c => l.contains c && (context s c).state == .active

/-- The instant of output `k`'s next event; a MUTED output has none (R88, R101). -/
def nextInstant (s : State) (k : Fin 4) : Option Int :=
  if s.outs[k].sync = .muted then none
  else
    match nextEvent s.outs[k] with
    | none => none
    | some (.slot g) => some g
    | some (.frame f) => some f

/-- The earliest of several instants, the first in the list at equal ones. -/
def earliest : List (Int × Fin 4) → Option (Int × Fin 4)
  | [] => none
  | x :: l =>
    match earliest l with
    | none => some x
    | some y => if y.1 < x.1 then some y else some x

/-- The output whose event comes first among those that carry one of the breaks `l`. -/
def nextBreakOutput (l : List (Fin 16)) (s : State) : Option (Fin 4) :=
  (earliest ((allOutputs.filter (carriesBreak l s)).filterMap fun k => (nextInstant s k).map fun t => (t, k))).map Prod.snd

/-- Time runs to output `k`'s next event, and the output takes it. -/
def takeOutputEvent (k : Fin 4) (s : State) : State :=
  match nextEvent s.outs[k] with
  | none => s
  | some (.slot g) => startSlot k (untilInstant g s)
  | some (.frame f) => startFrameNow k (untilInstant f s)

/-- One of the breaks `l` has come to its end, or has been stopped: its context is IDLE or ARMED. -/
def breakOver (l : List (Fin 16)) (s : State) : Bool :=
  l.any fun c => (context s c).state == .idle || (context s c).state == .armed

/-- The outputs that carry the breaks `l` take their events in order of time until one of the breaks is over. The first
argument bounds the number of events. -/
def runBreaks (l : List (Fin 16)) : Nat → State → State
  | 0, s => s
  | n + 1, s =>
    if breakOver l s then s
    else
      match nextBreakOutput l s with
      | none => s
      | some k => runBreaks l n (takeOutputEvent k s)

/-- More events than the breaks that run can need: each slot counts one of them down, and a frame's start, or a change that
a command or the clock makes on the way, can stand before a slot. -/
def breakBound (s : State) : Nat := 4 * ((breaksRunning s).map fun c => (context s c).countdown).sum + 256

/-- BREAK_END (R155): time runs to the first slot that ends a break which is running. Without one, nothing happens (log
entry 3). -/
def execBreakEnd (s : State) : Host.Outcome State Fault Refusal := .next (runBreaks (breaksRunning s) (breakBound s) s)

/-! ### The end of a slot -/

/-- SLOT_ENDS (R75). -/
def execSlotEnds (output : Fin 4) (s : State) : Host.Outcome State Fault Refusal :=
  let s1 := letPass ((s.outs[output].slot.map SlotInProgress.remaining).getD 0) s
  .next (if slotEndDue s1 output then endSlot output s1 else s1)

/-! ### The monitor port, SWAP BANKS, and the cells that no command row takes -/

/-- MONITOR_PACKET_SENT (R78). -/
def execMonitorPacketSent (s : State) : Host.Outcome State Fault Refusal :=
  let s1 := letPass ((s.pool.port.map Sending.remaining).getD 0) s
  .next (if monitorSentDue s1 then finishMonitor s1 else s1)

/-- SWAP_BANKS_COMPLETION (R66). -/
def execSwapBanksCompletion (s : State) : Host.Outcome State Fault Refusal :=
  .next (if swapDue s then completeSwap s else s)

/-- UNKNOWN_CODE_CELL (R163): the cell at the head of the control queue is one that no other row takes. It fails at
its originator or its code. -/
def execUnknownCodeCell (handed : Option Handed) (s : State) : Host.Outcome State Fault Refusal :=
  .next (takeCell isUnknownCell (fun _ _ => .refused .badCommand) handed s)

/-- ABANDON_HOLD (R168). -/
def execAbandonHold (cell : Cell) (s : State) : Host.Outcome State Fault Refusal := .next (abandon cell s)

end Sys2Proof.Machine
end

