-- ==== Sys2Proof/Machine/Dispatch.lean ====
section
/-!
DEFINITION. Dispatch.lean: the meaning of each command, one arm for each row of spec/opcode_table.json.
-/

namespace Sys2Proof.Machine

/-- The effect of a command on everything but the queue of commands that wait. -/
def exec (i : Instr) (s : State) : Host.Outcome State Fault Refusal :=
  match i with
  | .powerOn => Sys2Proof.Machine.execPowerOn s
  | .resetPin => Sys2Proof.Machine.execResetPin s
  | .byteArrives wait port byte => Sys2Proof.Machine.execByteArrives wait port byte s
  | .packetArrives wait port bytes => Sys2Proof.Machine.execPacketArrives wait port bytes s
  | .lossTimerExpiry port => Sys2Proof.Machine.execLossTimerExpiry port s
  | .ref10Lost wait => Sys2Proof.Machine.execRef10Lost wait s
  | .ref10Restored wait => Sys2Proof.Machine.execRef10Restored wait s
  | .pulseEdge wait => Sys2Proof.Machine.execPulseEdge wait s
  | .pulseWatchExpiry => Sys2Proof.Machine.execPulseWatchExpiry s
  | .secondBoundary => Sys2Proof.Machine.execSecondBoundary s
  | .holdoverExpiry => Sys2Proof.Machine.execHoldoverExpiry s
  | .holdTimeout => Sys2Proof.Machine.execHoldTimeout s
  | .slotStart output => Sys2Proof.Machine.execSlotStart output s
  | .reanchorStart output => Sys2Proof.Machine.execReanchorStart output s
  | .acquisitionStart output => Sys2Proof.Machine.execAcquisitionStart output s
  | .breakEnd => Sys2Proof.Machine.execBreakEnd s
  | .slotEnds output => Sys2Proof.Machine.execSlotEnds output s
  | .monitorPacketSent => Sys2Proof.Machine.execMonitorPacketSent s
  | .swapBanksCompletion => Sys2Proof.Machine.execSwapBanksCompletion s
  | .unknownCodeCell handed => Sys2Proof.Machine.execUnknownCodeCell handed s
  | .hold handed => Sys2Proof.Machine.execHold handed s
  | .abandonHold cell => Sys2Proof.Machine.execAbandonHold cell s
  | .setGrants handed => Sys2Proof.Machine.execSetGrants handed s
  | .setEventEnable handed => Sys2Proof.Machine.execSetEventEnable handed s
  | .ackEvents handed => Sys2Proof.Machine.execAckEvents handed s
  | .status handed => Sys2Proof.Machine.execStatus handed s
  | .readCounters handed => Sys2Proof.Machine.execReadCounters handed s
  | .clearCounters handed => Sys2Proof.Machine.execClearCounters handed s
  | .siteReset handed => Sys2Proof.Machine.execSiteReset handed s
  | .setSeconds handed => Sys2Proof.Machine.execSetSeconds handed s
  | .setClockPolicy handed => Sys2Proof.Machine.execSetClockPolicy handed s
  | .setOutput handed => Sys2Proof.Machine.execSetOutput handed s
  | .outputMute handed => Sys2Proof.Machine.execOutputMute handed s
  | .outputRestart handed => Sys2Proof.Machine.execOutputRestart handed s
  | .writeRoute handed => Sys2Proof.Machine.execWriteRoute handed s
  | .copyBank handed => Sys2Proof.Machine.execCopyBank handed s
  | .swapBanks handed => Sys2Proof.Machine.execSwapBanks handed s
  | .setDefaultAction handed => Sys2Proof.Machine.execSetDefaultAction handed s
  | .writeProgramme handed => Sys2Proof.Machine.execWriteProgramme handed s
  | .clearProgramme handed => Sys2Proof.Machine.execClearProgramme handed s
  | .setFeedPolicy handed => Sys2Proof.Machine.execSetFeedPolicy handed s
  | .selectFeed handed => Sys2Proof.Machine.execSelectFeed handed s
  | .defineSegment handed => Sys2Proof.Machine.execDefineSegment handed s
  | .releaseSegment handed => Sys2Proof.Machine.execReleaseSegment handed s
  | .startFill handed => Sys2Proof.Machine.execStartFill handed s
  | .sealFill handed => Sys2Proof.Machine.execSealFill handed s
  | .abortFill handed => Sys2Proof.Machine.execAbortFill handed s
  | .segmentStatus handed => Sys2Proof.Machine.execSegmentStatus handed s
  | .writePlayEntry handed => Sys2Proof.Machine.execWritePlayEntry handed s
  | .configureContext handed => Sys2Proof.Machine.execConfigureContext handed s
  | .startContext handed => Sys2Proof.Machine.execStartContext handed s
  | .stopContext handed => Sys2Proof.Machine.execStopContext handed s
  | .wakeContext handed => Sys2Proof.Machine.execWakeContext handed s
  | .contextStatus handed => Sys2Proof.Machine.execContextStatus handed s

end Sys2Proof.Machine
end

