-- ==== Sys2Proof/Safety.lean ====
section
/-!
DEFINITION. Safety.lean: the words in which statements speak: what a cell carries, when a command is accepted, what
answering it comes to, what a step keeps of the records that software writes, and the conditions that every step keeps.
-/

namespace Sys2Proof.Machine

/-! ### What a cell carries (R7) -/

/-- Unit `k` of a cell is present with value `v` (R7). -/
def carries (c : Cell) (k v : Nat) : Prop := (unitAt c.units k).presence = 1 ∧ (unitAt c.units k).value.toNat = v

/-- Unit `k` of a cell is an optional field: absent, or present with a value (R7). -/
def carriesOpt (c : Cell) (k : Nat) : Option Nat → Prop
  | none => (unitAt c.units k).presence = 0
  | some v => carries c k v

/-- The units of a cell from unit `k` on are present with the values of a list (R7). -/
def carriesAll (c : Cell) : Nat → List Nat → Prop
  | _, [] => True
  | k, v :: l => carries c k v ∧ carriesAll c (k + 1) l

/-! ### Commands and their replies (R162 to R165) -/

/-- The cell at the head of the control queue can be taken: no command is in execution, and the report queue has a place
free (R162). -/
def takeable (c : Cell) (rest : List Cell) (s : State) : Prop :=
  s.mgmt.controlQueue = c :: rest ∧ s.mgmt.executing = none ∧ s.mgmt.reportQueue.length < 32

/-- An originator is granted a group (R163). -/
def granted (s : State) (g : Group) (originator : Byte) : Prop :=
  s.mgmt.grants[g].any = true ∨ s.mgmt.grants[g].originators.getLsbD originator.toNat = true

/-- A cell of a command code stands at the head of the control queue, can be taken, and passes the checks of originator,
code and grant (R162, R163). -/
def accepted (code : Byte) (c : Cell) (rest : List Cell) (s : State) : Prop :=
  takeable c rest s ∧ c.code = code ∧ c.originator.toNat < 64 ∧ ∃ g, groupOf code = some g ∧ granted s g c.originator

/-- The state with the taken cell gone from the control queue. -/
def unqueued (rest : List Cell) (s : State) : State := { s with mgmt := { s.mgmt with controlQueue := rest } }

/-- A reply goes from the state `u` to the tail of the report queue; an idle monitor port begins to send the oldest
report cell, and a place that this frees goes to an abandon reply that waits and to owed flags (R78, R79, R165). -/
def placed (r : Report) (u t : State) : Prop :=
  match u.pool.port with
  | some x =>
    t.pool.port = some x ∧ t.mgmt.reportQueue = u.mgmt.reportQueue ++ [r] ∧ t.mgmt.sequence = u.mgmt.sequence
      ∧ t.mgmt.abandonReply = u.mgmt.abandonReply ∧ t.mgmt.owed = u.mgmt.owed
      ∧ t.mgmt.counters = { u.mgmt.counters with repliesMade := bump u.mgmt.counters.repliesMade }
  | none =>
    ∃ oldest others, u.mgmt.reportQueue ++ [r] = oldest :: others
      ∧ t.pool.port = some { isCopy := false, packet := reportPacket oldest u.mgmt.sequence, remaining := 128 }
      ∧ t.mgmt.sequence = u.mgmt.sequence + 1 ∧ others <+: t.mgmt.reportQueue
      ∧ (u.mgmt.abandonReply = none → u.mgmt.owed = 0 →
          t.mgmt.reportQueue = others ∧ t.mgmt.abandonReply = none ∧ t.mgmt.owed = 0
            ∧ t.mgmt.counters = { u.mgmt.counters with repliesMade := bump u.mgmt.counters.repliesMade })

/-- `t` is `u` with the command of the cell `c` answered: no command is in execution, the one reply is placed, and
everything else stands as in `u` (R164). -/
structure Answered (c : Cell) (status : Status) (units : List ResultUnit) (u t : State) : Prop where
  clock : t.clock = u.clock
  feed : t.feed = u.feed
  route : t.route = u.route
  outs : t.outs = u.outs
  progs : t.progs = u.progs
  store : t.store = u.store
  engine : t.engine = u.engine
  pending : t.pending = u.pending
  buffers : t.pool.buffers = u.pool.buffers
  lowMark : t.pool.lowMark = u.pool.lowMark
  monitorQueue : t.pool.monitorQueue = u.pool.monitorQueue
  poolCounters : t.pool.counters = u.pool.counters
  grants : t.mgmt.grants = u.mgmt.grants
  controlQueue : t.mgmt.controlQueue = u.mgmt.controlQueue
  hold : t.mgmt.hold = u.mgmt.hold
  flags : t.mgmt.flags = u.mgmt.flags
  enabled : t.mgmt.enabled = u.mgmt.enabled
  resetCause : t.mgmt.resetCause = u.mgmt.resetCause
  executing : t.mgmt.executing = none
  reply : placed (.reply c.originator c.tag c.code status units) u t

/-- `t` is `u` with one reply placed and everything else as in `u`: the reply to ABANDON HOLD, which leaves the command in
execution as it is (R165, R168). -/
structure ReplyPlaced (r : Report) (u t : State) : Prop where
  clock : t.clock = u.clock
  feed : t.feed = u.feed
  route : t.route = u.route
  outs : t.outs = u.outs
  progs : t.progs = u.progs
  store : t.store = u.store
  engine : t.engine = u.engine
  pending : t.pending = u.pending
  buffers : t.pool.buffers = u.pool.buffers
  lowMark : t.pool.lowMark = u.pool.lowMark
  monitorQueue : t.pool.monitorQueue = u.pool.monitorQueue
  poolCounters : t.pool.counters = u.pool.counters
  grants : t.mgmt.grants = u.mgmt.grants
  controlQueue : t.mgmt.controlQueue = u.mgmt.controlQueue
  hold : t.mgmt.hold = u.mgmt.hold
  flags : t.mgmt.flags = u.mgmt.flags
  enabled : t.mgmt.enabled = u.mgmt.enabled
  resetCause : t.mgmt.resetCause = u.mgmt.resetCause
  executing : t.mgmt.executing = u.mgmt.executing
  reply : placed r u t

/-- The places of the report queue that are taken: its cells, and the place held for the command in execution (R165). -/
def placesTaken (s : State) : Nat := s.mgmt.reportQueue.length + (if s.mgmt.executing.isSome then 1 else 0)

/-- `Answered` for a refusal, which is counted as an execution refusal (R163, R164, R177). -/
def RefusedWith (c : Cell) (status : Status) (rest : List Cell) (s t : State) : Prop :=
  Answered c status []
    { s with mgmt := { s.mgmt with
        controlQueue := rest
        counters := { s.mgmt.counters with executionRefusals := bump s.mgmt.counters.executionRefusals } } } t

/-- The rows that take a cell from the control queue, each with its command code (R6). -/
def commandRows : List (Byte × (Option Handed → Instr)) :=
  [(0x01, .hold), (0x03, .setGrants), (0x04, .setEventEnable), (0x05, .ackEvents), (0x06, .status),
    (0x07, .readCounters), (0x08, .clearCounters), (0x09, .siteReset), (0x10, .setSeconds), (0x11, .setClockPolicy),
    (0x12, .setOutput), (0x13, .outputMute), (0x14, .outputRestart), (0x20, .writeRoute), (0x21, .copyBank),
    (0x22, .swapBanks), (0x23, .setDefaultAction), (0x24, .writeProgramme), (0x25, .clearProgramme),
    (0x26, .setFeedPolicy), (0x27, .selectFeed), (0x30, .defineSegment), (0x31, .releaseSegment), (0x32, .startFill),
    (0x33, .sealFill), (0x34, .abortFill), (0x35, .segmentStatus), (0x40, .writePlayEntry), (0x41, .configureContext),
    (0x42, .startContext), (0x43, .stopContext), (0x44, .wakeContext), (0x45, .contextStatus)]

/-- The conditions that the fields of a HOLD name are all true: the output's last frame begun is at or after the frame,
the context is IDLE or HALTED, the store context is IDLE, and site seconds have reached the value (R166). -/
def conditionsTrue (s : State) (output frame ctx store seconds : Option Nat) : Prop :=
  (∀ k n, output = some k → frame = some n →
      ∃ b, s.outs[asOutput k].lastBegun = some b ∧ (b - BitVec.ofNat 16 n).toNat ≤ 32767)
    ∧ (∀ x, ctx = some x → (context s (asContext x)).state = .idle ∨ (context s (asContext x)).state = .halted)
    ∧ (∀ i, store = some i → s.store.contexts[asStore i] = none)
    ∧ (∀ v, seconds = some v → min v 4294967295 ≤ s.clock.seconds.toNat)

/-- The HOLD in force has every condition that it names true: the output's last frame begun is at or after the frame, the
context is IDLE or HALTED, the store context is IDLE, and site seconds have reached the value (R166). -/
def holdConditionsTrue (h : Hold) (s : State) : Prop :=
  (∀ k n, h.frame = some (k, n) → ∃ b, s.outs[k].lastBegun = some b ∧ (b - n).toNat ≤ 32767)
    ∧ (∀ x, h.context = some x → (context s x).state = .idle ∨ (context s x).state = .halted)
    ∧ (∀ i, h.store = some i → s.store.contexts[i] = none)
    ∧ (∀ v, h.seconds = some v → v.toNat ≤ s.clock.seconds.toNat)

/-! ### The Feed Intake Unit -/

/-- The Feed Intake Unit `u` has closed a second and is now `v`: the accounting of both feeds (R37), and then the quality
test of the feed that is taken, in AUTO (R41). -/
def SecondClosed (u v : FeedIntake) : Prop :=
  let closed := fun x =>
    let f := feedState u x
    { f with
      erroredMark := false, upThroughout := (portState u (feedPort x)).alignment == .up
      erroredRun := if f.erroredMark then min (f.erroredRun + 1) 65535 else 0
      cleanRun := if f.erroredMark then 0 else if f.upThroughout then min (f.cleanRun + 1) 65535 else 0
      erroredSeconds := if f.erroredMark then bump f.erroredSeconds else f.erroredSeconds }
  let base := { u with feedA := closed .a, feedB := closed .b }
  let quality := fun x => u.mode = .auto ∧ u.threshold ≤ (closed x).erroredRun
    ∧ (portState u (feedPort (otherFeed x))).alignment = .up ∧ (closed x).erroredRun ≤ (closed (otherFeed x)).cleanRun
  (∀ x, u.selection = .active x → quality x → v = { base with
      selection := .handoverTo (otherFeed x)
      handover := { oldFeed := some x, phase := .running, target := .absent } })
    ∧ ((∀ x, u.selection = .active x → ¬quality x) → v = base)

/-- The target of a handover after feed `x` has left UP: its last frame started plus 1, or ANY (R40, R43). -/
def targetAfterLoss (u : FeedIntake) (x : Feed) : Target :=
  match (feedState u x).currentFrame with
  | none => .any
  | some n => .frame (n + 1)

/-- Feed `x` has left UP between `s` and `t`: its DOWN flag is set, the seen flags of its continuity table are cleared, and
the present second is no longer one in which it was UP throughout (R35, R37). -/
def FeedLeftUp (x : Feed) (s t : State) : Prop :=
  hasFlag t.mgmt.flags (match x with | .a => .feedADown | .b => .feedBDown) = true
  ∧ (feedState t.feed x).upThroughout = false
  ∧ (feedState t.feed x).continuity
      = tableMap {} (fun e => { e with seen := false }) (feedState s.feed x).continuity
  ∧ ∀ l, (tableGet {} (feedState t.feed x).continuity l).seen = false

/-- What becomes of the selection, the handover and the frames in progress between `s` and `t` as feed `x` leaves UP: a loss,
the end of the old phase, or the turning back of a handover (R40, R43, R45, R46). A handover to `x` goes to NO_FEED in
either phase when the other feed is not UP; in RUNNING that is the model's reading, log entry 25. -/
def SelectionTurned (x : Feed) (s t : State) : Prop :=
  let h := s.feed.handover
  let other := otherFeed x
  let up := (portState s.feed (feedPort other)).alignment = .up
  let target := targetAfterLoss s.feed x
  let turns := fun (sel : Selection) (v : Handover) => t.feed.selection = sel ∧ t.feed.handover = v
  let noFeed := turns .noFeed {} ∧ hasFlag t.mgmt.flags .noFeed = true
    ∧ ∀ y, (feedState t.feed y).currentFrame = none
  let same := turns s.feed.selection h ∧ ∀ y, (feedState t.feed y).currentFrame = (feedState s.feed y).currentFrame
  let reversed := t.feed.handoverReversals = bump s.feed.handoverReversals
  (s.feed.selection = .active x → up →
      turns (.handoverTo other) { oldFeed := some x, phase := .stopped, target := target }
      ∧ (feedState t.feed x).currentFrame = none)
  ∧ (s.feed.selection = .active x → ¬up → noFeed)
  ∧ (s.feed.selection = .active other → same)
  ∧ (s.feed.selection = .noFeed → same)
  ∧ (s.feed.selection = .handoverTo other → h.phase = .running →
      turns (.handoverTo other) { h with phase := .stopped, target := target }
      ∧ (feedState t.feed x).currentFrame = none)
  ∧ (s.feed.selection = .handoverTo other → h.phase = .stopped → same)
  ∧ (s.feed.selection = .handoverTo x → up → h.phase = .running → turns (.active other) {} ∧ reversed)
  ∧ (s.feed.selection = .handoverTo x → up → h.phase = .stopped →
      turns (.handoverTo other) { oldFeed := some x, phase := .stopped, target := h.target } ∧ reversed)
  ∧ (s.feed.selection = .handoverTo x → ¬up → noFeed)

/-! ### What no event but a command or a reset changes -/

/-- The records that software writes: the routes, the play entries, the configuration of outputs and contexts, the feed
policy, the grants and the event enables. -/
structure PolicyKept (s t : State) : Prop where
  banks : t.route.bank0 = s.route.bank0 ∧ t.route.bank1 = s.route.bank1 ∧ t.route.active = s.route.active
  defaultAction : t.route.defaultAction = s.route.defaultAction
  entries : t.engine.entries = s.engine.entries
  outputs : ∀ k : Fin 4, t.outs[k].multiplex = s.outs[k].multiplex ∧ t.outs[k].offset = s.outs[k].offset
    ∧ t.outs[k].tolerance = s.outs[k].tolerance ∧ t.outs[k].lateLimit = s.outs[k].lateLimit
    ∧ t.outs[k].fallback = s.outs[k].fallback ∧ t.outs[k].defaultRate = s.outs[k].defaultRate
    ∧ t.outs[k].share = s.outs[k].share
  feedPolicy : t.feed.mode = s.feed.mode ∧ t.feed.threshold = s.feed.threshold ∧ t.feed.lossExp = s.feed.lossExp
  grants : t.mgmt.grants = s.mgmt.grants
  enabled : t.mgmt.enabled = s.mgmt.enabled
  resetCause : t.mgmt.resetCause = s.mgmt.resetCause
  pending : t.pending = s.pending

/-! ### The passing of time -/

/-- `n` ticks pass with nothing that comes about by itself before the last of them: nothing is due, and no second boundary,
slot, frame, timer or packet's end comes sooner (R15, R88, log entry 4). -/
def clearFor (n : Nat) (s : State) : Prop := n = 0 ∨ (dueNow s = none ∧ n ≤ timeToNext s)

/-- The Site Clock after `n` ticks within a second: the tick, the pulse watch and, while REF10 is ABSENT, the monitor's 1 ms
count them (R15, R16, R26). -/
def clockAfter (n : Nat) (c : SiteClock) : SiteClock :=
  { c with
    tick := c.tick + n, pulseWatch := c.pulseWatch.map (· + n)
    absentTicks := if c.ref10 = true then c.absentTicks else max c.absentTicks (min (c.absentTicks + n) 20000) }

/-- The Feed Intake Unit after `n` ticks within a second: the loss timers that run count them (R34). -/
def feedAfter (n : Nat) (u : FeedIntake) : FeedIntake :=
  { u with
    portA := { u.portA with lossTimer := u.portA.lossTimer.map (· + n) }
    portB := { u.portB with lossTimer := u.portB.lossTimer.map (· + n) }
    portL := { u.portL with lossTimer := u.portL.lossTimer.map (· + n) } }

/-- `n` ticks within a second pass over the rest of the part: the loss timers, the HOLD's timeout, the slots in progress
and the monitor port's packet count them, and nothing else changes (R34, R75, R78, R167). -/
structure TimersRan (n : Nat) (s t : State) : Prop where
  feed : t.feed = feedAfter n s.feed
  mgmt : t.mgmt = { s.mgmt with hold := s.mgmt.hold.map fun h => { h with elapsed := h.elapsed + n } }
  outs : ∀ k : Fin 4, t.outs[k] =
    { s.outs[k] with slot := s.outs[k].slot.map fun x => { x with remaining := x.remaining - n } }
  pool : t.pool = { s.pool with port := s.pool.port.map fun x => { x with remaining := x.remaining - n } }
  route : t.route = s.route
  progs : t.progs = s.progs
  store : t.store = s.store
  engine : t.engine = s.engine
  pending : t.pending = s.pending

/-! ### Slots -/

/-- The delay queue of an output once its slot in progress has ended: an entry that was being sent has left (R75). -/
def leftAfterSlot (o : Output) : List Entry :=
  if o.slot.map SlotInProgress.sends = some true then o.queue.tail else o.queue

/-- The packet that goes out for a plain copy: the buffer's packet with the entry's label, and with its clock sample moved
by the displacement, modulo 2^40, when its C bit is set (R74, R111). -/
def sentPacket (contents : Option Packet) (label : Label) (displacement : Int) : Packet :=
  let pkt := { contents.getD fillPacket with label := label }
  if pkt.c then withSample pkt (clockSample pkt + BitVec.ofInt 40 displacement) else pkt

/-- Output `k` has reported a slot in which the copy of programme `due` was due, and `t` is `s` after that, as far as the
contexts go: the countdown of each ACTIVE context on the output's programmes falls by one, and at 0 its break ends, ARMED
when a CUE context rearms and IDLE when not. A rearmed context takes its latched cue, which is pending or missed. Every other
context stands as it did (R154, R155, R156). -/
def SlotReported (k : Fin 4) (due : Option Nat) (s t : State) : Prop :=
  ∀ y : Fin 16,
    let z := context s y
    let counts := z.state = .active ∧ (programme s z.programme).valid = true
      ∧ (programme s z.programme).output = some k
    let counted := { z with
      countdown := z.countdown - 1
      otherSlots := if due = some z.programme then z.otherSlots else z.otherSlots + 1 }
    let rearms := z.mode = .cue ∧ z.rearm = true
    let ended := { counted with
      state := if rearms then .armed else .idle, position := .absent, completed := bump z.completed }
    (¬counts → context t y = z)
    ∧ (counts → 1 < z.countdown → context t y = counted)
    ∧ (counts → z.countdown ≤ 1 →
        hasFlag t.mgmt.flags .breakEnd = true
        ∧ (¬rearms ∨ z.latch = none → context t y = ended)
        ∧ (tableWf {} s.progs.records = true → (programme t z.programme).owner ≠ some y
            ∧ ∀ q, rearms → z.latch = some q →
              (pointAheadOn s z.programme q.point = true → context t y = { ended with
                latch := none, splice := some { point := q.point, duration := q.duration, id := some q.id } })
              ∧ (pointAheadOn s z.programme q.point = false →
                  context t y = { ended with latch := none, splice := none }
                  ∧ hasFlag t.mgmt.flags .cueMissed = true)))

/-! ### Conditions that every step keeps -/

/-- The tick is one of the 20,000,000 ticks of its second (R9). -/
def tickInSecond (s : State) : Prop := s.clock.tick < 20000000

/-- An output is LOCKED or ACQUIRING only while the site clock is LOCKED, and HOLDOVER only while it is in HOLDOVER (R97). -/
def syncFollowsClock (s : State) : Prop :=
  ∀ k : Fin 4, (s.outs[k].sync = .locked ∨ s.outs[k].sync = .acquiring → s.clock.mode = .locked)
    ∧ (s.outs[k].sync = .holdover → s.clock.mode = .holdover)

/-- The queues stay within their room: 64 cells in the control queue (R161), 32 places for report cells, with the place
that the command in execution holds (R165), and 64 records in each frame queue (R84). -/
def queuesHaveRoom (s : State) : Prop :=
  s.mgmt.controlQueue.length ≤ 64
    ∧ s.mgmt.reportQueue.length + (if s.mgmt.executing.isSome then 1 else 0) ≤ 32
    ∧ ∀ k : Fin 4, s.outs[k].frameQueue.length ≤ 64

/-- A HOLD in force is the command in execution (R166). -/
def holdIsInExecution (s : State) : Prop :=
  s.mgmt.hold.isSome = true → ∃ c, s.mgmt.executing = some c ∧ c.code = 0x01

/-- The tables of records are in their one form, so that equal contents are equal data. -/
def tablesCanonical (s : State) : Prop :=
  tableWf {} s.route.bank0 = true ∧ tableWf {} s.route.bank1 = true ∧ tableWf {} s.progs.records = true
    ∧ tableWf {} s.store.segments = true ∧ tableWf none s.store.dram = true ∧ tableWf {} s.engine.entries = true
    ∧ tableWf {} s.pool.buffers = true

/-- No two valid programme records hold the same cue label (R107). -/
def cueLabelsDistinct (s : State) : Prop :=
  ∀ p q l, (programme s p).valid = true → (programme s q).valid = true →
    (programme s p).cueLabel = some l → (programme s q).cueLabel = some l → p = q

/-- Segments that are not FREE hold block ranges within the store, and no two of them share a block (R121, R123). -/
def blocksApart (s : State) : Prop :=
  (∀ g, (segment s g).state ≠ .free → 1 ≤ (segment s g).blocks ∧ (segment s g).firstBlock + (segment s g).blocks ≤ 8192)
    ∧ ∀ g h, g ≠ h → (segment s g).state ≠ .free → (segment s h).state ≠ .free →
      (segment s g).firstBlock + (segment s g).blocks ≤ (segment s h).firstBlock
        ∨ (segment s h).firstBlock + (segment s h).blocks ≤ (segment s g).firstBlock

/-- A store context that is FILLING fills a segment that is FILLING, and no two fill one segment (R122, R126). -/
def fillsApart (s : State) : Prop :=
  (∀ (i : Fin 2) (f : Fill), s.store.contexts[i] = some f → (segment s f.segment).state = .filling)
    ∧ ∀ (i j : Fin 2) (f h : Fill), s.store.contexts[i] = some f → s.store.contexts[j] = some h →
      f.segment = h.segment → i = j

end Sys2Proof.Machine
end

