-- ==== Sys2Proof/Certificates/Slice0/Obligations.lean ====
section
/-!
DEFINITION. Obligations.lean: the statements for the provers.
-/

section Statements

open Sys2Proof Sys2Proof.Machine

/-! ### The step -/

/-- For every command and every state, the step of a part whose sender's queue has that command in front is the command's
effect on the state with the queue's rest. -/
def Obligations.StepTakesTheFrontCommand : Prop :=
  ∀ (c : Instr) (rest : List Instr) (s : State), step { s with pending := c :: rest } = exec c { s with pending := rest }

/-- A part for which no command waits takes the event that is due, as the row that names it. When no event is due, it lets
one tick pass: the tick and the timers that run count it, and every block that holds no timer stays as it is; and the last
tick of a second is its boundary. The model's choice, log entry 1. -/
def Obligations.IdlePartLetsOneTickPass : Prop :=
  ∀ s : State, s.pending = [] →
    (∀ i, dueEvent s = some i → step s = exec i s)
    ∧ (dueEvent s = none → s.clock.tick + 1 < 20000000 →
        ∃ t, step s = .next t ∧ t.clock = clockAfter 1 s.clock ∧ TimersRan 1 s t)
    ∧ (dueEvent s = none → s.clock.tick + 1 = 20000000 → step s = exec .secondBoundary s)

/-- An arrival after a wait of `n` ticks comes about as it would for a part that stood there already. While ticks pass, an
event that is due comes about first, as its row, and the ticks up to the next instant at which something comes about pass
before those that follow it; what is due at the last tick is left for the next step. The model's choice, log entry 4. -/
def Obligations.ArrivalsComeAfterTheirWait : Prop :=
  (∀ (n : Nat) (p : Port) (b : Byte) (l : List Byte) (s : State),
    exec (.byteArrives n p b) s = exec (.byteArrives 0 p b) (letPass n s)
      ∧ exec (.packetArrives n p l) s = exec (.packetArrives 0 p l) (letPass n s)
      ∧ exec (.ref10Lost n) s = exec (.ref10Lost 0) (letPass n s)
      ∧ exec (.ref10Restored n) s = exec (.ref10Restored 0) (letPass n s)
      ∧ exec (.pulseEdge n) s = exec (.pulseEdge 0) (letPass n s))
  ∧ (∀ (n : Nat) (s : State),
    letPass 0 s = s
      ∧ (∀ i t, n ≠ 0 → dueEvent s = some i → exec i s = .next t → dueEvent t = none → letPass n s = letPass n t)
      ∧ (dueEvent s = none → 0 < timeToNext s → timeToNext s < n →
          letPass n s = letPass (n - timeToNext s) (letPass (timeToNext s) s)))

/-! ### Resets -/

/-- POWER_ON sets every block as the reset tables of the chapters give, whatever stood before, and keeps what the sender
has waiting; RESET_PIN leaves what POWER_ON leaves, but for the reset cause and for the store blocks, which hold what they
held. That the sender's queue and, at the RESET pin, the store blocks are kept is the model's choice, log entries 1 and 8,
and so is the count with which the monitor of REF10 begins, log entry 22. -/
def Obligations.PowerOnAndResetPinSetTheResetValues : Prop :=
  ∀ s : State, (∃ t, exec .powerOn s = .next t ∧ t = { State.reset with pending := s.pending }
    ∧ t.clock = {
        seconds := 0, tick := 0, mode := .free, stepLimit := 20, holdoverExp := 6, holdoverSeconds := 0,
        outliers := 0, pendingSeconds := none, ref10 := false, absentTicks := 0, pulseWatch := none, counters := {} }
    ∧ t.clock.counters = {
        steps := 0, outlierEdges := 0, forcedSteps := 0, secondsSet := 0, unusedEdges := 0, ref10Losses := 0,
        pulseTimeouts := 0, holdoverExpiries := 0 }
    ∧ (∀ p, portState t.feed p = {
          alignment := .down, wrongLeads := 0, lossTimer := none, assembly := [], search := [], wrongLeadCount := 0,
          alignmentLosses := 0 })
    ∧ (∀ x, feedState t.feed x = {
          continuity := [], erroredMark := false, upThroughout := false, erroredRun := 0, cleanRun := 0,
          currentFrame := none, continuityErrors := 0, erroredSeconds := 0, discards := 0 })
    ∧ t.feed.selection = .noFeed ∧ t.feed.handover = { oldFeed := none, phase := .stopped, target := .absent }
    ∧ t.feed.mode = .auto ∧ t.feed.threshold = 3 ∧ t.feed.lossExp = 5
    ∧ t.feed.seekingTimeouts = 0 ∧ t.feed.reservedDiscards = 0 ∧ t.feed.localTimingDiscards = 0
    ∧ t.feed.localCueDiscards = 0 ∧ t.feed.feedSwitches = 0 ∧ t.feed.handoverReversals = 0
    ∧ t.route.active = false ∧ t.route.defaultAction = .drop ∧ t.route.feedDecode = none ∧ t.route.localDecode = none
    ∧ tableGet {} t.route.bank0 0 = {
        valid := true, input := .feed, value := 0, mask := 0xFFF, exclude := 0, outputs := 0x0F, rewrite := none,
        programme := none }
    ∧ (∀ i, 1 ≤ i → (tableGet {} t.route.bank0 i).valid = false) ∧ (∀ i, (tableGet {} t.route.bank1 i).valid = false)
    ∧ t.route.counters = {
        feedDecoded := 0, localDecoded := 0, noMatch := 0, conflicts := 0, defaultDrops := 0,
        defaultMonitorCopies := 0, emptyRouteDiscards := 0, plainCopies := 0, programmeCopies := 0,
        routeMonitorCopies := 0, unboundProgrammes := 0 }
    ∧ freeBuffers t.pool = 262144 ∧ t.pool.lowMark = 262144 ∧ t.pool.monitorQueue = [] ∧ t.pool.port = none
    ∧ t.pool.counters = {
        claimed := 0, returned := 0, emissionReleases := 0, substitutionReleases := 0, passedReleases := 0,
        flushReleases := 0, monitorReleases := 0, refusedPackets := 0, monitorFullDrops := 0,
        monitorPoolRefusals := 0 }
    ∧ (∀ k : Fin 4, t.outs[k] = {
          multiplex := k, offset := 0, tolerance := 100, lateLimit := 4, fallback := .mute, defaultRate := 24000000,
          share := 65536, sync := .freeRun, muteCause := none, openFrame := none, previous := none, frameQueue := [],
          grid := t.outs[k].grid, current := none, lastBegun := none, lateCount := 0, waiting := false,
          position := none, queue := [], slot := none, line := none, counters := {} }
        ∧ t.outs[k].grid.map (fun g => (g.next, g.rate, g.phase)) = some (now t, 24000000, 0))
    ∧ (∀ k : Fin 4, t.outs[k].counters = {
          timingTaken := 0, badTiming := 0, frameQueueFull := 0, frameGaps := 0, overflowCopies := 0,
          mutedRefusals := 0, framesStarted := 0, reAnchors := 0, acquisitions := 0, lateFrames := 0,
          recordsDiscarded := 0, underrunSlots := 0, fillSlots := 0, packetsEmitted := 0, passedSlots := 0,
          timeJumps := 0, shareRefusals := 0, poolRefusals := 0 })
    ∧ (∀ p, (programme t p).valid = false ∧ (programme t p).owner = none ∧ (programme t p).tracker = none
        ∧ (programme t p).discontinuity = false)
    ∧ t.progs.counters = {
        programmeSamples := 0, plainSamples := 0, nonzeroDisplacements := 0, advertSamples := 0,
        discontinuityMarks := 0, spliceOffsets := 0, staleSplices := 0, absentA0Splices := 0 }
    ∧ (∀ g, (segment t g).state = .free ∧ (segment t g).packets = 0 ∧ (segment t g).uses = 0)
    ∧ (∀ i : Fin 2, t.store.contexts[i] = none)
    ∧ t.store.counters = {
        packetsStored := 0, continuityErrors := 0, completedFull := 0, sealed := 0, aborted := 0, started := 0 }
    ∧ (∀ e, playEntry t e = { segment := none, repeats := 1, next := none })
    ∧ (∀ c, context t c = {
          state := .idle, programme := 0, priority := 0, mode := .cue, filter := none, lead := 0, labelMap := [(0, 0)],
          chainHead := 0, rearm := false, latch := none, splice := none, position := .absent, countdown := 0,
          offset := 0, haltReason := none, completed := 0, substituted := 0, endSlots := 0, otherSlots := 0 })
    ∧ t.engine.counters = {
        cuesTaken := 0, badCues := 0, cuesUnclaimed := 0, latchOverwrites := 0, pendingReplacements := 0,
        cancelsApplied := 0, splicesMissed := 0, activations := 0, takeovers := 0, breaksCompleted := 0,
        breaksStopped := 0, halts := 0, substitutedSlots := 0, endFillSlots := 0, discardsAndSkips := 0 }
    ∧ (∀ g : Group, t.mgmt.grants[g].any = true ∧ t.mgmt.grants[g].originators = 0)
    ∧ t.mgmt.controlQueue = [] ∧ t.mgmt.reportQueue = [] ∧ t.mgmt.executing = none ∧ t.mgmt.hold = none
    ∧ t.mgmt.abandonReply = none ∧ t.mgmt.flags = 0 ∧ t.mgmt.enabled = 0 ∧ t.mgmt.owed = 0 ∧ t.mgmt.sequence = 0
    ∧ t.mgmt.resetCause = .powerOn ∧ t.mgmt.counters = {
        cellsFromFeed := 0, cellsFromLocal := 0, overflowDrops := 0, repliesMade := 0, acceptanceRefusals := 0,
        executionRefusals := 0, eventReports := 0, owedReports := 0, holdTimeouts := 0, holdsAbandoned := 0,
        abandonDiscards := 0, outputChanges := Vector.replicate 4 0 }
    ∧ t.pending = s.pending)
    ∧ ∃ t u, exec .resetPin s = .next t ∧ exec .powerOn s = .next u
    ∧ t.mgmt.resetCause = .resetPin ∧ t.store.dram = s.store.dram
    ∧ { t with mgmt := { t.mgmt with resetCause := .powerOn }, store := { t.store with dram := [] } } = u

/-- SITE RESET: the clock keeps its time and state, and the acceptance table, the programme records, the segment records
and the store blocks are kept as their chapters give; every queue of the part and every counter is emptied; and the reply
is the only report cell, sent with sequence 0. That the monitor port begins to send it in the same step is the model's
choice, log entry 24, and so is that what the sender has waiting, which is no queue of the part, is kept, log entry 1. -/
def Obligations.SiteResetKeepsTimeAndRecords : Prop :=
  ∀ (s : State) (c : Cell) (rest : List Cell), accepted 0x09 c rest s →
    ∃ t, exec (.siteReset none) s = .next t
      ∧ t.clock = { s.clock with stepLimit := 20, holdoverExp := 6, pendingSeconds := none, counters := {} }
      ∧ t.feed = {} ∧ t.route = {} ∧ t.engine = {} ∧ t.pool.buffers = [] ∧ t.pool.monitorQueue = []
      ∧ t.pool.counters = {} ∧ t.pool.lowMark = 262144
      ∧ (∀ k : Fin 4, t.outs[k] = {
            multiplex := k, offset := 0, tolerance := 100, lateLimit := 4, fallback := .mute,
            defaultRate := 24000000, share := 65536, sync := .freeRun, muteCause := none, openFrame := none,
            previous := none, frameQueue := [], grid := t.outs[k].grid, current := none, lastBegun := none,
            lateCount := 0, waiting := false, position := none, queue := [], slot := none, line := none,
            counters := {} }
          ∧ t.outs[k].grid.map (fun g => (g.next, g.rate, g.phase)) = some (now s, 24000000, 0))
      ∧ (tableWf {} s.progs.records = true → ∀ p,
          programme t p = { programme s p with
            owner := none, tracker := none
            discontinuity := (programme s p).discontinuity || (programme s p).owner.isSome })
      ∧ t.progs.counters = {}
      ∧ (tableWf {} s.store.segments = true → ∀ g,
          segment t g = (if (segment s g).state = .filling then
              { segment s g with state := .empty, packets := 0, a0 := none, errors := 0, uses := 0 }
            else { segment s g with uses := 0 }))
      ∧ (∀ i : Fin 2, t.store.contexts[i] = none) ∧ t.store.dram = s.store.dram ∧ t.store.counters = {}
      ∧ t.mgmt.grants = s.mgmt.grants ∧ t.mgmt.controlQueue = [] ∧ t.mgmt.executing = none ∧ t.mgmt.hold = none
      ∧ t.mgmt.flags = 0 ∧ t.mgmt.enabled = 0 ∧ t.mgmt.owed = 0 ∧ t.mgmt.abandonReply = none
      ∧ t.mgmt.resetCause = .siteReset ∧ t.mgmt.counters = { repliesMade := 1 } ∧ t.mgmt.reportQueue = []
      ∧ t.mgmt.sequence = 1
      ∧ t.pool.port = some { isCopy := false, packet := reportPacket (.reply c.originator c.tag c.code .ok []) 0, remaining := 128 }
      ∧ t.pending = s.pending

/-! ### The Site Clock -/

/-- REF10 restored after `n` ticks that stay within the second and in which nothing else comes about: REF10 becomes PRESENT
when it is ABSENT and 20,000 ticks have passed since it became so and since the last gap, the tick and the running timers count the ticks, and
nothing else changes. That the row lets the ticks pass, and leaves the state as it is while REF10 cannot yet have run for 1
ms, is the model's choice, log entries 3, 4 and 22. -/
def Obligations.Ref10RestoredChangesNoClockState : Prop :=
  ∀ (n : Nat) (s : State), s.clock.tick + n < 20000000 → clearFor n s →
    ∃ t, exec (.ref10Restored n) s = .next t
      ∧ (s.clock.ref10 = false → 20000 ≤ (clockAfter n s.clock).absentTicks →
          t.clock = { clockAfter n s.clock with ref10 := true, absentTicks := 0 })
      ∧ (s.clock.ref10 = true ∨ (clockAfter n s.clock).absentTicks < 20000 → t.clock = clockAfter n s.clock)
      ∧ TimersRan n s t

/-- REF10 lost: a LOCKED clock goes to HOLDOVER with REF_LOST set, its LOCKED outputs to HOLDOVER and its ACQUIRING outputs
to FREE_RUN; in the other clock states only the presence and the counter change. While REF10 is ABSENT, the row is a gap in
its cycles, and restarts the monitor's 1 ms, which is a count that begins at 0: the model's choice, log entry 22. -/
def Obligations.Ref10LostSendsALockedClockToHoldover : Prop :=
  ∀ s : State, ∃ t, exec (.ref10Lost 0) s = .next t ∧ PolicyKept s t
    ∧ (s.clock.ref10 = false → t = { s with clock := { s.clock with absentTicks := 0 } })
    ∧ (s.clock.ref10 = true → s.clock.mode ≠ .locked →
        t = { s with clock := { s.clock with
          ref10 := false, absentTicks := 0
          counters := { s.clock.counters with ref10Losses := bump s.clock.counters.ref10Losses } } })
    ∧ (s.clock.ref10 = true → s.clock.mode = .locked →
        t.clock = { s.clock with
          ref10 := false, absentTicks := 0, mode := .holdover, holdoverSeconds := 0, pulseWatch := none
          counters := { s.clock.counters with ref10Losses := bump s.clock.counters.ref10Losses } }
        ∧ hasFlag t.mgmt.flags .refLost = true ∧ t.feed = s.feed ∧ t.store.dram = s.store.dram
        ∧ ∀ k : Fin 4, t.outs[k].sync =
            (match s.outs[k].sync with | .locked => .holdover | .acquiring => .freeRun | x => x))

/-- A pulse edge in LOCKED with no pending seconds value, by its error and the consecutive-outlier count. A step that adds a
second closes the feeds' second; the HOLD in force is tested; and the four outputs deal with the jump of site time. The order
of these is the model's choice, log entries 11 and 44. -/
def Obligations.PulseEdgeInLockedGoesByItsError : Prop :=
  ∀ s : State, s.clock.mode = .locked → s.clock.pendingSeconds = none → tickInSecond s →
    ∃ t u, exec (.pulseEdge 0) s = .next t ∧ PolicyKept s t
      ∧ t = [0, 1, 2, 3].foldl (fun v k => jumpOutput (now t - now s) k v) (testHold u)
      ∧ u.clock = t.clock ∧ u.feed = t.feed ∧ u.outs = s.outs ∧ u.route = s.route ∧ u.progs = s.progs ∧ u.store = s.store
      ∧ u.engine = s.engine ∧ u.pool.buffers = s.pool.buffers
      ∧ (let c := s.clock
         let e : Int := if c.tick < 10000000 then c.tick else (c.tick : Int) - 20000000
         let step := { c with
           tick := 0, seconds := if c.tick < 10000000 then c.seconds else c.seconds + 1
           outliers := 0, pulseWatch := some 0 }
         let adds := (3 ≤ c.outliers ∨ e.natAbs ≤ c.stepLimit) ∧ e < 0
         (adds → SecondClosed s.feed t.feed) ∧ (¬adds → t.feed = s.feed)
         ∧ (3 ≤ c.outliers →
            t.clock = { step with counters := { c.counters with forcedSteps := bump c.counters.forcedSteps } })
         ∧ (c.outliers ≤ 2 → e = 0 → t.clock = { c with outliers := 0, pulseWatch := some 0 })
         ∧ (c.outliers ≤ 2 → e ≠ 0 → e.natAbs ≤ c.stepLimit →
            t.clock = { step with counters := { c.counters with steps := bump c.counters.steps } })
         ∧ (c.outliers ≤ 2 → c.stepLimit < e.natAbs →
            t.clock = { c with
              outliers := c.outliers + 1, pulseWatch := some 0
              counters := { c.counters with outlierEdges := bump c.counters.outlierEdges } }
            ∧ hasFlag t.mgmt.flags .ppsOutlier = true))

/-- A pulse edge in HOLDOVER or EXPIRED with no pending value: with REF10 PRESENT it is taken as a step whatever its error
and the clock is LOCKED; with REF10 ABSENT, and in FREE, it is counted as unused and changes nothing else of the clock. A
usable edge with a pending seconds value `v` begins second `v`, in LOCKED when REF10 is PRESENT or the clock is LOCKED
already. A new second closes the feeds' second; a return to LOCKED takes the outputs in HOLDOVER with it; the HOLD in force
is tested; and the four outputs deal with the jump of site time. The order of these is the model's choice, log entries 11
and 44. -/
def Obligations.PulseEdgeOutsideLockedOrWithAPendingValue : Prop :=
  (∀ s : State, s.clock.mode ≠ .locked → s.clock.pendingSeconds = none → tickInSecond s →
    ∃ t u, exec (.pulseEdge 0) s = .next t ∧ PolicyKept s t
      ∧ t = [0, 1, 2, 3].foldl (fun v k => jumpOutput (now t - now s) k v) (testHold u)
      ∧ u.clock = t.clock ∧ u.feed = t.feed ∧ u.route = s.route ∧ u.progs = s.progs ∧ u.store = s.store
      ∧ u.engine = s.engine ∧ u.pool.buffers = s.pool.buffers
      ∧ (let returns := s.clock.mode ≠ .free ∧ s.clock.ref10 = true
         (returns ∧ 10000000 ≤ s.clock.tick → SecondClosed s.feed t.feed)
         ∧ (¬(returns ∧ 10000000 ≤ s.clock.tick) → t.feed = s.feed)
         ∧ ∀ k : Fin 4, (returns ∧ s.outs[k].sync = .holdover →
                u.outs[k] = { s.outs[k] with sync := .locked } ∧ hasFlag t.mgmt.flags .outputState = true)
              ∧ (¬(returns ∧ s.outs[k].sync = .holdover) → u.outs[k] = s.outs[k]))
      ∧ (s.clock.mode ≠ .free → s.clock.ref10 = true →
          t.clock = { s.clock with
            mode := .locked, tick := 0
            seconds := if s.clock.tick < 10000000 then s.clock.seconds else s.clock.seconds + 1
            holdoverSeconds := 0, outliers := 0, pulseWatch := some 0
            counters := { s.clock.counters with forcedSteps := bump s.clock.counters.forcedSteps } })
      ∧ (s.clock.mode = .free ∨ s.clock.ref10 = false →
          t.clock = { s.clock with
            counters := { s.clock.counters with unusedEdges := bump s.clock.counters.unusedEdges } }))
  ∧ (∀ (s : State) (v : BitVec 32), s.clock.pendingSeconds = some v →
    s.clock.mode = .free ∨ s.clock.mode = .locked ∨ s.clock.ref10 = true →
    ∃ t u, exec (.pulseEdge 0) s = .next t ∧ PolicyKept s t
      ∧ t = [0, 1, 2, 3].foldl (fun v k => jumpOutput (now t - now s) k v) (testHold u)
      ∧ u.clock = t.clock ∧ u.feed = t.feed ∧ u.route = s.route ∧ u.progs = s.progs ∧ u.store = s.store
      ∧ u.engine = s.engine ∧ u.pool.buffers = s.pool.buffers ∧ SecondClosed s.feed t.feed
      ∧ (∀ k : Fin 4,
          (let follows := (s.clock.mode = .holdover ∨ s.clock.mode = .expired) ∧ s.outs[k].sync = .holdover
           (follows → u.outs[k] = { s.outs[k] with sync := .locked } ∧ hasFlag t.mgmt.flags .outputState = true)
           ∧ (¬follows → u.outs[k] = s.outs[k])))
      ∧ t.clock = { s.clock with
          seconds := v, tick := 0, pendingSeconds := none, outliers := 0
          mode := if s.clock.mode = .free ∧ s.clock.ref10 = false then .free else .locked
          pulseWatch := if s.clock.mode = .free ∧ s.clock.ref10 = false then s.clock.pulseWatch else some 0
          holdoverSeconds := if s.clock.mode = .holdover ∨ s.clock.mode = .expired then 0 else s.clock.holdoverSeconds
          counters := { s.clock.counters with secondsSet := bump s.clock.counters.secondsSet } })

/-- The pulse watch of a LOCKED clock expires at 20,400,000 ticks, when nothing else comes about before: HOLDOVER, with
REF_LOST set, and no output follows a LOCKED clock any more. That the row lets time run to the expiry is the model's
choice, log entry 4. -/
def Obligations.PulseWatchExpiresIntoHoldover : Prop :=
  ∀ (s : State) (w : Nat), tickInSecond s → s.clock.mode = .locked → s.clock.pulseWatch = some w →
    clearFor (20400000 - w) s →
    ∃ t, exec .pulseWatchExpiry s = .next t ∧ PolicyKept s t
      ∧ t.clock.mode = .holdover ∧ t.clock.pulseWatch = none ∧ t.clock.holdoverSeconds = 0
      ∧ t.clock.tick = (s.clock.tick + (20400000 - w)) % 20000000
      ∧ t.clock.ref10 = s.clock.ref10 ∧ t.clock.pendingSeconds = s.clock.pendingSeconds
      ∧ t.clock.counters = { s.clock.counters with pulseTimeouts := bump s.clock.counters.pulseTimeouts }
      ∧ hasFlag t.mgmt.flags .refLost = true
      ∧ ∀ k : Fin 4, t.outs[k].sync ≠ .locked ∧ t.outs[k].sync ≠ .acquiring

/-- SECOND_BOUNDARY: time runs to the end of the second, with nothing else coming about before; site seconds advance, a
HOLDOVER counts the second and expires when that brings it to its limit, and the Feed Intake Unit closes the second of both
feeds and tests the quality of the feed that is taken. That the row lets time run to the boundary, and that the boundary
itself expires a holdover, is the model's choice, log entries 4 and 5. -/
def Obligations.SecondBoundaryClosesTheSecond : Prop :=
  ∀ s : State, tickInSecond s → clearFor (20000000 - s.clock.tick) s →
    ∃ t, exec .secondBoundary s = .next t ∧ PolicyKept s t
      ∧ (let c := { clockAfter (20000000 - s.clock.tick) s.clock with seconds := s.clock.seconds + 1, tick := 0 }
         (s.clock.mode ≠ .holdover → t.clock = c)
         ∧ (s.clock.mode = .holdover → s.clock.holdoverSeconds + 1 < 2 ^ s.clock.holdoverExp →
              t.clock = { c with holdoverSeconds := s.clock.holdoverSeconds + 1 })
         ∧ (s.clock.mode = .holdover → 2 ^ s.clock.holdoverExp ≤ s.clock.holdoverSeconds + 1 →
              t.clock = { c with
                mode := .expired, holdoverSeconds := s.clock.holdoverSeconds + 1
                counters := { s.clock.counters with holdoverExpiries := bump s.clock.counters.holdoverExpiries } }
              ∧ hasFlag t.mgmt.flags .holdoverExpired = true))
      ∧ SecondClosed (feedAfter (20000000 - s.clock.tick) s.feed) t.feed

/-- HOLDOVER_EXPIRY: time runs to the boundary that brings the holdover seconds to the limit, here the next one with nothing
else coming about before: EXPIRED, its flag set and counted, and each output in HOLDOVER takes its fallback, while the
others keep their sync state unless site seconds wrap to 0 there. Outside HOLDOVER nothing changes. That the row lets time
run to the boundary, and changes nothing outside HOLDOVER, is the model's choice, log entries 3, 4 and 5, and so is that the
expiry comes before the jump of the wrap, log entry 43. -/
def Obligations.HoldoverExpiryTakesTheFallback : Prop :=
  ∀ s : State, tickInSecond s →
    (s.clock.mode ≠ .holdover → exec .holdoverExpiry s = .next s)
    ∧ (s.clock.mode = .holdover → 2 ^ s.clock.holdoverExp ≤ s.clock.holdoverSeconds + 1 →
        clearFor (20000000 - s.clock.tick) s →
        ∃ t, exec .holdoverExpiry s = .next t ∧ PolicyKept s t
          ∧ t.clock = { clockAfter (20000000 - s.clock.tick) s.clock with
              seconds := s.clock.seconds + 1, tick := 0, mode := .expired
              holdoverSeconds := s.clock.holdoverSeconds + 1
              counters := { s.clock.counters with holdoverExpiries := bump s.clock.counters.holdoverExpiries } }
          ∧ hasFlag t.mgmt.flags .holdoverExpired = true
          ∧ ∀ k : Fin 4,
              (let after := if s.outs[k].sync = .holdover then
                  (match s.outs[k].fallback with | .mute => Sync.muted | .freeRun => Sync.freeRun)
                else s.outs[k].sync
               (s.clock.seconds ≠ 4294967295 → t.outs[k].sync = after)
               ∧ (s.clock.seconds = 4294967295 →
                    t.outs[k].sync = if after = .muted then .muted else .freeRun)))

/-- SET SECONDS makes its value the pending one, and nothing else of the clock changes. SET CLOCK POLICY sets the fields
that are present, clamped; a shorter holdover limit that the holdover has already reached expires it. -/
def Obligations.SetSecondsAndSetClockPolicySetTheirFields : Prop :=
  (∀ (s : State) (c : Cell) (rest : List Cell) (v : Nat), accepted 0x10 c rest s → carries c 0 v →
    ∃ t, exec (.setSeconds none) s = .next t
      ∧ Answered c .ok [natUnit (min v 4294967295)]
          { unqueued rest s with clock := { s.clock with pendingSeconds := some (BitVec.ofNat 32 (min v 4294967295)) } } t)
  ∧ (∀ (s : State) (c : Cell) (rest : List Cell) (limit exponent : Option Nat), accepted 0x11 c rest s →
    carriesOpt c 0 limit → carriesOpt c 1 exponent →
    (let l := (limit.map (min 1000)).getD s.clock.stepLimit
     let h := (exponent.map (min 12)).getD s.clock.holdoverExp
     (exponent = none ∨ s.clock.mode ≠ .holdover ∨ s.clock.holdoverSeconds < 2 ^ h →
        ∃ t, exec (.setClockPolicy none) s = .next t
          ∧ Answered c .ok [natUnit l, natUnit h]
              { unqueued rest s with clock := { s.clock with stepLimit := l, holdoverExp := h } } t)
     ∧ (exponent ≠ none → s.clock.mode = .holdover → 2 ^ h ≤ s.clock.holdoverSeconds →
        ∃ t, exec (.setClockPolicy none) s = .next t
          ∧ t.clock = { s.clock with
              stepLimit := l, holdoverExp := h, mode := .expired
              counters := { s.clock.counters with holdoverExpiries := bump s.clock.counters.holdoverExpiries } }
          ∧ hasFlag t.mgmt.flags .holdoverExpired = true ∧ t.mgmt.executing = none
          ∧ ∀ k : Fin 4, t.outs[k].sync ≠ .holdover)))

/-! ### The Management Unit -/

/-- A cell that sorting hands on as a row that takes cells begins goes to the tail of the control queue, and the row then
deals with the queue's head (the model's choice, log entry 2). A cell that finds 64 cells there is dropped and counted, and
sets CONTROL_OVERFLOW. A cell waits in the queue while a command is in execution, while the report queue has no free place,
and while the row is another cell's: nothing changes. That such a row, and one that finds the queue empty, leaves the state
as it is and is answered next is the model's choice, log entry 3. -/
def Obligations.CellWaitsInTheControlQueue : Prop :=
  (∀ row ∈ commandRows.map Prod.snd ++ [.unknownCodeCell], ∀ (h : Handed) (s : State), h.cell.code ≠ 0x02 →
    64 ≤ s.mgmt.controlQueue.length →
    exec (row (some h)) s = exec (row none) (setFlag .controlOverflow { s with mgmt := { s.mgmt with
      counters := { s.mgmt.counters with overflowDrops := bump s.mgmt.counters.overflowDrops } } }))
  ∧ (∀ row ∈ commandRows.map Prod.snd ++ [.unknownCodeCell], ∀ (h : Handed) (s : State), h.cell.code ≠ 0x02 →
    s.mgmt.controlQueue.length < 64 →
    exec (row (some h)) s = exec (row none) { s with mgmt := { s.mgmt with
      controlQueue := s.mgmt.controlQueue ++ [h.cell]
      counters := match h.source with
        | .feed => { s.mgmt.counters with cellsFromFeed := bump s.mgmt.counters.cellsFromFeed }
        | .localPort => { s.mgmt.counters with cellsFromLocal := bump s.mgmt.counters.cellsFromLocal } } })
  ∧ (∀ s : State, s.mgmt.executing ≠ none ∨ 32 ≤ s.mgmt.reportQueue.length ∨ s.mgmt.controlQueue = [] →
    ∀ row ∈ commandRows.map Prod.snd ++ [.unknownCodeCell], exec (row none) s = .next s)
  ∧ ∀ (s : State) (c : Cell) (rest : List Cell), s.mgmt.controlQueue = c :: rest →
    (∀ r ∈ commandRows, c.code ≠ r.1 → exec (r.2 none) s = .next s)
    ∧ (∀ r ∈ commandRows, c.code = r.1 → c.originator.toNat < 64 → exec (.unknownCodeCell none) s = .next s)

/-- A cell that fails at its originator, its code or its grant is taken and answered, counted as an acceptance refusal,
and nothing else of the part changes. That UNKNOWN_CODE_CELL also takes a cell whose originator is out of range is the
model's choice, log entry 2. -/
def Obligations.AcceptanceChecksDecideTheReply : Prop :=
  ∀ (s : State) (c : Cell) (rest : List Cell), takeable c rest s →
    (let u := { s with mgmt := { s.mgmt with
        controlQueue := rest
        counters := { s.mgmt.counters with acceptanceRefusals := bump s.mgmt.counters.acceptanceRefusals } } }
     (64 ≤ c.originator.toNat →
        ∃ t, exec (.unknownCodeCell none) s = .next t ∧ Answered c .notGranted [] u t)
     ∧ (c.originator.toNat < 64 → groupOf c.code = none →
        ∃ t, exec (.unknownCodeCell none) s = .next t ∧ Answered c .badCommand [] u t)
     ∧ (∀ r ∈ commandRows, c.code = r.1 →
        (64 ≤ c.originator.toNat ∨ ∀ g, groupOf c.code = some g → ¬granted s g c.originator) →
        ∃ t, exec (r.2 none) s = .next t ∧ Answered c .notGranted [] u t))

/-- HOLD becomes the HOLD in force and stays in execution; when every condition it names is true as it is taken, it ends
at once with OK, its seconds value, its timeout and the set of its named conditions. At each later test it ends in the same
way when its conditions are all true, and nothing changes when they are not. -/
def Obligations.HoldStaysUntilItsConditionsAreTrue : Prop :=
  (∀ (s : State) (c : Cell) (rest : List Cell) (output frame ctx store seconds : Option Nat) (timeout : Nat),
    accepted 0x01 c rest s →
    carriesOpt c 0 output → carriesOpt c 1 frame → carriesOpt c 2 ctx → carriesOpt c 3 store → carriesOpt c 4 seconds →
    carries c 5 timeout → (∀ k, output = some k → k < 4) → (∀ n, frame = some n → n < 65536) →
    (∀ x, ctx = some x → x < 16) → (∀ i, store = some i → i < 2) → (output.isSome = frame.isSome) →
    (conditionsTrue s output frame ctx store seconds →
      ∃ t, exec (.hold none) s = .next t
        ∧ Answered c .ok
            [seconds.map (fun v => BitVec.ofNat 40 (min v 4294967295)), natUnit (min timeout 65535),
              natUnit ((if output.isSome then 1 else 0) + (if ctx.isSome then 2 else 0) + (if store.isSome then 4 else 0)
                + (if seconds.isSome then 8 else 0))]
            { s with mgmt := { s.mgmt with controlQueue := rest, hold := none } } t)
    ∧ (¬conditionsTrue s output frame ctx store seconds →
      ∃ t h, exec (.hold none) s = .next t
        ∧ t = { s with mgmt := { s.mgmt with controlQueue := rest, executing := some c, hold := some h } }
        ∧ h.timeout = min timeout 65535 ∧ h.elapsed = 0
        ∧ h.frame = (match output, frame with | some k, some n => some (asOutput k, BitVec.ofNat 16 n) | _, _ => none)
        ∧ h.context = ctx.map asContext ∧ h.store = store.map asStore
        ∧ h.seconds = seconds.map fun v => BitVec.ofNat 32 (min v 4294967295)))
  ∧ (∀ (s : State) (c : Cell) (h : Hold), s.mgmt.hold = some h → s.mgmt.executing = some c →
    (holdConditionsTrue h s → Answered c .ok
        [h.seconds.map (fun v => BitVec.ofNat 40 v.toNat), natUnit h.timeout,
          natUnit ((if h.frame.isSome then 1 else 0) + (if h.context.isSome then 2 else 0) + (if h.store.isSome then 4 else 0)
            + (if h.seconds.isSome then 8 else 0))]
        { s with mgmt := { s.mgmt with hold := none } } (testHold s))
    ∧ (¬holdConditionsTrue h s → testHold s = s))
  ∧ (∀ s : State, s.mgmt.hold = none → testHold s = s)

/-- The HOLD in force whose timeout of `n` ms runs out within the second, with nothing else coming about before, ends with
HOLD_TIMEOUT, which is counted, and its reply is made. That the row lets time run to the timeout is the model's choice, log entry 4. -/
def Obligations.HoldTimesOut : Prop :=
  ∀ (s : State) (c : Cell) (h : Hold), s.mgmt.executing = some c → s.mgmt.hold = some h → h.timeout ≠ 0 →
    s.clock.tick + (h.timeout * 20000 - h.elapsed) < 20000000 → clearFor (h.timeout * 20000 - h.elapsed) s →
    ∃ t units, exec .holdTimeout s = .next t ∧ t.mgmt.executing = none ∧ t.mgmt.hold = none
      ∧ t.clock.tick = s.clock.tick + (h.timeout * 20000 - h.elapsed)
      ∧ (∃ u, Answered c .holdTimeout units u t ∧ u.mgmt.reportQueue = s.mgmt.reportQueue
          ∧ u.mgmt.controlQueue = s.mgmt.controlQueue
          ∧ u.mgmt.counters = { s.mgmt.counters with holdTimeouts := bump s.mgmt.counters.holdTimeouts })
      ∧ units.length = 3 ∧ units[0]? = some (h.seconds.map fun v => BitVec.ofNat 40 v.toNat)
      ∧ units[1]? = some (natUnit h.timeout)
      ∧ t.route = s.route ∧ t.progs = s.progs ∧ t.store = s.store ∧ t.engine = s.engine

/-- ABANDON HOLD is dealt with as sorting hands it on: granted, it ends the HOLD in force and is answered OK; not granted,
it is answered NOT_GRANTED. Its reply is placed at once when a place is free, and waits in the abandon reply place when none
is; while that place is occupied the cell is discarded. That a cell that is not granted counts as an acceptance refusal is
the model's choice, log entry 19. -/
def Obligations.AbandonHoldActsAtItsArrival : Prop :=
  ∀ (s : State) (a : Cell), a.code = 0x02 →
    (let passes := a.originator.toNat < 64 ∧ granted s 0 a.originator
     let reply := fun status => Report.reply a.originator a.tag a.code status []
     let refused := { s with mgmt := { s.mgmt with
       counters := { s.mgmt.counters with acceptanceRefusals := bump s.mgmt.counters.acceptanceRefusals } } }
     let waits := fun (r : Report) (u : State) => { u with mgmt := { u.mgmt with abandonReply := some r } }
     (s.mgmt.abandonReply ≠ none →
      ∃ t, exec (.abandonHold a) s = .next t ∧ hasFlag t.mgmt.flags .controlOverflow = true
        ∧ t.mgmt.hold = s.mgmt.hold ∧ t.mgmt.executing = s.mgmt.executing ∧ t.mgmt.controlQueue = s.mgmt.controlQueue
        ∧ t.mgmt.counters.abandonDiscards = bump s.mgmt.counters.abandonDiscards
        ∧ t.clock = s.clock ∧ t.outs = s.outs ∧ t.engine = s.engine ∧ t.store = s.store)
     ∧ (s.mgmt.abandonReply = none → ¬passes → 32 ≤ placesTaken s →
      exec (.abandonHold a) s = .next (waits (reply .notGranted) refused))
     ∧ (s.mgmt.abandonReply = none → ¬passes → placesTaken s < 32 →
      ∃ t, exec (.abandonHold a) s = .next t ∧ ReplyPlaced (reply .notGranted) refused t)
     ∧ (s.mgmt.abandonReply = none → passes → s.mgmt.hold = none → 32 ≤ placesTaken s →
      exec (.abandonHold a) s = .next (waits (reply .ok) s))
     ∧ (s.mgmt.abandonReply = none → passes → s.mgmt.hold = none → placesTaken s < 32 →
      ∃ t, exec (.abandonHold a) s = .next t ∧ ReplyPlaced (reply .ok) s t)
     ∧ (∀ h c, s.mgmt.abandonReply = none → passes → s.mgmt.hold = some h → s.mgmt.executing = some c →
      ∃ t u units, exec (.abandonHold a) s = .next t
        ∧ Answered c .holdAbandoned units { s with mgmt := { s.mgmt with
            hold := none, counters := { s.mgmt.counters with holdsAbandoned := bump s.mgmt.counters.holdsAbandoned } } } u
        ∧ units.length = 3 ∧ units[0]? = some (h.seconds.map fun v => BitVec.ofNat 40 v.toNat)
        ∧ units[1]? = some (natUnit h.timeout)
        ∧ (placesTaken u < 32 → ReplyPlaced (reply .ok) u t) ∧ (32 ≤ placesTaken u → t = waits (reply .ok) u)))

/-- SET GRANTS replaces one group's grant set and ANY flag. -/
def Obligations.SetGrantsReplacesOneGroup : Prop :=
  ∀ (s : State) (c : Cell) (rest : List Cell) (g : Group) (low high any : Nat), accepted 0x03 c rest s →
    carriesAll c 0 [g.val, low, high, any] → low < 4294967296 → high < 4294967296 → any < 2 →
    ∃ t, exec (.setGrants none) s = .next t
      ∧ Answered c .ok [natUnit low, natUnit high, natUnit any]
          { s with mgmt := { s.mgmt with
              controlQueue := rest
              grants := s.mgmt.grants.set g
                { originators := BitVec.ofNat 64 (high * 4294967296 + low), any := decide (any = 1) } } } t

/-- SET EVENT ENABLE makes the enable set its field, and the flags do not change; ACK EVENTS clears the flags in its set and
leaves the others; each is refused with RANGE for a field of more than 16 bits. -/
def Obligations.SetEventEnableAndAckEvents : Prop :=
  (∀ (s : State) (c : Cell) (rest : List Cell) (v : Nat), accepted 0x04 c rest s → carries c 0 v →
    ∃ t, exec (.setEventEnable none) s = .next t
      ∧ (v < 65536 → Answered c .ok [natUnit v]
          { s with mgmt := { s.mgmt with controlQueue := rest, enabled := BitVec.ofNat 16 v } } t)
      ∧ (65536 ≤ v → RefusedWith c .range rest s t))
  ∧ (∀ (s : State) (c : Cell) (rest : List Cell) (v : Nat), accepted 0x05 c rest s → carries c 0 v →
    ∃ t, exec (.ackEvents none) s = .next t
      ∧ (v < 65536 →
          (∀ f, hasFlag t.mgmt.flags f = (hasFlag s.mgmt.flags f && !v.testBit (flagPosition f)))
          ∧ Answered c .ok [natUnit t.mgmt.flags.toNat]
              { s with mgmt := { s.mgmt with controlQueue := rest, flags := t.mgmt.flags } } t)
      ∧ (65536 ≤ v → RefusedWith c .range rest s t))

/-- STATUS changes nothing and replies OK with its twenty units. -/
def Obligations.StatusReportsTwentyUnits : Prop :=
  ∀ (s : State) (c : Cell) (rest : List Cell), accepted 0x06 c rest s →
    ∃ t, exec (.status none) s = .next t
      ∧ Answered c .ok
          [natUnit (match s.feed.portA.alignment with | .down => 0 | .seeking => 1 | .up => 2),
            natUnit (match s.feed.portB.alignment with | .down => 0 | .seeking => 1 | .up => 2),
            natUnit (match s.feed.portL.alignment with | .down => 0 | .seeking => 1 | .up => 2),
            natUnit (match s.feed.selection with
              | .active .a => 0 | .active .b => 1 | .handoverTo .a => 2 | .handoverTo .b => 3 | .noFeed => 4),
            natUnit (match s.clock.mode with | .free => 0 | .locked => 1 | .holdover => 2 | .expired => 3),
            natUnit s.clock.seconds.toNat, natUnit s.clock.tick,
            natUnit (match s.outs[(0 : Fin 4)].sync with
              | .freeRun => 0 | .acquiring => 1 | .locked => 2 | .holdover => 3 | .muted => 4),
            natUnit (match s.outs[(1 : Fin 4)].sync with
              | .freeRun => 0 | .acquiring => 1 | .locked => 2 | .holdover => 3 | .muted => 4),
            natUnit (match s.outs[(2 : Fin 4)].sync with
              | .freeRun => 0 | .acquiring => 1 | .locked => 2 | .holdover => 3 | .muted => 4),
            natUnit (match s.outs[(3 : Fin 4)].sync with
              | .freeRun => 0 | .acquiring => 1 | .locked => 2 | .holdover => 3 | .muted => 4),
            natUnit s.mgmt.flags.toNat, natUnit s.mgmt.enabled.toNat,
            natUnit (match s.mgmt.resetCause with | .powerOn => 0 | .resetPin => 1 | .siteReset => 2),
            natUnit rest.length,
            natUnit s.mgmt.counters.outputChanges[(0 : Fin 4)].toNat, natUnit s.mgmt.counters.outputChanges[(1 : Fin 4)].toNat,
            natUnit s.mgmt.counters.outputChanges[(2 : Fin 4)].toNat, natUnit s.mgmt.counters.outputChanges[(3 : Fin 4)].toNat,
            natUnit s.mgmt.reportQueue.length]
          (unqueued rest s) t

/-- READ COUNTERS gives the units of the block it names, in the order of the block's table, and changes no count; a block of
12 or more is refused. -/
def Obligations.ReadCountersChangesNoCount : Prop :=
  ∀ (s : State) (c : Cell) (rest : List Cell) (block : Nat), accepted 0x07 c rest s → carries c 0 block →
    ∃ t, exec (.readCounters none) s = .next t
      ∧ (12 ≤ block → RefusedWith c .range rest s t)
      ∧ (block < 12 → ∃ units, Answered c .ok units (unqueued rest s) t
          ∧ units.length = [8, 18, 11, 25, 18, 18, 18, 18, 11, 10, 18, 17].getD block 0
          ∧ (let counts := fun l : List Count => l.map fun n => natUnit n.toNat
             let inState := fun x : ContextState =>
               natUnit ((List.finRange 16).filter fun y => decide ((context s y).state = x)).length
             (block = 0 → units = counts [s.clock.counters.steps, s.clock.counters.outlierEdges,
                s.clock.counters.forcedSteps, s.clock.counters.secondsSet, s.clock.counters.unusedEdges,
                s.clock.counters.ref10Losses, s.clock.counters.pulseTimeouts, s.clock.counters.holdoverExpiries])
             ∧ (block = 1 → units = counts [s.feed.portA.wrongLeadCount, s.feed.portA.alignmentLosses,
                s.feed.feedA.continuityErrors, s.feed.feedA.erroredSeconds, s.feed.feedA.discards,
                s.feed.portB.wrongLeadCount, s.feed.portB.alignmentLosses, s.feed.feedB.continuityErrors,
                s.feed.feedB.erroredSeconds, s.feed.feedB.discards, s.feed.portL.wrongLeadCount,
                s.feed.portL.alignmentLosses, s.feed.seekingTimeouts, s.feed.reservedDiscards,
                s.feed.localTimingDiscards, s.feed.localCueDiscards, s.feed.feedSwitches, s.feed.handoverReversals])
             ∧ (block = 2 → units = counts [s.route.counters.feedDecoded, s.route.counters.localDecoded,
                s.route.counters.noMatch, s.route.counters.conflicts, s.route.counters.defaultDrops,
                s.route.counters.defaultMonitorCopies, s.route.counters.emptyRouteDiscards,
                s.route.counters.plainCopies, s.route.counters.programmeCopies, s.route.counters.routeMonitorCopies,
                s.route.counters.unboundProgrammes])
             ∧ (block = 3 → units = counts [s.pool.counters.claimed, s.pool.counters.returned,
                s.pool.counters.emissionReleases, s.pool.counters.substitutionReleases, s.pool.counters.passedReleases,
                s.pool.counters.flushReleases, s.pool.counters.monitorReleases, s.pool.counters.refusedPackets,
                s.outs[(0 : Fin 4)].counters.shareRefusals, s.outs[(1 : Fin 4)].counters.shareRefusals,
                s.outs[(2 : Fin 4)].counters.shareRefusals, s.outs[(3 : Fin 4)].counters.shareRefusals,
                s.outs[(0 : Fin 4)].counters.poolRefusals, s.outs[(1 : Fin 4)].counters.poolRefusals,
                s.outs[(2 : Fin 4)].counters.poolRefusals, s.outs[(3 : Fin 4)].counters.poolRefusals,
                s.pool.counters.monitorFullDrops, s.pool.counters.monitorPoolRefusals]
                ++ [natUnit (262144 - s.pool.buffers.length), natUnit s.pool.lowMark,
                  natUnit s.outs[(0 : Fin 4)].queue.length, natUnit s.outs[(1 : Fin 4)].queue.length,
                  natUnit s.outs[(2 : Fin 4)].queue.length, natUnit s.outs[(3 : Fin 4)].queue.length,
                  natUnit s.pool.monitorQueue.length])
             ∧ (∀ k : Fin 4, block = 4 + k.val → units = counts [s.outs[k].counters.timingTaken,
                s.outs[k].counters.badTiming, s.outs[k].counters.frameQueueFull, s.outs[k].counters.frameGaps,
                s.outs[k].counters.overflowCopies, s.outs[k].counters.mutedRefusals, s.outs[k].counters.framesStarted,
                s.outs[k].counters.reAnchors, s.outs[k].counters.acquisitions, s.outs[k].counters.lateFrames,
                s.outs[k].counters.recordsDiscarded, s.outs[k].counters.underrunSlots, s.outs[k].counters.fillSlots,
                s.outs[k].counters.packetsEmitted, s.outs[k].counters.passedSlots, s.outs[k].counters.timeJumps]
                ++ [natUnit s.outs[k].frameQueue.length, natUnit s.outs[k].lateCount])
             ∧ (block = 8 → units = counts [s.progs.counters.programmeSamples, s.progs.counters.plainSamples,
                s.progs.counters.nonzeroDisplacements, s.progs.counters.advertSamples,
                s.progs.counters.discontinuityMarks, s.progs.counters.spliceOffsets, s.progs.counters.staleSplices,
                s.progs.counters.absentA0Splices]
                ++ [natUnit (s.progs.records.filter fun e => e.2.valid).length,
                  natUnit (s.progs.records.filter fun e => e.2.owner.isSome).length,
                  natUnit (s.progs.records.filter fun e => e.2.discontinuity).length])
             ∧ (block = 9 → units = counts [s.store.counters.packetsStored, s.store.counters.continuityErrors,
                s.store.counters.completedFull, s.store.counters.sealed, s.store.counters.aborted,
                s.store.counters.started]
                ++ [natUnit (s.store.segments.filter fun e => decide (e.2.state ≠ .free)).length,
                  natUnit (s.store.segments.filter fun e => decide (e.2.state = .ready)).length,
                  natUnit ((s.store.segments.filter fun e => decide (e.2.state ≠ .free)).map fun e => e.2.blocks).sum,
                  natUnit (s.store.segments.filter fun e => decide (0 < e.2.uses)).length])
             ∧ (block = 10 → units = counts [s.engine.counters.cuesTaken, s.engine.counters.badCues,
                s.engine.counters.cuesUnclaimed, s.engine.counters.latchOverwrites,
                s.engine.counters.pendingReplacements, s.engine.counters.cancelsApplied,
                s.engine.counters.splicesMissed, s.engine.counters.activations, s.engine.counters.takeovers,
                s.engine.counters.breaksCompleted, s.engine.counters.breaksStopped, s.engine.counters.halts,
                s.engine.counters.substitutedSlots, s.engine.counters.endFillSlots, s.engine.counters.discardsAndSkips]
                ++ [inState .armed, inState .active, inState .halted])
             ∧ (block = 11 → units = counts [s.mgmt.counters.cellsFromFeed, s.mgmt.counters.cellsFromLocal,
                s.mgmt.counters.overflowDrops, s.mgmt.counters.repliesMade, s.mgmt.counters.acceptanceRefusals,
                s.mgmt.counters.executionRefusals, s.mgmt.counters.eventReports, s.mgmt.counters.owedReports,
                s.mgmt.counters.holdTimeouts, s.mgmt.counters.holdsAbandoned, s.mgmt.counters.abandonDiscards,
                s.mgmt.counters.outputChanges[(0 : Fin 4)], s.mgmt.counters.outputChanges[(1 : Fin 4)],
                s.mgmt.counters.outputChanges[(2 : Fin 4)], s.mgmt.counters.outputChanges[(3 : Fin 4)]]
                ++ [natUnit rest.length, natUnit s.mgmt.reportQueue.length])))

/-- CLEAR COUNTERS: every counter of every block stands at 0, the low mark at the free list's length, and nothing else
changes; its reply is the first count of replies made. That the counts inside records are no counters of a block, and stay,
is the model's choice, log entry 32. -/
def Obligations.ClearCountersSetsEveryCounterToZero : Prop :=
  ∀ (s : State) (c : Cell) (rest : List Cell), accepted 0x08 c rest s →
    ∃ t, exec (.clearCounters none) s = .next t
      ∧ Answered c .ok []
          { s with
            clock := { s.clock with counters := {} }
            feed := { s.feed with
              portA := { s.feed.portA with wrongLeadCount := 0, alignmentLosses := 0 }
              portB := { s.feed.portB with wrongLeadCount := 0, alignmentLosses := 0 }
              portL := { s.feed.portL with wrongLeadCount := 0, alignmentLosses := 0 }
              feedA := { s.feed.feedA with continuityErrors := 0, erroredSeconds := 0, discards := 0 }
              feedB := { s.feed.feedB with continuityErrors := 0, erroredSeconds := 0, discards := 0 }
              seekingTimeouts := 0, reservedDiscards := 0, localTimingDiscards := 0, localCueDiscards := 0
              feedSwitches := 0, handoverReversals := 0 }
            route := { s.route with counters := {} }
            pool := { s.pool with counters := {}, lowMark := 262144 - s.pool.buffers.length }
            outs := s.outs.map fun o => { o with counters := {} }
            progs := { s.progs with counters := {} }
            store := { s.store with counters := {} }
            engine := { s.engine with counters := {} }
            mgmt := { s.mgmt with counters := {}, controlQueue := rest } } t

/-- An event flag that goes from clear to set: it stands, and if it is enabled one event report is made when a place is
free, or the flag is owed. A flag that is set already changes nothing. -/
def Obligations.FlagIsReportedOnceWhenEnabled : Prop :=
  ∀ (f : Flag) (s : State),
    (hasFlag s.mgmt.flags f = true → setFlag f s = s)
    ∧ (hasFlag s.mgmt.flags f = false → hasFlag s.mgmt.enabled f = false →
        setFlag f s = { s with mgmt := { s.mgmt with flags := s.mgmt.flags ||| flagBit f } })
    ∧ (hasFlag s.mgmt.flags f = false → hasFlag s.mgmt.enabled f = true →
        32 ≤ s.mgmt.reportQueue.length + (if s.mgmt.executing.isSome then 1 else 0) →
        setFlag f s = { s with mgmt := { s.mgmt with
          flags := s.mgmt.flags ||| flagBit f, owed := s.mgmt.owed ||| flagBit f } })
    ∧ (∀ x, hasFlag s.mgmt.flags f = false → hasFlag s.mgmt.enabled f = true →
        s.mgmt.reportQueue.length + (if s.mgmt.executing.isSome then 1 else 0) < 32 → s.pool.port = some x →
        setFlag f s = { s with mgmt := { s.mgmt with
          flags := s.mgmt.flags ||| flagBit f
          reportQueue := s.mgmt.reportQueue ++ [.event (flagBit f) s.clock.seconds s.clock.tick]
          counters := { s.mgmt.counters with eventReports := bump s.mgmt.counters.eventReports } } })

/-! ### The Feed Intake Unit -/

/-- A byte arrives at a port: in DOWN it starts the search, in SEEKING it is searched with the four bytes at its back or
remembered, and in UP it joins the packet in assembly, whose 160th byte makes it the arrival of a packet. That
PACKET_ARRIVES with one byte acts as BYTE_ARRIVES in every alignment is the model's choice, log entry 6. -/
def Obligations.ByteGoesByTheAlignmentOfItsPort : Prop :=
  ∀ (p : Port) (b : Byte) (s : State), ∃ t, exec (.byteArrives 0 p b) s = .next t ∧ PolicyKept s t
    ∧ exec (.packetArrives 0 p [b]) s = .next t
    ∧ (let x := portState s.feed p
       let found := b = 0x5A ∧ x.search[159]? = some 0x5A#8 ∧ x.search[319]? = some 0x5A#8
         ∧ x.search[479]? = some 0x5A#8 ∧ x.search[639]? = some 0x5A#8
       (x.alignment = .down →
          portState t.feed p = { x with alignment := .seeking, lossTimer := some 0, search := [b] })
       ∧ (x.alignment = .seeking → ¬found → portState t.feed p = { x with search := (b :: x.search).take 640 })
       ∧ (x.alignment = .seeking → found →
          portState t.feed p = { x with alignment := .up, wrongLeads := 0, assembly := [b], search := [] }
          ∧ ∀ y, feedPort y = p → s.feed.selection = .noFeed →
              t.feed.selection = .handoverTo y ∧ t.feed.handover = { oldFeed := none, phase := .stopped, target := .any })
       ∧ (x.alignment = .up → x.assembly.length < 159 →
          portState t.feed p = { x with assembly := x.assembly ++ [b] }))

/-- The bytes that complete a packet at a port in UP: a good lead restarts the loss timer, and a feed's packet is checked
for continuity; a wrong lead is counted, and the third in a row takes the port to SEEKING, with a feed's DOWN flag, its seen
flags and the selection as at every leaving of UP. A good-lead packet goes to the sorting of its port, a feed's when the gate
passes it, and the HOLD in force is then tested. The gate passes a feed's packet by the selection, stops the old feed of a
handover at its boundary, and starts the taking on the new feed at the target. What passes is sorted by its label, a timing
packet to the outputs 0 to 3 in turn, a cue message to the contexts that it is offered to. That the row's operand is the
bytes that complete the packet is the model's choice, log entry 6; so are the order of the outputs, log entry 44, that the
HOLD is tested once the whole arrival has been dealt with, log entry 35, and that a handover to a lost feed goes to NO_FEED
in the phase RUNNING as well when the other feed is not UP, log entry 25. -/
def Obligations.PacketGoesByItsLead : Prop :=
  (∀ (p : Port) (bytes : List Byte) (s : State), (portState s.feed p).alignment = .up → bytes ≠ [] →
    (portState s.feed p).assembly.length + bytes.length = 160 →
    ∃ t, exec (.packetArrives 0 p bytes) s = .next t ∧ PolicyKept s t
      ∧ (let x := portState s.feed p
         let l := x.assembly ++ bytes
         let pkt := packetOfBytes l
         (byteAt l 0 = 0x5A →
            portState t.feed p = { x with wrongLeads := 0, lossTimer := some 0, assembly := [] }
            ∧ ∀ y, feedPort y = p →
              (let f := feedState s.feed y
               let e := tableGet {} f.continuity pkt.label.toNat
               let error := e.seen = true ∧ pkt.seq ≠ e.last + 1 ∧ pkt.d = false ∧ pkt.label ≠ 4095
               (feedState t.feed y).continuity = tablePut {} f.continuity pkt.label.toNat { last := pkt.seq, seen := true }
               ∧ (error → (feedState t.feed y).erroredMark = true
                    ∧ (feedState t.feed y).continuityErrors = bump f.continuityErrors)
               ∧ (¬error → (feedState t.feed y).erroredMark = f.erroredMark
                    ∧ (feedState t.feed y).continuityErrors = f.continuityErrors)))
         ∧ (byteAt l 0 ≠ 0x5A → x.wrongLeads < 2 →
            portState t.feed p = { x with
              wrongLeads := x.wrongLeads + 1, wrongLeadCount := bump x.wrongLeadCount, assembly := [] })
         ∧ (byteAt l 0 ≠ 0x5A → 2 ≤ x.wrongLeads →
            portState t.feed p = { x with
              wrongLeads := x.wrongLeads + 1, wrongLeadCount := bump x.wrongLeadCount, assembly := []
              alignment := .seeking, search := [], alignmentLosses := bump x.alignmentLosses }
            ∧ ∀ y, feedPort y = p → FeedLeftUp y s t ∧ SelectionTurned y s t)
         ∧ (byteAt l 0 ≠ 0x5A → ∀ y, feedPort y = p → (feedState t.feed y).erroredMark = true)
         ∧ (byteAt l 0 = 0x5A →
              (let sound := { s with feed := setPort p { x with wrongLeads := 0, lossTimer := some 0, assembly := [] } s.feed }
               (p = .l → t = testHold (sortLocal pkt sound))
               ∧ ∀ y, feedPort y = p →
                (let f := feedState s.feed y
                 let e := tableGet {} f.continuity pkt.label.toNat
                 let error := e.seen && pkt.seq != e.last + 1 && !pkt.d && pkt.label != 4095
                 let checked := { sound with feed := setFeedState y { f with
                   continuity := tablePut {} f.continuity pkt.label.toNat { last := pkt.seq, seen := true }
                   erroredMark := error || f.erroredMark
                   continuityErrors := if error then bump f.continuityErrors else f.continuityErrors } sound.feed }
                 let g := gate y pkt checked
                 t = testHold (if g.1 then sortFeed pkt g.2 else g.2))))))
  ∧ (∀ (x : Feed) (pkt : Packet) (s : State),
      (let n := (timingOf pkt).number
       let f := feedState s.feed x
       let timing := pkt.label = 4090
       let old := ∃ y, y ≠ x ∧ s.feed.selection = .handoverTo y ∧ s.feed.handover.phase = .running
       let stops := old ∧ timing ∧ f.currentFrame ≠ some n
       let passes := s.feed.selection = .active x ∨ (old ∧ ¬(timing ∧ f.currentFrame ≠ some n))
       let starts := s.feed.selection = .handoverTo x ∧ s.feed.handover.phase = .stopped ∧ timing
         ∧ (s.feed.handover.target = .any ∨ ∃ m, s.feed.handover.target = .frame m ∧ frameAtOrAfter n m = true)
       let r := gate x pkt s
       let dropped : Count := if isReserved pkt.label then bump s.feed.reservedDiscards else s.feed.reservedDiscards
       (r.1 = true ↔ passes ∨ starts)
       ∧ (passes → ¬timing → r.2 = s)
       ∧ (passes → timing → r.2 = { s with feed := setFeedState x { f with currentFrame := some n } s.feed })
       ∧ (starts → r.2.feed = { setFeedState x { f with currentFrame := some n } s.feed with
             selection := .active x, handover := {}, feedSwitches := bump s.feed.feedSwitches }
           ∧ hasFlag r.2.mgmt.flags .feedSwitch = true ∧ r.2.clock = s.clock ∧ r.2.outs = s.outs
           ∧ r.2.route = s.route ∧ r.2.engine = s.engine ∧ r.2.store = s.store)
       ∧ (stops → r.2 = { s with feed :=
            { setFeedState x { f with discards := bump f.discards, currentFrame := none } s.feed with
              handover := { s.feed.handover with phase := .stopped, target := .frame n } } })
       ∧ (¬passes → ¬starts → ¬stops → r.2 = { s with feed :=
            { setFeedState x { f with discards := bump f.discards } s.feed with reservedDiscards := dropped } })))
  ∧ (∀ (pkt : Packet) (s : State), cueLabelsDistinct s → tableWf {} s.progs.records = true →
      (let l := pkt.label
       let dropped := { s with feed := { s.feed with reservedDiscards := bump s.feed.reservedDiscards } }
       let cue := fun p => (programme s p).valid = true ∧ (programme s p).cueLabel = some l
       let stored := fun (i : Fin 2) (f : Fill) => s.store.contexts[i] = some f ∧ l ∈ f.labels
       (l = 4088 → sortFeed pkt s = handCell .feed (cellOf pkt) s ∧ sortLocal pkt s = handCell .localPort (cellOf pkt) s)
       ∧ (l = 4089 ∨ l = 4091 ∨ l = 4092 ∨ l = 4093 ∨ l = 4094 → sortFeed pkt s = dropped ∧ sortLocal pkt s = dropped)
       ∧ (l = 4090 → sortFeed pkt s = [0, 1, 2, 3].foldl (fun u k => takeTiming (timingOf pkt) k u) s
           ∧ sortLocal pkt s = { s with feed := { s.feed with localTimingDiscards := bump s.feed.localTimingDiscards } })
       ∧ (l = 4095 → sortFeed pkt s = s ∧ sortLocal pkt s = s)
       ∧ (∀ p, l.toNat < 4088 → cue p → sortFeed pkt s = takeCue p pkt s)
       ∧ (l.toNat < 4088 → (∀ p, ¬cue p) → sortFeed pkt s = decodePacket .feed pkt s)
       ∧ (∀ i f, l.toNat < 4088 → stored i f → (∀ j h, stored j h → i ≤ j) → sortLocal pkt s = appendPacket i f pkt s)
       ∧ (∀ p, l.toNat < 4088 → (∀ i f, ¬stored i f) → cue p →
           sortLocal pkt s = { s with feed := { s.feed with localCueDiscards := bump s.feed.localCueDiscards } })
       ∧ (l.toNat < 4088 → (∀ i f, ¬stored i f) → (∀ p, ¬cue p) → sortLocal pkt s = decodePacket .localPort pkt s)))
  ∧ (∀ (p : Nat) (pkt : Packet) (s : State),
      (let taken := { s.engine.counters with cuesTaken := bump s.engine.counters.cuesTaken }
       let offered := fun (avail : Byte) (x : Fin 16) => (context s x).mode = .cue ∧ (context s x).programme = p
         ∧ ((context s x).filter = none ∨ (context s x).filter = some avail)
       (cueOf pkt = none → takeCue p pkt s = { s with engine := { s.engine with
          counters := { s.engine.counters with badCues := bump s.engine.counters.badCues } } })
       ∧ (∀ m, cueOf pkt = some m → (∀ x, ¬offered (match m with | .out a _ => a | .cancel a _ => a) x) →
          takeCue p pkt s = { s with engine := { s.engine with
            counters := { taken with cuesUnclaimed := bump s.engine.counters.cuesUnclaimed } } })
       ∧ (∀ avail q x, cueOf pkt = some (.out avail q) →
          (let y := context s x
           let z := context (takeCue p pkt s) x
           (¬offered avail x → z = y)
           ∧ (offered avail x → y.state = .armed → pointAheadOn s p q.point = true →
                z = { y with splice := some { point := q.point, duration := q.duration, id := some q.id } })
           ∧ (offered avail x → y.state = .armed → pointAheadOn s p q.point = false →
                z = { y with splice := none } ∧ hasFlag (takeCue p pkt s).mgmt.flags .cueMissed = true)
           ∧ (offered avail x → y.state ≠ .armed → z = { y with latch := some q })))
       ∧ (∀ avail id x, cueOf pkt = some (.cancel avail id) →
          (let y := context s x
           let z := context (takeCue p pkt s) x
           (¬offered avail x → z = y)
           ∧ (offered avail x → z = { y with
                splice := if y.splice.bind (fun a => a.id) = some id then none else y.splice
                latch := if y.latch.map (fun a => a.id) = some id then none else y.latch })))))

/-- A port's loss timer runs to 2^t ms and stops, and the port goes to DOWN; a feed that so leaves UP has its DOWN flag set
and its seen flags cleared; when a taken feed so leaves UP, the selection turns to the other feed, or to NO_FEED; when the
old feed of a running handover so leaves UP, the old phase is STOPPED; and when the new feed of a handover does, the handover
turns back, or goes to NO_FEED when the other feed is not UP. That it does so in the phase RUNNING as well, and that the row
lets time run to the expiry, are the model's choices, log entries 25 and 4. -/
def Obligations.LossTimerTakesThePortDown : Prop :=
  ∀ (p : Port) (s : State) (w : Nat), (portState s.feed p).lossTimer = some w → tickInSecond s →
    clearFor (2 ^ s.feed.lossExp * 20000 - w) s →
    ∃ t, exec (.lossTimerExpiry p) s = .next t ∧ PolicyKept s t
      ∧ (portState t.feed p).alignment = .down ∧ (portState t.feed p).lossTimer = none
      ∧ ((portState s.feed p).alignment = .up →
          (portState t.feed p).assembly = [] ∧ (portState t.feed p).search = []
          ∧ (portState t.feed p).alignmentLosses = bump (portState s.feed p).alignmentLosses)
      ∧ ((portState s.feed p).alignment = .seeking →
          t.feed.seekingTimeouts = bump s.feed.seekingTimeouts ∧ (portState t.feed p).search = [])
      ∧ (∀ x, feedPort x = p → (portState s.feed p).alignment = .up →
          FeedLeftUp x s t
          ∧ (s.clock.tick + (2 ^ s.feed.lossExp * 20000 - w) < 20000000 →
              SelectionTurned x s t))

/-- SET FEED POLICY sets the fields that are present, clamped, and is refused for a mode out of range. A loss timer that
stands at or above a new limit takes its port down at once, and the others run on; the reply is the same. That no timer is
tested while the exponent is absent is the model's choice, log entry 33. -/
def Obligations.SetFeedPolicySetsWhatIsPresent : Prop :=
  ∀ (s : State) (c : Cell) (rest : List Cell) (mode k e : Option Nat), accepted 0x26 c rest s →
    carriesOpt c 0 mode → carriesOpt c 1 k → carriesOpt c 2 e →
    (let m := match mode with | none => s.feed.mode | some 0 => .auto | some _ => .manual
     let threshold := (k.map fun v => max 1 (min 60 v)).getD s.feed.threshold
     let exponent := (e.map (min 10)).getD s.feed.lossExp
     let reached := fun p => ∃ w, (portState s.feed p).lossTimer = some w ∧ 2 ^ exponent * 20000 ≤ w
     let units := [natUnit threshold, natUnit exponent, natUnit (match m with | .auto => 0 | .manual => 1)]
     (∀ v, mode = some v → 2 ≤ v → ∃ t, exec (.setFeedPolicy none) s = .next t ∧ RefusedWith c .range rest s t)
     ∧ ((∀ v, mode = some v → v < 2) → (e = none ∨ ∀ p, ¬reached p) →
        ∃ t, exec (.setFeedPolicy none) s = .next t
          ∧ Answered c .ok units
              { unqueued rest s with
                feed := { s.feed with mode := m, threshold := threshold, lossExp := exponent } } t)
     ∧ ((∀ v, mode = some v → v < 2) → e ≠ none → ∃ t u, exec (.setFeedPolicy none) s = .next t
          ∧ Answered c .ok units u t ∧ u.mgmt.controlQueue = rest ∧ u.mgmt.grants = s.mgmt.grants
          ∧ u.clock = s.clock ∧ u.outs = s.outs ∧ u.engine = s.engine ∧ u.store = s.store
          ∧ t.feed.mode = m ∧ t.feed.threshold = threshold ∧ t.feed.lossExp = exponent
          ∧ ∀ p, (reached p → (portState t.feed p).alignment = .down ∧ (portState t.feed p).lossTimer = none)
              ∧ (¬reached p → portState t.feed p = portState s.feed p)))

/-- SELECT FEED acts by the selection state it finds and by whether the feed it names is UP. That it answers NOT_READY in
NO_FEED without a test of the feed is the model's choice, log entry 34. -/
def Obligations.SelectFeedGoesByTheSelection : Prop :=
  ∀ (s : State) (c : Cell) (rest : List Cell) (v : Nat), accepted 0x27 c rest s → carries c 0 v →
    ∃ t, exec (.selectFeed none) s = .next t
      ∧ (2 ≤ v → RefusedWith c .range rest s t)
      ∧ (v < 2 →
          (let x := if v = 0 then Feed.a else Feed.b
           let y := otherFeed x
           let up := feedUp s x
           let with_ := fun (sel : Selection) (h : Handover) (reversals : Count) =>
             Answered c .ok [natUnit (selectionCode sel)]
               { unqueued rest s with feed := { s.feed with
                   selection := sel, handover := h, handoverReversals := reversals } } t
           (s.feed.selection = .active x ∨ s.feed.selection = .handoverTo x →
              Answered c .ok [natUnit (selectionCode s.feed.selection)] (unqueued rest s) t)
           ∧ (s.feed.selection = .active y → up = true →
              with_ (.handoverTo x) { oldFeed := some y, phase := .running, target := .absent } s.feed.handoverReversals)
           ∧ (s.feed.selection = .handoverTo y → s.feed.handover.phase = .running → up = true →
              with_ (.active x) {} (bump s.feed.handoverReversals))
           ∧ (s.feed.selection = .handoverTo y → s.feed.handover.phase = .stopped → up = true →
              with_ (.handoverTo x) { oldFeed := some y, phase := .stopped, target := s.feed.handover.target }
                (bump s.feed.handoverReversals))
           ∧ (s.feed.selection = .active y ∨ s.feed.selection = .handoverTo y → up = false →
              RefusedWith c .notReady rest s t)
           ∧ (s.feed.selection = .noFeed → RefusedWith c .notReady rest s t)))

/-! ### The Route Decoder -/

/-- A route entry matches a packet exactly when it is valid, its input is the packet's source, every label bit outside its
mask agrees with its match value, and the packet's class is not excluded. -/
def Obligations.RouteMatchTestsTheBitsOutsideTheMask : Prop :=
  ∀ (src : Source) (pkt : Packet) (r : Route),
    (routeMatches src pkt r = true ↔
      r.valid = true ∧ r.input = src
        ∧ (∀ i < 12, r.mask.getLsbD i = false → pkt.label.getLsbD i = r.value.getLsbD i)
        ∧ r.exclude.getLsbD pkt.cls.toNat = false)
    ∧ (r.mask = 0xFFF → (routeMatches src pkt r = true ↔
        r.valid = true ∧ r.input = src ∧ r.exclude.getLsbD pkt.cls.toNat = false))
    ∧ (r.mask = 0 → (routeMatches src pkt r = true ↔
        r.valid = true ∧ r.input = src ∧ pkt.label = r.value ∧ r.exclude.getLsbD pkt.cls.toNat = false))

/-- The decode of a packet by the number of entries of the active bank that match. None: it is counted, and the default
action drops it or makes one copy for M. Two or more: ROUTE_CONFLICT besides, and no copy but the default action's. One:
the packet has one copy for each destination of the entry's output set, with the entry's label if it has one and with its
programme where that is carried by the output; each copy to an output takes the next slot of the open intake frame, is
UNFRAMED without one, or is refused; and those that are not refused come to admission together with the copy for M. That the
flag at a conflict comes before the default action is the model's choice, log entry 39, and that an entry with an empty
output set counts an unbound programme too is log entry 31. -/
def Obligations.DecodeGoesByTheNumberOfMatches : Prop :=
  ∀ (src : Source) (pkt : Packet) (s : State), s.route.feedDecode = none → s.route.localDecode = none →
    (let matched := ((if s.route.active then s.route.bank1 else s.route.bank0).map Prod.snd).filter (routeMatches src pkt)
     let n := matched.length
     let decoded : RouteCounters := match src with
       | .feed => { s.route.counters with feedDecoded := bump s.route.counters.feedDecoded }
       | .localPort => { s.route.counters with localDecoded := bump s.route.counters.localDecoded }
     let counted := fun c : RouteCounters => { s with route := { s.route with counters := c } }
     (n = 0 → s.route.defaultAction = .drop → decodePacket src pkt s =
        counted { decoded with noMatch := bump decoded.noMatch, defaultDrops := bump decoded.defaultDrops })
     ∧ (n = 0 → s.route.defaultAction = .monitor → decodePacket src pkt s = admission pkt [.monitor]
        (counted { decoded with
          noMatch := bump decoded.noMatch, defaultMonitorCopies := bump decoded.defaultMonitorCopies }))
     ∧ (2 ≤ n → s.route.defaultAction = .drop → (decodePacket src pkt s).route = { s.route with counters := { decoded with
          conflicts := bump decoded.conflicts, defaultDrops := bump decoded.defaultDrops } }
        ∧ hasFlag (decodePacket src pkt s).mgmt.flags .routeConflict = true
        ∧ (decodePacket src pkt s).outs = s.outs ∧ (decodePacket src pkt s).pool.buffers = s.pool.buffers
        ∧ (decodePacket src pkt s).pool.monitorQueue = s.pool.monitorQueue)
     ∧ (2 ≤ n → s.route.defaultAction = .monitor → decodePacket src pkt s = admission pkt [.monitor]
        (setFlag .routeConflict (counted { decoded with
          conflicts := bump decoded.conflicts, defaultMonitorCopies := bump decoded.defaultMonitorCopies })))
     ∧ (∀ r, matched = [r] →
          (let unbound := ∃ p, r.programme = some p ∧ (programme s p).valid = false
           let tagged := fun (k : Fin 4) (p : Nat) => r.programme = some p ∧ (programme s p).valid = true
             ∧ (programme s p).output = some k
           let goes := fun k : Fin 4 => r.outputs.getLsbD k.val
           (r.outputs = 0 → (unbound → decodePacket src pkt s = counted { decoded with
                unboundProgrammes := bump decoded.unboundProgrammes
                emptyRouteDiscards := bump decoded.emptyRouteDiscards })
              ∧ (¬unbound → decodePacket src pkt s = counted { decoded with
                  emptyRouteDiscards := bump decoded.emptyRouteDiscards }))
           ∧ (r.outputs ≠ 0 → ∃ (u : State) (copies : List Candidate) (tag : Fin 4 → Option Nat) (kept : Fin 4 → Bool)
                (point : Fin 4 → Option Point),
                decodePacket src pkt s = admission pkt copies u
                ∧ u.clock = s.clock ∧ u.feed = s.feed ∧ u.pool = s.pool ∧ u.progs = s.progs ∧ u.store = s.store
                ∧ u.engine = s.engine ∧ u.mgmt = s.mgmt ∧ u.pending = s.pending
                ∧ copies = (((List.finRange 4).filter fun k => goes k && kept k).map
                      fun k => .output k (point k) (tag k) (r.rewrite.getD pkt.label))
                    ++ (if r.outputs.getLsbD 4 then [.monitor] else [])
                ∧ (∀ k p, tag k = some p ↔ tagged k p)
                ∧ u.route = { s.route with counters := { decoded with
                    plainCopies := bumpBy decoded.plainCopies
                      ((List.finRange 4).filter fun k => goes k && (tag k).isNone).length
                    programmeCopies := bumpBy decoded.programmeCopies
                      ((List.finRange 4).filter fun k => goes k && (tag k).isSome).length
                    routeMonitorCopies := if r.outputs.getLsbD 4 then bump decoded.routeMonitorCopies
                      else decoded.routeMonitorCopies
                    unboundProgrammes := u.route.counters.unboundProgrammes } }
                ∧ (unbound → u.route.counters.unboundProgrammes = bump decoded.unboundProgrammes)
                ∧ (¬unbound → u.route.counters.unboundProgrammes = decoded.unboundProgrammes)
                ∧ ∀ k : Fin 4,
                    (let o := s.outs[k]
                     (goes k = false → u.outs[k] = o)
                     ∧ (goes k = true → o.sync = .muted → kept k = false ∧ u.outs[k] = { o with
                          counters := { o.counters with mutedRefusals := bump o.counters.mutedRefusals } })
                     ∧ (goes k = true → o.sync ≠ .muted → o.openFrame = none →
                          kept k = true ∧ point k = none ∧ u.outs[k] = o)
                     ∧ (∀ f, goes k = true → o.sync ≠ .muted → o.openFrame = some f → f.received < f.record.length →
                          kept k = true ∧ point k = some (f.record.number, f.received)
                          ∧ u.outs[k] = { o with openFrame := some { f with received := f.received + 1 } })
                     ∧ (∀ f, goes k = true → o.sync ≠ .muted → o.openFrame = some f → f.record.length ≤ f.received →
                          kept k = false ∧ u.outs[k] = { o with
                            counters := { o.counters with overflowCopies := bump o.counters.overflowCopies } }))))))

/-- WRITE ROUTE writes all fields of one entry of the standby bank; the active bank is not written. -/
def Obligations.WriteRouteWritesTheStandbyBank : Prop :=
  ∀ (s : State) (c : Cell) (rest : List Cell) (index valid input value mask exclude outputs : Nat)
    (rewrite programme : Option Nat), accepted 0x20 c rest s →
    carriesAll c 0 [index, valid, input, value, mask, exclude, outputs] → carriesOpt c 7 rewrite →
    carriesOpt c 8 programme →
    ∃ t, exec (.writeRoute none) s = .next t
      ∧ (let inRange := index < 128 ∧ valid < 2 ∧ input < 2 ∧ value < 4088 ∧ mask < 4096 ∧ exclude < 65536 ∧ outputs < 32
           ∧ (∀ l, rewrite = some l → l < 4088) ∧ (∀ p, programme = some p → p < 64)
         let entry : Route :=
           { valid := decide (valid = 1), input := if input = 0 then .feed else .localPort
             value := BitVec.ofNat 12 value, mask := BitVec.ofNat 12 mask, exclude := BitVec.ofNat 16 exclude
             outputs := BitVec.ofNat 5 outputs, rewrite := rewrite.map (BitVec.ofNat 12), programme := programme }
         (¬inRange → RefusedWith c .range rest s t)
         ∧ (inRange → s.route.active = false →
            Answered c .ok [natUnit 1]
              { unqueued rest s with route := { s.route with bank1 := tablePut {} s.route.bank1 index entry } } t)
         ∧ (inRange → s.route.active = true →
            Answered c .ok [natUnit 0]
              { unqueued rest s with route := { s.route with bank0 := tablePut {} s.route.bank0 index entry } } t))

/-- COPY BANK makes the standby bank equal to the active bank. -/
def Obligations.CopyBankMakesTheBanksEqual : Prop :=
  ∀ (s : State) (c : Cell) (rest : List Cell), accepted 0x21 c rest s →
    ∃ t, exec (.copyBank none) s = .next t
      ∧ (let active := if s.route.active then s.route.bank1 else s.route.bank0
         Answered c .ok
           [natUnit (if s.route.active then 0 else 1), natUnit (active.filter fun e => e.2.valid).length]
           { unqueued rest s with route := { s.route with bank0 := active, bank1 := active } } t)

/-- SWAP BANKS changes the active bank and stays in execution; it completes, with the number and the valid entries of the
new active bank, once no decode is in progress. That the completion changes nothing while a decode runs is the model's
choice, log entry 3. -/
def Obligations.SwapBanksAnswersWhenNoDecodeRuns : Prop :=
  ∀ (s : State) (c : Cell),
    (∀ rest, accepted 0x22 c rest s →
      exec (.swapBanks none) s = .next { s with
        route := { s.route with active := !s.route.active }
        mgmt := { s.mgmt with controlQueue := rest, executing := some c } })
    ∧ (s.mgmt.executing = some c → c.code = 0x22 → s.route.feedDecode = none → s.route.localDecode = none →
      ∃ t, exec .swapBanksCompletion s = .next t
        ∧ Answered c .ok
            [natUnit (if s.route.active then 1 else 0),
              natUnit ((if s.route.active then s.route.bank1 else s.route.bank0).filter fun e => e.2.valid).length] s t)
    ∧ (s.route.feedDecode ≠ none ∨ s.route.localDecode ≠ none → exec .swapBanksCompletion s = .next s)

/-- SET DEFAULT ACTION sets the default action, or is refused with RANGE. -/
def Obligations.SetDefaultActionSetsIt : Prop :=
  ∀ (s : State) (c : Cell) (rest : List Cell) (v : Nat), accepted 0x23 c rest s → carries c 0 v →
    ∃ t, exec (.setDefaultAction none) s = .next t
      ∧ (2 ≤ v → RefusedWith c .range rest s t)
      ∧ (v < 2 → Answered c .ok [natUnit v]
          { unqueued rest s with route := { s.route with
              defaultAction := if v = 0 then .drop else .monitor } } t)

/-! ### The Packet Pool and the monitor port -/

/-- The packet that the monitor port sends ends: a copy's entry leaves and releases its buffer; and the port goes on with
the oldest report cell, else with the head monitor entry, else it is idle. That the row lets time run to the packet's end
is the model's choice, log entry 4. -/
def Obligations.MonitorPacketSentTakesTheNext : Prop :=
  ∀ (s : State) (x : Sending), s.pool.port = some x → s.clock.tick + x.remaining < 20000000 →
    clearFor x.remaining s →
    ∃ t, exec .monitorPacketSent s = .next t ∧ PolicyKept s t ∧ t.clock.tick = s.clock.tick + x.remaining
      ∧ (let queue := if x.isCopy then s.pool.monitorQueue.tail else s.pool.monitorQueue
         t.pool.monitorQueue = queue
         ∧ (∀ r rest, s.mgmt.reportQueue = r :: rest →
              t.pool.port = some { isCopy := false, packet := reportPacket r s.mgmt.sequence, remaining := 128 }
              ∧ t.mgmt.sequence = s.mgmt.sequence + 1 ∧ rest <+: t.mgmt.reportQueue)
         ∧ (∀ b rest, s.mgmt.reportQueue = [] → queue = b :: rest →
              t.pool.port = some { isCopy := true, packet := ((buffer t b).contents).getD fillPacket, remaining := 128 }
              ∧ t.mgmt.sequence = s.mgmt.sequence)
         ∧ (s.mgmt.reportQueue = [] → queue = [] → t.pool.port = none))
      ∧ (∀ b rest, x.isCopy = true → s.pool.monitorQueue = b :: rest → tableWf {} s.pool.buffers = true →
          (buffer t b).refs = (buffer s b).refs - 1 ∧ (∀ d, d ≠ b → buffer t d = buffer s d)
          ∧ t.pool.counters.monitorReleases = bump s.pool.counters.monitorReleases)

/-- Admission of a packet's candidate copies, to outputs and to M: each is tested for room. The copies that have room share
one buffer, whose count is their number, and each makes an entry; an idle monitor port with nothing else to send begins to
send its copy. When the free list is empty, they are refused and POOL_EXHAUSTED is set. Each copy without room is counted,
and copies without room alone leave the pool as it is. That the monitor port begins within the step is the model's choice,
log entry 24. -/
def Obligations.AdmissionClaimsOneBuffer : Prop :=
  ∀ (pkt : Packet) (l : List Candidate) (s : State), tableWf {} s.pool.buffers = true →
    (let room : Candidate → Bool := fun c => match c with
       | .output k _ _ _ => decide (s.outs[k].sync ≠ .muted) && decide (s.outs[k].queue.length < s.outs[k].share)
       | .monitor => decide (s.pool.monitorQueue.length < 1024)
     let goesTo : Fin 4 → Candidate → Bool := fun k c => match c with | .output j _ _ _ => decide (j = k) | .monitor => false
     let toM : Candidate → Bool := fun c => match c with | .output _ _ _ _ => false | .monitor => true
     let admitted := l.filter room
     let refused := l.filter fun c => !room c
     let entries : Nat → Fin 4 → List Entry := fun b k => admitted.filterMap fun c => match c with
       | .output j point programme label => if j = k then some { buffer := b, point, programme, label } else none
       | .monitor => none
     let t := admission pkt l s
     (∀ k : Fin 4, (s.outs[k].sync = .muted → t.outs[k].counters.mutedRefusals =
            bumpBy s.outs[k].counters.mutedRefusals (refused.filter (goesTo k)).length)
        ∧ (s.outs[k].sync ≠ .muted → t.outs[k].counters.shareRefusals =
            bumpBy s.outs[k].counters.shareRefusals (refused.filter (goesTo k)).length))
     ∧ t.pool.counters.monitorFullDrops = bumpBy s.pool.counters.monitorFullDrops (refused.filter toM).length
     ∧ (admitted ≠ [] → s.pool.buffers.length < 262144 →
        ∃ b, (buffer s b).refs = 0
          ∧ buffer t b = { refs := admitted.length, contents := some pkt } ∧ (∀ d, d ≠ b → buffer t d = buffer s d)
          ∧ (∀ k : Fin 4, t.outs[k].queue = s.outs[k].queue ++ entries b k)
          ∧ t.pool.monitorQueue = s.pool.monitorQueue ++ List.replicate (admitted.filter toM).length b
          ∧ t.pool.lowMark = min s.pool.lowMark (262143 - s.pool.buffers.length)
          ∧ t.pool.counters.claimed = bump s.pool.counters.claimed ∧ t.mgmt.flags = s.mgmt.flags
          ∧ (∀ x, s.pool.port = some x → t.pool.port = some x)
          ∧ (∀ e rest, s.pool.port = none → s.mgmt.reportQueue = [] → t.pool.monitorQueue = e :: rest → t.pool.port =
              some { isCopy := true, packet := ((buffer t e).contents).getD fillPacket, remaining := 128 }))
     ∧ (admitted ≠ [] → 262144 ≤ s.pool.buffers.length →
        t.pool.buffers = s.pool.buffers ∧ t.pool.monitorQueue = s.pool.monitorQueue
        ∧ (∀ k : Fin 4, t.outs[k].queue = s.outs[k].queue ∧ t.outs[k].counters.poolRefusals =
            bumpBy s.outs[k].counters.poolRefusals (admitted.filter (goesTo k)).length)
        ∧ t.pool.counters.monitorPoolRefusals =
            bumpBy s.pool.counters.monitorPoolRefusals (admitted.filter toM).length
        ∧ t.pool.counters.refusedPackets = bump s.pool.counters.refusedPackets
        ∧ hasFlag t.mgmt.flags .poolExhausted = true)
     ∧ (admitted = [] → (∀ k : Fin 4, t.outs[k].queue = s.outs[k].queue) ∧ t.mgmt = s.mgmt
        ∧ t.pool = { s.pool with counters := { s.pool.counters with
            monitorFullDrops := bumpBy s.pool.counters.monitorFullDrops (refused.filter toM).length } }))

/-! ### The Emission Schedulers -/

/-- The slot in progress comes to its own end: the line is idle, and an entry that was being sent leaves the delay queue
and releases its buffer, as an emission release; no other delay queue changes. A jump of site time leaves a MUTED output as
it is, and so does one backward of no more than a second; one over a second puts the output in FREE_RUN, with a grid at now;
and a shorter one forward passes each slot start and each waiting record's F that lies before now: a passed slot puts
nothing on the line, is counted, and its entry leaves, and the record starts as the current frame. That the row lets time
run to the slot's end, and that the slot in progress is cut when a jump passes the next start or F, is the model's choice,
log entries 4 and 40; and so is what a passed slot counts, log entries 12 and 42. -/
def Obligations.SlotEndReleasesTheSentEntry : Prop :=
  (∀ (k : Fin 4) (s : State) (x : SlotInProgress), s.outs[k].slot = some x → s.clock.tick + x.remaining < 20000000 →
      clearFor x.remaining s →
      ∃ t, exec (.slotEnds k) s = .next t ∧ PolicyKept s t ∧ t.clock.tick = s.clock.tick + x.remaining
        ∧ t.outs[k].slot = none ∧ t.outs[k].line = none
        ∧ (∀ j : Fin 4, j ≠ k → t.outs[j].queue = s.outs[j].queue)
        ∧ (x.sends = false → t.outs[k].queue = s.outs[k].queue ∧ t.pool.buffers = s.pool.buffers)
        ∧ (∀ e rest, x.sends = true → s.outs[k].queue = e :: rest → tableWf {} s.pool.buffers = true →
            t.outs[k].queue = rest ∧ (buffer t e.buffer).refs = (buffer s e.buffer).refs - 1
            ∧ (∀ b, b ≠ e.buffer → buffer t b = buffer s b)
            ∧ t.pool.counters.emissionReleases = bump s.pool.counters.emissionReleases))
  ∧ (∀ (d : Int) (k : Fin 4) (s : State),
      (let o := s.outs[k]
       let t := jumpOutput d k s
       (o.sync = .muted → t = s)
       ∧ (o.sync ≠ .muted → -20000000 ≤ d → d ≤ 0 → t = s)
       ∧ (o.sync ≠ .muted → d < -20000000 ∨ 20000000 < d →
            t.outs[k] = { o with
              sync := .freeRun, muteCause := none, frameQueue := [], current := none, waiting := false
              position := if o.sync = .freeRun then o.position else none
              grid := some {
                next := now s, interval := 25600000000 / o.defaultRate, rem := 25600000000 % o.defaultRate
                rate := o.defaultRate, phase := 0 }
              counters := { o.counters with
                timeJumps := bump o.counters.timeJumps
                recordsDiscarded := bumpBy o.counters.recordsDiscarded o.frameQueue.length } }
            ∧ t.clock = s.clock ∧ t.pool.buffers = s.pool.buffers ∧ (∀ j : Fin 4, j ≠ k → t.outs[j] = s.outs[j])
            ∧ (o.sync ≠ .freeRun → hasFlag t.mgmt.flags .outputState = true))
       ∧ (∀ g, o.sync = .freeRun → o.grid = some g → o.waiting = false → 0 < d → d ≤ 20000000 →
            (let long := g.rate ≤ g.phase + g.rem
             let length := if long then g.interval + 1 else g.interval
             let queue := leftAfterSlot o
             (now s ≤ g.next → t = s)
             ∧ (g.next < now s → now s ≤ g.next + (length : Int) →
                  t.outs[k].sync = .freeRun ∧ t.outs[k].slot = none ∧ t.outs[k].line = none
                  ∧ t.outs[k].grid = some { g with
                      next := g.next + (length : Int), phase := if long then g.phase + g.rem - g.rate else g.phase + g.rem }
                  ∧ t.outs[k].counters = { o.counters with passedSlots := bump o.counters.passedSlots }
                  ∧ (queue = [] → t.outs[k].queue = [])
                  ∧ (∀ e rest, queue = e :: rest → e.programme = none → t.outs[k].queue = rest
                      ∧ t.pool.counters.passedReleases = bump s.pool.counters.passedReleases))))
       ∧ (∀ r rest, o.sync = .acquiring → o.waiting = true → o.frameQueue = r :: rest → 1 ≤ r.length →
            (∀ g, o.grid = some g →
              r.release < g.next + ((if g.rate ≤ g.phase + g.rem then g.interval + 1 else g.interval : Nat) : Int)) →
            0 < d → d ≤ 20000000 → r.release < now s →
            now s ≤ r.release + ((if r.rate ≤ 25600000000 % r.rate then 25600000000 / r.rate + 1
              else 25600000000 / r.rate : Nat) : Int) →
            t.outs[k].sync = .locked ∧ t.outs[k].frameQueue = rest ∧ t.outs[k].waiting = false
            ∧ t.outs[k].current = some { record := r, start := r.release, slot := 1, displ := 0, late := false }
            ∧ t.outs[k].position = some (r.number, 0) ∧ t.outs[k].lastBegun = some r.number
            ∧ t.outs[k].slot = none ∧ t.outs[k].line = none
            ∧ t.outs[k].counters.passedSlots = bump o.counters.passedSlots
            ∧ t.outs[k].counters.acquisitions = bump o.counters.acquisitions)))

/-- A slot of a free-running output begins at the grid's next start: it carries the head entry, whatever its frame and
slot, or fill, and the grid goes on by I ticks, or by one more when the phase and the remainder reach the rate. A programme
copy of a programme without an owner goes out with the programme's discontinuity mark and leaves its sample in the tracker,
when no break of that programme ends in the slot.
While the output is ACQUIRING, the slot carries fill, and the head entries that belong to no queued record are passed. That
the row lets time run to the slot's start is the model's choice, log entry 4. -/
def Obligations.FreeRunSlotCarriesTheHead : Prop :=
  (∀ (k : Fin 4) (s : State) (g : Grid), s.outs[k].sync = .freeRun → s.outs[k].grid = some g →
      s.outs[k].waiting = false → s.clock.tick + (g.next - now s).toNat < 20000000 →
      clearFor (g.next - now s).toNat s →
      ∃ t, exec (.slotStart k) s = .next t
        ∧ t.clock.tick = s.clock.tick + (g.next - now s).toNat ∧ t.outs[k].sync = .freeRun
        ∧ (let long := g.rate ≤ g.phase + g.rem
           let length := if long then g.interval + 1 else g.interval
           let queue := leftAfterSlot s.outs[k]
           t.outs[k].grid = some { g with
             next := g.next + (length : Int), phase := if long then g.phase + g.rem - g.rate else g.phase + g.rem }
           ∧ (queue = [] → t.outs[k].slot = some { remaining := length, sends := false } ∧ t.outs[k].queue = []
                ∧ t.outs[k].line = some fillPacket
                ∧ t.outs[k].counters.fillSlots = bump s.outs[k].counters.fillSlots)
           ∧ (∀ e rest, queue = e :: rest → e.programme = none →
                t.outs[k].slot = some { remaining := length, sends := true } ∧ t.outs[k].queue = queue
                ∧ t.outs[k].line = some (sentPacket ((buffer t e.buffer).contents) e.label 0)
                ∧ t.outs[k].counters.packetsEmitted = bump s.outs[k].counters.packetsEmitted)))
  ∧ (∀ (k : Fin 4) (s : State) (g : Grid), s.outs[k].sync = .acquiring → s.outs[k].grid = some g →
      s.clock.tick + (g.next - now s).toNat < 20000000 → clearFor (g.next - now s).toNat s →
      (let long := g.rate ≤ g.phase + g.rem
       let length := if long then g.interval + 1 else g.interval
       let o := s.outs[k]
       let behind := fun e : Entry => match e.point with
         | none => true
         | some x => !(o.frameQueue.any fun r => r.number == x.1)
       (∀ r rest, o.waiting = true → o.frameQueue = r :: rest → g.next + (length : Int) ≤ r.release) →
       ∃ t, exec (.slotStart k) s = .next t
        ∧ t.clock.tick = s.clock.tick + (g.next - now s).toNat ∧ t.outs[k].sync = .acquiring
        ∧ t.outs[k].frameQueue = o.frameQueue ∧ t.outs[k].waiting = o.waiting
        ∧ t.outs[k].grid = some { g with
            next := g.next + (length : Int), phase := if long then g.phase + g.rem - g.rate else g.phase + g.rem }
        ∧ t.outs[k].slot = some { remaining := length, sends := false } ∧ t.outs[k].line = some fillPacket
        ∧ t.outs[k].queue = (leftAfterSlot o).dropWhile behind
        ∧ t.outs[k].counters.fillSlots = bump o.counters.fillSlots))
  ∧ (∀ (k : Fin 4) (s : State) (g : Grid), s.outs[k].sync = .freeRun → s.outs[k].grid = some g →
      s.outs[k].waiting = false → s.clock.tick + (g.next - now s).toNat < 20000000 →
      clearFor (g.next - now s).toNat s →
      ∃ t, exec (.slotStart k) s = .next t ∧
      (∀ e rest p, leftAfterSlot s.outs[k] = e :: rest → e.programme = some p → (programme s p).valid = true →
        (programme s p).output = some k → (programme s p).owner = none → tableWf {} s.progs.records = true →
        (∀ x, (context s x).state = .active → (context s x).programme = p → 1 < (context s x).countdown) →
        (let out := sentPacket ((buffer t e.buffer).contents) e.label 0
         t.outs[k].queue = e :: rest
         ∧ (out.c = true → t.outs[k].line = some { out with d := out.d || (programme s p).discontinuity }
              ∧ programme t p = { programme s p with
                  tracker := some (clockSample (((buffer t e.buffer).contents).getD fillPacket), g.next), discontinuity := false })
         ∧ (out.c = false → t.outs[k].line = some out ∧ programme t p = programme s p))))

/-- A slot of a started frame begins: entries for earlier points are passed, and the slot carries the head entry when it
is for the slot's own point, its sample moved by the frame's displacement; else it carries fill and the head stays. A slot
row does in order: the slot in progress ends, the queued record is reconciled, and the slot is decided; the HOLD in force is
tested before the decision and after it. In a frame's slot the splices for passed points are dropped, the splice of an armed
context at the slot's point comes about, and the slot's entry is carried: a break begins with its offset, its head segment
and its claim on the programme; the owner's chain gives the packet that stands for a programme copy, goes to its next repeat
or entry, ends or halts, and the programme's tracker and discontinuity mark follow what is sent; a context that is not the
owner draws and discards; and each active context of the output counts the slot, at whose end a break that has come to 0 is
over. That the row lets time run to the slot's start is the model's choice, log entry 4; so are where in it the HOLD is
tested, log entry 35, that it ends a slot still in progress, as after a jump, log entry 40, the entering at which a search
fails with BAD_LINK, log entry 21, that an activation finds the programme's owner settled once, log entry 15, that passed
splices are dropped before the activation, log entry 45, and what a context keeps as it halts, log entry 29. -/
def Obligations.FrameSlotCarriesItsOwnEntry : Prop :=
  (∀ (k : Fin 4) (s : State) (g : Grid) (c : Current), s.outs[k].sync = .locked ∨ s.outs[k].sync = .holdover →
      s.outs[k].grid = some g → s.outs[k].waiting = false → s.outs[k].current = some c → c.slot < c.record.length →
      c.late = false → s.clock.tick + (g.next - now s).toNat < 20000000 →
      clearFor (g.next - now s).toNat s →
      ∃ t, exec (.slotStart k) s = .next t
        ∧ (let x : Point := (c.record.number, c.slot)
           let earlier := fun e : Entry => match e.point with | none => true | some y => pointBefore y x
           let queue := (leftAfterSlot s.outs[k]).dropWhile earlier
           t.outs[k].current = some { c with slot := c.slot + 1 } ∧ t.outs[k].position = some x
           ∧ (∀ e rest, queue = e :: rest → e.point = some x → e.programme = none →
                t.outs[k].queue = queue ∧ t.outs[k].slot.map SlotInProgress.sends = some true
                ∧ t.outs[k].line = some (sentPacket ((buffer t e.buffer).contents) e.label c.displ)
                ∧ t.outs[k].counters.packetsEmitted = bump s.outs[k].counters.packetsEmitted)
           ∧ ((queue.head?.bind fun e => e.point) ≠ some x →
                t.outs[k].queue = queue ∧ t.outs[k].slot.map SlotInProgress.sends = some false
                ∧ t.outs[k].line = some fillPacket
                ∧ t.outs[k].counters.fillSlots = bump s.outs[k].counters.fillSlots)))
  ∧ (∀ (k : Fin 4) (s : State) (g : Int), slotAt s k = some g → g ≤ now s →
      exec (.slotStart k) s =
        .next (testHold (decideSlot k false (testHold (reconcile k g (endSlot k s))))))
  ∧ (∀ (k : Fin 4) (s : State) (g : Grid) (c : Current), s.outs[k].sync = .locked ∨ s.outs[k].sync = .holdover →
      s.outs[k].grid = some g → s.outs[k].waiting = false → s.outs[k].current = some c →
      (let x : Point := (c.record.number, c.slot)
       let s1 := { s with outs := s.outs.set k { s.outs[k] with current := some { c with slot := c.slot + 1 }, position := some x } }
       let u := activate k x g.next (dropPassedSplices k x s1)
       let w := passHeads k (passedAt x c.late) u.outs[k].queue u
       ∀ e rest, w.outs[k].queue = e :: rest → e.point = some x → c.late = false →
        (let r := carryEntry k false c.displ g.next e w
         decideSlot k false s = reportSlot k r.1 r.2)))
  ∧ (∀ (k : Fin 4) (x : Point) (start : Int) (c : Fin 16) (s : State), tableWf {} s.progs.records = true →
      tableWf {} s.store.segments = true →
      (let comes := fun y : Fin 16 => (context s y).state = .armed ∧ (programme s (context s y).programme).valid = true
         ∧ (programme s (context s y).programme).output = some k ∧ (context s y).splice.map (fun q => q.point) = some x
       let z := context s c
       let r := programme s z.programme
       let head := (playEntry s z.chainHead).segment
       let u := activate k x start s
       let estimate : Option Sample := match r.tracker with
         | none => none
         | some (v, i) => if 0 ≤ start - i ∧ start - i ≤ 20000000 then some (v + BitVec.ofInt 40 (start - i)) else none
       let a0 : Option Sample := match head with
         | none => none
         | some g => if (segment s g).state = .ready then (segment s g).a0 else none
       let offset : Sample := match estimate, a0 with
         | some v, some a => v + BitVec.ofNat 40 z.lead - a
         | _, _ => 0
       let takes := match r.owner with | none => true | some o => decide ((context s o).priority < z.priority)
       let begun := { z with
         state := .active, splice := none, countdown := ((z.splice.map Splice.duration).getD 0)
         substituted := 0, endSlots := 0, otherSlots := 0, offset := offset }
       ((∀ y, ¬comes y) → u = s)
       ∧ (comes c → (∀ y, y ≠ c → ¬comes y) → z.position = .absent →
            (∀ y, y ≠ c → context u y = context s y)
            ∧ (∀ g, head = some g → (segment s g).state = .ready →
                 context u c = { begun with position := .at_ z.chainHead 1 0 }
                 ∧ segment u g = { segment s g with uses := (segment s g).uses + 1 }
                 ∧ programme u z.programme = { r with
                     owner := if takes then some c else r.owner
                     discontinuity := r.discontinuity || takes || estimate.isNone || a0.isNone }
                 ∧ u.engine.counters = { s.engine.counters with
                     activations := bump s.engine.counters.activations
                     takeovers := if takes && r.owner.isSome then bump s.engine.counters.takeovers
                       else s.engine.counters.takeovers })
            ∧ (∀ reason : HaltReason, (head = none ∧ reason = .emptyEntry)
                  ∨ (∃ g, head = some g ∧ (segment s g).state ≠ .ready ∧ reason = .segmentNotReady) →
                 context u c = { begun with state := .halted, haltReason := some reason }
                 ∧ (programme u z.programme).owner ≠ some c ∧ hasFlag u.mgmt.flags .contextHalted = true))))
  ∧ (∀ (c : Fin 16) (e r i : Nat) (s : State), (context s c).position = .at_ e r i →
      tableWf {} s.store.segments = true →
      (let z := context s c
       let x := playEntry s e
       let u := (draw c s).2
       let drawn := (draw c s).1
       let mapped := fun (g j : Nat) => (z.labelMap.find? fun m => m.1 == (storedPacket s g j).label).map Prod.snd
       let done := ∀ g, x.segment = some g → ∀ j, i ≤ j → j < (segment s g).packets → mapped g j = none
       (∀ g j l, x.segment = some g → i ≤ j → j < (segment s g).packets → mapped g j = some l →
          (∀ m, i ≤ m → m < j → mapped g m = none) →
          drawn = .packet (storedPacket s g j) l ∧ context u c = { z with position := .at_ e r (j + 1) }
          ∧ u.store = s.store ∧ u.engine.counters = { s.engine.counters with
              discardsAndSkips := bumpBy s.engine.counters.discardsAndSkips (j - i) })
       ∧ (done → x.repeats ≤ r → x.next = none → drawn = .ended ∧ context u c = { z with position := .atEnd e }
            ∧ ∀ g, x.segment = some g → (segment u g).uses = (segment s g).uses - 1)
       ∧ (∀ g l, done → r < x.repeats → x.segment = some g → (segment s g).state = .ready → 0 < (segment s g).packets →
            mapped g 0 = some l → drawn = .packet (storedPacket s g 0) l
            ∧ context u c = { z with position := .at_ e (r + 1) 1 })
       ∧ (∀ e' g l, done → x.repeats ≤ r → x.next = some e' → (playEntry s e').segment = some g →
            (segment s g).state = .ready → 0 < (segment s g).packets → mapped g 0 = some l →
            drawn = .packet (storedPacket s g 0) l ∧ context u c = { z with position := .at_ e' 1 1 }
            ∧ (segment u g).uses = (if x.segment = some g then (segment s g).uses else (segment s g).uses + 1))
       ∧ (∀ (e' : Nat) (reason : HaltReason), done → x.repeats ≤ r → x.next = some e' →
            ((playEntry s e').segment = none ∧ reason = .emptyEntry)
              ∨ (∃ g, (playEntry s e').segment = some g ∧ (segment s g).state ≠ .ready ∧ reason = .segmentNotReady) →
            drawn = .halted
            ∧ context u c = { z with state := .halted, haltReason := some reason, position := .absent }
            ∧ hasFlag u.mgmt.flags .contextHalted = true)
       ∧ (∀ g, x.segment = some g → (segment s g).state = .ready →
            (∀ j, j < (segment s g).packets → mapped g j = none) → x.next = some e →
            drawn = .halted ∧ (context u c).haltReason = some .badLink)))
  ∧ (∀ (k : Fin 4) (displ start : Int) (e : Entry) (rest : List Entry) (p : Nat) (c : Fin 16) (g : Grid) (s : State),
      s.outs[k].queue = e :: rest → s.outs[k].grid = some g → e.programme = some p → (programme s p).valid = true →
      (programme s p).output = some k → (programme s p).owner = some c → (context s c).state = .active →
      (context s c).programme = p → (∀ y, y ≠ c → ¬((context s y).state = .active ∧ (context s y).programme = p)) →
      tableWf {} s.progs.records = true → tableWf {} s.pool.buffers = true →
      (let d := draw c s
       let r := carryEntry k false displ start e s
       let t := r.2
       let z := context d.2 c
       let left := t.outs[k].queue = rest ∧ t.outs[k].slot.map SlotInProgress.sends = some false
         ∧ (buffer t e.buffer).refs = (buffer s e.buffer).refs - 1
         ∧ t.pool.counters.substitutionReleases = bump s.pool.counters.substitutionReleases
       r.1 = some p
       ∧ (∀ stored l, d.1 = .packet stored l →
            (let pkt := { stored with label := l }
             let v := clockSample pkt + z.offset
             left ∧ context t c = { z with substituted := z.substituted + 1 }
             ∧ t.engine.counters = { d.2.engine.counters with
                 substitutedSlots := bump d.2.engine.counters.substitutedSlots }
             ∧ (pkt.c = true →
                  t.outs[k].line = some { withSample pkt v with d := pkt.d || (programme s p).discontinuity }
                  ∧ programme t p = { programme s p with tracker := some (v, start), discontinuity := false })
             ∧ (pkt.c = false → t.outs[k].line = some pkt ∧ programme t p = programme s p)))
       ∧ (d.1 = .ended → left ∧ context t c = { z with endSlots := z.endSlots + 1 }
            ∧ t.engine.counters = { d.2.engine.counters with endFillSlots := bump d.2.engine.counters.endFillSlots }
            ∧ t.outs[k].line = some fillPacket ∧ t.outs[k].counters.fillSlots = bump s.outs[k].counters.fillSlots
            ∧ programme t p = programme s p)
       ∧ (d.1 = .halted →
            (let out := sentPacket ((buffer s e.buffer).contents) e.label displ
             t.outs[k].queue = e :: rest ∧ t.outs[k].slot.map SlotInProgress.sends = some true
             ∧ (programme t p).owner = none
             ∧ t.outs[k].line = some (if out.c then { out with d := true } else out)
             ∧ (out.c = true → (programme t p).tracker =
                  some (clockSample (((buffer s e.buffer).contents).getD fillPacket) + BitVec.ofInt 40 displ, start)
                  ∧ (programme t p).discontinuity = false)))))
  ∧ (∀ (c : Fin 16) (s : State),
      (let d := draw c s
       let z := context d.2 c
       let t := drawShadow c s
       (∀ stored l, d.1 = .packet stored l → context t c = { z with substituted := z.substituted + 1 }
          ∧ t.engine.counters = { d.2.engine.counters with
              discardsAndSkips := bump d.2.engine.counters.discardsAndSkips })
       ∧ (d.1 = .ended → context t c = { z with endSlots := z.endSlots + 1 })
       ∧ (d.1 = .halted → t = d.2)
       ∧ (∀ p o, (programme s p).owner = some o → o ≠ c → (context s c).state = .active → (context s c).programme = p →
            (∀ y, y ≠ c → y ≠ o → ¬((context s y).state = .active ∧ (context s y).programme = p)) →
            (draw o s).1 ≠ .halted → (decideProgramme p s).2 = drawShadow c (drawOwner 17 p s).2)))
  ∧ (∀ (k : Fin 4) (due : Option Nat) (s : State), SlotReported k due s (reportSlot k due s))

/-- The waiting record's release start comes, with no fill slot left before it: its frame starts there with displacement
0, and an ACQUIRING output is then LOCKED, as an acquisition; any other output keeps its sync state, as a re-anchoring.
Between frames, a record within the tolerance starts at P, a later one waits, a late one is begun late, or at the late limit
makes the output ACQUIRING or free-running, and with no record the output is in underrun. A timing packet of the output's
multiplex, if valid, makes the open intake frame and a frame record, which waits, is discarded, or brings the output to
ACQUIRING, by its sync state and the tests of its F. That the rows let time run to that instant, and that each row acts in
its own sync state alone, is the model's choice, log entries 3 and 4; so is that the late record leaves before the entries
are flushed, log entry 41, and that LATE_FRAME is set before the sync state changes, log entry 46. -/
def Obligations.WaitingRecordStartsAtItsInstant : Prop :=
  (∀ (k : Fin 4) (s : State) (r : FrameRecord) (rest : List FrameRecord), s.outs[k].waiting = true →
      s.outs[k].frameQueue = r :: rest →
      (∀ g, s.outs[k].grid = some g →
        r.release < g.next + ((if g.rate ≤ g.phase + g.rem then g.interval + 1 else g.interval : Nat) : Int)) →
      s.clock.tick + (r.release - now s).toNat < 20000000 → clearFor (r.release - now s).toNat s →
      (let started := fun t : State =>
         t.clock.tick = s.clock.tick + (r.release - now s).toNat
         ∧ t.outs[k].current = some { record := r, start := r.release, slot := 0, displ := 0, late := false }
         ∧ t.outs[k].grid.map (fun g => (g.next, g.rate, g.phase)) = some (r.release, r.rate, 0)
         ∧ t.outs[k].lastBegun = some r.number ∧ t.outs[k].frameQueue = rest ∧ t.outs[k].waiting = false
         ∧ t.outs[k].lateCount = 0
         ∧ t.outs[k].counters.framesStarted = bump s.outs[k].counters.framesStarted
       (s.outs[k].sync = .acquiring → exec (.reanchorStart k) s = .next s
          ∧ ∃ t, exec (.acquisitionStart k) s = .next t ∧ started t ∧ t.outs[k].sync = .locked
            ∧ t.outs[k].counters.acquisitions = bump s.outs[k].counters.acquisitions
            ∧ hasFlag t.mgmt.flags .outputState = true)
       ∧ (s.outs[k].sync ≠ .acquiring → exec (.acquisitionStart k) s = .next s
          ∧ ∃ t, exec (.reanchorStart k) s = .next t ∧ started t ∧ t.outs[k].sync = s.outs[k].sync
            ∧ t.outs[k].counters.reAnchors = bump s.outs[k].counters.reAnchors)))
  ∧ (∀ (k : Fin 4) (p : Int) (s : State), s.outs[k].sync = .locked ∨ s.outs[k].sync = .holdover →
      s.outs[k].waiting = false → (∀ c, s.outs[k].current = some c → c.record.length ≤ c.slot) →
      (let o := s.outs[k]
       let t := reconcile k p s
       let tol : Int := o.tolerance
       let set := fun x : Output => { s with outs := s.outs.set k x }
       let between : Output := { o with
         current := none
         position := match o.current with | some c => some (c.record.number, c.record.length) | none => o.position }
       let begun := fun (r : FrameRecord) (rest : List FrameRecord) (displ : Int) (late : Bool) => { between with
         frameQueue := rest, lastBegun := some r.number, waiting := false
         grid := some {
           next := p, interval := 25600000000 / r.rate, rem := 25600000000 % r.rate, rate := r.rate, phase := 0 }
         current := some { record := r, start := p, slot := 0, displ := displ, late := late } }
       let count := min (o.lateCount + 1) 255
       (o.frameQueue = [] → t = set between
          ∧ ∀ g, o.grid = some g →
            (let u := decideSlot k false t
             u.outs[k].line = some fillPacket ∧ u.outs[k].position = between.position
             ∧ u.outs[k].counters.underrunSlots = bump o.counters.underrunSlots
             ∧ u.outs[k].counters.fillSlots = bump o.counters.fillSlots))
       ∧ (∀ r rest, o.frameQueue = r :: rest →
            (r.tooEarly = false → p - tol ≤ r.release → r.release ≤ p + tol →
               t = set { begun r rest (p - r.release) false with
                 lateCount := 0, counters := { o.counters with framesStarted := bump o.counters.framesStarted } })
            ∧ (r.tooEarly = false → p + tol < r.release → t = set { between with waiting := true })
            ∧ (r.tooEarly = true ∨ r.release < p - tol →
                 hasFlag t.mgmt.flags .lateFrame = true ∧ t.clock = s.clock ∧ t.feed = s.feed ∧ t.route = s.route
                 ∧ t.outs[k].counters.lateFrames = bump o.counters.lateFrames
                 ∧ (count < o.lateLimit → t.engine = s.engine ∧ t.pool.buffers = s.pool.buffers
                      ∧ t.outs = s.outs.set k { begun r rest 0 true with
                          lateCount := count, counters := { o.counters with lateFrames := bump o.counters.lateFrames } })
                 ∧ (o.lateLimit ≤ count → t.outs[k].lateCount = 0 ∧ t.outs[k].current = none
                      ∧ t.outs[k].lastBegun = o.lastBegun ∧ t.outs[k].position = none
                      ∧ hasFlag t.mgmt.flags .outputState = true
                      ∧ (o.sync = .locked → t.outs[k].sync = .acquiring ∧ t.outs[k].frameQueue <:+ rest
                           ∧ t.outs[k].grid = o.grid)
                      ∧ (o.sync = .holdover → t.outs[k].sync = .freeRun ∧ t.outs[k].frameQueue = []
                           ∧ t.outs[k].queue = o.queue
                           ∧ t.outs[k].counters.recordsDiscarded =
                               bumpBy o.counters.recordsDiscarded o.frameQueue.length
                           ∧ t.outs[k].grid.map (fun g => (g.next, g.rate, g.phase)) = some (p, o.defaultRate, 0)))))))
  ∧ (∀ (p : TimingPacket) (k : Fin 4) (s : State),
      (let o := s.outs[k]
       let t := takeTiming p k s
       let set := fun x : Output => { s with outs := s.outs.set k x }
       let valid := 1 ≤ p.length ∧ p.tick ≤ 19999999 ∧ 1000000 ≤ p.rate ∧ p.rate ≤ 80000000
       let target := resolveSecond s.clock.seconds.toNat p.low8 * 20000000 + (p.tick : Int)
       let release := target + (o.offset : Int)
       let r : FrameRecord :=
         { number := p.number, length := p.length, target := target, release := release, rate := p.rate
           interval := 25600000000 / p.rate, rem := 25600000000 % p.rate
           tooEarly := decide (40000000 < release - now s) }
       let made : Output := { o with
         openFrame := some { record := r, received := 0 }, previous := some p.number, frameQueue := o.frameQueue ++ [r]
         counters := { o.counters with
           timingTaken := bump o.counters.timingTaken
           frameGaps := if o.previous = none ∨ o.previous.map (· + 1) = some p.number then o.counters.frameGaps
             else bump o.counters.frameGaps } }
       let dropped : Output := { made with
         frameQueue := []
         counters := { made.counters with
           recordsDiscarded := bumpBy made.counters.recordsDiscarded (o.frameQueue.length + 1) } }
       let starts := (o.sync = .freeRun ∨ (o.sync = .muted ∧ o.muteCause = some .fallback)) ∧ s.clock.mode = .locked
       let passes := r.tooEarly = false ∧ now s < release ∧ ∀ g, o.grid = some g → g.next ≤ release
       (p.multiplex ≠ o.multiplex.val → t = s)
       ∧ (p.multiplex = o.multiplex.val → ¬valid →
            t = set { o with counters := { o.counters with badTiming := bump o.counters.badTiming } })
       ∧ (p.multiplex = o.multiplex.val → valid → 64 ≤ o.frameQueue.length →
            t = set { o with counters := { o.counters with frameQueueFull := bump o.counters.frameQueueFull } })
       ∧ (p.multiplex = o.multiplex.val → valid → o.frameQueue.length < 64 →
            (o.sync = .locked ∨ o.sync = .holdover ∨ (o.sync = .acquiring ∧ o.waiting = true) → t = set made)
            ∧ (o.sync = .freeRun ∨ o.sync = .muted → ¬starts → t = set dropped)
            ∧ (starts → t.outs[k].sync = .acquiring ∧ t.outs[k].openFrame = made.openFrame
                 ∧ t.outs[k].previous = made.previous ∧ t.outs[k].muteCause = none
                 ∧ hasFlag t.mgmt.flags .outputState = true)
            ∧ (starts ∨ (o.sync = .acquiring ∧ o.waiting = false) → o.frameQueue = [] →
                 (passes → t.outs[k].frameQueue = [r] ∧ t.outs[k].waiting = true)
                 ∧ (¬passes → t.outs[k].frameQueue = [] ∧ t.outs[k].waiting = false
                      ∧ t.outs[k].counters.recordsDiscarded = bump o.counters.recordsDiscarded)))))

/-- SET OUTPUT sets the fields that are present, clamped, and leaves the others; an index out of range is refused. A changed
multiplex number closes the open intake frame, and a default rate re-anchors a free-running grid at its next start. That it
does so for the rate in force as well is the model's choice, log entry 20. -/
def Obligations.SetOutputSetsWhatIsPresent : Prop :=
  ∀ (s : State) (c : Cell) (rest : List Cell) (n : Nat)
    (multiplex offset tolerance lateLimit fallback rate share : Option Nat), accepted 0x12 c rest s → carries c 0 n →
    carriesOpt c 1 multiplex → carriesOpt c 2 offset → carriesOpt c 3 tolerance → carriesOpt c 4 lateLimit →
    carriesOpt c 5 fallback → carriesOpt c 6 rate → carriesOpt c 7 share →
    ∃ t, exec (.setOutput none) s = .next t
      ∧ (let inRange := n < 4 ∧ (∀ m, multiplex = some m → m < 4) ∧ (∀ f, fallback = some f → f < 2)
         let quantity := fun (lo hi : Nat) (v : Option Nat) (old : Nat) => (v.map fun x => max lo (min hi x)).getD old
         (¬inRange → RefusedWith c .range rest s t)
         ∧ (∀ k : Fin 4, n = k.val → inRange →
            (let o := s.outs[k]
             let m := (multiplex.map (Fin.ofNat 4)).getD o.multiplex
             let newRate := quantity 1000000 80000000 rate o.defaultRate
             let o' : Output := { o with
               multiplex := m, offset := quantity 0 19999999 offset o.offset
               tolerance := quantity 0 1000 tolerance o.tolerance, lateLimit := quantity 1 255 lateLimit o.lateLimit
               fallback := match fallback with | none => o.fallback | some 0 => .mute | some _ => .freeRun
               defaultRate := newRate, share := quantity 1 262144 share o.share
               openFrame := if m = o.multiplex then o.openFrame else none
               grid := if rate.isSome ∧ o.sync = .freeRun then o.grid.map (fun g => gridFrom newRate g.next) else o.grid }
             Answered c .ok
               [natUnit o'.offset, natUnit o'.tolerance, natUnit o'.lateLimit, natUnit newRate, natUnit o'.share,
                 natUnit m.val, natUnit (match o'.fallback with | .mute => 0 | .freeRun => 1)]
               { unqueued rest s with outs := s.outs.set k o' } t)))

/-- OUTPUT MUTE silences the output with cause COMMAND and keeps only the entry that is being sent; OUTPUT RESTART returns
it to FREE_RUN with empty queues on a grid at its default rate from now. -/
def Obligations.OutputMuteSilencesAndRestartReturns : Prop :=
  ∀ (s : State) (c : Cell) (rest : List Cell) (k : Fin 4), carries c 0 k.val →
    (accepted 0x13 c rest s → ∃ t, exec (.outputMute none) s = .next t
      ∧ (s.outs[k].sync = .muted →
          Answered c .ok [natUnit 4]
            { unqueued rest s with outs := s.outs.set k { s.outs[k] with muteCause := some .command } } t)
      ∧ (s.outs[k].sync ≠ .muted →
          t.outs[k].sync = .muted ∧ t.outs[k].muteCause = some .command ∧ t.outs[k].grid = none
          ∧ t.outs[k].current = none ∧ t.outs[k].waiting = false ∧ t.outs[k].position = none
          ∧ t.outs[k].frameQueue = [] ∧ t.outs[k].slot = s.outs[k].slot
          ∧ t.outs[k].queue =
              (if s.outs[k].slot.map SlotInProgress.sends = some true then s.outs[k].queue.take 1 else [])
          ∧ hasFlag t.mgmt.flags .outputState = true)
      ∧ t.clock = s.clock ∧ t.feed = s.feed ∧ t.route = s.route ∧ t.mgmt.executing = none)
    ∧ (accepted 0x14 c rest s → ∃ t, exec (.outputRestart none) s = .next t
      ∧ t.outs[k].sync = .freeRun ∧ t.outs[k].muteCause = none ∧ t.outs[k].openFrame = none
      ∧ t.outs[k].previous = none ∧ t.outs[k].frameQueue = [] ∧ t.outs[k].current = none ∧ t.outs[k].lastBegun = none
      ∧ t.outs[k].lateCount = 0 ∧ t.outs[k].waiting = false ∧ t.outs[k].position = none ∧ t.outs[k].queue = []
      ∧ t.outs[k].slot = none ∧ t.outs[k].line = none
      ∧ t.outs[k].grid.map (fun g => (g.next, g.rate, g.phase)) = some (now s, s.outs[k].defaultRate, 0)
      ∧ (∀ x, (context s x).state = .active → (programme s (context s x).programme).valid = true →
          (programme s (context s x).programme).output = some k → (context t x).state = .idle)
      ∧ t.clock = s.clock ∧ t.feed = s.feed ∧ t.route = s.route ∧ t.mgmt.executing = none)

/-! ### The Programme Table -/

/-- WRITE PROGRAMME writes the whole of one record, which keeps no owner and no tracker; it is refused for an owned
programme and for a cue label that another valid record holds. CLEAR PROGRAMME clears a record that no context wants. -/
def Obligations.WriteAndClearProgrammeSetOneRecord : Prop :=
  ∀ (s : State) (c : Cell) (rest : List Cell) (p : Nat), carries c 0 p → tableWf {} s.progs.records = true →
    (let wanted := ∃ x, (context s x).programme = p ∧ (context s x).state ≠ .idle
     let validBut := ((s.progs.records.filter fun e => e.1 != p && e.2.valid).length)
     (∀ (k : Nat) (cue : Option Nat), accepted 0x24 c rest s → carries c 1 k → carriesOpt c 2 cue →
        ∃ t, exec (.writeProgramme none) s = .next t
          ∧ (let inRange := p < 64 ∧ k < 4 ∧ ∀ l, cue = some l → l < 4088
             let held := ∃ q l, q ≠ p ∧ cue = some l ∧ (programme s q).valid = true
               ∧ (programme s q).cueLabel = some (BitVec.ofNat 12 l)
             let record : Programme :=
               { valid := true, output := some (asOutput k), cueLabel := cue.map (BitVec.ofNat 12), owner := none
                 tracker := none, discontinuity := (programme s p).valid && (programme s p).discontinuity }
             (¬inRange → RefusedWith c .range rest s t)
             ∧ (inRange → (programme s p).owner ≠ none → RefusedWith c .busy rest s t)
             ∧ (inRange → (programme s p).owner = none → held → RefusedWith c .duplicate rest s t)
             ∧ (inRange → (programme s p).owner = none → ¬held →
                  (programme s p).valid = false ∨ (programme s p).output = some (asOutput k) →
                  Answered c .ok
                    [natUnit (validBut + 1), natUnit (if record.discontinuity then 1 else 0)]
                    { unqueued rest s with
                      progs := { s.progs with records := tablePut {} s.progs.records p record } } t)
             ∧ (inRange → (programme s p).owner = none → ¬held → (programme s p).valid = true →
                  (programme s p).output ≠ some (asOutput k) →
                  (∀ q, programme t q = if q = p then record else programme s q)
                  ∧ (∀ x, (context s x).programme = p → (context t x).splice = none)
                  ∧ (∀ x, (context s x).programme ≠ p → context t x = context s x) ∧ t.mgmt.executing = none)))
     ∧ (accepted 0x25 c rest s → ∃ t, exec (.clearProgramme none) s = .next t
          ∧ (64 ≤ p → RefusedWith c .range rest s t)
          ∧ (p < 64 → (programme s p).owner ≠ none ∨ wanted → RefusedWith c .busy rest s t)
          ∧ (p < 64 → (programme s p).owner = none → ¬wanted → (programme s p).valid = true →
              Answered c .ok [natUnit validBut]
                { unqueued rest s with progs := { s.progs with records := tablePut {} s.progs.records p {} } } t)
          ∧ (p < 64 → (programme s p).owner = none → ¬wanted → (programme s p).valid = false →
              Answered c .ok [natUnit validBut] (unqueued rest s) t)))

/-! ### The Segment Store -/

/-- DEFINE SEGMENT makes a FREE segment EMPTY over a block range that meets no other, and RELEASE SEGMENT makes an EMPTY or
READY segment that no context reads FREE; each replies with the blocks left over. -/
def Obligations.DefineAndReleaseSegment : Prop :=
  ∀ (s : State) (c : Cell) (rest : List Cell) (g : Nat), carries c 0 g → tableWf {} s.store.segments = true →
    blocksApart s →
    (let put := fun x => { unqueued rest s with
       store := { s.store with segments := tablePut {} s.store.segments g x } }
     let left := fun u : State =>
       8192 - ((u.store.segments.filter fun e => decide (e.2.state ≠ .free)).map fun e => e.2.blocks).sum
     (∀ first count, accepted 0x30 c rest s → carries c 1 first → carries c 2 count →
        ∃ t, exec (.defineSegment none) s = .next t
          ∧ (let inRange := g < 1024 ∧ first < 8192 ∧ 1 ≤ count ∧ first + count ≤ 8192
             let meets := ∃ h, (segment s h).state ≠ .free ∧ ∃ b, first ≤ b ∧ b < first + count
               ∧ (segment s h).firstBlock ≤ b ∧ b < (segment s h).firstBlock + (segment s h).blocks
             let made : Segment := { state := .empty, firstBlock := first, blocks := count }
             (¬inRange → RefusedWith c .range rest s t)
             ∧ (inRange → (segment s g).state ≠ .free → RefusedWith c .state rest s t)
             ∧ (inRange → (segment s g).state = .free → meets → RefusedWith c .overlap rest s t)
             ∧ (inRange → (segment s g).state = .free → ¬meets →
                  Answered c .ok [natUnit (left (put made))] (put made) t)))
     ∧ (accepted 0x31 c rest s → ∃ t, exec (.releaseSegment none) s = .next t
          ∧ (1024 ≤ g → RefusedWith c .range rest s t)
          ∧ (g < 1024 → (segment s g).state = .free ∨ (segment s g).state = .filling → RefusedWith c .state rest s t)
          ∧ (g < 1024 → (segment s g).state = .empty ∨ (segment s g).state = .ready → 0 < (segment s g).uses →
              RefusedWith c .busy rest s t)
          ∧ (g < 1024 → (segment s g).state = .empty ∨ (segment s g).state = .ready → (segment s g).uses = 0 →
              Answered c .ok [natUnit (left (put {}))] (put {}) t)))

/-- START FILL that passes its checks makes the store context FILLING and empties the segment that it fills. -/
def Obligations.StartFillMakesItsContextFilling : Prop :=
  ∀ (s : State) (c : Cell) (rest : List Cell) (i : Fin 2) (g : Nat) (list : List Nat), accepted 0x32 c rest s →
    carries c 0 i.val → carries c 1 g → carries c 2 list.length → carriesAll c 3 list → 1 ≤ list.length →
    list.length ≤ 4 → list.Nodup → tableWf {} s.progs.records = true →
    ∃ t, exec (.startFill none) s = .next t
      ∧ (let inRange := g < 1024 ∧ ∀ l ∈ list, l < 4088
         let labels := list.map (BitVec.ofNat 12)
         let x := segment s g
         let conflict := (∃ j f, j ≠ i ∧ s.store.contexts[j] = some f ∧ ∃ l ∈ labels, l ∈ f.labels)
           ∨ ∃ p, (programme s p).valid = true ∧ ∃ l ∈ labels, (programme s p).cueLabel = some l
         (¬inRange → RefusedWith c .range rest s t)
         ∧ (inRange → s.store.contexts[i] ≠ none ∨ x.state = .free ∨ x.state = .filling →
              RefusedWith c .state rest s t)
         ∧ (inRange → s.store.contexts[i] = none → x.state = .ready → 0 < x.uses → RefusedWith c .busy rest s t)
         ∧ (inRange → s.store.contexts[i] = none → (x.state = .empty ∨ x.state = .ready ∧ x.uses = 0) → conflict →
              RefusedWith c .labelConflict rest s t)
         ∧ (inRange → s.store.contexts[i] = none → (x.state = .empty ∨ x.state = .ready ∧ x.uses = 0) → ¬conflict →
              Answered c .ok [natUnit (x.blocks * 256), natUnit list.length]
                { unqueued rest s with store := { s.store with
                    contexts := s.store.contexts.set i (some { segment := g, labels := labels, continuity := [] })
                    segments := tablePut {} s.store.segments g
                      { x with state := .filling, packets := 0, a0 := none, errors := 0 }
                    counters := { s.store.counters with started := bump s.store.counters.started } } } t))

/-- SEAL FILL makes the segment READY as it stands, and ABORT FILL makes it EMPTY with nothing in it; each makes the store
context IDLE, and is refused with STATE for an IDLE one. -/
def Obligations.SealAndAbortEndAFill : Prop :=
  ∀ (s : State) (c : Cell) (rest : List Cell) (i : Fin 2), carries c 0 i.val →
    (accepted 0x33 c rest s → ∃ t, exec (.sealFill none) s = .next t
      ∧ (s.store.contexts[i] = none → RefusedWith c .state rest s t)
      ∧ (∀ f, s.store.contexts[i] = some f →
          Answered c .ok
            [natUnit f.segment, natUnit (segment s f.segment).packets, (segment s f.segment).a0]
            { unqueued rest s with store := { s.store with
                contexts := s.store.contexts.set i none
                segments := tablePut {} s.store.segments f.segment { segment s f.segment with state := .ready }
                counters := { s.store.counters with sealed := bump s.store.counters.sealed } } } t))
    ∧ (accepted 0x34 c rest s → ∃ t, exec (.abortFill none) s = .next t
      ∧ (s.store.contexts[i] = none → RefusedWith c .state rest s t)
      ∧ (∀ f, s.store.contexts[i] = some f →
          Answered c .ok [natUnit f.segment]
            { unqueued rest s with store := { s.store with
                contexts := s.store.contexts.set i none
                segments := tablePut {} s.store.segments f.segment
                  { segment s f.segment with state := .empty, packets := 0, a0 := none, errors := 0 }
                counters := { s.store.counters with aborted := bump s.store.counters.aborted } } } t))

/-- A packet appended to a segment is written at the index equal to the packet count, which adds one; the first clock sample
is kept as A0; and the packet that brings the count to the capacity makes the segment READY and the context IDLE. -/
def Obligations.AppendedPacketGoesToTheSegmentsEnd : Prop :=
  ∀ (i : Fin 2) (f : Fill) (pkt : Packet) (s : State), tableWf {} s.store.segments = true →
    tableWf none s.store.dram = true →
    (let g := segment s f.segment
     let n := f.segment
     let e := tableGet {} f.continuity pkt.label.toNat
     let error := e.seen = true ∧ pkt.seq ≠ e.last + 1 ∧ pkt.d = false
     let t := appendPacket i f pkt s
     storedPacket t n g.packets = pkt
     ∧ (segment t n).packets = g.packets + 1
     ∧ (segment t n).a0 = (if pkt.c = true ∧ g.a0 = none then some (clockSample pkt) else g.a0)
     ∧ (error → (segment t n).errors = min (g.errors + 1) 65535)
     ∧ (¬error → (segment t n).errors = g.errors)
     ∧ (∀ h, h ≠ n → segment t h = segment s h)
     ∧ (g.blocks * 256 ≤ g.packets + 1 → (segment t n).state = .ready ∧ t.store.contexts[i] = none
          ∧ hasFlag t.mgmt.flags .segmentFull = true
          ∧ t.store.counters.completedFull = bump s.store.counters.completedFull)
     ∧ (g.packets + 1 < g.blocks * 256 → (segment t n).state = g.state
          ∧ t.store.contexts[i] = some { f with
              continuity := tablePut {} f.continuity pkt.label.toNat { last := pkt.seq, seen := true } }))

/-- SEGMENT STATUS and CONTEXT STATUS change nothing, and reply with eight units of the segment record and twenty-five of
the context, as they stand. -/
def Obligations.SegmentAndContextStatusReport : Prop :=
  ∀ (s : State) (c : Cell) (rest : List Cell) (n : Nat), carries c 0 n →
    (accepted 0x35 c rest s → ∃ t, exec (.segmentStatus none) s = .next t
      ∧ (1024 ≤ n → RefusedWith c .range rest s t)
      ∧ (n < 1024 →
          (let x := segment s n
           Answered c .ok
             [natUnit (match x.state with | .free => 0 | .empty => 1 | .filling => 2 | .ready => 3),
               if x.state = .free then none else natUnit x.firstBlock,
               if x.state = .free then none else natUnit x.blocks,
               natUnit x.packets, x.a0, natUnit x.errors, natUnit x.uses,
               if x.state = .filling then
                 (if (s.store.contexts[(0 : Fin 2)].map Fill.segment) = some n then natUnit 0
                  else if (s.store.contexts[(1 : Fin 2)].map Fill.segment) = some n then natUnit 1 else none)
               else none]
             (unqueued rest s) t)))
    ∧ (accepted 0x45 c rest s → ∃ t, exec (.contextStatus none) s = .next t
      ∧ (16 ≤ n → RefusedWith c .range rest s t)
      ∧ (n < 16 → ∃ units, Answered c .ok units (unqueued rest s) t ∧ units.length = 25
          ∧ (let x := context s (asContext n)
             let point := fun y : Point => y.1.toNat * 65536 + y.2
             let optional := fun v : Option Nat => v.map (BitVec.ofNat 40)
             units =
               [natUnit (match x.state with | .idle => 0 | .armed => 1 | .active => 2 | .halted => 3),
                 natUnit (if x.state ≠ .active then 0
                   else if (programme s x.programme).owner = some (asContext n) then 1 else 2),
                 natUnit x.programme, natUnit x.priority, natUnit (match x.mode with | .cue => 0 | .frame => 1),
                 optional (x.filter.map BitVec.toNat), natUnit x.lead, natUnit x.chainHead,
                 natUnit (if x.rearm then 1 else 0),
                 optional (x.latch.map fun q => q.id.toNat), optional (x.latch.map fun q => point q.point),
                 optional (x.latch.map fun q => q.duration),
                 optional (x.splice.bind fun y => y.id.map BitVec.toNat), optional (x.splice.map fun y => point y.point),
                 optional (x.splice.map fun y => y.duration)]
               ++ (match x.position with
                 | .absent => [none, none, none]
                 | .at_ e k i => [natUnit e, natUnit k, natUnit i]
                 | .atEnd e => [natUnit e, none, none])
               ++ [natUnit x.countdown, some x.offset,
                 optional (x.haltReason.map fun r => match r with
                   | .segmentNotReady => 0 | .badLink => 1 | .emptyEntry => 2),
                 natUnit x.completed.toNat, natUnit x.substituted, natUnit x.endSlots, natUnit x.otherSlots])))

/-! ### The Insertion Engine -/

/-- WRITE PLAY ENTRY writes one entry whole, its repeat count clamped; it is refused for another segment while a position of
an ACTIVE context lies in the entry. -/
def Obligations.WritePlayEntryWritesOneEntry : Prop :=
  ∀ (s : State) (c : Cell) (rest : List Cell) (e repeats : Nat) (g next : Option Nat), accepted 0x40 c rest s →
    carries c 0 e → carriesOpt c 1 g → carries c 2 repeats → carriesOpt c 3 next →
    ∃ t, exec (.writePlayEntry none) s = .next t
      ∧ (let inRange := e < 512 ∧ (∀ x, g = some x → x < 1024) ∧ (∀ x, next = some x → x < 512)
         let here := fun x : Fin 16 => (context s x).state = .active ∧ ∃ k i, (context s x).position = .at_ e k i
         (¬inRange → RefusedWith c .range rest s t)
         ∧ (inRange → (playEntry s e).segment ≠ g → (∃ x, here x) → RefusedWith c .busy rest s t)
         ∧ (inRange → (playEntry s e).segment = g ∨ (∀ x, ¬here x) →
              ∃ n, Answered c .ok [natUnit (max 1 (min 16 repeats)), natUnit n]
                { unqueued rest s with engine := { s.engine with
                    entries := tablePut {} s.engine.entries e
                      { segment := g, repeats := max 1 (min 16 repeats), next := next } } } t
              ∧ ((∀ x, ¬here x) → n = 0)))

/-- CONFIGURE CONTEXT sets the configuration of an IDLE context, with its priority and splice lead clamped, and removes its
latched cue and halt reason. -/
def Obligations.ConfigureContextSetsAnIdleContext : Prop :=
  ∀ (s : State) (c : Cell) (rest : List Cell) (x : Fin 16) (p priority mode lead head rearm : Nat)
    (filter : Option Nat) (pairs : List (Nat × Nat)), accepted 0x41 c rest s →
    carriesAll c 0 [x.val, p, priority, mode] → carriesOpt c 4 filter → carriesAll c 5 [lead, head, rearm] →
    carries c 8 pairs.length → carriesAll c 9 (pairs.map fun e => e.1 * 4096 + e.2) →
    1 ≤ pairs.length → pairs.length ≤ 4 → (∀ e ∈ pairs, e.1 < 4096 ∧ e.2 < 4096) →
    ∃ t, exec (.configureContext none) s = .next t
      ∧ (let inRange := p < 64 ∧ mode < 2 ∧ (∀ a, filter = some a → a < 256) ∧ head < 512 ∧ rearm < 2
           ∧ ∀ e ∈ pairs, e.1 < 4088 ∧ e.2 < 4088
         (¬inRange → RefusedWith c .range rest s t)
         ∧ (inRange → (context s x).state ≠ .idle → RefusedWith c .busy rest s t)
         ∧ (inRange → (context s x).state = .idle → ¬(pairs.map Prod.fst).Nodup → RefusedWith c .duplicate rest s t)
         ∧ (inRange → (context s x).state = .idle → (pairs.map Prod.fst).Nodup →
              Answered c .ok [natUnit (min 7 priority), natUnit (min 2000000 lead)]
                { unqueued rest s with engine := { s.engine with
                    contexts := s.engine.contexts.set x { context s x with
                      programme := p, priority := min 7 priority, mode := if mode = 0 then .cue else .frame
                      filter := filter.map (BitVec.ofNat 8), lead := min 2000000 lead
                      labelMap := pairs.map fun e => (BitVec.ofNat 12 e.1, BitVec.ofNat 12 e.2)
                      chainHead := head, rearm := decide (rearm = 1), latch := none, haltReason := none } } } t))

/-- START CONTEXT arms an IDLE context on a valid programme; a latched cue, or the point that a FRAME context is given,
becomes its pending splice when the point is ahead on the programme's output, and is missed when it is not. That a splice
frame above 65,535 is refused with RANGE is the model's choice, log entry 18. -/
def Obligations.StartContextArmsAnIdleContext : Prop :=
  ∀ (s : State) (c : Cell) (rest : List Cell) (x : Fin 16), accepted 0x42 c rest s → carries c 0 x.val →
    (let y := context s x
     let armed := fun z : Context => { unqueued rest s with engine := { s.engine with contexts := s.engine.contexts.set x z } }
     let ahead := fun point : Point => ∃ k : Fin 4, (programme s y.programme).valid = true
       ∧ (programme s y.programme).output = some k ∧ (s.outs[k].sync = .locked ∨ s.outs[k].sync = .holdover)
       ∧ ∀ z, s.outs[k].position = some z → pointBefore z point = true
     (y.mode = .cue → ∃ t, exec (.startContext none) s = .next t
        ∧ (y.state ≠ .idle → RefusedWith c .state rest s t)
        ∧ (y.state = .idle → (programme s y.programme).valid = false → RefusedWith c .notReady rest s t)
        ∧ (y.state = .idle → (programme s y.programme).valid = true → y.latch = none →
            Answered c .ok [none, natUnit (if y.splice.isSome then 1 else 0)] (armed { y with state := .armed }) t)
        ∧ (∀ q, y.state = .idle → (programme s y.programme).valid = true → y.latch = some q → ahead q.point →
            Answered c .ok [none, natUnit 1] (armed { y with
              state := .armed, latch := none
              splice := some { point := q.point, duration := q.duration, id := some q.id } }) t)
        ∧ (∀ q, y.state = .idle → (programme s y.programme).valid = true → y.latch = some q → ¬ahead q.point →
            ∃ u, Answered c .ok [none, natUnit 0] u t
              ∧ context t x = { y with state := .armed, latch := none, splice := none }
              ∧ (∀ z, z ≠ x → context t z = context s z) ∧ hasFlag t.mgmt.flags .cueMissed = true
              ∧ t.engine.counters = { s.engine.counters with splicesMissed := bump s.engine.counters.splicesMissed }
              ∧ t.mgmt.executing = none ∧ t.mgmt.controlQueue = rest ∧ t.clock = s.clock ∧ t.outs = s.outs))
     ∧ (∀ frame slot duration, y.mode = .frame → carriesAll c 1 [frame, slot, duration] →
        ∃ t, exec (.startContext none) s = .next t
          ∧ (let inRange := frame < 65536 ∧ slot < 65535
             let point : Point := (BitVec.ofNat 16 frame, slot)
             let taken := max 1 (min 16777215 duration)
             (¬inRange → RefusedWith c .range rest s t)
             ∧ (inRange → y.state ≠ .idle → RefusedWith c .state rest s t)
             ∧ (inRange → y.state = .idle → (programme s y.programme).valid = false → RefusedWith c .notReady rest s t)
             ∧ (inRange → y.state = .idle → (programme s y.programme).valid = true → ahead point →
                  Answered c .ok [natUnit taken, natUnit 1]
                    (armed { y with state := .armed, splice := some { point := point, duration := taken, id := none } }) t)
             ∧ (inRange → y.state = .idle → (programme s y.programme).valid = true → ¬ahead point →
                  (∃ u, Answered c .ok [natUnit taken, natUnit 0] u t)
                  ∧ context t x = { y with state := .armed, splice := none } ∧ hasFlag t.mgmt.flags .cueMissed = true
                  ∧ t.engine.counters = { s.engine.counters with splicesMissed := bump s.engine.counters.splicesMissed }
                  ∧ t.mgmt.executing = none))))

/-- STOP CONTEXT makes the context IDLE from every state; an ACTIVE one is counted as stopped, leaves its segment, and no
longer owns its programme. WAKE CONTEXT goes on with a chain at its end. -/
def Obligations.StopAndWakeContext : Prop :=
  ∀ (s : State) (c : Cell) (rest : List Cell) (x : Fin 16), carries c 0 x.val →
    (let y := context s x
     let with_ := fun z : Context => { unqueued rest s with engine := { s.engine with contexts := s.engine.contexts.set x z } }
     (accepted 0x43 c rest s → ∃ t, exec (.stopContext none) s = .next t
        ∧ (y.state = .idle → Answered c .ok [natUnit 0] (unqueued rest s) t)
        ∧ (y.state = .armed →
            Answered c .ok [natUnit 0] (with_ { y with state := .idle, splice := none, latch := none }) t)
        ∧ (y.state = .halted → Answered c .ok [natUnit 0] (with_ { y with state := .idle, latch := none }) t)
        ∧ (y.state = .active →
            (context t x).state = .idle ∧ (context t x).position = .absent ∧ (context t x).latch = none
            ∧ t.engine.counters = { s.engine.counters with breaksStopped := bump s.engine.counters.breaksStopped }
            ∧ (tableWf {} s.progs.records = true → (programme t y.programme).owner ≠ some x)
            ∧ t.clock = s.clock ∧ t.outs = s.outs ∧ t.mgmt.executing = none))
     ∧ (accepted 0x44 c rest s → ∃ t, exec (.wakeContext none) s = .next t
        ∧ (y.state = .idle ∨ y.state = .halted → RefusedWith c .state rest s t)
        ∧ (y.state = .armed → (∀ e, y.position ≠ .atEnd e) → Answered c .ok [natUnit 1, natUnit 0] (unqueued rest s) t)
        ∧ (∀ e, y.state = .active → y.position = .atEnd e → (playEntry s e).next = none →
            Answered c .ok [natUnit 2, natUnit 1] (unqueued rest s) t)
        ∧ (∀ e e' g, y.state = .active → y.position = .atEnd e → (playEntry s e).next = some e' →
            (playEntry s e').segment = some g → (segment s g).state = .ready →
            Answered c .ok [natUnit 2, natUnit 0]
              { with_ { y with position := .at_ e' 1 0 } with store := { s.store with
                  segments := tablePut {} s.store.segments g { segment s g with uses := (segment s g).uses + 1 } } } t)))

/-- A break ends in the slot that brings its countdown to 0, so BREAK_END runs the outputs that carry a break, each event at
its instant, to that slot. Where the next event of such an output ends a break, BREAK_END is that event. On a free-running
output whose next slot carries fill or a plain copy, BREAK_END and SLOT_START answer the same state: the context whose
countdown stood at 1 has left ACTIVE in it, ARMED when a CUE context rearms and IDLE when not, with no position, and owns no
programme, and BREAK_END is set. While no break runs, BREAK_END changes nothing. That the row lets time run to the slot, and
changes nothing while no break runs, is the model's choice, log entries 3, 4 and 5. -/
def Obligations.BreakEndEndsTheDueBreaks : Prop :=
  (∀ s : State, (∀ x, (context s x).state ≠ .active) → exec .breakEnd s = .next s)
  ∧ (∀ (k : Fin 4) (s : State),
      (let u := takeOutputEvent k s
       (∀ g, slotAt s k = some g → exec (.slotStart k) s = .next u)
       ∧ (∀ f, frameAt s k = some f → s.outs[k].sync = .acquiring → exec (.acquisitionStart k) s = .next u)
       ∧ (∀ f, frameAt s k = some f → s.outs[k].sync ≠ .acquiring → exec (.reanchorStart k) s = .next u)
       ∧ (∀ x, nextBreakOutput (breaksRunning s) s = some k → (context s x).state = .active →
            (context u x).state = .idle ∨ (context u x).state = .armed → exec .breakEnd s = .next u)))
  ∧ (∀ (k : Fin 4) (s : State) (g : Grid) (x : Fin 16), s.outs[k].sync = .freeRun → s.outs[k].grid = some g →
      s.outs[k].waiting = false → s.clock.tick + (g.next - now s).toNat < 20000000 →
      clearFor (g.next - now s).toNat s → (context s x).state = .active → (context s x).countdown ≤ 1 →
      (programme s (context s x).programme).valid = true → (programme s (context s x).programme).output = some k →
      (∀ (j : Fin 4) (i : Int), j ≠ k → nextInstant s j = some i → g.next < i) →
      (∀ e rest, leftAfterSlot s.outs[k] = e :: rest → e.programme = none) →
      ∃ t, exec .breakEnd s = .next t ∧ exec (.slotStart k) s = .next t ∧ PolicyKept s t
        ∧ t.clock.tick = s.clock.tick + (g.next - now s).toNat ∧ (∀ j : Fin 4, t.outs[j].sync = s.outs[j].sync)
        ∧ SlotReported k none s t
        ∧ (context t x).state = (if (context s x).mode = .cue ∧ (context s x).rearm = true then .armed else .idle)
        ∧ (context t x).position = .absent ∧ (context t x).completed = bump (context s x).completed
        ∧ hasFlag t.mgmt.flags .breakEnd = true
        ∧ (tableWf {} s.progs.records = true → (programme t (context s x).programme).owner ≠ some x))

/-! ### Comparisons of frame numbers and seconds -/

/-- Frame numbers are compared by their difference modulo 65,536, and two that lie 32,768 apart are each before the other;
points are compared by their frame numbers and then by their slots, and a splice point is ahead of an emission position that
is before it. -/
def Obligations.FrameNumbersAndPointsCompare : Prop :=
  ∀ a b : FrameNo,
    (frameAtOrAfter a b = true ↔ ((a.toNat : Int) - b.toNat) % 65536 ≤ 32767)
    ∧ (frameAfter a b = true ↔ frameAtOrAfter a b = true ∧ a ≠ b)
    ∧ (((a.toNat : Int) - b.toNat) % 65536 = 32768 → frameAtOrAfter a b = false ∧ frameAtOrAfter b a = false)
    ∧ (∀ i j : Nat, (pointAtOrAfter (a, i) (b, j) = true ↔ frameAfter a b = true ∨ (a = b ∧ j ≤ i))
        ∧ (pointBefore (a, i) (b, j) = true ↔ pointAtOrAfter (a, i) (b, j) = false))
    ∧ ∀ (s : State) (k : Fin 4) (x y : Point), s.outs[k].sync = .locked ∨ s.outs[k].sync = .holdover →
        s.outs[k].position = some y → (pointAhead s k x = true ↔ pointBefore y x = true)

/-- The second resolution is the one integer that agrees with the low byte and lies from 128 seconds before now to 127
seconds after. -/
def Obligations.SecondResolutionIsTheOneInTheWindow : Prop :=
  ∀ (nowsec low8 : Nat), low8 < 256 → ∀ x : Int,
    (resolveSecond nowsec low8 = x ↔ x % 256 = (low8 : Int) ∧ (nowsec : Int) - 128 ≤ x ∧ x ≤ (nowsec : Int) + 127)
    ∧ ∀ (s : State) (k : Fin 4) (p : TimingPacket), (recordOf s k p).target
        = resolveSecond s.clock.seconds.toNat p.low8 * 20000000 + (p.tick : Int)

/-! ### What every step keeps -/

/-- Every step keeps the tick within its second, and keeps the outputs' sync states to those that the clock's state allows. -/
def Obligations.EveryStepKeepsTimeAndSync : Prop :=
  ∀ s t : State, tickInSecond s → syncFollowsClock s → step s = .next t → tickInSecond t ∧ syncFollowsClock t

/-- Every step keeps the queues within their room, and a HOLD in force in execution. -/
def Obligations.EveryStepKeepsTheQueues : Prop :=
  ∀ s t : State, queuesHaveRoom s → holdIsInExecution s → step s = .next t → queuesHaveRoom t ∧ holdIsInExecution t

/-- Every step keeps the cue labels of valid programmes distinct, the blocks of segments apart, and the fills of the store
contexts on segments of their own; and it keeps the tables of records in their one form, which is the model's own way of
holding them, log entry 9. -/
def Obligations.EveryStepKeepsTheRecords : Prop :=
  ∀ s t : State, tablesCanonical s → cueLabelsDistinct s → blocksApart s → fillsApart s → step s = .next t →
    tablesCanonical t ∧ cueLabelsDistinct t ∧ blocksApart t ∧ fillsApart t

/-- The part right after reset meets every condition that the steps keep. That the tables of records stand in one form is
the model's own way of holding them, log entry 9. -/
def Obligations.ResetMeetsWhatEveryStepKeeps : Prop :=
  tickInSecond State.reset ∧ syncFollowsClock State.reset ∧ queuesHaveRoom State.reset ∧ holdIsInExecution State.reset
    ∧ tablesCanonical State.reset ∧ cueLabelsDistinct State.reset ∧ blocksApart State.reset
    ∧ fillsApart State.reset

end Statements
end

