-- ==== Sys2Proof/Laws/State.lean ====
section
/-!
SUPPORT. State.lean: one lemma for each field of State and each update of Ops.lean.
-/

namespace Sys2Proof.Machine

variable (s : State)

/-! ### mapClock -/

@[simp] theorem mapClock_clock (f : SiteClock → SiteClock) : (mapClock f s).clock = f s.clock := rfl
@[simp] theorem mapClock_feed (f : SiteClock → SiteClock) : (mapClock f s).feed = s.feed := rfl
@[simp] theorem mapClock_route (f : SiteClock → SiteClock) : (mapClock f s).route = s.route := rfl
@[simp] theorem mapClock_pool (f : SiteClock → SiteClock) : (mapClock f s).pool = s.pool := rfl
@[simp] theorem mapClock_outs (f : SiteClock → SiteClock) : (mapClock f s).outs = s.outs := rfl
@[simp] theorem mapClock_progs (f : SiteClock → SiteClock) : (mapClock f s).progs = s.progs := rfl
@[simp] theorem mapClock_store (f : SiteClock → SiteClock) : (mapClock f s).store = s.store := rfl
@[simp] theorem mapClock_engine (f : SiteClock → SiteClock) : (mapClock f s).engine = s.engine := rfl
@[simp] theorem mapClock_mgmt (f : SiteClock → SiteClock) : (mapClock f s).mgmt = s.mgmt := rfl
@[simp] theorem mapClock_pending (f : SiteClock → SiteClock) : (mapClock f s).pending = s.pending := rfl

/-! ### mapFeed -/

@[simp] theorem mapFeed_clock (f : FeedIntake → FeedIntake) : (mapFeed f s).clock = s.clock := rfl
@[simp] theorem mapFeed_feed (f : FeedIntake → FeedIntake) : (mapFeed f s).feed = f s.feed := rfl
@[simp] theorem mapFeed_route (f : FeedIntake → FeedIntake) : (mapFeed f s).route = s.route := rfl
@[simp] theorem mapFeed_pool (f : FeedIntake → FeedIntake) : (mapFeed f s).pool = s.pool := rfl
@[simp] theorem mapFeed_outs (f : FeedIntake → FeedIntake) : (mapFeed f s).outs = s.outs := rfl
@[simp] theorem mapFeed_progs (f : FeedIntake → FeedIntake) : (mapFeed f s).progs = s.progs := rfl
@[simp] theorem mapFeed_store (f : FeedIntake → FeedIntake) : (mapFeed f s).store = s.store := rfl
@[simp] theorem mapFeed_engine (f : FeedIntake → FeedIntake) : (mapFeed f s).engine = s.engine := rfl
@[simp] theorem mapFeed_mgmt (f : FeedIntake → FeedIntake) : (mapFeed f s).mgmt = s.mgmt := rfl
@[simp] theorem mapFeed_pending (f : FeedIntake → FeedIntake) : (mapFeed f s).pending = s.pending := rfl

/-! ### mapRoute -/

@[simp] theorem mapRoute_clock (f : RouteDecoder → RouteDecoder) : (mapRoute f s).clock = s.clock := rfl
@[simp] theorem mapRoute_feed (f : RouteDecoder → RouteDecoder) : (mapRoute f s).feed = s.feed := rfl
@[simp] theorem mapRoute_route (f : RouteDecoder → RouteDecoder) : (mapRoute f s).route = f s.route := rfl
@[simp] theorem mapRoute_pool (f : RouteDecoder → RouteDecoder) : (mapRoute f s).pool = s.pool := rfl
@[simp] theorem mapRoute_outs (f : RouteDecoder → RouteDecoder) : (mapRoute f s).outs = s.outs := rfl
@[simp] theorem mapRoute_progs (f : RouteDecoder → RouteDecoder) : (mapRoute f s).progs = s.progs := rfl
@[simp] theorem mapRoute_store (f : RouteDecoder → RouteDecoder) : (mapRoute f s).store = s.store := rfl
@[simp] theorem mapRoute_engine (f : RouteDecoder → RouteDecoder) : (mapRoute f s).engine = s.engine := rfl
@[simp] theorem mapRoute_mgmt (f : RouteDecoder → RouteDecoder) : (mapRoute f s).mgmt = s.mgmt := rfl
@[simp] theorem mapRoute_pending (f : RouteDecoder → RouteDecoder) : (mapRoute f s).pending = s.pending := rfl

/-! ### mapPool -/

@[simp] theorem mapPool_clock (f : Pool → Pool) : (mapPool f s).clock = s.clock := rfl
@[simp] theorem mapPool_feed (f : Pool → Pool) : (mapPool f s).feed = s.feed := rfl
@[simp] theorem mapPool_route (f : Pool → Pool) : (mapPool f s).route = s.route := rfl
@[simp] theorem mapPool_pool (f : Pool → Pool) : (mapPool f s).pool = f s.pool := rfl
@[simp] theorem mapPool_outs (f : Pool → Pool) : (mapPool f s).outs = s.outs := rfl
@[simp] theorem mapPool_progs (f : Pool → Pool) : (mapPool f s).progs = s.progs := rfl
@[simp] theorem mapPool_store (f : Pool → Pool) : (mapPool f s).store = s.store := rfl
@[simp] theorem mapPool_engine (f : Pool → Pool) : (mapPool f s).engine = s.engine := rfl
@[simp] theorem mapPool_mgmt (f : Pool → Pool) : (mapPool f s).mgmt = s.mgmt := rfl
@[simp] theorem mapPool_pending (f : Pool → Pool) : (mapPool f s).pending = s.pending := rfl

/-! ### mapProgs -/

@[simp] theorem mapProgs_clock (f : ProgrammeTable → ProgrammeTable) : (mapProgs f s).clock = s.clock := rfl
@[simp] theorem mapProgs_feed (f : ProgrammeTable → ProgrammeTable) : (mapProgs f s).feed = s.feed := rfl
@[simp] theorem mapProgs_route (f : ProgrammeTable → ProgrammeTable) : (mapProgs f s).route = s.route := rfl
@[simp] theorem mapProgs_pool (f : ProgrammeTable → ProgrammeTable) : (mapProgs f s).pool = s.pool := rfl
@[simp] theorem mapProgs_outs (f : ProgrammeTable → ProgrammeTable) : (mapProgs f s).outs = s.outs := rfl
@[simp] theorem mapProgs_progs (f : ProgrammeTable → ProgrammeTable) : (mapProgs f s).progs = f s.progs := rfl
@[simp] theorem mapProgs_store (f : ProgrammeTable → ProgrammeTable) : (mapProgs f s).store = s.store := rfl
@[simp] theorem mapProgs_engine (f : ProgrammeTable → ProgrammeTable) : (mapProgs f s).engine = s.engine := rfl
@[simp] theorem mapProgs_mgmt (f : ProgrammeTable → ProgrammeTable) : (mapProgs f s).mgmt = s.mgmt := rfl
@[simp] theorem mapProgs_pending (f : ProgrammeTable → ProgrammeTable) : (mapProgs f s).pending = s.pending := rfl

/-! ### mapStore -/

@[simp] theorem mapStore_clock (f : SegmentStore → SegmentStore) : (mapStore f s).clock = s.clock := rfl
@[simp] theorem mapStore_feed (f : SegmentStore → SegmentStore) : (mapStore f s).feed = s.feed := rfl
@[simp] theorem mapStore_route (f : SegmentStore → SegmentStore) : (mapStore f s).route = s.route := rfl
@[simp] theorem mapStore_pool (f : SegmentStore → SegmentStore) : (mapStore f s).pool = s.pool := rfl
@[simp] theorem mapStore_outs (f : SegmentStore → SegmentStore) : (mapStore f s).outs = s.outs := rfl
@[simp] theorem mapStore_progs (f : SegmentStore → SegmentStore) : (mapStore f s).progs = s.progs := rfl
@[simp] theorem mapStore_store (f : SegmentStore → SegmentStore) : (mapStore f s).store = f s.store := rfl
@[simp] theorem mapStore_engine (f : SegmentStore → SegmentStore) : (mapStore f s).engine = s.engine := rfl
@[simp] theorem mapStore_mgmt (f : SegmentStore → SegmentStore) : (mapStore f s).mgmt = s.mgmt := rfl
@[simp] theorem mapStore_pending (f : SegmentStore → SegmentStore) : (mapStore f s).pending = s.pending := rfl

/-! ### mapEngine -/

@[simp] theorem mapEngine_clock (f : Engine → Engine) : (mapEngine f s).clock = s.clock := rfl
@[simp] theorem mapEngine_feed (f : Engine → Engine) : (mapEngine f s).feed = s.feed := rfl
@[simp] theorem mapEngine_route (f : Engine → Engine) : (mapEngine f s).route = s.route := rfl
@[simp] theorem mapEngine_pool (f : Engine → Engine) : (mapEngine f s).pool = s.pool := rfl
@[simp] theorem mapEngine_outs (f : Engine → Engine) : (mapEngine f s).outs = s.outs := rfl
@[simp] theorem mapEngine_progs (f : Engine → Engine) : (mapEngine f s).progs = s.progs := rfl
@[simp] theorem mapEngine_store (f : Engine → Engine) : (mapEngine f s).store = s.store := rfl
@[simp] theorem mapEngine_engine (f : Engine → Engine) : (mapEngine f s).engine = f s.engine := rfl
@[simp] theorem mapEngine_mgmt (f : Engine → Engine) : (mapEngine f s).mgmt = s.mgmt := rfl
@[simp] theorem mapEngine_pending (f : Engine → Engine) : (mapEngine f s).pending = s.pending := rfl

/-! ### mapMgmt -/

@[simp] theorem mapMgmt_clock (f : Management → Management) : (mapMgmt f s).clock = s.clock := rfl
@[simp] theorem mapMgmt_feed (f : Management → Management) : (mapMgmt f s).feed = s.feed := rfl
@[simp] theorem mapMgmt_route (f : Management → Management) : (mapMgmt f s).route = s.route := rfl
@[simp] theorem mapMgmt_pool (f : Management → Management) : (mapMgmt f s).pool = s.pool := rfl
@[simp] theorem mapMgmt_outs (f : Management → Management) : (mapMgmt f s).outs = s.outs := rfl
@[simp] theorem mapMgmt_progs (f : Management → Management) : (mapMgmt f s).progs = s.progs := rfl
@[simp] theorem mapMgmt_store (f : Management → Management) : (mapMgmt f s).store = s.store := rfl
@[simp] theorem mapMgmt_engine (f : Management → Management) : (mapMgmt f s).engine = s.engine := rfl
@[simp] theorem mapMgmt_mgmt (f : Management → Management) : (mapMgmt f s).mgmt = f s.mgmt := rfl
@[simp] theorem mapMgmt_pending (f : Management → Management) : (mapMgmt f s).pending = s.pending := rfl

/-! ### mapOut -/

@[simp] theorem mapOut_clock (k : Fin 4) (f : Output → Output) : (mapOut k f s).clock = s.clock := rfl
@[simp] theorem mapOut_feed (k : Fin 4) (f : Output → Output) : (mapOut k f s).feed = s.feed := rfl
@[simp] theorem mapOut_route (k : Fin 4) (f : Output → Output) : (mapOut k f s).route = s.route := rfl
@[simp] theorem mapOut_pool (k : Fin 4) (f : Output → Output) : (mapOut k f s).pool = s.pool := rfl
theorem mapOut_outs (k : Fin 4) (f : Output → Output) : (mapOut k f s).outs = s.outs.set k (f s.outs[k]) := rfl
@[simp] theorem mapOut_progs (k : Fin 4) (f : Output → Output) : (mapOut k f s).progs = s.progs := rfl
@[simp] theorem mapOut_store (k : Fin 4) (f : Output → Output) : (mapOut k f s).store = s.store := rfl
@[simp] theorem mapOut_engine (k : Fin 4) (f : Output → Output) : (mapOut k f s).engine = s.engine := rfl
@[simp] theorem mapOut_mgmt (k : Fin 4) (f : Output → Output) : (mapOut k f s).mgmt = s.mgmt := rfl
@[simp] theorem mapOut_pending (k : Fin 4) (f : Output → Output) : (mapOut k f s).pending = s.pending := rfl

@[simp] theorem mapOut_same (k : Fin 4) (f : Output → Output) :
    (mapOut k f s).outs[(k : Nat)] = f s.outs[(k : Nat)] := by
  simp [mapOut_outs]

theorem mapOut_other {j k : Fin 4} (h : j ≠ k) (f : Output → Output) :
    (mapOut k f s).outs[(j : Nat)] = s.outs[(j : Nat)] := by
  have h' : (k : Nat) ≠ j := fun e => h (Fin.ext e.symm)
  simp [mapOut_outs, h']

/-- What output `j` is after a change of output `k`. -/
theorem mapOut_get (j k : Fin 4) (f : Output → Output) :
    (mapOut k f s).outs[(j : Nat)] = if j = k then f s.outs[(k : Nat)] else s.outs[(j : Nat)] := by
  by_cases h : j = k
  · subst h; rw [if_pos rfl]; exact mapOut_same s j f
  · rw [if_neg h]; exact mapOut_other s h f

/-! ### Contexts -/

@[simp] theorem context_mapContext_same (c : Fin 16) (f : Context → Context) :
    context (mapContext c f s) c = f (context s c) := by
  simp [context, mapContext]

theorem context_mapContext_other {b c : Fin 16} (h : b ≠ c) (f : Context → Context) :
    context (mapContext c f s) b = context s b := by
  have h' : (c : Nat) ≠ b := fun e => h (Fin.ext e.symm)
  simp [context, mapContext, h']

/-- What context `b` is after a change of context `c`. -/
theorem context_mapContext (b c : Fin 16) (f : Context → Context) :
    context (mapContext c f s) b = if b = c then f (context s c) else context s b := by
  by_cases h : b = c
  · subst h; simp
  · simp [h, context_mapContext_other s h f]

/-! ### mapContext -/

@[simp] theorem mapContext_clock (c : Fin 16) (f : Context → Context) : (mapContext c f s).clock = s.clock := rfl
@[simp] theorem mapContext_feed (c : Fin 16) (f : Context → Context) : (mapContext c f s).feed = s.feed := rfl
@[simp] theorem mapContext_route (c : Fin 16) (f : Context → Context) : (mapContext c f s).route = s.route := rfl
@[simp] theorem mapContext_pool (c : Fin 16) (f : Context → Context) : (mapContext c f s).pool = s.pool := rfl
@[simp] theorem mapContext_outs (c : Fin 16) (f : Context → Context) : (mapContext c f s).outs = s.outs := rfl
@[simp] theorem mapContext_progs (c : Fin 16) (f : Context → Context) : (mapContext c f s).progs = s.progs := rfl
@[simp] theorem mapContext_store (c : Fin 16) (f : Context → Context) : (mapContext c f s).store = s.store := rfl
@[simp] theorem mapContext_mgmt (c : Fin 16) (f : Context → Context) : (mapContext c f s).mgmt = s.mgmt := rfl
@[simp] theorem mapContext_pending (c : Fin 16) (f : Context → Context) : (mapContext c f s).pending = s.pending := rfl

/-! ### countEngine -/

@[simp] theorem countEngine_clock (f : EngineCounters → EngineCounters) : (countEngine f s).clock = s.clock := rfl
@[simp] theorem countEngine_feed (f : EngineCounters → EngineCounters) : (countEngine f s).feed = s.feed := rfl
@[simp] theorem countEngine_route (f : EngineCounters → EngineCounters) : (countEngine f s).route = s.route := rfl
@[simp] theorem countEngine_pool (f : EngineCounters → EngineCounters) : (countEngine f s).pool = s.pool := rfl
@[simp] theorem countEngine_outs (f : EngineCounters → EngineCounters) : (countEngine f s).outs = s.outs := rfl
@[simp] theorem countEngine_progs (f : EngineCounters → EngineCounters) : (countEngine f s).progs = s.progs := rfl
@[simp] theorem countEngine_store (f : EngineCounters → EngineCounters) : (countEngine f s).store = s.store := rfl
@[simp] theorem countEngine_mgmt (f : EngineCounters → EngineCounters) : (countEngine f s).mgmt = s.mgmt := rfl
@[simp] theorem countEngine_pending (f : EngineCounters → EngineCounters) : (countEngine f s).pending = s.pending := rfl

/-! ### countPool -/

@[simp] theorem countPool_clock (f : PoolCounters → PoolCounters) : (countPool f s).clock = s.clock := rfl
@[simp] theorem countPool_feed (f : PoolCounters → PoolCounters) : (countPool f s).feed = s.feed := rfl
@[simp] theorem countPool_route (f : PoolCounters → PoolCounters) : (countPool f s).route = s.route := rfl
@[simp] theorem countPool_outs (f : PoolCounters → PoolCounters) : (countPool f s).outs = s.outs := rfl
@[simp] theorem countPool_progs (f : PoolCounters → PoolCounters) : (countPool f s).progs = s.progs := rfl
@[simp] theorem countPool_store (f : PoolCounters → PoolCounters) : (countPool f s).store = s.store := rfl
@[simp] theorem countPool_engine (f : PoolCounters → PoolCounters) : (countPool f s).engine = s.engine := rfl
@[simp] theorem countPool_mgmt (f : PoolCounters → PoolCounters) : (countPool f s).mgmt = s.mgmt := rfl
@[simp] theorem countPool_pending (f : PoolCounters → PoolCounters) : (countPool f s).pending = s.pending := rfl

/-! ### countProgs -/

@[simp] theorem countProgs_clock (f : ProgrammeCounters → ProgrammeCounters) : (countProgs f s).clock = s.clock := rfl
@[simp] theorem countProgs_feed (f : ProgrammeCounters → ProgrammeCounters) : (countProgs f s).feed = s.feed := rfl
@[simp] theorem countProgs_route (f : ProgrammeCounters → ProgrammeCounters) : (countProgs f s).route = s.route := rfl
@[simp] theorem countProgs_pool (f : ProgrammeCounters → ProgrammeCounters) : (countProgs f s).pool = s.pool := rfl
@[simp] theorem countProgs_outs (f : ProgrammeCounters → ProgrammeCounters) : (countProgs f s).outs = s.outs := rfl
@[simp] theorem countProgs_store (f : ProgrammeCounters → ProgrammeCounters) : (countProgs f s).store = s.store := rfl
@[simp] theorem countProgs_engine (f : ProgrammeCounters → ProgrammeCounters) : (countProgs f s).engine = s.engine := rfl
@[simp] theorem countProgs_mgmt (f : ProgrammeCounters → ProgrammeCounters) : (countProgs f s).mgmt = s.mgmt := rfl
@[simp] theorem countProgs_pending (f : ProgrammeCounters → ProgrammeCounters) : (countProgs f s).pending = s.pending := rfl

/-! ### countRoute -/

@[simp] theorem countRoute_clock (f : RouteCounters → RouteCounters) : (countRoute f s).clock = s.clock := rfl
@[simp] theorem countRoute_feed (f : RouteCounters → RouteCounters) : (countRoute f s).feed = s.feed := rfl
@[simp] theorem countRoute_pool (f : RouteCounters → RouteCounters) : (countRoute f s).pool = s.pool := rfl
@[simp] theorem countRoute_outs (f : RouteCounters → RouteCounters) : (countRoute f s).outs = s.outs := rfl
@[simp] theorem countRoute_progs (f : RouteCounters → RouteCounters) : (countRoute f s).progs = s.progs := rfl
@[simp] theorem countRoute_store (f : RouteCounters → RouteCounters) : (countRoute f s).store = s.store := rfl
@[simp] theorem countRoute_engine (f : RouteCounters → RouteCounters) : (countRoute f s).engine = s.engine := rfl
@[simp] theorem countRoute_mgmt (f : RouteCounters → RouteCounters) : (countRoute f s).mgmt = s.mgmt := rfl
@[simp] theorem countRoute_pending (f : RouteCounters → RouteCounters) : (countRoute f s).pending = s.pending := rfl

/-! ### countStore -/

@[simp] theorem countStore_clock (f : StoreCounters → StoreCounters) : (countStore f s).clock = s.clock := rfl
@[simp] theorem countStore_feed (f : StoreCounters → StoreCounters) : (countStore f s).feed = s.feed := rfl
@[simp] theorem countStore_route (f : StoreCounters → StoreCounters) : (countStore f s).route = s.route := rfl
@[simp] theorem countStore_pool (f : StoreCounters → StoreCounters) : (countStore f s).pool = s.pool := rfl
@[simp] theorem countStore_outs (f : StoreCounters → StoreCounters) : (countStore f s).outs = s.outs := rfl
@[simp] theorem countStore_progs (f : StoreCounters → StoreCounters) : (countStore f s).progs = s.progs := rfl
@[simp] theorem countStore_engine (f : StoreCounters → StoreCounters) : (countStore f s).engine = s.engine := rfl
@[simp] theorem countStore_mgmt (f : StoreCounters → StoreCounters) : (countStore f s).mgmt = s.mgmt := rfl
@[simp] theorem countStore_pending (f : StoreCounters → StoreCounters) : (countStore f s).pending = s.pending := rfl

/-! ### countMgmt -/

@[simp] theorem countMgmt_clock (f : ManagementCounters → ManagementCounters) : (countMgmt f s).clock = s.clock := rfl
@[simp] theorem countMgmt_feed (f : ManagementCounters → ManagementCounters) : (countMgmt f s).feed = s.feed := rfl
@[simp] theorem countMgmt_route (f : ManagementCounters → ManagementCounters) : (countMgmt f s).route = s.route := rfl
@[simp] theorem countMgmt_pool (f : ManagementCounters → ManagementCounters) : (countMgmt f s).pool = s.pool := rfl
@[simp] theorem countMgmt_outs (f : ManagementCounters → ManagementCounters) : (countMgmt f s).outs = s.outs := rfl
@[simp] theorem countMgmt_progs (f : ManagementCounters → ManagementCounters) : (countMgmt f s).progs = s.progs := rfl
@[simp] theorem countMgmt_store (f : ManagementCounters → ManagementCounters) : (countMgmt f s).store = s.store := rfl
@[simp] theorem countMgmt_engine (f : ManagementCounters → ManagementCounters) : (countMgmt f s).engine = s.engine := rfl
@[simp] theorem countMgmt_pending (f : ManagementCounters → ManagementCounters) : (countMgmt f s).pending = s.pending := rfl

/-! ### mapProgramme -/

@[simp] theorem mapProgramme_clock (p : Nat) (f : Programme → Programme) : (mapProgramme p f s).clock = s.clock := rfl
@[simp] theorem mapProgramme_feed (p : Nat) (f : Programme → Programme) : (mapProgramme p f s).feed = s.feed := rfl
@[simp] theorem mapProgramme_route (p : Nat) (f : Programme → Programme) : (mapProgramme p f s).route = s.route := rfl
@[simp] theorem mapProgramme_pool (p : Nat) (f : Programme → Programme) : (mapProgramme p f s).pool = s.pool := rfl
@[simp] theorem mapProgramme_outs (p : Nat) (f : Programme → Programme) : (mapProgramme p f s).outs = s.outs := rfl
@[simp] theorem mapProgramme_store (p : Nat) (f : Programme → Programme) : (mapProgramme p f s).store = s.store := rfl
@[simp] theorem mapProgramme_engine (p : Nat) (f : Programme → Programme) : (mapProgramme p f s).engine = s.engine := rfl
@[simp] theorem mapProgramme_mgmt (p : Nat) (f : Programme → Programme) : (mapProgramme p f s).mgmt = s.mgmt := rfl
@[simp] theorem mapProgramme_pending (p : Nat) (f : Programme → Programme) : (mapProgramme p f s).pending = s.pending := rfl

/-! ### mapSegment -/

@[simp] theorem mapSegment_clock (g : Nat) (f : Segment → Segment) : (mapSegment g f s).clock = s.clock := rfl
@[simp] theorem mapSegment_feed (g : Nat) (f : Segment → Segment) : (mapSegment g f s).feed = s.feed := rfl
@[simp] theorem mapSegment_route (g : Nat) (f : Segment → Segment) : (mapSegment g f s).route = s.route := rfl
@[simp] theorem mapSegment_pool (g : Nat) (f : Segment → Segment) : (mapSegment g f s).pool = s.pool := rfl
@[simp] theorem mapSegment_outs (g : Nat) (f : Segment → Segment) : (mapSegment g f s).outs = s.outs := rfl
@[simp] theorem mapSegment_progs (g : Nat) (f : Segment → Segment) : (mapSegment g f s).progs = s.progs := rfl
@[simp] theorem mapSegment_engine (g : Nat) (f : Segment → Segment) : (mapSegment g f s).engine = s.engine := rfl
@[simp] theorem mapSegment_mgmt (g : Nat) (f : Segment → Segment) : (mapSegment g f s).mgmt = s.mgmt := rfl
@[simp] theorem mapSegment_pending (g : Nat) (f : Segment → Segment) : (mapSegment g f s).pending = s.pending := rfl

/-! ### mapPort -/

@[simp] theorem mapPort_clock (p : Port) (f : PortState → PortState) : (mapPort p f s).clock = s.clock := rfl
@[simp] theorem mapPort_route (p : Port) (f : PortState → PortState) : (mapPort p f s).route = s.route := rfl
@[simp] theorem mapPort_pool (p : Port) (f : PortState → PortState) : (mapPort p f s).pool = s.pool := rfl
@[simp] theorem mapPort_outs (p : Port) (f : PortState → PortState) : (mapPort p f s).outs = s.outs := rfl
@[simp] theorem mapPort_progs (p : Port) (f : PortState → PortState) : (mapPort p f s).progs = s.progs := rfl
@[simp] theorem mapPort_store (p : Port) (f : PortState → PortState) : (mapPort p f s).store = s.store := rfl
@[simp] theorem mapPort_engine (p : Port) (f : PortState → PortState) : (mapPort p f s).engine = s.engine := rfl
@[simp] theorem mapPort_mgmt (p : Port) (f : PortState → PortState) : (mapPort p f s).mgmt = s.mgmt := rfl
@[simp] theorem mapPort_pending (p : Port) (f : PortState → PortState) : (mapPort p f s).pending = s.pending := rfl

/-! ### mapFeedState -/

@[simp] theorem mapFeedState_clock (x : Feed) (f : FeedState → FeedState) : (mapFeedState x f s).clock = s.clock := rfl
@[simp] theorem mapFeedState_route (x : Feed) (f : FeedState → FeedState) : (mapFeedState x f s).route = s.route := rfl
@[simp] theorem mapFeedState_pool (x : Feed) (f : FeedState → FeedState) : (mapFeedState x f s).pool = s.pool := rfl
@[simp] theorem mapFeedState_outs (x : Feed) (f : FeedState → FeedState) : (mapFeedState x f s).outs = s.outs := rfl
@[simp] theorem mapFeedState_progs (x : Feed) (f : FeedState → FeedState) : (mapFeedState x f s).progs = s.progs := rfl
@[simp] theorem mapFeedState_store (x : Feed) (f : FeedState → FeedState) : (mapFeedState x f s).store = s.store := rfl
@[simp] theorem mapFeedState_engine (x : Feed) (f : FeedState → FeedState) : (mapFeedState x f s).engine = s.engine := rfl
@[simp] theorem mapFeedState_mgmt (x : Feed) (f : FeedState → FeedState) : (mapFeedState x f s).mgmt = s.mgmt := rfl
@[simp] theorem mapFeedState_pending (x : Feed) (f : FeedState → FeedState) : (mapFeedState x f s).pending = s.pending := rfl

/-! ### countOut -/

@[simp] theorem countOut_clock (k : Fin 4) (f : OutputCounters → OutputCounters) : (countOut k f s).clock = s.clock := rfl
@[simp] theorem countOut_feed (k : Fin 4) (f : OutputCounters → OutputCounters) : (countOut k f s).feed = s.feed := rfl
@[simp] theorem countOut_route (k : Fin 4) (f : OutputCounters → OutputCounters) : (countOut k f s).route = s.route := rfl
@[simp] theorem countOut_pool (k : Fin 4) (f : OutputCounters → OutputCounters) : (countOut k f s).pool = s.pool := rfl
@[simp] theorem countOut_progs (k : Fin 4) (f : OutputCounters → OutputCounters) : (countOut k f s).progs = s.progs := rfl
@[simp] theorem countOut_store (k : Fin 4) (f : OutputCounters → OutputCounters) : (countOut k f s).store = s.store := rfl
@[simp] theorem countOut_engine (k : Fin 4) (f : OutputCounters → OutputCounters) : (countOut k f s).engine = s.engine := rfl
@[simp] theorem countOut_mgmt (k : Fin 4) (f : OutputCounters → OutputCounters) : (countOut k f s).mgmt = s.mgmt := rfl
@[simp] theorem countOut_pending (k : Fin 4) (f : OutputCounters → OutputCounters) : (countOut k f s).pending = s.pending := rfl

/-! ### Ports and feeds -/

/-- What port `q` is after a change of port `p`. -/
theorem portState_mapPort (p q : Port) (f : PortState → PortState) :
    portState (mapPort p f s).feed q = if q = p then f (portState s.feed p) else portState s.feed q := by
  cases p <;> cases q <;> rfl

/-- What feed `y` is after a change of feed `x`. -/
theorem feedState_mapFeedState (x y : Feed) (f : FeedState → FeedState) :
    feedState (mapFeedState x f s).feed y = if y = x then f (feedState s.feed x) else feedState s.feed y := by
  cases x <;> cases y <;> rfl

@[simp] theorem feedState_mapPort (p : Port) (x : Feed) (f : PortState → PortState) :
    feedState (mapPort p f s).feed x = feedState s.feed x := by
  cases p <;> cases x <;> rfl

@[simp] theorem portState_mapFeedState (x : Feed) (p : Port) (f : FeedState → FeedState) :
    portState (mapFeedState x f s).feed p = portState s.feed p := by
  cases x <;> cases p <;> rfl

end Sys2Proof.Machine
end

