-- ==== Sys2Proof/Laws/Table.lean ====
section
/-!
SUPPORT. Table.lean: reading after writing a table, and the canonical form that every write keeps.
-/

namespace Sys2Proof.Machine

variable {α : Type} [DecidableEq α] (d : α)

/-- The canonical form with every number above `lo`, as a proposition. -/
theorem tableWfFrom_cons (lo : Option Nat) (k : Nat) (v : α) (t : Table α) :
    tableWfFrom d lo ((k, v) :: t) = true ↔
      (∀ l, lo = some l → l < k) ∧ v ≠ d ∧ tableWfFrom d (some k) t = true := by
  cases lo <;> simp [tableWfFrom, and_assoc]

theorem tableWfFrom_weaken {l m : Nat} (h : l ≤ m) {t : Table α} (ht : tableWfFrom d (some m) t = true) :
    tableWfFrom d (some l) t = true := by
  cases t with
  | nil => rfl
  | cons e t =>
    obtain ⟨k, v⟩ := e
    rw [tableWfFrom_cons] at ht ⊢
    refine ⟨?_, ht.2⟩
    rintro l' ⟨rfl⟩
    have := ht.1 m rfl
    omega

theorem tableWfFrom_none {m : Nat} {t : Table α} (ht : tableWfFrom d (some m) t = true) : tableWfFrom d none t = true := by
  cases t with
  | nil => rfl
  | cons e t =>
    obtain ⟨k, v⟩ := e
    rw [tableWfFrom_cons] at ht ⊢
    exact ⟨by simp, ht.2⟩

theorem tableCons_wf {lo : Option Nat} {k : Nat} {v : α} {t : Table α} (hlo : ∀ l, lo = some l → l < k)
    (ht : tableWfFrom d (some k) t = true) : tableWfFrom d lo (tableCons d k v t) = true := by
  unfold tableCons
  split
  · cases lo with
    | none => exact tableWfFrom_none d ht
    | some l => exact tableWfFrom_weaken d (Nat.le_of_lt (hlo l rfl)) ht
  · rw [tableWfFrom_cons]; exact ⟨hlo, ‹_›, ht⟩

/-- A write keeps the canonical form. -/
theorem tablePut_wfFrom {lo : Option Nat} {k : Nat} {v : α} (hlo : ∀ l, lo = some l → l < k) {t : Table α}
    (ht : tableWfFrom d lo t = true) : tableWfFrom d lo (tablePut d t k v) = true := by
  induction t generalizing lo with
  | nil => exact tableCons_wf d hlo rfl
  | cons e t ih =>
    obtain ⟨k', v'⟩ := e
    rw [tableWfFrom_cons] at ht
    unfold tablePut
    split
    · exact tableCons_wf d hlo ((tableWfFrom_cons d _ _ _ _).2 ⟨by rintro l ⟨rfl⟩; assumption, ht.2⟩)
    · split
      · subst_vars; exact tableCons_wf d hlo ht.2.2
      · rw [tableWfFrom_cons]
        exact ⟨ht.1, ht.2.1, ih (by rintro l ⟨rfl⟩; omega) ht.2.2⟩

/-- A write keeps the canonical form. -/
theorem tablePut_wf {k : Nat} {v : α} {t : Table α} (ht : tableWf d t = true) : tableWf d (tablePut d t k v) = true :=
  tablePut_wfFrom d (by simp) ht

/-- Mapping every listed record keeps the canonical form. -/
theorem tableMap_wfFrom (f : α → α) {lo : Option Nat} {t : Table α} (ht : tableWfFrom d lo t = true) :
    tableWfFrom d lo (tableMap d f t) = true := by
  induction t generalizing lo with
  | nil => rfl
  | cons e t ih =>
    obtain ⟨k, v⟩ := e
    rw [tableWfFrom_cons] at ht
    exact tableCons_wf d ht.1 (ih ht.2.2)

/-- Mapping every listed record keeps the canonical form. -/
theorem tableMap_wf (f : α → α) {t : Table α} (ht : tableWf d t = true) : tableWf d (tableMap d f t) = true :=
  tableMap_wfFrom d f ht

/-- Below its lowest number a canonical table lists nothing. -/
theorem tableGet_below {t : Table α} {l j : Nat} (h : tableWfFrom d (some l) t = true) (hj : j ≤ l) : tableGet d t j = d := by
  cases t with
  | nil => rfl
  | cons e t =>
    obtain ⟨k, v⟩ := e
    rw [tableWfFrom_cons] at h
    have := h.1 l rfl
    simp [tableGet, show j < k by omega]

theorem tableGet_tableCons (k j : Nat) (v : α) {t : Table α} (ht : tableWfFrom d (some k) t = true) :
    tableGet d (tableCons d k v t) j = if j = k then v else tableGet d t j := by
  unfold tableCons
  by_cases hj : j = k
  · subst hj
    split
    · simp [tableGet_below d ht (Nat.le_refl j), *]
    · simp [tableGet]
  · split
    · simp [hj]
    · by_cases hlt : j < k
      · simp [tableGet, hlt, tableGet_below d ht (Nat.le_of_lt hlt)]
      · simp [tableGet, hlt, hj]

theorem tableGet_put_from {lo : Option Nat} {t : Table α} (ht : tableWfFrom d lo t = true) (k j : Nat) (v : α) :
    tableGet d (tablePut d t k v) j = if j = k then v else tableGet d t j := by
  induction t generalizing lo with
  | nil => exact tableGet_tableCons d k j v rfl
  | cons e t ih =>
    obtain ⟨k', v'⟩ := e
    rw [tableWfFrom_cons] at ht
    unfold tablePut
    split
    · rw [tableGet_tableCons d k j v ((tableWfFrom_cons d _ _ _ _).2 ⟨by rintro l ⟨rfl⟩; assumption, ht.2⟩)]
    · split
      · subst_vars
        rw [tableGet_tableCons d _ j v ht.2.2]
        by_cases hj : j = k'
        · simp [hj]
        · simp only [hj, if_false, tableGet]
          split
          · exact tableGet_below d ht.2.2 (by omega)
          · rfl
      · simp only [tableGet, ih ht.2.2]
        split
        · have : j ≠ k := by omega
          simp [this]
        · split
          · have : j ≠ k := by omega
            simp [this]
          · rfl

/-- Reading record `j` after writing record `k` of a canonical table. -/
theorem tableGet_put {t : Table α} (ht : tableWf d t = true) (k j : Nat) (v : α) :
    tableGet d (tablePut d t k v) j = if j = k then v else tableGet d t j :=
  tableGet_put_from d ht k j v

omit [DecidableEq α] in
/-- A record that is read as other than `d` is listed. -/
theorem tableGet_mem {t : Table α} {j : Nat} {v : α} (h : tableGet d t j = v) (hv : v ≠ d) : (j, v) ∈ t := by
  induction t with
  | nil => exact absurd h.symm hv
  | cons e t ih =>
    obtain ⟨k, w⟩ := e
    simp only [tableGet] at h
    split at h
    · exact absurd h.symm hv
    · split at h
      · subst_vars; simp
      · exact List.mem_cons_of_mem _ (ih h)

theorem tableGet_of_mem_from {lo : Option Nat} {t : Table α} (ht : tableWfFrom d lo t = true) {j : Nat} {v : α}
    (h : (j, v) ∈ t) : tableGet d t j = v ∧ (∀ l, lo = some l → l < j) := by
  induction t generalizing lo with
  | nil => cases h
  | cons e t ih =>
    obtain ⟨k, w⟩ := e
    rw [tableWfFrom_cons] at ht
    rcases List.mem_cons.1 h with he | he
    · cases he; exact ⟨by simp [tableGet], ht.1⟩
    · obtain ⟨h1, h2⟩ := ih ht.2.2 he
      have hk := h2 k rfl
      refine ⟨?_, fun l hl => Nat.lt_trans (ht.1 l hl) hk⟩
      simp [tableGet, show ¬ j < k by omega, show ¬ j = k by omega, h1]

/-- What a canonical table lists is what it reads as. -/
theorem tableGet_of_mem {t : Table α} (ht : tableWf d t = true) {j : Nat} {v : α} (h : (j, v) ∈ t) : tableGet d t j = v :=
  (tableGet_of_mem_from d ht h).1

theorem mem_tableCons {k j : Nat} {v w : α} {t : Table α} (h : (j, w) ∈ tableCons d k v t) : (j = k ∧ w = v) ∨ (j, w) ∈ t := by
  unfold tableCons at h
  split at h
  · exact .inr h
  · rcases List.mem_cons.1 h with he | he
    · cases he; exact .inl ⟨rfl, rfl⟩
    · exact .inr he

/-- What a written table lists was written or was listed before. -/
theorem mem_tablePut {t : Table α} {k j : Nat} {v w : α} (h : (j, w) ∈ tablePut d t k v) :
    (j = k ∧ w = v) ∨ (j, w) ∈ t := by
  induction t with
  | nil => exact mem_tableCons d h
  | cons e t ih =>
    obtain ⟨k', v'⟩ := e
    unfold tablePut at h
    split at h
    · exact mem_tableCons d h
    · split at h
      · rcases mem_tableCons d h with he | he
        · exact .inl he
        · exact .inr (List.mem_cons_of_mem _ he)
      · rcases List.mem_cons.1 h with he | he
        · cases he; exact .inr (by simp)
        · rcases ih he with he | he
          · exact .inl he
          · exact .inr (List.mem_cons_of_mem _ he)

/-! ### Records of the state -/

/-- Programme record `q` after a change of programme record `p`. -/
theorem programme_mapProgramme {s : State} (h : tableWf {} s.progs.records = true) (p q : Nat) (f : Programme → Programme) :
    programme (mapProgramme p f s) q = if q = p then f (programme s p) else programme s q :=
  tableGet_put (d := ({} : Programme)) h p q _

/-- Segment record `h` after a change of segment record `g`. -/
theorem segment_mapSegment {s : State} (hw : tableWf {} s.store.segments = true) (g h : Nat) (f : Segment → Segment) :
    segment (mapSegment g f s) h = if h = g then f (segment s g) else segment s h :=
  tableGet_put (d := ({} : Segment)) hw g h _

end Sys2Proof.Machine
end

