-- ==== Sys2Proof/Laws/Moves.lean ====
section
/-!
SUPPORT. Moves.lean: what the operations of the emission side, the pool, the engine and the event flags can do to the
state, said once: the relation Moves. Each operation has one lemma that it is a Moves, and each fact that every such
operation keeps follows once by induction over Moves.
-/

namespace Sys2Proof.Machine

/-! ### The steps of each block -/

/-- The configuration of an output that SET OUTPUT writes (R82). -/
def Output.config (o : Output) : Fin 4 × Nat × Nat × Nat × Fallback × Nat × Nat :=
  (o.multiplex, o.offset, o.tolerance, o.lateLimit, o.fallback, o.defaultRate, o.share)

/-- The configuration of a context that CONFIGURE CONTEXT writes (R139). -/
def Context.config (x : Context) : Nat × Nat × StartMode × Option Byte × Nat × List (Label × Label) × Nat × Bool :=
  (x.programme, x.priority, x.mode, x.filter, x.lead, x.labelMap, x.chainHead, x.rearm)

/-- An output keeps its configuration, its sync state and the bound of its frame queue (R84). -/
def OutStep (o o' : Output) : Prop :=
  o'.config = o.config ∧ o'.sync = o.sync ∧ o'.frameQueue.length ≤ max Config.frameQueueRoom o.frameQueue.length

/-- A sync state that an output may enter (R97): LOCKED and ACQUIRING while the clock is LOCKED or the output was there
before, HOLDOVER while the clock is in HOLDOVER. -/
def syncAllowed (mode : ClockMode) (old new : Sync) : Prop :=
  match new with
  | .freeRun => True
  | .muted => True
  | .acquiring => mode = .locked ∨ old = .locked
  | .locked => mode = .locked ∨ old = .acquiring
  | .holdover => mode = .holdover

/-- The Packet Pool keeps the canonical form of its buffers. -/
def PoolStep (p p' : Pool) : Prop := tableWf {} p.buffers = true → tableWf {} p'.buffers = true

/-- A programme record keeps what WRITE PROGRAMME writes (R107). -/
def ProgrammeStep (r r' : Programme) : Prop := r'.valid = r.valid ∧ r'.output = r.output ∧ r'.cueLabel = r.cueLabel

/-- The engine keeps its play entries and the configuration of its contexts. -/
def EngineStep (e e' : Engine) : Prop :=
  e'.entries = e.entries ∧ ∀ c : Fin 16, e'.contexts[(c : Nat)].config = e.contexts[(c : Nat)].config

/-- The Management Unit keeps its acceptance table, its control queue, its enable set and its reset cause; it keeps the
command in execution and the HOLD in force, or ends both; its report places stay within their bound (R165); and no event
flag is cleared (R169). -/
def MgmtStep (m m' : Management) : Prop :=
  m'.grants = m.grants ∧ m'.controlQueue = m.controlQueue ∧ m'.enabled = m.enabled ∧ m'.resetCause = m.resetCause ∧
    (m'.executing = m.executing ∧ m'.hold = m.hold ∨ m'.executing = none ∧ m'.hold = none) ∧
    m'.reportQueue.length + heldPlaces m' ≤ max Config.reportRoom (m.reportQueue.length + heldPlaces m) ∧
    ∀ f, hasFlag m.flags f = true → hasFlag m'.flags f = true

/-- What the inner operations can do, one primitive update after the other. -/
inductive Moves (s : State) : State → Prop where
  | refl : Moves s s
  | out {t} (k : Fin 4) (f : Output → Output) (h : OutStep t.outs[(k : Nat)] (f t.outs[(k : Nat)])) :
      Moves s t → Moves s (mapOut k f t)
  | sync {t} (k : Fin 4) (f : Output → Output) (hc : (f t.outs[(k : Nat)]).config = t.outs[(k : Nat)].config)
      (hq : (f t.outs[(k : Nat)]).frameQueue = t.outs[(k : Nat)].frameQueue)
      (h : syncAllowed t.clock.mode t.outs[(k : Nat)].sync (f t.outs[(k : Nat)]).sync) :
      Moves s t → Moves s (mapOut k f t)
  | pool {t} (f : Pool → Pool) (h : PoolStep t.pool (f t.pool)) : Moves s t → Moves s (mapPool f t)
  | programme {t} (p : Nat) (f : Programme → Programme) (h : ∀ r, ProgrammeStep r (f r)) :
      Moves s t → Moves s (mapProgramme p f t)
  | programmeCount {t} (f : ProgrammeCounters → ProgrammeCounters) : Moves s t → Moves s (countProgs f t)
  | uses {t} (g : Nat) (f : Segment → Nat) : Moves s t → Moves s (mapSegment g (fun x => { x with uses := f x }) t)
  | engine {t} (f : Engine → Engine) (h : EngineStep t.engine (f t.engine)) : Moves s t → Moves s (mapEngine f t)
  | mgmt {t} (f : Management → Management) (h : MgmtStep t.mgmt (f t.mgmt)) : Moves s t → Moves s (mapMgmt f t)

namespace Moves

theorem trans {s t u : State} (h1 : Moves s t) (h2 : Moves t u) : Moves s u := by
  induction h2 with
  | refl => exact h1
  | out k f h _ ih => exact .out k f h ih
  | sync k f hc hq h _ ih => exact .sync k f hc hq h ih
  | pool f h _ ih => exact .pool f h ih
  | programme p f h _ ih => exact .programme p f h ih
  | programmeCount f _ ih => exact .programmeCount f ih
  | uses g f _ ih => exact .uses g f ih
  | engine f h _ ih => exact .engine f h ih
  | mgmt f h _ ih => exact .mgmt f h ih

/-! ### What every Moves keeps -/

variable {s t : State}

theorem clock (h : Moves s t) : t.clock = s.clock := by induction h <;> simp_all

theorem feed (h : Moves s t) : t.feed = s.feed := by induction h <;> simp_all

theorem route (h : Moves s t) : t.route = s.route := by induction h <;> simp_all

theorem pending (h : Moves s t) : t.pending = s.pending := by induction h <;> simp_all

theorem dram (h : Moves s t) : t.store.dram = s.store.dram := by
  induction h <;> simp_all [mapSegment]

theorem storeContexts (h : Moves s t) : t.store.contexts = s.store.contexts := by
  induction h <;> simp_all [mapSegment]

theorem storeCounters (h : Moves s t) : t.store.counters = s.store.counters := by
  induction h <;> simp_all [mapSegment]

theorem entries (h : Moves s t) : t.engine.entries = s.engine.entries := by
  induction h with
  | engine f h _ ih => simp [h.1, ih]
  | _ => simp_all

theorem mgmtStep (h : Moves s t) : MgmtStep s.mgmt t.mgmt := by
  induction h with
  | refl => exact ⟨rfl, rfl, rfl, rfl, .inl ⟨rfl, rfl⟩, by omega, fun _ h => h⟩
  | mgmt f h _ ih =>
    obtain ⟨a1, a2, a3, a4, a5, a6, a7⟩ := ih
    obtain ⟨b1, b2, b3, b4, b5, b6, b7⟩ := h
    simp only [mapMgmt_mgmt]
    refine ⟨b1.trans a1, b2.trans a2, b3.trans a3, b4.trans a4, ?_, by omega, fun f hf => b7 f (a7 f hf)⟩
    rcases b5 with ⟨b, b'⟩ | b
    · rw [b, b']; exact a5
    · exact .inr b
  | _ => simpa using ‹_›

theorem config (h : Moves s t) (j : Fin 4) : t.outs[(j : Nat)].config = s.outs[(j : Nat)].config := by
  induction h with
  | refl => rfl
  | out k f h _ ih =>
    rw [mapOut_get]; split
    · subst_vars; exact h.1.trans ih
    · exact ih
  | sync k f h _ _ _ ih =>
    rw [mapOut_get]; split
    · subst_vars; exact h.trans ih
    · exact ih
  | _ => simpa using ‹_›

theorem frameQueue (h : Moves s t) (j : Fin 4) :
    t.outs[(j : Nat)].frameQueue.length ≤ max Config.frameQueueRoom s.outs[(j : Nat)].frameQueue.length := by
  induction h with
  | refl => omega
  | out k f h _ ih =>
    rw [mapOut_get]; split
    · subst_vars; have := h.2.2; omega
    · exact ih
  | sync k f _ hq _ _ ih =>
    rw [mapOut_get]; split
    · subst_vars; rw [hq]; exact ih
    · exact ih
  | _ => assumption

/-- The state of the outputs follows the clock (R97). -/
theorem sync_follows (h : Moves s t) (j : Fin 4)
    (hs : (s.outs[(j : Nat)].sync = .locked ∨ s.outs[(j : Nat)].sync = .acquiring → s.clock.mode = .locked) ∧
      (s.outs[(j : Nat)].sync = .holdover → s.clock.mode = .holdover)) :
    (t.outs[(j : Nat)].sync = .locked ∨ t.outs[(j : Nat)].sync = .acquiring → s.clock.mode = .locked) ∧
      (t.outs[(j : Nat)].sync = .holdover → s.clock.mode = .holdover) := by
  induction h with
  | refl => exact hs
  | out k f h _ ih =>
    rw [mapOut_get]; split
    · subst_vars; rw [h.2.1]; exact ih
    · exact ih
  | @sync t k f _ _ h ht ih =>
    rw [mapOut_get]; split
    · subst_vars
      rw [ht.clock] at h
      revert h ih
      cases (f t.outs[(k : Nat)]).sync <;> cases t.outs[(k : Nat)].sync <;> simp [syncAllowed] <;> intros <;> simp_all
    · exact ih
  | _ => simpa using ‹_›

theorem buffers (h : Moves s t) (hs : tableWf {} s.pool.buffers = true) : tableWf {} t.pool.buffers = true := by
  induction h with
  | refl => exact hs
  | pool f h _ ih => exact h ih
  | _ => simpa using ‹_›

theorem programmesWf (h : Moves s t) (hs : tableWf {} s.progs.records = true) : tableWf {} t.progs.records = true := by
  induction h with
  | refl => exact hs
  | programme p f h _ ih => exact tablePut_wf (d := ({} : Programme)) ih
  | programmeCount f _ ih => exact ih
  | _ => simpa using ‹_›

/-- What the Programme Table's commands write is kept (R107). -/
theorem programmeStep (h : Moves s t) (hs : tableWf {} s.progs.records = true) (p : Nat) :
    ProgrammeStep (Machine.programme s p) (Machine.programme t p) := by
  induction h with
  | refl => simp [ProgrammeStep]
  | @programme t q f h ht ih =>
    rw [programme_mapProgramme (ht.programmesWf hs)]
    split
    · subst_vars; have := h (Machine.programme t q); simp_all [ProgrammeStep]
    · exact ih
  | _ => simpa [Machine.programme, countProgs] using ‹_›

theorem segmentsWf (h : Moves s t) (hs : tableWf {} s.store.segments = true) : tableWf {} t.store.segments = true := by
  induction h with
  | refl => exact hs
  | uses g f _ ih => exact tablePut_wf (d := ({} : Segment)) ih
  | _ => simpa using ‹_›

/-- A segment record changes in its use count alone (R133). -/
theorem segmentUses (h : Moves s t) (hs : tableWf {} s.store.segments = true) (g : Nat) :
    Machine.segment t g = { Machine.segment s g with uses := (Machine.segment t g).uses } := by
  induction h with
  | refl => rfl
  | @uses t k f ht ih =>
    rw [segment_mapSegment (ht.segmentsWf hs)]
    split
    · subst_vars; rw [ih]
    · exact ih
  | _ => simpa [Machine.segment] using ‹_›

/-! ### Closing -/

/-- `Moves.trans` with the later part first. -/
theorem after {u : State} (h2 : Moves t u) (h1 : Moves s t) : Moves s u := h1.trans h2

theorem forAll {α : Type} {f : α → State → State} (hf : ∀ a s, Moves s (f a s)) (l : List α) (s : State) :
    Moves s (Machine.forAll l f s) := by
  unfold Machine.forAll
  induction l generalizing s with
  | nil => exact .refl
  | cons a l ih => exact (hf a s).trans (ih _)

end Moves

end Sys2Proof.Machine
end

