-- ==== Sys2Proof/Laws/Ops.lean ====
section
/-!
SUPPORT. Ops.lean: each operation of Flags, Pool, Programme, Insertion and Emission is a Moves.
-/

namespace Sys2Proof.Machine

namespace Moves

variable {s t : State}

theorem context (c : Fin 16) (f : Context → Context) (h : Moves s t)
    (hf : ∀ x, (f x).config = x.config := by intros; rfl) : Moves s (mapContext c f t) := by
  refine h.engine _ ⟨rfl, fun b => ?_⟩
  by_cases hb : b = c
  · subst hb; simpa using hf _
  · have h' : (c : Nat) ≠ b := fun e => hb (Fin.ext e.symm)
    simp [h']

theorem engineCount (f : EngineCounters → EngineCounters) (h : Moves s t) : Moves s (countEngine f t) :=
  h.engine _ ⟨rfl, fun _ => rfl⟩

/-- An update that keeps an output's configuration, sync state and frame queue. -/
theorem outPlain (k : Fin 4) (f : Output → Output) (h : Moves s t)
    (hf : ∀ o, (f o).config = o.config ∧ (f o).sync = o.sync ∧ (f o).frameQueue = o.frameQueue := by
      intros; exact ⟨rfl, rfl, rfl⟩) : Moves s (mapOut k f t) :=
  h.out k f ⟨(hf _).1, (hf _).2.1, by rw [(hf _).2.2]; exact Nat.le_max_right _ _⟩

theorem outCount (k : Fin 4) (f : OutputCounters → OutputCounters) (h : Moves s t) : Moves s (countOut k f t) :=
  h.outPlain k _

theorem poolCount (f : PoolCounters → PoolCounters) (h : Moves s t) : Moves s (countPool f t) :=
  h.pool _ fun hp => hp

/-- An update of the Management Unit that keeps its queues and its command in execution. -/
theorem mgmtPlain (f : Management → Management) (h : Moves s t)
    (hf : ∀ m, (f m).grants = m.grants ∧ (f m).controlQueue = m.controlQueue ∧ (f m).enabled = m.enabled ∧
      (f m).resetCause = m.resetCause ∧ (f m).executing = m.executing ∧ (f m).hold = m.hold ∧
      (f m).reportQueue = m.reportQueue ∧ (f m).flags = m.flags := by
        intros; exact ⟨rfl, rfl, rfl, rfl, rfl, rfl, rfl, rfl⟩) :
    Moves s (mapMgmt f t) := by
  obtain ⟨h1, h2, h3, h4, h5, h6, h7, h8⟩ := hf t.mgmt
  refine h.mgmt _ ⟨h1, h2, h3, h4, .inl ⟨h5, h6⟩, ?_, fun g hg => by rw [h8]; exact hg⟩
  simp only [heldPlaces, h5, h7]
  exact Nat.le_max_right _ _

theorem mgmtCount (f : ManagementCounters → ManagementCounters) (h : Moves s t) : Moves s (countMgmt f t) :=
  h.mgmtPlain _

/-- A report placed in a free place (R165). -/
theorem append (r : Report) (h : Moves s t) (hp : placeFree t.mgmt = true) : Moves s (appendReport r t) := by
  refine h.mgmt _ ⟨rfl, rfl, rfl, rfl, .inl ⟨rfl, rfl⟩, ?_, fun _ h => h⟩
  have hp : t.mgmt.reportQueue.length + heldPlaces t.mgmt < Config.reportRoom := by simpa [placeFree] using hp
  have hh : heldPlaces { t.mgmt with reportQueue := t.mgmt.reportQueue ++ [r] } = heldPlaces t.mgmt := rfl
  rw [hh]
  simp only [List.length_append, List.length_singleton]
  omega

theorem ite {p : Prop} [Decidable p] {u : State} (h1 : p → Moves s t) (h2 : ¬p → Moves s u) :
    Moves s (if p then t else u) := by
  split
  · exact h1 ‹_›
  · exact h2 ‹_›

end Moves

/-! ### Flags.lean -/

theorem placeAbandonReply_moves (s : State) : Moves s (placeAbandonReply s) := by
  unfold placeAbandonReply
  split
  · exact .refl
  · split
    · exact .append _ (.mgmtPlain _ .refl) ‹_›
    · exact .refl

theorem placeOwedReport_moves (s : State) : Moves s (placeOwedReport s) := by
  unfold placeOwedReport
  split
  · rename_i h
    exact .append _ (.mgmtPlain _ .refl) h.2
  · exact .refl

theorem givePlaces_moves (s : State) : Moves s (givePlaces s) :=
  (placeAbandonReply_moves s).trans (placeOwedReport_moves _)

theorem sendReport_moves (r : Report) (rest : List Report) {s : State} (h : s.mgmt.reportQueue = r :: rest) :
    Moves s (sendReport r rest s) := by
  unfold sendReport
  refine .pool _ (fun hp => hp) (.mgmt _ ⟨rfl, rfl, rfl, rfl, .inl ⟨rfl, rfl⟩, ?_, fun _ h => h⟩ .refl)
  simp only [heldPlaces, h, List.length_cons]
  omega

theorem sendCopy_moves (b : Nat) (s : State) : Moves s (sendCopy b s) := .pool _ (fun hp => hp) .refl

theorem choosePort_moves (s : State) : Moves s (choosePort s) := by
  unfold choosePort
  split
  · exact .refl
  · split
    · exact (givePlaces_moves _).after (sendReport_moves _ _ ‹_›)
    · split
      · exact sendCopy_moves _ _
      · exact .refl

theorem hasFlag_or (x y : FlagSet) (f : Flag) : hasFlag (x ||| y) f = (hasFlag x f || hasFlag y f) := by
  simp [hasFlag]

theorem hasFlag_flagBit (f : Flag) : hasFlag (flagBit f) f = true := by cases f <;> rfl

theorem setFlag_moves (f : Flag) (s : State) : Moves s (setFlag f s) := by
  unfold setFlag
  have h1 : Moves s (mapMgmt (fun m => { m with flags := m.flags ||| flagBit f }) s) :=
    .mgmt _ ⟨rfl, rfl, rfl, rfl, .inl ⟨rfl, rfl⟩, Nat.le_max_right _ _, fun g hg => by simp [hasFlag_or, hg]⟩ .refl
  split
  · exact .refl
  · dsimp only
    split
    · split
      · rename_i h
        exact (choosePort_moves _).after (.append _ (h1.mgmtCount _) h)
      · exact h1.mgmtPlain _
    · exact h1

/-- A flag that is set stands (R169). -/
theorem setFlag_hasFlag (f : Flag) (s : State) : hasFlag (setFlag f s).mgmt.flags f = true := by
  unfold setFlag
  have h : hasFlag (s.mgmt.flags ||| flagBit f) f = true := by simp [hasFlag_or, hasFlag_flagBit]
  split
  · assumption
  · dsimp only
    split
    · split
      · refine (choosePort_moves _).mgmtStep.2.2.2.2.2.2 f ?_
        exact h
      · exact h
    · exact h

/-- The command in execution ends together with the HOLD in force (R167). -/
theorem endHold_moves (status : Status) (s : State) : Moves s (endHold status s) := by
  unfold endHold
  split
  · exact .refl
  · rename_i h _
    unfold endCommand
    split
    · rename_i he
      simp only [mapMgmt_mgmt] at he
      exact .mgmt _ ⟨rfl, rfl, rfl, rfl, .inr ⟨he, rfl⟩, Nat.le_max_right _ _, fun _ h => h⟩ .refl
    · rename_i c he
      simp only [mapMgmt_mgmt] at he
      refine Moves.trans ?_ (choosePort_moves _)
      have : appendReport (replyTo c status (holdUnits h s)) (mapMgmt (fun m => { m with
          executing := none
          counters := { m.counters with repliesMade := bump m.counters.repliesMade } })
          (mapMgmt (fun m => { m with hold := none }) s)) =
        mapMgmt (fun m => { m with
          hold := none, executing := none, reportQueue := m.reportQueue ++ [replyTo c status (holdUnits h s)]
          counters := { m.counters with repliesMade := bump m.counters.repliesMade } }) s := rfl
      rw [this]
      refine .mgmt _ ⟨rfl, rfl, rfl, rfl, .inr ⟨rfl, rfl⟩, ?_, fun _ h => h⟩ .refl
      simp [heldPlaces, he]

theorem testHold_moves (s : State) : Moves s (testHold s) := by
  unfold testHold
  split
  · exact .refl
  · exact .ite (fun _ => endHold_moves _ _) (fun _ => .refl)

/-! ### Pool.lean -/

theorem releaseBuffer_moves (b : Nat) (s : State) : Moves s (releaseBuffer b s) := by
  unfold releaseBuffer
  dsimp only
  exact .ite (fun _ => .refl) fun _ => .ite (fun _ => .pool _ (fun hp => tablePut_wf (d := ({} : Buffer)) hp) .refl)
    (fun _ => .pool _ (fun hp => tablePut_wf (d := ({} : Buffer)) hp) .refl)

theorem releaseEntry_moves (kind : Removal) (e : Entry) (s : State) : Moves s (releaseEntry kind e s) :=
  (Moves.refl.poolCount _).trans (releaseBuffer_moves _ _)

theorem removeHead_moves (kind : Removal) (k : Fin 4) (s : State) : Moves s (removeHead kind k s) := by
  unfold removeHead
  split
  · exact .refl
  · exact (Moves.refl.outPlain k _).trans (releaseEntry_moves _ _ _)

theorem passHeads_moves (k : Fin 4) (p : Entry → Bool) (l : List Entry) (s : State) : Moves s (passHeads k p l s) := by
  induction l generalizing s with
  | nil => exact .refl
  | cons e l ih => exact .ite (fun _ => (removeHead_moves _ _ _).trans (ih _)) (fun _ => .refl)

theorem flushQueue_moves (k : Fin 4) (keep drop : List Entry) (s : State) : Moves s (flushQueue k keep drop s) :=
  (Moves.forAll (fun e s => releaseEntry_moves _ e s) drop s).outPlain k _
   

theorem refuseForRoom_moves (c : Candidate) (s : State) : Moves s (refuseForRoom c s) := by
  unfold refuseForRoom
  split
  · exact .ite (fun _ => Moves.refl.outCount _ _) (fun _ => Moves.refl.outCount _ _)
  · exact Moves.refl.poolCount _

theorem refuseForPool_moves (c : Candidate) (s : State) : Moves s (refuseForPool c s) := by
  unfold refuseForPool
  split
  · exact Moves.refl.outCount _ _
  · exact Moves.refl.poolCount _

theorem appendCopy_moves (b : Nat) (c : Candidate) (s : State) : Moves s (appendCopy b c s) := by
  unfold appendCopy
  split
  · exact Moves.refl.outPlain _ _
  · exact .pool _ (fun hp => hp) .refl

theorem claim_moves (pkt : Packet) (l : List Candidate) (s : State) : Moves s (claim pkt l s) := by
  unfold claim
  split
  · exact ((Moves.forAll refuseForPool_moves l s).poolCount _).trans (setFlag_moves _ _)
  · exact ((Moves.refl.pool _ fun hp => tablePut_wf (d := ({} : Buffer)) hp).trans
      (Moves.forAll (appendCopy_moves _) l _)).trans (choosePort_moves _)

theorem admission_moves (pkt : Packet) (l : List Candidate) (s : State) : Moves s (admission pkt l s) :=
  .ite (fun _ => Moves.forAll refuseForRoom_moves _ s)
    (fun _ => (Moves.forAll refuseForRoom_moves _ s).trans (claim_moves _ _ _))

/-! ### Programme.lean -/

theorem setOwner_moves (p : Nat) (c : Option (Fin 16)) (s : State) : Moves s (setOwner p c s) :=
  .programme p _ (fun _ => ⟨rfl, rfl, rfl⟩) .refl

theorem markDiscontinuity_moves (p : Nat) (s : State) : Moves s (markDiscontinuity p s) :=
  .programme p _ (fun _ => ⟨rfl, rfl, rfl⟩) .refl

theorem recordSample_moves (p : Nat) (start : Int) (v : Sample) (s : State) : Moves s (recordSample p start v s) :=
  by
  unfold recordSample
  exact .programme p _ (by intro r; exact ⟨rfl, rfl, rfl⟩) (.ite (fun _ => .programmeCount _ .refl) (fun _ => .refl))

theorem recordEntry_moves (k : Fin 4) (displ start : Int) (e : Entry) (s : State) :
    Moves s (recordEntry k displ start e s) := by
  unfold recordEntry
  dsimp only
  have h1 : Moves s (if displ = 0 then s else
      countProgs (fun c => { c with nonzeroDisplacements := bump c.nonzeroDisplacements }) s) :=
    .ite (fun _ => .refl) (fun _ => .programmeCount _ .refl)
  refine .ite (fun _ => ?_) (fun _ => .refl)
  split
  · exact (h1.programmeCount _).trans (recordSample_moves _ _ _ _)
  · exact h1.programmeCount _

theorem recordAdvert_moves (p : Nat) (start : Int) (offset : Sample) (stored : Packet) (s : State) :
    Moves s (recordAdvert p start offset stored s) :=
  .ite (fun _ => (Moves.refl.programmeCount _).trans (recordSample_moves _ _ _ _)) (fun _ => .refl)

/-! ### Insertion.lean -/

theorem setPosition_moves (c : Fin 16) (pos : Position) (s : State) : Moves s (setPosition c pos s) := by
  unfold setPosition
  refine Moves.context c _ ?_
  refine .ite (fun _ => ?_) (fun _ => ?_)
  all_goals
    have h1 : Moves s (if positionSegment s (context s c).position = positionSegment s pos then s else
        match positionSegment s (context s c).position with
        | some g => mapSegment g (fun x => { x with uses := x.uses - 1 }) s
        | none => s) := by
      refine .ite (fun _ => .refl) (fun _ => ?_)
      split
      · exact .uses _ (fun x => x.uses - 1) .refl
      · exact .refl
  · exact h1
  · split
    · exact .uses _ (fun x => x.uses + 1) h1
    · exact h1

theorem passOwnership_moves (p : Nat) (s : State) : Moves s (passOwnership p s) := setOwner_moves _ _ _

theorem relinquish_moves (c : Fin 16) (s : State) : Moves s (relinquish c s) :=
  .ite (fun _ => passOwnership_moves _ _) (fun _ => .refl)

theorem haltContext_moves (c : Fin 16) (r : HaltReason) (s : State) : Moves s (haltContext c r s) :=
  ((((setPosition_moves c .absent s).context c _).engineCount _).trans
    (setFlag_moves _ _)).trans (relinquish_moves _ _)

theorem leaveByStop_moves (c : Fin 16) (s : State) : Moves s (leaveByStop c s) :=
  ((setPosition_moves c .absent s).context c _).engineCount _

theorem stopActive_moves (l : List (Fin 16)) (s : State) : Moves s (stopActive l s) :=
  (Moves.forAll leaveByStop_moves l s).trans (Moves.forAll relinquish_moves l _)

theorem cueMissed_moves (s : State) : Moves s (cueMissed s) := (Moves.refl.engineCount _).trans (setFlag_moves _ _)

theorem offerSplice_moves (c : Fin 16) (x : Splice) (s : State) : Moves s (offerSplice c x s) :=
  .ite (fun _ => Moves.refl.context c _)
    (fun _ => (Moves.refl.context c _).trans (cueMissed_moves _))

theorem takeLatch_moves (c : Fin 16) (s : State) : Moves s (takeLatch c s) := by
  unfold takeLatch
  split
  · exact .refl
  · exact (Moves.refl.context c _).trans (offerSplice_moves _ _ _)

theorem dropSplice_moves (c : Fin 16) (s : State) : Moves s (dropSplice c s) := by
  unfold dropSplice
  split
  · exact .refl
  · exact (Moves.refl.context c _).trans (cueMissed_moves _)

theorem dropSplices_moves (k : Fin 4) (s : State) : Moves s (dropSplices k s) := Moves.forAll dropSplice_moves _ s

theorem dropPassedSplices_moves (k : Fin 4) (x : Point) (s : State) : Moves s (dropPassedSplices k x s) :=
  Moves.forAll dropSplice_moves _ s

theorem leaveByEnd_moves (c : Fin 16) (s : State) : Moves s (leaveByEnd c s) :=
  (((setPosition_moves c .absent s).context c _).engineCount _).trans
    (setFlag_moves _ _)

theorem rearmLatch_moves (c : Fin 16) (s : State) : Moves s (rearmLatch c s) :=
  .ite (fun _ => takeLatch_moves _ _) (fun _ => .refl)

theorem endBreaks_moves (k : Fin 4) (s : State) : Moves s (endBreaks k s) :=
  ((Moves.forAll leaveByEnd_moves _ s).trans (Moves.forAll relinquish_moves _ _)).trans (Moves.forAll rearmLatch_moves _ _)

theorem workOffset_moves (start : Int) (c : Fin 16) (s : State) : Moves s (workOffset start c s) := by
  unfold workOffset
  dsimp only
  split
  · exact (Moves.refl.programmeCount _).context c _
  · exact Moves.context c _
      (((Moves.refl.programmeCount _).programmeCount _).trans (markDiscontinuity_moves _ _))
  · exact Moves.context c _
      (((Moves.refl.programmeCount _).programmeCount _).trans (markDiscontinuity_moves _ _))

theorem beginBreak_moves (c : Fin 16) (s : State) : Moves s (beginBreak c s) :=
  (Moves.refl.context c _).engineCount _

theorem settleOwner_moves (l : List (Fin 16)) (p : Nat) (s : State) : Moves s (settleOwner l p s) := by
  unfold settleOwner
  split
  · exact .refl
  · exact setOwner_moves _ _ _
  · exact .ite (fun _ => (Moves.refl.engineCount _).trans (setOwner_moves _ _ _)) (fun _ => .refl)

theorem enterHead_moves (c : Fin 16) (s : State) : Moves s (enterHead c s) := by
  unfold enterHead
  split
  · exact haltContext_moves _ _ _
  · exact setPosition_moves _ _ _

theorem activate_moves (k : Fin 4) (x : Point) (start : Int) (s : State) : Moves s (activate k x start s) :=
  ((((Moves.forAll beginBreak_moves _ s).trans (Moves.forAll (workOffset_moves start) _ _)).trans
    (Moves.forAll (settleOwner_moves _) _ _)).trans (Moves.forAll enterHead_moves _ _))

theorem draw_moves (c : Fin 16) (s : State) : Moves s (draw c s).2 := by
  unfold draw
  split
  · exact .refl
  · exact .refl
  · dsimp only
    split
    · exact (Moves.refl.engineCount _).trans (setPosition_moves _ _ _)
    · exact (Moves.refl.engineCount _).trans (setPosition_moves _ _ _)
    · exact (Moves.refl.engineCount _).trans (haltContext_moves _ _ _)

theorem drawOwner_moves (n p : Nat) (s : State) : Moves s (drawOwner n p s).2 := by
  induction n generalizing s with
  | zero => exact .refl
  | succ n ih =>
    unfold drawOwner
    split
    · exact .refl
    · rename_i c _
      have hd := draw_moves c s
      split
      · rename_i h; rw [h] at hd; dsimp only at hd ⊢
        exact (hd.context c _).engineCount _
      · rename_i h; rw [h] at hd; dsimp only at hd ⊢
        exact (hd.context c _).engineCount _
      · rename_i h; rw [h] at hd
        exact hd.trans (ih _)

theorem drawShadow_moves (c : Fin 16) (s : State) : Moves s (drawShadow c s) := by
  unfold drawShadow
  have hd := draw_moves c s
  split
  · rename_i h; rw [h] at hd
    exact (hd.context c _).engineCount _
  · rename_i h; rw [h] at hd
    exact hd.context c _
  · rename_i h; rw [h] at hd; exact hd

theorem decideProgramme_moves (p : Nat) (s : State) : Moves s (decideProgramme p s).2 := by
  unfold decideProgramme
  have hd := drawOwner_moves 17 p s
  split
  · rename_i h; rw [h] at hd; exact hd
  · rename_i h; rw [h] at hd; exact hd.trans (Moves.forAll drawShadow_moves _ _)

theorem countSlots_moves (k : Fin 4) (due : Option Nat) (s : State) : Moves s (countSlots k due s) :=
  Moves.forAll (fun c s => Moves.refl.context c _) _ s

theorem reportSlot_moves (k : Fin 4) (due : Option Nat) (s : State) : Moves s (reportSlot k due s) :=
  (endBreaks_moves _ _).after (countSlots_moves _ _ _)

theorem outCue_moves (q : Cue) (c : Fin 16) (s : State) : Moves s (outCue q c s) := by
  unfold outCue
  refine .ite (fun _ => ?_) (fun _ => ?_)
  · exact (Moves.ite (fun _ => Moves.refl.engineCount _) (fun _ => .refl)).trans (offerSplice_moves _ _ _)
  · exact (Moves.ite (fun _ => Moves.refl.engineCount _) (fun _ => .refl)).context c _
     

theorem cancelCue_moves (id : BitVec 16) (c : Fin 16) (s : State) : Moves s (cancelCue id c s) := by
  unfold cancelCue
  have h1 : Moves s (if ((Machine.context s c).splice.bind fun y => y.id) = some id then
      countCancel (mapContext c (fun x => { x with splice := none }) s) else s) :=
    .ite (fun _ => (Moves.refl.context c _).engineCount _) (fun _ => .refl)
  exact .ite (fun _ => (h1.context c _).engineCount _) (fun _ => h1)

theorem takeCue_moves (p : Nat) (pkt : Packet) (s : State) : Moves s (takeCue p pkt s) := by
  unfold takeCue
  split
  · exact Moves.refl.engineCount _
  · dsimp only
    split
    · exact (Moves.ite (fun _ => (Moves.refl.engineCount _).engineCount _) (fun _ => Moves.refl.engineCount _)).trans
        (Moves.forAll (outCue_moves _) _ _)
    · exact (Moves.ite (fun _ => (Moves.refl.engineCount _).engineCount _) (fun _ => Moves.refl.engineCount _)).trans
        (Moves.forAll (cancelCue_moves _) _ _)

end Sys2Proof.Machine
end

