-- ==== Sys2Proof/Laws/Emission.lean ====
section
/-!
SUPPORT. Emission.lean: each operation of Emission.lean is a Moves, and what each change of sync state leaves.
-/

namespace Sys2Proof.Machine

/-! ### Changes of sync state -/

theorem changeSync_moves (k : Fin 4) (new : Sync) (s : State)
    (h : syncAllowed s.clock.mode s.outs[(k : Nat)].sync new) : Moves s (changeSync k new s) := by
  unfold changeSync
  refine .ite (fun _ => .refl) (fun _ => ?_)
  have h1 : Moves s (setFlag .outputState (countMgmt (fun c => { c with
      outputChanges := c.outputChanges.set k (bump c.outputChanges[k]) })
      (mapOut k (fun o => { o with
        sync := new, position := if (new == .locked || new == .holdover) then o.position else none }) s))) :=
    (setFlag_moves _ _).after (Moves.mgmtCount _ (.sync k _ rfl rfl h .refl))
  exact .ite (fun _ => h1) (fun _ => (dropSplices_moves _ _).after h1)

theorem discardHead_moves (k : Fin 4) (s : State) : Moves s (discardHead k s) := by
  unfold discardHead
  refine .out k _ ⟨rfl, rfl, ?_⟩ .refl
  simp only [List.length_tail]
  omega

theorem discardRecords_moves (k : Fin 4) (s : State) : Moves s (discardRecords k s) := by
  unfold discardRecords
  exact .out k _ ⟨rfl, rfl, Nat.zero_le _⟩ .refl

theorem enterFreeRun_moves (k : Fin 4) (anchor : Int) (s : State) : Moves s (enterFreeRun k anchor s) := by
  unfold enterFreeRun
  exact (changeSync_moves k .freeRun _ trivial).after (.outPlain k _ (discardRecords_moves k s))

theorem enterMuted_moves (k : Fin 4) (cause : MuteCause) (s : State) : Moves s (enterMuted k cause s) := by
  unfold enterMuted
  exact (changeSync_moves k .muted _ trivial).after
    (.outPlain k _ ((discardRecords_moves k _).after (flushQueue_moves k _ _ s)))

theorem seek_moves (k : Fin 4) (l : List FrameRecord) (s : State) : Moves s (seek k l s) := by
  induction l generalizing s with
  | nil => exact .refl
  | cons r l ih => exact .ite (fun _ => (ih _).after (discardHead_moves _ _)) (fun _ => .outPlain k _ .refl)

/-! ### What an operation leaves of the sync states -/

theorem setFlag_outs (f : Flag) (s : State) : (setFlag f s).outs = s.outs := by
  have hc : ∀ s : State, (choosePort s).outs = s.outs := by
    intro s
    have hg : ∀ s : State, (givePlaces s).outs = s.outs := by
      intro s
      have ha : (placeAbandonReply s).outs = s.outs := by
        unfold placeAbandonReply
        repeat (first | rfl | split)
      unfold givePlaces placeOwedReport
      split
      · exact ha
      · exact ha
    unfold choosePort
    split
    · rfl
    · split
      · rw [hg]; rfl
      · split <;> rfl
  unfold setFlag
  split
  · rfl
  · dsimp only
    split
    · split
      · unfold placeReport; rw [hc]; rfl
      · rfl
    · rfl

theorem forAll_outs {α : Type} {f : α → State → State} (hf : ∀ a s, (f a s).outs = s.outs) (l : List α) (s : State) :
    (forAll l f s).outs = s.outs := by
  unfold forAll
  induction l generalizing s with
  | nil => rfl
  | cons a l ih => exact (ih _).trans (hf a s)

theorem dropSplices_outs (k : Fin 4) (s : State) : (dropSplices k s).outs = s.outs :=
  forAll_outs (fun c s => by
    unfold dropSplice
    split
    · rfl
    · unfold cueMissed; rw [setFlag_outs]; rfl) _ s

/-- After a change of sync state the output is in the new state, and the others keep theirs (R102). -/
theorem changeSync_sync (k j : Fin 4) (new : Sync) (s : State) :
    (changeSync k new s).outs[(j : Nat)].sync = if j = k then new else s.outs[(j : Nat)].sync := by
  unfold changeSync
  split
  · split
    · subst_vars; simp_all
    · rfl
  · dsimp only
    split <;>
    · simp only [dropSplices_outs, setFlag_outs, countMgmt_outs, mapOut_get]
      split <;> rfl

theorem releaseEntry_outs (kind : Removal) (e : Entry) (s : State) : (releaseEntry kind e s).outs = s.outs := by
  unfold releaseEntry releaseBuffer
  dsimp only
  split
  · rfl
  · split <;> rfl

theorem flushQueue_sync (k j : Fin 4) (keep drop : List Entry) (s : State) :
    (flushQueue k keep drop s).outs[(j : Nat)].sync = s.outs[(j : Nat)].sync := by
  unfold flushQueue
  rw [mapOut_get, forAll_outs (fun e s => releaseEntry_outs _ e s)]
  split <;> simp_all

theorem discardRecords_sync (k j : Fin 4) (s : State) :
    (discardRecords k s).outs[(j : Nat)].sync = s.outs[(j : Nat)].sync := by
  unfold discardRecords
  rw [mapOut_get]
  split <;> simp_all

/-- An output that enters FREE_RUN is there, and the others keep their state (R96). -/
theorem enterFreeRun_sync (k j : Fin 4) (anchor : Int) (s : State) :
    (enterFreeRun k anchor s).outs[(j : Nat)].sync = if j = k then .freeRun else s.outs[(j : Nat)].sync := by
  unfold enterFreeRun
  rw [changeSync_sync]
  split
  · rfl
  · rw [mapOut_other _ ‹_›, discardRecords_sync]

/-- An output that enters MUTED is there, and the others keep their state (R101). -/
theorem enterMuted_sync (k j : Fin 4) (cause : MuteCause) (s : State) :
    (enterMuted k cause s).outs[(j : Nat)].sync = if j = k then .muted else s.outs[(j : Nat)].sync := by
  unfold enterMuted
  rw [changeSync_sync]
  split
  · rfl
  · rw [mapOut_other _ ‹_›, discardRecords_sync, flushQueue_sync]

theorem enterAcquiring_moves (k : Fin 4) (s : State)
    (h : s.clock.mode = .locked ∨ s.outs[(k : Nat)].sync = .locked) : Moves s (enterAcquiring k s) := by
  unfold enterAcquiring
  refine (seek_moves k _ _).after ?_
  refine (changeSync_moves k .acquiring _ ?_).after (.outPlain k _ (flushQueue_moves k _ _ s))
  have hm := Moves.outPlain k (fun o => { o with current := none, waiting := false, lateCount := 0, muteCause := none })
    (flushQueue_moves k
      (sendingEntry s.outs[k] ++ (waitingEntries s.outs[k]).drop (unclaimedEntries s.outs[k]).length)
      (unclaimedEntries s.outs[k]) s)
  refine h.imp (fun h => hm.clock ▸ h) (fun h => ?_)
  simp only [mapOut_same, flushQueue_sync]
  exact h

/-- The sync state that a change of the clock's state brings an output to (R100). -/
def syncAfter (old new : ClockMode) (fallback : Fallback) (x : Sync) : Sync :=
  match old, new, x with
  | .locked, .holdover, .locked => .holdover
  | .locked, .holdover, .acquiring => .freeRun
  | .holdover, .locked, .holdover => .locked
  | .expired, .locked, .holdover => .locked
  | .holdover, .expired, .holdover => match fallback with | .mute => .muted | .freeRun => .freeRun
  | _, _, _ => x

theorem followClock_moves (old new : ClockMode) (k : Fin 4) (s : State) (h : s.clock.mode = new) :
    Moves s (followClock old new k s) := by
  unfold followClock
  split
  · exact changeSync_moves _ _ _ h
  · exact enterFreeRun_moves _ _ _
  · exact changeSync_moves _ _ _ (.inl h)
  · exact changeSync_moves _ _ _ (.inl h)
  · split
    · exact enterMuted_moves _ _ _
    · exact enterFreeRun_moves _ _ _
  · exact .refl

/-- Each output changes its sync state as R100's table gives, and the others keep theirs. -/
theorem followClock_sync (old new : ClockMode) (k j : Fin 4) (s : State) :
    (followClock old new k s).outs[(j : Nat)].sync =
      if j = k then syncAfter old new s.outs[(k : Nat)].fallback s.outs[(k : Nat)].sync
      else s.outs[(j : Nat)].sync := by
  generalize ht : followClock old new k s = t
  unfold followClock at ht
  simp only [Fin.getElem_fin] at ht
  split at ht
  · rename_i hs; subst ht; simp only [changeSync_sync, syncAfter, hs]
  · rename_i hs; subst ht; simp only [enterFreeRun_sync, syncAfter, hs]
  · rename_i hs; subst ht; simp only [changeSync_sync, syncAfter, hs]
  · rename_i hs; subst ht; simp only [changeSync_sync, syncAfter, hs]
  · rename_i hs
    split at ht <;> rename_i hf <;> subst ht <;> simp only [enterMuted_sync, enterFreeRun_sync, syncAfter, hs, hf]
  · subst ht
    by_cases hj : j = k
    · subst hj
      rw [if_pos rfl]
      unfold syncAfter
      split <;> simp_all
    · rw [if_neg hj]

theorem handClockMode_moves (old new : ClockMode) (s : State) (h : s.clock.mode = new) :
    Moves s (handClockMode old new s) := by
  unfold handClockMode forAll allOutputs
  simp only [List.foldl]
  have h0 := followClock_moves old new 0 s h
  have h1 := followClock_moves old new 1 _ (h0.clock ▸ h)
  have h2 := followClock_moves old new 2 _ ((h0.trans h1).clock ▸ h)
  have h3 := followClock_moves old new 3 _ (((h0.trans h1).trans h2).clock ▸ h)
  exact ((h0.trans h1).trans h2).trans h3

/-! ### Intake framing -/

theorem makeRecord_moves (k : Fin 4) (r : FrameRecord) (s : State)
    (h : s.outs[(k : Nat)].frameQueue.length < Config.frameQueueRoom) : Moves s (makeRecord k r s) := by
  unfold makeRecord
  refine .out k _ ⟨rfl, rfl, ?_⟩ .refl
  simp only [List.length_append, List.length_singleton]
  omega

theorem dealWithRecord_moves (k : Fin 4) (s : State) : Moves s (dealWithRecord k s) := by
  unfold dealWithRecord
  dsimp only
  split
  · exact .ite (fun h => enterAcquiring_moves _ _ (.inl h)) (fun _ => discardRecords_moves _ _)
  · exact .ite (fun _ => .refl) (fun _ => seek_moves _ _ _)
  · exact .refl
  · exact .refl
  · exact .ite (fun h => enterAcquiring_moves _ _ (.inl h.2)) (fun _ => discardRecords_moves _ _)

theorem takeTiming_moves (x : TimingPacket) (k : Fin 4) (s : State) : Moves s (takeTiming x k s) := by
  unfold takeTiming
  dsimp only
  exact .ite (fun _ => .refl) fun _ => .ite (fun _ => .outCount _ _ .refl) fun _ =>
    .ite (fun _ => .outCount _ _ .refl) fun h =>
      (dealWithRecord_moves _ _).after (makeRecord_moves _ _ _ (Nat.lt_of_not_le h))

theorem frameCopy_moves (k : Fin 4) (s : State) : Moves s (frameCopy k s).2 := by
  unfold frameCopy
  dsimp only
  split
  · dsimp only; exact .outCount _ _ .refl
  · split
    · exact .refl
    · split <;> dsimp only
      · exact .outPlain k _ .refl
      · exact .outCount _ _ .refl

/-! ### Slots -/

theorem endSlot_moves (k : Fin 4) (s : State) : Moves s (endSlot k s) := by
  unfold endSlot
  split
  · exact .refl
  · exact .outPlain k _ (.ite (fun _ => removeHead_moves _ _ _) (fun _ => .refl))

theorem takeSlot_moves (k : Fin 4) (passed sends : Bool) (pkt : Packet) (s : State) :
    Moves s (takeSlot k passed sends pkt s) := by
  unfold takeSlot
  split
  · exact .refl
  · exact .outPlain k _ .refl

theorem fillSlot_moves (k : Fin 4) (passed : Bool) (s : State) : Moves s (fillSlot k passed s) :=
  (takeSlot_moves _ _ _ _ _).after (.ite (fun _ => .refl) (fun _ => .outCount _ _ .refl))

theorem sendEntry_moves (k : Fin 4) (passed : Bool) (displ start : Int) (e : Entry) (s : State) :
    Moves s (sendEntry k passed displ start e s) :=
  .ite (fun _ => (takeSlot_moves _ _ _ _ _).after (removeHead_moves _ _ _))
    (fun _ => (takeSlot_moves _ _ _ _ _).after (.outCount _ _ (recordEntry_moves _ _ _ _ _)))

theorem sendAdvert_moves (k : Fin 4) (passed : Bool) (p : Nat) (start : Int) (offset : Sample) (stored : Packet)
    (label : Label) (s : State) : Moves s (sendAdvert k passed p start offset stored label s) :=
  (takeSlot_moves _ _ _ _ _).after ((removeHead_moves _ _ _).after
    (.ite (fun _ => .refl) (fun _ => recordAdvert_moves _ _ _ _ _)))

theorem carryEntry_moves (k : Fin 4) (passed : Bool) (displ start : Int) (e : Entry) (s : State) :
    Moves s (carryEntry k passed displ start e s).2 := by
  unfold carryEntry
  split
  · exact sendEntry_moves _ _ _ _ _ _
  · rename_i p _
    split
    · have hd := decideProgramme_moves p s
      split <;> rename_i h <;> rw [h] at hd <;> dsimp only at hd ⊢
      · exact (sendEntry_moves _ _ _ _ _ _).after hd
      · exact (fillSlot_moves _ _ _).after ((removeHead_moves _ _ _).after hd)
      · exact (sendAdvert_moves _ _ _ _ _ _ _ _).after hd
    · exact sendEntry_moves _ _ _ _ _ _

theorem carryFrame_moves (k : Fin 4) (passed : Bool) (x : Point) (start : Int) (c : Current) (s : State) :
    Moves s (carryFrame k passed x start c s).2 := by
  unfold carryFrame
  split
  · exact fillSlot_moves _ _ _
  · split
    · exact carryEntry_moves _ _ _ _ _ _
    · exact fillSlot_moves _ _ _

theorem frameSlot_moves (k : Fin 4) (passed : Bool) (start : Int) (c : Current) (s : State) :
    Moves s (frameSlot k passed start c s) := by
  unfold frameSlot
  exact (reportSlot_moves _ _ _).after ((carryFrame_moves _ _ _ _ _ _).after ((passHeads_moves _ _ _ _).after
    ((activate_moves _ _ _ _).after ((dropPassedSplices_moves _ _ _).after (.outPlain k _ .refl)))))

theorem plainFill_moves (k : Fin 4) (passed : Bool) (s : State) : Moves s (plainFill k passed s) :=
  (reportSlot_moves _ _ _).after (fillSlot_moves _ _ _)

theorem freeSlot_moves (k : Fin 4) (passed : Bool) (start : Int) (s : State) : Moves s (freeSlot k passed start s) := by
  unfold freeSlot
  refine (reportSlot_moves _ _ _).after ?_
  split
  · exact fillSlot_moves _ _ _
  · exact carryEntry_moves _ _ _ _ _ _

/-! ### Reconciliation -/

theorem beginFrame_moves (k : Fin 4) (r : FrameRecord) (start displ : Int) (late : Bool) (s : State) :
    Moves s (beginFrame k r start displ late s) := by
  unfold beginFrame
  refine .out k _ ⟨rfl, rfl, ?_⟩ .refl
  simp only [List.length_tail]
  omega

theorem startFrame_moves (k : Fin 4) (r : FrameRecord) (start displ : Int) (s : State) :
    Moves s (startFrame k r start displ s) := .outPlain k _ (beginFrame_moves _ _ _ _ _ _)

theorem startFrame_sync (k : Fin 4) (r : FrameRecord) (start displ : Int) (s : State) :
    (startFrame k r start displ s).outs[(k : Nat)].sync = s.outs[(k : Nat)].sync := by
  simp [startFrame, beginFrame]

theorem lateRecord_moves (k : Fin 4) (r : FrameRecord) (p : Int) (s : State) : Moves s (lateRecord k r p s) := by
  unfold lateRecord
  dsimp only
  have h1 : Moves s (setFlag .lateFrame (mapOut k (fun o => { o with
      lateCount := min (s.outs[k].lateCount + 1) 255
      counters := { o.counters with lateFrames := bump o.counters.lateFrames } }) s)) :=
    (setFlag_moves _ _).after (.outPlain k _ .refl)
  refine .ite (fun _ => .ite (fun h => ?_) (fun _ => ?_)) (fun _ => (beginFrame_moves _ _ _ _ _ _).after h1)
  · refine (enterAcquiring_moves _ _ (.inr ?_)).after ((discardHead_moves _ _).after h1)
    simp only [discardHead, mapOut_same]
    exact h
  · exact .outPlain k _ ((enterFreeRun_moves _ _ _).after h1)

theorem reconcile_moves (k : Fin 4) (p : Int) (s : State) : Moves s (reconcile k p s) := by
  unfold reconcile
  refine .ite (fun _ => ?_) (fun _ => .refl)
  have h1 : Moves s (endFrame k s) := .outPlain k _ .refl
  refine Moves.after ?_ h1
  unfold reconcileAt
  split
  · exact .refl
  · exact .ite (fun _ => lateRecord_moves _ _ _ _) fun _ => .ite (fun _ => startFrame_moves _ _ _ _ _)
      (fun _ => .outPlain k _ .refl)

theorem decideSlot_moves (k : Fin 4) (passed : Bool) (s : State) : Moves s (decideSlot k passed s) := by
  unfold decideSlot
  dsimp only
  split
  · split
    · exact freeSlot_moves _ _ _ _
    · exact (plainFill_moves _ _ _).after (passHeads_moves _ _ _ _)
    · exact .refl
    · split
      · exact frameSlot_moves _ _ _ _ _
      · exact (plainFill_moves _ _ _).after (.ite (fun _ => .refl) (fun _ => .outCount _ _ .refl))
  · exact .refl

theorem beginSlot_moves (k : Fin 4) (passed : Bool) (start : Int) (s : State) : Moves s (beginSlot k passed start s) :=
  (decideSlot_moves _ _ _).after ((testHold_moves _).after ((reconcile_moves _ _ _).after (endSlot_moves _ _)))

theorem startWaiting_moves (k : Fin 4) (s : State) : Moves s (startWaiting k s) := by
  unfold startWaiting
  dsimp only
  split
  · exact .refl
  · refine .ite (fun h => ?_)
      (fun _ => .outCount _ _ ((startFrame_moves _ _ _ _ _).after (endSlot_moves _ _)))
    refine (changeSync_moves k .locked _ (.inr ?_)).after
      (.outCount _ _ ((startFrame_moves _ _ _ _ _).after (endSlot_moves _ _)))
    unfold countOut
    rw [mapOut_same]
    dsimp only
    rw [startFrame_sync]
    exact h

/-! ### Jumps -/

theorem passEvents_moves (k : Fin 4) (n : Nat) (s : State) : Moves s (passEvents k n s) := by
  induction n generalizing s with
  | zero => exact .refl
  | succ n ih =>
    unfold passEvents
    split
    · exact .ite (fun _ => (ih _).after ((testHold_moves _).after (beginSlot_moves _ _ _ _))) (fun _ => .refl)
    · exact .ite (fun _ => (ih _).after ((testHold_moves _).after (startWaiting_moves _ _))) (fun _ => .refl)
    · exact .refl

theorem jumpOutput_moves (d : Int) (k : Fin 4) (s : State) : Moves s (jumpOutput d k s) := by
  unfold jumpOutput
  exact .ite (fun _ => .refl) fun _ => .ite (fun _ => (enterFreeRun_moves _ _ _).after (.outCount _ _ .refl)) fun _ =>
    .ite (fun _ => passEvents_moves _ _ _) (fun _ => .refl)

theorem jump_moves (d : Int) (s : State) : Moves s (jump d s) :=
  .ite (fun _ => .refl) (fun _ => Moves.forAll (jumpOutput_moves d) _ s)

end Sys2Proof.Machine
end

