-- ==== Sys2Proof/Laws/Arrival.lean ====
section
/-!
SUPPORT. Arrival.lean: what the arrival of bytes and packets and the selection state machine can do, said once: the
relation Arrives. Each operation of Feed.lean and Intake.lean, and the control queue's part of Management.lean, is one.
-/

namespace Sys2Proof.Machine

/-- The Route Decoder keeps its banks, its indicator and its default action. -/
def RouteStep (r r' : RouteDecoder) : Prop :=
  r'.bank0 = r.bank0 ∧ r'.bank1 = r.bank1 ∧ r'.active = r.active ∧ r'.defaultAction = r.defaultAction

/-- The parameters that SET FEED POLICY writes (R47). -/
def FeedIntake.policy (u : FeedIntake) : SwitchMode × Nat × Nat := (u.mode, u.threshold, u.lossExp)

/-- What an arrival can do, one part after the other. -/
inductive Arrives (s : State) : State → Prop where
  | refl : Arrives s s
  | move {t u} (h : Moves t u) : Arrives s t → Arrives s u
  | feed {t} (f : FeedIntake → FeedIntake) (h : (f t.feed).policy = t.feed.policy) :
      Arrives s t → Arrives s (mapFeed f t)
  | route {t} (f : RouteDecoder → RouteDecoder) (h : RouteStep t.route (f t.route)) :
      Arrives s t → Arrives s (mapRoute f t)
  | append {t} (i : Fin 2) (x : Fill) (pkt : Packet) (h : t.store.contexts[(i : Nat)] = some x) :
      Arrives s t → Arrives s (appendPacket i x pkt t)
  | queue {t} (c : Cell) (f : ManagementCounters → ManagementCounters)
      (h : t.mgmt.controlQueue.length < Config.controlRoom) :
      Arrives s t →
      Arrives s (mapMgmt (fun m => { m with controlQueue := m.controlQueue ++ [c], counters := f m.counters }) t)

theorem appendPacket_fields (i : Fin 2) (x : Fill) (pkt : Packet) (s : State) :
    ∃ u : State, Moves u (appendPacket i x pkt s) ∧ u.clock = s.clock ∧ u.feed = s.feed ∧ u.route = s.route ∧
      u.pool = s.pool ∧ u.outs = s.outs ∧ u.progs = s.progs ∧ u.engine = s.engine ∧ u.mgmt = s.mgmt ∧
      u.pending = s.pending := by
  have close : ∀ (v : State) (q : Prop) [Decidable q], v.clock = s.clock → v.feed = s.feed → v.route = s.route →
      v.pool = s.pool → v.outs = s.outs → v.progs = s.progs → v.engine = s.engine → v.mgmt = s.mgmt →
      v.pending = s.pending →
      ∃ u : State, Moves u (if q then fillUp i x.segment v else v) ∧ u.clock = s.clock ∧ u.feed = s.feed ∧
        u.route = s.route ∧ u.pool = s.pool ∧ u.outs = s.outs ∧ u.progs = s.progs ∧ u.engine = s.engine ∧
        u.mgmt = s.mgmt ∧ u.pending = s.pending := by
    intro v q _ h1 h2 h3 h4 h5 h6 h7 h8 h9
    split
    · exact ⟨_, setFlag_moves _ _, h1, h2, h3, h4, h5, h6, h7, h8, h9⟩
    · exact ⟨_, .refl, h1, h2, h3, h4, h5, h6, h7, h8, h9⟩
  exact close _ _ rfl rfl rfl rfl rfl rfl rfl rfl rfl

namespace Arrives

variable {s t u : State}

theorem trans (h1 : Arrives s t) (h2 : Arrives t u) : Arrives s u := by
  induction h2 with
  | refl => exact h1
  | move h _ ih => exact .move h ih
  | feed f h _ ih => exact .feed f h ih
  | route f h _ ih => exact .route f h ih
  | append i x pkt h _ ih => exact .append i x pkt h ih
  | queue c f h _ ih => exact .queue c f h ih

/-- `Arrives.trans` with the later part first. -/
theorem after (h2 : Arrives t u) (h1 : Arrives s t) : Arrives s u := h1.trans h2

theorem moves (h : Moves s t) : Arrives s t := .move h .refl

theorem ite {p : Prop} [Decidable p] (h1 : p → Arrives s t) (h2 : ¬p → Arrives s u) :
    Arrives s (if p then t else u) := by
  split
  · exact h1 ‹_›
  · exact h2 ‹_›

/-! ### What every arrival keeps -/

theorem clock (h : Arrives s t) : t.clock = s.clock := by
  induction h with
  | refl => rfl
  | move h _ ih => exact h.clock.trans ih
  | @append t i x pkt _ _ ih =>
    obtain ⟨v, hv, hc, _⟩ := appendPacket_fields i x pkt t
    exact (hv.clock.trans hc).trans ih
  | _ => assumption

theorem pending (h : Arrives s t) : t.pending = s.pending := by
  induction h with
  | refl => rfl
  | move h _ ih => exact h.pending.trans ih
  | @append t i x pkt _ _ ih =>
    obtain ⟨v, hv, _, _, _, _, _, _, _, _, hc⟩ := appendPacket_fields i x pkt t
    exact (hv.pending.trans hc).trans ih
  | _ => assumption

theorem entries (h : Arrives s t) : t.engine.entries = s.engine.entries := by
  induction h with
  | refl => rfl
  | move h _ ih => exact h.entries.trans ih
  | @append t i x pkt _ _ ih =>
    obtain ⟨v, hv, _, _, _, _, _, _, hc, _⟩ := appendPacket_fields i x pkt t
    exact (hv.entries.trans (congrArg Engine.entries hc)).trans ih
  | _ => assumption

theorem routeStep (h : Arrives s t) : RouteStep s.route t.route := by
  induction h with
  | refl => exact ⟨rfl, rfl, rfl, rfl⟩
  | move h _ ih => rw [h.route]; exact ih
  | route f h _ ih =>
    exact ⟨h.1.trans ih.1, h.2.1.trans ih.2.1, h.2.2.1.trans ih.2.2.1, h.2.2.2.trans ih.2.2.2⟩
  | @append t i x pkt _ _ ih =>
    obtain ⟨v, hv, _, _, hc, _⟩ := appendPacket_fields i x pkt t
    rw [hv.route, hc]; exact ih
  | _ => assumption

theorem policy (h : Arrives s t) : t.feed.policy = s.feed.policy := by
  induction h with
  | refl => rfl
  | move h _ ih => rw [h.feed]; exact ih
  | feed f h _ ih => exact h.trans ih
  | @append t i x pkt _ _ ih =>
    obtain ⟨v, hv, _, hc, _⟩ := appendPacket_fields i x pkt t
    rw [hv.feed, hc]; exact ih
  | _ => assumption

theorem config (h : Arrives s t) (j : Fin 4) : t.outs[(j : Nat)].config = s.outs[(j : Nat)].config := by
  induction h with
  | refl => rfl
  | move h _ ih => exact (h.config j).trans ih
  | @append t i x pkt _ _ ih =>
    obtain ⟨v, hv, _, _, _, _, hc, _⟩ := appendPacket_fields i x pkt t
    refine (hv.config j).trans ?_
    simp only [hc]; exact ih
  | _ => assumption

theorem frameQueue (h : Arrives s t) (j : Fin 4) :
    t.outs[(j : Nat)].frameQueue.length ≤ max Config.frameQueueRoom s.outs[(j : Nat)].frameQueue.length := by
  induction h with
  | refl => omega
  | move h _ ih => have := h.frameQueue j; omega
  | @append t i x pkt _ _ ih =>
    obtain ⟨v, hv, _, _, _, _, hc, _⟩ := appendPacket_fields i x pkt t
    have := hv.frameQueue j
    simp only [hc] at this; omega
  | _ => assumption

/-- The state of the outputs follows the clock (R97). -/
theorem sync_follows (h : Arrives s t) (j : Fin 4)
    (hs : (s.outs[(j : Nat)].sync = .locked ∨ s.outs[(j : Nat)].sync = .acquiring → s.clock.mode = .locked) ∧
      (s.outs[(j : Nat)].sync = .holdover → s.clock.mode = .holdover)) :
    (t.outs[(j : Nat)].sync = .locked ∨ t.outs[(j : Nat)].sync = .acquiring → s.clock.mode = .locked) ∧
      (t.outs[(j : Nat)].sync = .holdover → s.clock.mode = .holdover) := by
  induction h with
  | refl => exact hs
  | move h ht ih =>
    have := h.sync_follows j (by rw [ht.clock]; exact ih)
    rw [ht.clock] at this; exact this
  | @append t i x pkt _ ht ih =>
    obtain ⟨v, hv, hk, _, _, _, hc, _⟩ := appendPacket_fields i x pkt t
    have := hv.sync_follows j (by simp only [hc, hk, ht.clock]; exact ih)
    rw [hk, ht.clock] at this; exact this
  | _ => assumption

theorem programmesWf (h : Arrives s t) (hs : tableWf {} s.progs.records = true) : tableWf {} t.progs.records = true := by
  induction h with
  | refl => exact hs
  | move h _ ih => exact h.programmesWf ih
  | @append t i x pkt _ _ ih =>
    obtain ⟨v, hv, _, _, _, _, _, hc, _⟩ := appendPacket_fields i x pkt t
    exact hv.programmesWf (hc ▸ ih)
  | _ => assumption

/-- What the Programme Table's commands write is kept (R107). -/
theorem programmeStep (h : Arrives s t) (hs : tableWf {} s.progs.records = true) (p : Nat) :
    ProgrammeStep (programme s p) (programme t p) := by
  induction h with
  | refl => exact ⟨rfl, rfl, rfl⟩
  | move h ht ih =>
    obtain ⟨a1, a2, a3⟩ := h.programmeStep (ht.programmesWf hs) p
    exact ⟨a1.trans ih.1, a2.trans ih.2.1, a3.trans ih.2.2⟩
  | @append t i x pkt _ ht ih =>
    obtain ⟨v, hv, _, _, _, _, _, hc, _⟩ := appendPacket_fields i x pkt t
    obtain ⟨a1, a2, a3⟩ := hv.programmeStep (hc ▸ ht.programmesWf hs) p
    have he : ∀ w : State, v.progs = w.progs → programme v p = programme w p := fun w hw => by simp only [programme, hw]
    rw [he _ hc] at a1 a2 a3
    exact ⟨a1.trans ih.1, a2.trans ih.2.1, a3.trans ih.2.2⟩
  | _ => assumption

/-- The acceptance table, the enable set and the reset cause are kept; the command in execution and the HOLD in force are
kept, or both end; and the control queue and the report places stay within their bounds (R161, R165). -/
theorem mgmt (h : Arrives s t) :
    t.mgmt.grants = s.mgmt.grants ∧ t.mgmt.enabled = s.mgmt.enabled ∧ t.mgmt.resetCause = s.mgmt.resetCause ∧
      (t.mgmt.executing = s.mgmt.executing ∧ t.mgmt.hold = s.mgmt.hold ∨ t.mgmt.executing = none ∧ t.mgmt.hold = none) ∧
      t.mgmt.reportQueue.length + heldPlaces t.mgmt ≤
        max Config.reportRoom (s.mgmt.reportQueue.length + heldPlaces s.mgmt) ∧
      t.mgmt.controlQueue.length ≤ max Config.controlRoom s.mgmt.controlQueue.length ∧
      ∀ f, hasFlag s.mgmt.flags f = true → hasFlag t.mgmt.flags f = true := by
  induction h with
  | refl => exact ⟨rfl, rfl, rfl, .inl ⟨rfl, rfl⟩, by omega, by omega, fun _ h => h⟩
  | move h _ ih =>
    obtain ⟨a1, a2, a3, a4, a5, a6, a7⟩ := h.mgmtStep
    obtain ⟨b1, b2, b3, b4, b5, b6, b7⟩ := ih
    refine ⟨a1.trans b1, a3.trans b2, a4.trans b3, ?_, by omega, by rw [a2]; exact b6, fun f hf => a7 f (b7 f hf)⟩
    rcases a5 with ⟨a, a'⟩ | a
    · rw [a, a']; exact b4
    · exact .inr a
  | @append t i x pkt _ _ ih =>
    obtain ⟨v, hv, _, _, _, _, _, _, _, hc, _⟩ := appendPacket_fields i x pkt t
    obtain ⟨a1, a2, a3, a4, a5, a6, a7⟩ := hv.mgmtStep
    obtain ⟨b1, b2, b3, b4, b5, b6, b7⟩ := ih
    rw [hc] at a1 a2 a3 a4 a5 a6 a7
    refine ⟨a1.trans b1, a3.trans b2, a4.trans b3, ?_, by omega, by rw [a2]; exact b6, fun f hf => a7 f (b7 f hf)⟩
    rcases a5 with ⟨a, a'⟩ | a
    · rw [a, a']; exact b4
    · exact .inr a
  | queue c f h _ ih =>
    obtain ⟨b1, b2, b3, b4, b5, b6, b7⟩ := ih
    refine ⟨b1, b2, b3, b4, b5, ?_, b7⟩
    simp only [mapMgmt_mgmt, List.length_append, List.length_singleton]
    omega
  | _ => assumption

theorem forAll {α : Type} {f : α → State → State} (hf : ∀ a s, Arrives s (f a s)) (l : List α) (s : State) :
    Arrives s (Machine.forAll l f s) := by
  unfold Machine.forAll
  induction l generalizing s with
  | nil => exact .refl
  | cons a l ih => exact (hf a s).trans (ih _)

end Arrives

/-! ### Feed.lean -/

theorem setSelection_arrives (x : Selection) (h : Handover) (s : State) : Arrives s (setSelection x h s) := by
  unfold setSelection; exact .feed _ rfl .refl

theorem mapFeedState_arrives (x : Feed) (f : FeedState → FeedState) (s : State) : Arrives s (mapFeedState x f s) := by
  unfold mapFeedState; exact .feed _ (by cases x <;> rfl) .refl

theorem mapPort_arrives (p : Port) (f : PortState → PortState) (s : State) : Arrives s (mapPort p f s) := by
  unfold mapPort; exact .feed _ (by cases p <;> rfl) .refl

theorem setFlag_arrives (f : Flag) (s : State) : Arrives s (setFlag f s) := .moves (setFlag_moves f s)

theorem stopTaking_arrives (x : Feed) (s : State) : Arrives s (stopTaking x s) := mapFeedState_arrives _ _ _

theorem enterNoFeed_arrives (s : State) : Arrives s (enterNoFeed s) :=
  (setFlag_arrives _ _).after ((setSelection_arrives _ _ _).after ((stopTaking_arrives _ _).after (stopTaking_arrives _ _)))

theorem countReversal_arrives (s : State) : Arrives s (countReversal s) := by
  unfold countReversal; exact .feed _ rfl .refl

theorem turnBack_arrives (x : Feed) (s : State) : Arrives s (turnBack x s) := by
  unfold turnBack
  dsimp only
  split
  · split
    · exact (countReversal_arrives _).after (setSelection_arrives _ _ _)
    · exact (countReversal_arrives _).after (setSelection_arrives _ _ _)
  · exact enterNoFeed_arrives _

theorem feedLeft_arrives (x : Feed) (s : State) : Arrives s (feedLeft x s) := by
  unfold feedLeft
  split
  · exact .ite (fun _ => .ite (fun _ => (stopTaking_arrives _ _).after (setSelection_arrives _ _ _))
      (fun _ => enterNoFeed_arrives _)) (fun _ => .refl)
  · refine .ite (fun _ => turnBack_arrives _ _) (fun _ => ?_)
    split
    · exact (stopTaking_arrives _ _).after (setSelection_arrives _ _ _)
    · exact .refl
  · exact .refl

theorem feedReached_arrives (x : Feed) (s : State) : Arrives s (feedReached x s) := by
  unfold feedReached
  split
  · exact setSelection_arrives _ _ _
  · exact .refl

theorem feedLeavesUp_arrives (x : Feed) (s : State) : Arrives s (feedLeavesUp x s) :=
  (feedLeft_arrives _ _).after ((mapFeedState_arrives _ _ _).after (setFlag_arrives _ _))

theorem leaveUp_arrives (p : Port) (new : Alignment) (s : State) : Arrives s (leaveUp p new s) := by
  unfold leaveUp
  dsimp only
  split
  · exact (feedLeavesUp_arrives _ _).after (mapPort_arrives _ _ _)
  · exact (feedLeavesUp_arrives _ _).after (mapPort_arrives _ _ _)
  · exact mapPort_arrives _ _ _

theorem searchByte_arrives (p : Port) (b : Byte) (s : State) : Arrives s (searchByte p b s) := by
  unfold searchByte
  dsimp only
  split
  · split
    · exact (feedReached_arrives _ _).after (mapPort_arrives _ _ _)
    · exact (feedReached_arrives _ _).after (mapPort_arrives _ _ _)
    · exact mapPort_arrives _ _ _
  · exact mapPort_arrives _ _ _

theorem startSearch_arrives (p : Port) (b : Byte) (s : State) : Arrives s (startSearch p b s) :=
  (searchByte_arrives _ _ _).after (mapPort_arrives _ _ _)

theorem expireLossTimer_arrives (p : Port) (s : State) : Arrives s (expireLossTimer p s) := by
  unfold expireLossTimer
  dsimp only
  split
  · exact (leaveUp_arrives _ _ _).after (mapPort_arrives _ _ _)
  · exact .feed _ rfl ((mapPort_arrives _ _ _).after (mapPort_arrives _ _ _))
  · exact mapPort_arrives _ _ _

theorem markErrored_arrives (x : Feed) (s : State) : Arrives s (markErrored x s) := mapFeedState_arrives _ _ _

theorem wrongLead_arrives (p : Port) (s : State) : Arrives s (wrongLead p s) := by
  unfold wrongLead
  dsimp only
  have h2 : Arrives s (match p with
      | .a => markErrored .a (mapPort p (fun x => { x with
          wrongLeads := x.wrongLeads + 1, wrongLeadCount := bump x.wrongLeadCount }) s)
      | .b => markErrored .b (mapPort p (fun x => { x with
          wrongLeads := x.wrongLeads + 1, wrongLeadCount := bump x.wrongLeadCount }) s)
      | .l => mapPort p (fun x => { x with
          wrongLeads := x.wrongLeads + 1, wrongLeadCount := bump x.wrongLeadCount }) s) := by
    split
    · exact (markErrored_arrives _ _).after (mapPort_arrives _ _ _)
    · exact (markErrored_arrives _ _).after (mapPort_arrives _ _ _)
    · exact mapPort_arrives _ _ _
  exact .ite (fun _ => (leaveUp_arrives _ _ _).after h2) (fun _ => h2)

theorem goodLead_arrives (p : Port) (s : State) : Arrives s (goodLead p s) := mapPort_arrives _ _ _

theorem checkContinuity_arrives (x : Feed) (pkt : Packet) (s : State) : Arrives s (checkContinuity x pkt s) := by
  unfold checkContinuity
  dsimp only
  refine (mapFeedState_arrives _ _ _).after (.ite (fun _ => ?_) (fun _ => .refl))
  exact (markErrored_arrives _ _).after (mapFeedState_arrives _ _ _)

theorem beginHandover_arrives (y : Feed) (s : State) : Arrives s (beginHandover y s) := setSelection_arrives _ _ _

theorem testQuality_arrives (s : State) : Arrives s (testQuality s) := by
  unfold testQuality
  split
  · exact .ite (fun _ => beginHandover_arrives _ _) (fun _ => .refl)
  · exact .refl

theorem closeSecond_arrives (s : State) : Arrives s (closeSecond s) :=
  (testQuality_arrives _).after ((mapFeedState_arrives .b _ _).after (mapFeedState_arrives .a _ _))

theorem noteFrame_arrives (x : Feed) (pkt : Packet) (s : State) : Arrives s (noteFrame x pkt s) :=
  .ite (fun _ => mapFeedState_arrives _ _ _) (fun _ => .refl)

theorem gateDiscard_arrives (x : Feed) (pkt : Packet) (s : State) : Arrives s (gateDiscard x pkt s) := by
  unfold gateDiscard
  dsimp only
  exact .ite (fun _ => .feed _ rfl (mapFeedState_arrives _ _ _)) (fun _ => mapFeedState_arrives _ _ _)

theorem startTaking_arrives (x : Feed) (pkt : Packet) (s : State) : Arrives s (startTaking x pkt s) :=
  (setFlag_arrives _ _).after (.feed _ rfl ((mapFeedState_arrives _ _ _).after (setSelection_arrives _ _ _)))

theorem gate_arrives (x : Feed) (pkt : Packet) (s : State) : Arrives s (gate x pkt s).2 := by
  unfold gate
  split
  · split
    · exact noteFrame_arrives _ _ _
    · exact gateDiscard_arrives _ _ _
  · exact gateDiscard_arrives _ _ _
  · split
    · split
      · exact gateDiscard_arrives _ _ _
      · split
        · exact (gateDiscard_arrives _ _ _).after ((stopTaking_arrives _ _).after (setSelection_arrives _ _ _))
        · exact noteFrame_arrives _ _ _
    · split
      · exact startTaking_arrives _ _ _
      · exact gateDiscard_arrives _ _ _

/-! ### The control queue and ABANDON HOLD -/

theorem placeOrWait_moves (r : Report) (s : State) : Moves s (placeOrWait r s) := by
  unfold placeOrWait
  split
  · rename_i h
    unfold placeReport
    exact (choosePort_moves _).after (.append _ (.mgmtCount _ .refl) h)
  · exact .mgmtPlain _ .refl

theorem abandon_moves (c : Cell) (s : State) : Moves s (abandon c s) := by
  unfold abandon
  refine .ite (fun _ => (setFlag_moves _ _).after (.mgmtCount _ .refl)) fun _ => .ite (fun _ => ?_)
    (fun _ => (placeOrWait_moves _ _).after (.mgmtCount _ .refl))
  exact (placeOrWait_moves _ _).after (.ite (fun _ => (endHold_moves _ _).after (.mgmtCount _ .refl)) (fun _ => .refl))

theorem queueCell_arrives (src : Source) (c : Cell) (s : State) : Arrives s (queueCell src c s) := by
  unfold queueCell
  split
  · cases src
    · exact .queue c (fun n => { n with cellsFromFeed := bump n.cellsFromFeed }) ‹_› .refl
    · exact .queue c (fun n => { n with cellsFromLocal := bump n.cellsFromLocal }) ‹_› .refl
  · exact .moves ((setFlag_moves _ _).after (.mgmtCount _ .refl))

theorem handCell_arrives (src : Source) (c : Cell) (s : State) : Arrives s (handCell src c s) :=
  .ite (fun _ => .moves (abandon_moves _ _)) (fun _ => queueCell_arrives _ _ _)

theorem arrive_arrives (handed : Option Handed) (s : State) : Arrives s (arrive handed s) := by
  unfold arrive
  split
  · exact .refl
  · exact handCell_arrives _ _ _

/-! ### Intake.lean -/

theorem countRoute_arrives (f : RouteCounters → RouteCounters) (s : State) : Arrives s (countRoute f s) := by
  unfold countRoute; exact .route _ ⟨rfl, rfl, rfl, rfl⟩ .refl

theorem setDecode_arrives (src : Source) (pkt : Option Packet) (s : State) : Arrives s (setDecode src pkt s) := by
  unfold setDecode
  split
  · exact .route _ ⟨rfl, rfl, rfl, rfl⟩ .refl
  · exact .route _ ⟨rfl, rfl, rfl, rfl⟩ .refl

theorem admission_arrives (pkt : Packet) (l : List Candidate) (s : State) : Arrives s (admission pkt l s) :=
  .moves (admission_moves _ _ _)

theorem countCopy_arrives (tag : Option Nat) (s : State) : Arrives s (countCopy tag s) := by
  unfold countCopy
  split <;> exact countRoute_arrives _ _

theorem handCopy_arrives (pkt : Packet) (r : Route) (k : Fin 4) (acc : List Candidate × State) :
    Arrives acc.2 (handCopy pkt r k acc).2 := by
  unfold handCopy
  dsimp only
  have h := (Arrives.moves (frameCopy_moves k (countCopy (copyTag acc.2 r k) acc.2))).after (countCopy_arrives _ _)
  split <;> rename_i he <;> rw [he] at h <;> exact h

theorem makeCopies_arrives (pkt : Packet) (r : Route) (s : State) : Arrives s (makeCopies pkt r s) := by
  unfold makeCopies
  dsimp only
  have h1 : Arrives s (if unbound s r then
      countRoute (fun c => { c with unboundProgrammes := bump c.unboundProgrammes }) s else s) :=
    .ite (fun _ => countRoute_arrives _ _) (fun _ => .refl)
  generalize (if unbound s r then
      countRoute (fun c => { c with unboundProgrammes := bump c.unboundProgrammes }) s else s) = s1 at h1
  have h2 : ∀ (l : List (Fin 4)) (acc : List Candidate × State),
      Arrives acc.2 (l.foldl (fun acc k => handCopy pkt r k acc) acc).2 := by
    intro l
    induction l with
    | nil => intro acc; exact .refl
    | cons k l ih => intro acc; exact (ih _).after (handCopy_arrives _ _ _ _)
  refine .ite (fun _ => (countRoute_arrives _ _).after h1) fun _ => .ite (fun _ => ?_) (fun _ => ?_)
  · exact (admission_arrives _ _ _).after ((countRoute_arrives _ _).after ((h2 _ ([], s1)).after h1))
  · exact (admission_arrives _ _ _).after ((h2 _ ([], s1)).after h1)

theorem applyDefault_arrives (pkt : Packet) (s : State) : Arrives s (applyDefault pkt s) := by
  unfold applyDefault
  split
  · exact countRoute_arrives _ _
  · exact (admission_arrives _ _ _).after (countRoute_arrives _ _)

theorem routePacket_arrives (src : Source) (pkt : Packet) (s : State) : Arrives s (routePacket src pkt s) := by
  unfold routePacket
  split
  · exact (applyDefault_arrives _ _).after (countRoute_arrives _ _)
  · exact makeCopies_arrives _ _ _
  · exact (applyDefault_arrives _ _).after ((setFlag_arrives _ _).after (countRoute_arrives _ _))

theorem decodePacket_arrives (src : Source) (pkt : Packet) (s : State) : Arrives s (decodePacket src pkt s) := by
  unfold decodePacket
  exact (setDecode_arrives _ _ _).after ((routePacket_arrives _ _ _).after ((countRoute_arrives _ _).after
    (setDecode_arrives _ _ _)))

theorem storeContextOf_sound {s : State} {l : Label} {i : Fin 2} {f : Fill} (h : storeContextOf s l = some (i, f)) :
    s.store.contexts[(i : Nat)] = some f := by
  unfold storeContextOf at h
  cases h0 : s.store.contexts[(0 : Fin 2)] <;> cases h1 : s.store.contexts[(1 : Fin 2)] <;>
    simp only [h0, h1] at h <;> repeat' split at h
  all_goals first | (cases h; assumption) | cases h

theorem sortFeed_arrives (pkt : Packet) (s : State) : Arrives s (sortFeed pkt s) := by
  unfold sortFeed
  refine .ite (fun _ => handCell_arrives _ _ _) fun _ => .ite (fun _ => .feed _ rfl .refl) fun _ => .ite
    (fun _ => .moves (Moves.forAll (takeTiming_moves _) _ _)) fun _ => .ite (fun _ => .refl) fun _ => ?_
  split
  · exact .moves (takeCue_moves _ _ _)
  · exact decodePacket_arrives _ _ _

theorem sortLocal_arrives (pkt : Packet) (s : State) : Arrives s (sortLocal pkt s) := by
  unfold sortLocal
  refine .ite (fun _ => handCell_arrives _ _ _) fun _ => .ite (fun _ => .feed _ rfl .refl) fun _ => .ite
    (fun _ => .feed _ rfl .refl) fun _ => .ite (fun _ => .refl) fun _ => ?_
  split
  · rename_i h
    exact .append _ _ _ (storeContextOf_sound h) .refl
  · split
    · exact .feed _ rfl .refl
    · exact decodePacket_arrives _ _ _

theorem feedPacket_arrives (x : Feed) (pkt : Packet) (s : State) : Arrives s (feedPacket x pkt s) := by
  unfold feedPacket
  have h := (gate_arrives x pkt (checkContinuity x pkt s)).after (checkContinuity_arrives _ _ _)
  split <;> rename_i he <;> rw [he] at h
  · exact (sortFeed_arrives _ _).after h
  · exact h

theorem packetArrived_arrives (p : Port) (bytes : List Byte) (s : State) : Arrives s (packetArrived p bytes s) := by
  unfold packetArrived
  dsimp only
  refine .ite (fun _ => ?_) (fun _ => wrongLead_arrives _ _)
  split
  · exact (feedPacket_arrives _ _ _).after (goodLead_arrives _ _)
  · exact (feedPacket_arrives _ _ _).after (goodLead_arrives _ _)
  · exact (sortLocal_arrives _ _).after (goodLead_arrives _ _)

theorem gather_arrives (p : Port) (bytes : List Byte) (s : State) : Arrives s (gather p bytes s) :=
  .ite (fun _ => (packetArrived_arrives _ _ _).after (mapPort_arrives _ _ _)) (fun _ => mapPort_arrives _ _ _)

theorem arriveByte_arrives (p : Port) (s : State) (b : Byte) : Arrives s (arriveByte p s b) := by
  unfold arriveByte
  split
  · exact startSearch_arrives _ _ _
  · exact searchByte_arrives _ _ _
  · exact gather_arrives _ _ _

theorem foldBytes_arrives (p : Port) (bytes : List Byte) (s : State) : Arrives s (bytes.foldl (arriveByte p) s) := by
  induction bytes generalizing s with
  | nil => exact .refl
  | cons b l ih => exact (arriveByte_arrives p s b).trans (ih _)

theorem arriveBytes_arrives (p : Port) (bytes : List Byte) (s : State) : Arrives s (arriveBytes p bytes s) :=
  .ite (fun _ => gather_arrives _ _ _) (fun _ => foldBytes_arrives _ _ _)

end Sys2Proof.Machine
end

