-- ==== Sys2Proof/Laws/Time.lean ====
section
/-!
SUPPORT. Time.lean: what the passing of time, the pulse edge and the loss of a reference can do, said once: the relation
Passes; and where the tick stands after them.
-/

namespace Sys2Proof.Machine

/-- The changes of clock state that the Site Clock makes (section 2.2). -/
def clockMoves (old new : ClockMode) : Bool :=
  match old, new with
  | .free, .locked => true
  | .locked, .holdover => true
  | .holdover, .locked => true
  | .holdover, .expired => true
  | .expired, .locked => true
  | _, _ => old == new

/-- What the passing of time can do, one part after the other. -/
inductive Passes (s : State) : State → Prop where
  | refl : Passes s s
  | arrive {t u} (h : Arrives t u) : Passes s t → Passes s u
  | run {t} (n : Nat) : Passes s t → Passes s (runTicks n t)
  | clock {t} (f : SiteClock → SiteClock) (h : (f t.clock).mode = t.clock.mode) : Passes s t → Passes s (mapClock f t)
  | mode {t u} (f : SiteClock → SiteClock) (hm : clockMoves t.clock.mode (f t.clock).mode = true)
      (h : Arrives (mapClock f t) u)
      (ho : u.outs = t.outs) : Passes s t → Passes s (handClockMode t.clock.mode (f t.clock).mode u)

/-- What a HOLD in force and the command in execution can come to: both stay, or both end. -/
def holdStep (m m' : Management) : Prop :=
  m'.executing = m.executing ∧ m'.hold.isSome = m.hold.isSome ∨ m'.executing = none ∧ m'.hold = none

theorem holdStep.trans {a b c : Management} (h1 : holdStep a b) (h2 : holdStep b c) : holdStep a c := by
  rcases h2 with ⟨x, y⟩ | h
  · rcases h1 with ⟨x', y'⟩ | ⟨x', y'⟩
    · exact .inl ⟨x.trans x', y.trans y'⟩
    · refine .inr ⟨x.trans x', ?_⟩
      rw [y'] at y; simpa using y
  · exact .inr h

/-! ### runTicks -/

theorem fin4_cases (j : Fin 4) : j = 0 ∨ j = 1 ∨ j = 2 ∨ j = 3 := by revert j; decide

theorem passOutputs_out (n : Nat) (s : State) (j : Fin 4) :
    (forAll allOutputs (passOutput n) s).outs[(j : Nat)] =
      { s.outs[(j : Nat)] with slot := s.outs[(j : Nat)].slot.map fun x => { x with remaining := x.remaining - n } } := by
  have h : ∀ k t, (passOutput n k t).outs[(j : Nat)] = if j = k then
      { t.outs[(k : Nat)] with slot := t.outs[(k : Nat)].slot.map fun x => { x with remaining := x.remaining - n } }
      else t.outs[(j : Nat)] := fun k t => mapOut_get t j k _
  simp only [forAll, allOutputs, List.foldl, h]
  have h' : ∀ k t, j ≠ k → (passOutput n k t).outs[(j : Nat)] = t.outs[(j : Nat)] := fun k t hk => by
    rw [h, if_neg hk]
  rcases fin4_cases j with rfl | rfl | rfl | rfl
  all_goals
    simp only [Fin.reduceEq, if_true, if_false]
    repeat rw [h' _ _ (by decide)]

theorem runTicks_out (n : Nat) (s : State) (j : Fin 4) :
    (runTicks n s).outs[(j : Nat)] =
      { s.outs[(j : Nat)] with slot := s.outs[(j : Nat)].slot.map fun x => { x with remaining := x.remaining - n } } := by
  unfold runTicks
  rw [passOutputs_out]
  rfl

@[simp] theorem runTicks_clock (n : Nat) (s : State) :
    (runTicks n s).clock = passClock n s.clock := rfl

@[simp] theorem runTicks_feed (n : Nat) (s : State) :
    (runTicks n s).feed =
      { s.feed with
        portA := passPort n s.feed.portA, portB := passPort n s.feed.portB, portL := passPort n s.feed.portL } := rfl

@[simp] theorem runTicks_pool (n : Nat) (s : State) :
    (runTicks n s).pool =
      { s.pool with port := s.pool.port.map fun x => { x with remaining := x.remaining - n } } := rfl

@[simp] theorem runTicks_mgmt (n : Nat) (s : State) :
    (runTicks n s).mgmt =
      { s.mgmt with hold := s.mgmt.hold.map fun h => { h with elapsed := h.elapsed + n } } := rfl

@[simp] theorem runTicks_route (n : Nat) (s : State) : (runTicks n s).route = s.route := rfl
@[simp] theorem runTicks_progs (n : Nat) (s : State) : (runTicks n s).progs = s.progs := rfl
@[simp] theorem runTicks_store (n : Nat) (s : State) : (runTicks n s).store = s.store := rfl
@[simp] theorem runTicks_engine (n : Nat) (s : State) : (runTicks n s).engine = s.engine := rfl
@[simp] theorem runTicks_pending (n : Nat) (s : State) : (runTicks n s).pending = s.pending := rfl

namespace Passes

variable {s t u : State}

theorem trans (h1 : Passes s t) (h2 : Passes t u) : Passes s u := by
  induction h2 with
  | refl => exact h1
  | arrive h _ ih => exact .arrive h ih
  | run n _ ih => exact .run n ih
  | clock f h _ ih => exact .clock f h ih
  | mode f hm h ho _ ih => exact .mode f hm h ho ih

/-- `Passes.trans` with the later part first. -/
theorem after (h2 : Passes t u) (h1 : Passes s t) : Passes s u := h1.trans h2

theorem arrives (h : Arrives s t) : Passes s t := .arrive h .refl

theorem moves (h : Moves s t) : Passes s t := .arrives (.moves h)

theorem ite {p : Prop} [Decidable p] (h1 : p → Passes s t) (h2 : ¬p → Passes s u) :
    Passes s (if p then t else u) := by
  split
  · exact h1 ‹_›
  · exact h2 ‹_›

/-! ### What the passing of time keeps -/

theorem pending (h : Passes s t) : t.pending = s.pending := by
  induction h with
  | refl => rfl
  | arrive h _ ih => exact h.pending.trans ih
  | mode f hm h ho _ ih => exact (handClockMode_moves _ _ _ (by rw [h.clock]; rfl)).pending.trans (h.pending.trans ih)
  | _ => assumption

theorem entries (h : Passes s t) : t.engine.entries = s.engine.entries := by
  induction h with
  | refl => rfl
  | arrive h _ ih => exact h.entries.trans ih
  | mode f hm h ho _ ih => exact (handClockMode_moves _ _ _ (by rw [h.clock]; rfl)).entries.trans (h.entries.trans ih)
  | _ => assumption

theorem routeStep (h : Passes s t) : RouteStep s.route t.route := by
  induction h with
  | refl => exact ⟨rfl, rfl, rfl, rfl⟩
  | arrive h _ ih =>
    have := h.routeStep
    exact ⟨this.1.trans ih.1, this.2.1.trans ih.2.1, this.2.2.1.trans ih.2.2.1, this.2.2.2.trans ih.2.2.2⟩
  | mode f hm h ho _ ih =>
    rw [(handClockMode_moves _ _ _ (by rw [h.clock]; rfl)).route]
    have := h.routeStep
    exact ⟨this.1.trans ih.1, this.2.1.trans ih.2.1, this.2.2.1.trans ih.2.2.1, this.2.2.2.trans ih.2.2.2⟩
  | _ => assumption

theorem policy (h : Passes s t) : t.feed.policy = s.feed.policy := by
  induction h with
  | refl => rfl
  | arrive h _ ih => exact h.policy.trans ih
  | mode f hm h ho _ ih =>
    rw [(handClockMode_moves _ _ _ (by rw [h.clock]; rfl)).feed]; exact h.policy.trans ih
  | _ => assumption

theorem config (h : Passes s t) (j : Fin 4) : t.outs[(j : Nat)].config = s.outs[(j : Nat)].config := by
  induction h with
  | refl => rfl
  | arrive h _ ih => exact (h.config j).trans ih
  | run n _ ih => rw [runTicks_out]; exact ih
  | mode f hm h ho _ ih =>
    exact ((handClockMode_moves _ _ _ (by rw [h.clock]; rfl)).config j).trans ((h.config j).trans ih)
  | clock f _ _ ih => exact ih

theorem frameQueue (h : Passes s t) (j : Fin 4) :
    t.outs[(j : Nat)].frameQueue.length ≤ max Config.frameQueueRoom s.outs[(j : Nat)].frameQueue.length := by
  induction h with
  | refl => omega
  | arrive h _ ih => have := h.frameQueue j; omega
  | run n _ ih => rw [runTicks_out]; exact ih
  | @mode t u f hm h ho _ ih =>
    have h1 := (handClockMode_moves t.clock.mode (f t.clock).mode u (by rw [h.clock]; rfl)).frameQueue j
    have h2 := h.frameQueue j
    simp only [mapClock_outs] at h2
    omega
  | clock f _ _ ih => exact ih

theorem programmesWf (h : Passes s t) (hs : tableWf {} s.progs.records = true) : tableWf {} t.progs.records = true := by
  induction h with
  | refl => exact hs
  | arrive h _ ih => exact h.programmesWf ih
  | mode f hm h ho _ ih => exact (handClockMode_moves _ _ _ (by rw [h.clock]; rfl)).programmesWf (h.programmesWf ih)
  | _ => assumption

/-- The acceptance table, the enable set and the reset cause are kept; the command in execution and a HOLD in force stay,
or both end; and the control queue and the report places stay within their bounds (R161, R165). -/
theorem mgmt (h : Passes s t) :
    t.mgmt.grants = s.mgmt.grants ∧ t.mgmt.enabled = s.mgmt.enabled ∧ t.mgmt.resetCause = s.mgmt.resetCause ∧
      holdStep s.mgmt t.mgmt ∧
      t.mgmt.reportQueue.length + heldPlaces t.mgmt ≤
        max Config.reportRoom (s.mgmt.reportQueue.length + heldPlaces s.mgmt) ∧
      t.mgmt.controlQueue.length ≤ max Config.controlRoom s.mgmt.controlQueue.length ∧
      ∀ f, hasFlag s.mgmt.flags f = true → hasFlag t.mgmt.flags f = true := by
  have arr : ∀ {a b : State}, Arrives a b →
      b.mgmt.grants = a.mgmt.grants ∧ b.mgmt.enabled = a.mgmt.enabled ∧ b.mgmt.resetCause = a.mgmt.resetCause ∧
      holdStep a.mgmt b.mgmt ∧
      b.mgmt.reportQueue.length + heldPlaces b.mgmt ≤
        max Config.reportRoom (a.mgmt.reportQueue.length + heldPlaces a.mgmt) ∧
      b.mgmt.controlQueue.length ≤ max Config.controlRoom a.mgmt.controlQueue.length ∧
      ∀ f, hasFlag a.mgmt.flags f = true → hasFlag b.mgmt.flags f = true := by
    intro a b h
    obtain ⟨h1, h2, h3, h4, h5, h6, h7⟩ := h.mgmt
    refine ⟨h1, h2, h3, ?_, h5, h6, h7⟩
    rcases h4 with ⟨x, y⟩ | h4
    · exact .inl ⟨x, by rw [y]⟩
    · exact .inr h4
  have comp : ∀ {a b : State},
      (a.mgmt.grants = s.mgmt.grants ∧ a.mgmt.enabled = s.mgmt.enabled ∧ a.mgmt.resetCause = s.mgmt.resetCause ∧
      holdStep s.mgmt a.mgmt ∧
      a.mgmt.reportQueue.length + heldPlaces a.mgmt ≤
        max Config.reportRoom (s.mgmt.reportQueue.length + heldPlaces s.mgmt) ∧
      a.mgmt.controlQueue.length ≤ max Config.controlRoom s.mgmt.controlQueue.length ∧
      ∀ f, hasFlag s.mgmt.flags f = true → hasFlag a.mgmt.flags f = true) → Arrives a b →
      (b.mgmt.grants = s.mgmt.grants ∧ b.mgmt.enabled = s.mgmt.enabled ∧ b.mgmt.resetCause = s.mgmt.resetCause ∧
      holdStep s.mgmt b.mgmt ∧
      b.mgmt.reportQueue.length + heldPlaces b.mgmt ≤
        max Config.reportRoom (s.mgmt.reportQueue.length + heldPlaces s.mgmt) ∧
      b.mgmt.controlQueue.length ≤ max Config.controlRoom s.mgmt.controlQueue.length ∧
      ∀ f, hasFlag s.mgmt.flags f = true → hasFlag b.mgmt.flags f = true) := by
    intro a b ih h
    obtain ⟨h1, h2, h3, h4, h5, h6, h7⟩ := arr h
    obtain ⟨i1, i2, i3, i4, i5, i6, i7⟩ := ih
    exact ⟨h1.trans i1, h2.trans i2, h3.trans i3, i4.trans h4, by omega, by omega, fun f hf => h7 f (i7 f hf)⟩
  induction h with
  | refl => exact ⟨rfl, rfl, rfl, .inl ⟨rfl, rfl⟩, by omega, by omega, fun _ h => h⟩
  | arrive h _ ih => exact comp ih h
  | @run t n _ ih =>
    obtain ⟨i1, i2, i3, i4, i5, i6, i7⟩ := ih
    refine ⟨i1, i2, i3, i4.trans (.inl ⟨rfl, ?_⟩), i5, i6, i7⟩
    simp
  | clock f h _ ih => exact ih
  | @mode t u f hm h ho _ ih =>
    exact comp (a := u) (comp (a := mapClock f t) ih h) (.moves (handClockMode_moves _ _ _ (by rw [h.clock]; rfl)))

end Passes

/-- The sync states of the outputs agree with the clock's state (R97). -/
def syncFollows (s : State) : Prop :=
  ∀ j : Fin 4,
    (s.outs[(j : Nat)].sync = .locked ∨ s.outs[(j : Nat)].sync = .acquiring → s.clock.mode = .locked) ∧
      (s.outs[(j : Nat)].sync = .holdover → s.clock.mode = .holdover)

theorem handClockMode_sync (old new : ClockMode) (j : Fin 4) (s : State) (h : s.clock.mode = new) :
    (handClockMode old new s).outs[(j : Nat)].sync =
      syncAfter old new s.outs[(j : Nat)].fallback s.outs[(j : Nat)].sync := by
  have hf : ∀ (k : Fin 4) (t : State), j ≠ k → (followClock old new k t).outs[(j : Nat)].sync = t.outs[(j : Nat)].sync := by
    intro k t h; rw [followClock_sync, if_neg h]
  have hc : ∀ (k : Fin 4) (t : State), t.clock.mode = new →
      (followClock old new k t).outs[(j : Nat)].fallback = t.outs[(j : Nat)].fallback ∧
        (followClock old new k t).clock.mode = new := by
    intro k t ht
    have hm := followClock_moves old new k t ht
    refine ⟨?_, by rw [hm.clock]; exact ht⟩
    have := hm.config j
    simp only [Output.config, Prod.mk.injEq] at this
    exact this.2.2.2.2.1
  unfold handClockMode
  simp only [forAll, allOutputs, List.foldl]
  have h0 := hc 0 s h
  have h1 := hc 1 _ h0.2
  have h2 := hc 2 _ h1.2
  rcases fin4_cases j with rfl | rfl | rfl | rfl
  · rw [hf 3 _ (by decide), hf 2 _ (by decide), hf 1 _ (by decide), followClock_sync, if_pos rfl]
  · rw [hf 3 _ (by decide), hf 2 _ (by decide), followClock_sync, if_pos rfl, hf 0 _ (by decide), h0.1]
  · rw [hf 3 _ (by decide), followClock_sync, if_pos rfl, hf 1 _ (by decide), hf 0 _ (by decide), h1.1, h0.1]
  · rw [followClock_sync, if_pos rfl, hf 2 _ (by decide), hf 1 _ (by decide), hf 0 _ (by decide), h2.1, h1.1, h0.1]

theorem Moves.syncFollows {s t : State} (h : Moves s t) (hs : syncFollows s) : syncFollows t := by
  intro j; rw [h.clock]; exact h.sync_follows j (hs j)

theorem Arrives.syncFollows {s t : State} (h : Arrives s t) (hs : syncFollows s) : syncFollows t := by
  intro j; rw [h.clock]; exact h.sync_follows j (hs j)

/-- The passing of time keeps the agreement of the outputs and the clock (R97, R100). -/
theorem Passes.syncFollows {s t : State} (h : Passes s t) (hs : syncFollows s) : syncFollows t := by
  induction h with
  | refl => exact hs
  | arrive h _ ih => exact h.syncFollows ih
  | run n _ ih => intro j; rw [runTicks_out]; exact ih j
  | clock f hf _ ih =>
    intro j
    have := ih j
    simp only [mapClock_outs, mapClock_clock, hf]
    exact this
  | @mode t u f hm h ho ht ih =>
    have hu : u.clock = f t.clock := by rw [h.clock]; rfl
    intro j
    rw [handClockMode_sync _ _ _ _ (by rw [hu]), (handClockMode_moves _ _ _ (by rw [hu])).clock, hu]
    have hj := ih j
    rw [ho]
    revert hm hj
    generalize t.clock.mode = a
    generalize (f t.clock).mode = b
    generalize t.outs[(j : Nat)].sync = x
    generalize t.outs[(j : Nat)].fallback = y
    cases a <;> cases b <;> cases x <;> cases y <;> decide

/-! ### The operations of time -/

theorem setFlag_clock (f : Flag) (s : State) : (setFlag f s).clock = s.clock := (setFlag_moves f s).clock

theorem closeSecond_outs (s : State) : (closeSecond s).outs = s.outs := by
  unfold closeSecond testQuality
  split
  · split <;> rfl
  · rfl

theorem expireHoldover_passes (s : State) (h : s.clock.mode = .holdover) : Passes s (expireHoldover s) := by
  unfold expireHoldover
  have := Passes.mode (s := s) (t := s) (fun c => { c with
      mode := .expired
      counters := { c.counters with holdoverExpiries := bump c.counters.holdoverExpiries } })
    (by rw [h]; rfl) (setFlag_arrives .holdoverExpired _) (setFlag_outs _ _) .refl
  simpa only [h] using this

theorem countHoldover_mode (c : SiteClock) : (countHoldover c).mode = c.mode := by
  unfold countHoldover; split <;> rfl

theorem holdoverDue_mode {s : State} (h : holdoverDue s = true) : s.clock.mode = .holdover := by
  simp only [holdoverDue, Bool.and_eq_true, beq_iff_eq] at h
  exact h.1

theorem countBoundary_passes (s : State) : Passes s (countBoundary s) := by
  have hc : Passes s (mapClock countHoldover s) := .clock _ (countHoldover_mode _) .refl
  unfold countBoundary
  exact .ite (fun h => hc.trans (expireHoldover_passes _ (holdoverDue_mode h))) (fun _ => hc)

theorem markBoundary_passes (s : State) : Passes s (markBoundary s) :=
  .arrive (closeSecond_arrives _) (countBoundary_passes s)

theorem wrapSecond_passes (s : State) : Passes s (wrapSecond s) := by
  unfold wrapSecond
  exact (Passes.moves (jump_moves _ _)).after ((Passes.moves (testHold_moves _)).after
    ((markBoundary_passes _).after (.clock _ rfl .refl)))

theorem advance_passes (n : Nat) (s : State) : Passes s (advance n s) := by
  unfold advance
  exact .ite (fun _ => (wrapSecond_passes _).after (.run n .refl)) (fun _ => .run n .refl)

theorem edgeResult_moves (c : SiteClock) : clockMoves c.mode (edgeResult c).clock.mode = true := by
  unfold edgeResult applySeconds unusedEdge lockedEdge returnEdge stepClock
  dsimp only
  cases hm : c.mode <;> cases hr : c.ref10 <;> cases hp : c.pendingSeconds <;> dsimp only [hm, hr] <;>
    repeat' split
  all_goals rfl

theorem edgeResult_boundary (c : SiteClock) (h : (edgeResult c).boundary = true) :
    (edgeResult c).clock.mode ≠ .holdover := by
  revert h
  unfold edgeResult applySeconds unusedEdge lockedEdge returnEdge stepClock
  dsimp only
  cases hm : c.mode <;> cases hr : c.ref10 <;> cases hp : c.pendingSeconds <;> dsimp only [hm, hr] <;>
    repeat' split
  all_goals simp_all

theorem markBoundary_plain (s : State) (h : s.clock.mode ≠ .holdover) : markBoundary s = closeSecond s := by
  have : mapClock countHoldover s = s := by
    unfold mapClock countHoldover
    rw [if_neg h]
  have hd : holdoverDue s = false := by
    cases hd : holdoverDue s
    · rfl
    · exact absurd (holdoverDue_mode hd) h
  unfold markBoundary countBoundary
  simp only [this, hd, Bool.false_eq_true, if_false]

theorem pulseEdge_passes (s : State) : Passes s (pulseEdge s) := by
  unfold pulseEdge
  dsimp only
  refine (Passes.moves (jump_moves _ _)).after ((Passes.moves (testHold_moves _)).after ?_)
  have hm := edgeResult_moves s.clock
  have hb := edgeResult_boundary s.clock
  generalize edgeResult s.clock = r at hm hb
  have h2 : ∀ q : State, Arrives q (if r.outlier then setFlag .ppsOutlier q else q) ∧
      (if r.outlier then setFlag .ppsOutlier q else q).outs = q.outs := fun q =>
    ⟨.ite (fun _ => setFlag_arrives _ _) (fun _ => .refl), by split <;> simp [setFlag_outs]⟩
  obtain ⟨h2a, h2o⟩ := h2 (mapClock (fun _ => r.clock) s)
  generalize (if r.outlier then setFlag .ppsOutlier (mapClock (fun _ => r.clock) s)
    else mapClock (fun _ => r.clock) s) = s2 at h2a h2o
  have hc : s2.clock = r.clock := h2a.clock
  have h3 : Arrives s2 (if r.boundary then markBoundary s2 else s2) ∧
      (if r.boundary then markBoundary s2 else s2).outs = s2.outs := by
    by_cases hb' : r.boundary = true
    · rw [if_pos hb', markBoundary_plain s2 (hc ▸ hb hb')]
      exact ⟨closeSecond_arrives _, closeSecond_outs _⟩
    · rw [if_neg hb']; exact ⟨.refl, rfl⟩
  obtain ⟨h3a, h3o⟩ := h3
  generalize (if r.boundary then markBoundary s2 else s2) = s3 at h3a h3o
  by_cases he : r.clock.mode = s.clock.mode
  · rw [if_pos he]
    exact .arrive (h2a.trans h3a) (.clock _ he .refl)
  · rw [if_neg he]
    exact .mode (fun _ => r.clock) hm (h2a.trans h3a) (h3o.trans h2o) .refl

theorem enterHoldover_passes (f : SiteClock → SiteClock) (s : State) (h : s.clock.mode = .locked) :
    Passes s (enterHoldover (mapClock f s)) := by
  unfold enterHoldover
  have := Passes.mode (s := s) (t := s)
    (fun c => { f c with mode := .holdover, holdoverSeconds := 0, pulseWatch := none })
    (by rw [h]; rfl) (setFlag_arrives .refLost _) (setFlag_outs _ _) .refl
  rw [h] at this
  exact this

theorem loseRef10_passes (s : State) : Passes s (loseRef10 s) := by
  unfold loseRef10
  dsimp only
  refine .ite (fun _ => .ite (fun h => enterHoldover_passes _ s h) (fun _ => .clock _ rfl .refl)) (fun _ => .clock _ rfl .refl)

theorem restoreRef10_passes (s : State) : Passes s (restoreRef10 s) := .clock _ (by split <;> rfl) .refl

theorem expirePulseWatch_passes (s : State) (h : s.clock.mode = .locked) : Passes s (expirePulseWatch s) :=
  enterHoldover_passes _ s h

/-! ### The tick -/

theorem expireHoldover_tick (s : State) : (expireHoldover s).clock.tick = s.clock.tick := by
  unfold expireHoldover
  rw [handClockMode_moves _ _ _ (by rw [setFlag_clock]; rfl) |>.clock, setFlag_clock]
  rfl

theorem countBoundary_tick (s : State) : (countBoundary s).clock.tick = s.clock.tick := by
  have h : (mapClock countHoldover s).clock.tick = s.clock.tick := by
    simp only [mapClock_clock, countHoldover]
    split <;> rfl
  unfold countBoundary
  dsimp only
  split
  · exact (expireHoldover_tick _).trans h
  · exact h

theorem markBoundary_tick (s : State) : (markBoundary s).clock.tick = s.clock.tick := by
  unfold markBoundary
  rw [(closeSecond_arrives _).clock, countBoundary_tick]

theorem jump_testHold_clock (d : Int) (s : State) : (jump d (testHold s)).clock = s.clock :=
  (jump_moves _ _).clock.trans (testHold_moves _).clock

theorem wrapSecond_tick (s : State) : (wrapSecond s).clock.tick = 0 := by
  unfold wrapSecond
  generalize absolute _ Config.ticksPerSecond = before
  exact (congrArg SiteClock.tick (jump_testHold_clock _ _)).trans (markBoundary_tick _)

theorem second_pos : 0 < Config.ticksPerSecond := Nat.succ_pos _

theorem runTicks_tick (n : Nat) (s : State) : (runTicks n s).clock.tick = s.clock.tick + n := rfl

theorem advance_wrap {n : Nat} {s : State} (h : Config.ticksPerSecond ≤ s.clock.tick + n) :
    advance n s = wrapSecond (runTicks n s) := if_pos h

theorem advance_run {n : Nat} {s : State} (h : s.clock.tick + n < Config.ticksPerSecond) : advance n s = runTicks n s :=
  if_neg (Nat.not_le.mpr h)

/-- The tick stays within its second as ticks pass (R9, R15). -/
theorem advance_tick (n : Nat) (s : State) : (advance n s).clock.tick =
    if Config.ticksPerSecond ≤ s.clock.tick + n then 0 else s.clock.tick + n := by
  by_cases h : Config.ticksPerSecond ≤ s.clock.tick + n
  · rw [advance_wrap h, if_pos h]; exact wrapSecond_tick _
  · rw [advance_run (Nat.not_le.mp h), if_neg h]; rfl

theorem advance_within (n : Nat) (s : State) : (advance n s).clock.tick < Config.ticksPerSecond := by
  rw [advance_tick]
  split
  · exact second_pos
  · omega

theorem edgeResult_tick (c : SiteClock) (h : c.tick < Config.ticksPerSecond) :
    (edgeResult c).clock.tick < Config.ticksPerSecond := by
  have h0 := second_pos
  unfold edgeResult applySeconds unusedEdge lockedEdge returnEdge stepClock
  dsimp only
  cases hm : c.mode <;> cases hr : c.ref10 <;> cases hp : c.pendingSeconds <;> dsimp only [hm, hr] <;>
    repeat' split
  all_goals assumption

theorem pulseEdge_clock (s : State) : (pulseEdge s).clock = (edgeResult s.clock).clock := by
  unfold pulseEdge
  refine (jump_testHold_clock _ _).trans ?_
  have hb := edgeResult_boundary s.clock
  generalize edgeResult s.clock = r at hb
  have hc : (if r.outlier then setFlag .ppsOutlier (mapClock (fun _ => r.clock) s)
    else mapClock (fun _ => r.clock) s).clock = r.clock := by split <;> simp [setFlag_clock]
  generalize (if r.outlier then setFlag .ppsOutlier (mapClock (fun _ => r.clock) s)
    else mapClock (fun _ => r.clock) s) = s2 at hc
  have h3 : (if r.boundary then markBoundary s2 else s2).clock = r.clock := by
    by_cases hb' : r.boundary = true
    · rw [if_pos hb', markBoundary_plain s2 (hc ▸ hb hb'), (closeSecond_arrives _).clock, hc]
    · rw [if_neg hb']; exact hc
  split
  · exact h3
  · rw [(handClockMode_moves _ _ _ (by rw [h3])).clock, h3]

end Sys2Proof.Machine
end

