-- ==== Sys2Proof/Laws/Reply.lean ====
section
/-!
SUPPORT. Reply.lean: what answering a command comes to, said once, and what a command row does with the cell at the head
of the control queue.
-/

namespace Sys2Proof.Machine

/-! ### Answering -/

theorem placeAbandonReply_none {s : State} (h : s.mgmt.abandonReply = none) : placeAbandonReply s = s := by
  unfold placeAbandonReply; rw [h]

theorem placeOwedReport_none {s : State} (h : s.mgmt.owed = 0) : placeOwedReport s = s := by
  unfold placeOwedReport; rw [if_neg]; simp [h]

theorem givePlaces_none {s : State} (h1 : s.mgmt.abandonReply = none) (h2 : s.mgmt.owed = 0) : givePlaces s = s := by
  unfold givePlaces; rw [placeAbandonReply_none h1, placeOwedReport_none h2]

/-- Giving places to waiting report cells only adds to the report queue. -/
theorem givePlaces_fields (s : State) :
    ∃ m : Management, givePlaces s = { s with mgmt := m } ∧ m.grants = s.mgmt.grants ∧
      m.controlQueue = s.mgmt.controlQueue ∧ m.executing = s.mgmt.executing ∧ m.hold = s.mgmt.hold ∧
      m.flags = s.mgmt.flags ∧ m.enabled = s.mgmt.enabled ∧ m.sequence = s.mgmt.sequence ∧
      m.resetCause = s.mgmt.resetCause ∧ s.mgmt.reportQueue <+: m.reportQueue := by
  have ha : ∀ s : State, ∃ m : Management, placeAbandonReply s = { s with mgmt := m } ∧ m.grants = s.mgmt.grants ∧
      m.controlQueue = s.mgmt.controlQueue ∧ m.executing = s.mgmt.executing ∧ m.hold = s.mgmt.hold ∧
      m.flags = s.mgmt.flags ∧ m.enabled = s.mgmt.enabled ∧ m.sequence = s.mgmt.sequence ∧
      m.resetCause = s.mgmt.resetCause ∧ s.mgmt.reportQueue <+: m.reportQueue := by
    intro s
    unfold placeAbandonReply
    split
    · exact ⟨s.mgmt, rfl, rfl, rfl, rfl, rfl, rfl, rfl, rfl, rfl, List.prefix_refl _⟩
    · split
      · exact ⟨_, rfl, rfl, rfl, rfl, rfl, rfl, rfl, rfl, rfl, List.prefix_append _ _⟩
      · exact ⟨s.mgmt, rfl, rfl, rfl, rfl, rfl, rfl, rfl, rfl, rfl, List.prefix_refl _⟩
  have ho : ∀ s : State, ∃ m : Management, placeOwedReport s = { s with mgmt := m } ∧ m.grants = s.mgmt.grants ∧
      m.controlQueue = s.mgmt.controlQueue ∧ m.executing = s.mgmt.executing ∧ m.hold = s.mgmt.hold ∧
      m.flags = s.mgmt.flags ∧ m.enabled = s.mgmt.enabled ∧ m.sequence = s.mgmt.sequence ∧
      m.resetCause = s.mgmt.resetCause ∧ s.mgmt.reportQueue <+: m.reportQueue := by
    intro s
    unfold placeOwedReport
    split
    · exact ⟨_, rfl, rfl, rfl, rfl, rfl, rfl, rfl, rfl, rfl, List.prefix_append _ _⟩
    · exact ⟨s.mgmt, rfl, rfl, rfl, rfl, rfl, rfl, rfl, rfl, rfl, List.prefix_refl _⟩
  obtain ⟨m1, e1, a1, a2, a3, a4, a5, a6, a7, a8, a9⟩ := ha s
  obtain ⟨m2, e2, b1, b2, b3, b4, b5, b6, b7, b8, b9⟩ := ho { s with mgmt := m1 }
  refine ⟨m2, ?_, b1.trans a1, b2.trans a2, b3.trans a3, b4.trans a4, b5.trans a5, b6.trans a6, b7.trans a7, b8.trans a8,
    a9.trans b9⟩
  unfold givePlaces
  rw [e1, e2]

/-- A reply that has a place goes to the report queue, and nothing else changes (R165, R78). -/
theorem placeReport_placed (r : Report) (s : State) :
    ReplyPlaced r s (placeReport r (countMgmt (fun n => { n with repliesMade := bump n.repliesMade }) s)) := by
  unfold placeReport choosePort countMgmt
  cases hp : s.pool.port with
  | some x =>
    rw [if_pos (by simp [appendReport, hp])]
    refine ⟨rfl, rfl, rfl, rfl, rfl, rfl, rfl, rfl, rfl, rfl, rfl, rfl, rfl, rfl, rfl, rfl, rfl, rfl, rfl, ?_⟩
    unfold placed
    rw [hp]
    exact ⟨hp, rfl, rfl, rfl, rfl, rfl⟩
  | none =>
    rw [if_neg (by simp [appendReport, hp])]
    have hq : ∃ oldest others, s.mgmt.reportQueue ++ [r] = oldest :: others := by
      cases s.mgmt.reportQueue with
      | nil => exact ⟨_, _, rfl⟩
      | cons a l => exact ⟨_, _, rfl⟩
    obtain ⟨oldest, others, hq⟩ := hq
    simp only [appendReport, mapMgmt_mgmt, hq]
    generalize hs2 : sendReport oldest others _ = s2
    have e2 : s2 = { s with
        mgmt := { s.mgmt with
          reportQueue := others, sequence := s.mgmt.sequence + 1
          counters := { s.mgmt.counters with repliesMade := bump s.mgmt.counters.repliesMade } }
        pool := { s.pool with
          port := some { isCopy := false, packet := reportPacket oldest s.mgmt.sequence, remaining := 128 } } } := hs2.symm
    have hf : ReplyPlaced r s s2 := by
      rw [e2]
      refine ⟨rfl, rfl, rfl, rfl, rfl, rfl, rfl, rfl, rfl, rfl, rfl, rfl, rfl, rfl, rfl, rfl, rfl, rfl, rfl, ?_⟩
      unfold placed
      rw [hp]
      exact ⟨oldest, others, hq, rfl, rfl, List.prefix_refl _, fun h1 h2 => ⟨rfl, h1, h2, rfl⟩⟩
    obtain ⟨m, he, g1, g2, g3, g4, g5, g6, g7, g8, g9⟩ := givePlaces_fields s2
    rw [he]
    refine ⟨hf.clock, hf.feed, hf.route, hf.outs, hf.progs, hf.store, hf.engine, hf.pending, hf.buffers, hf.lowMark,
      hf.monitorQueue, hf.poolCounters, g1.trans hf.grants, g2.trans hf.controlQueue, g4.trans hf.hold,
      g5.trans hf.flags, g6.trans hf.enabled, g8.trans hf.resetCause, g3.trans hf.executing, ?_⟩
    have hr := hf.reply
    unfold placed at hr ⊢
    rw [hp] at hr ⊢
    obtain ⟨o, l, q1, q2, q3, q4, q5⟩ := hr
    refine ⟨o, l, q1, q2, g7.trans q3, q4.trans g9, fun h1 h2 => ?_⟩
    obtain ⟨r1, r2, r3, r4⟩ := q5 h1 h2
    have hn := givePlaces_none r2 r3
    rw [he] at hn
    have hm : m = s2.mgmt := congrArg State.mgmt hn
    rw [hm]
    exact ⟨r1, r2, r3, r4⟩

/-- A place is free exactly when fewer than 32 are taken (R165). -/
theorem placeFree_taken (s : State) : placeFree s.mgmt = true ↔ placesTaken s < 32 := decide_eq_true_iff

/-- The reply to ABANDON HOLD is placed when a place is free (R165, R168). -/
theorem placeOrWait_placed (r : Report) {s : State} (h : placesTaken s < 32) : ReplyPlaced r s (placeOrWait r s) := by
  unfold placeOrWait
  rw [if_pos ((placeFree_taken s).2 h)]
  exact placeReport_placed r s

/-- The reply to ABANDON HOLD waits when no place is free (R165, R168). -/
theorem placeOrWait_waits (r : Report) {s : State} (h : 32 ≤ placesTaken s) :
    placeOrWait r s = { s with mgmt := { s.mgmt with abandonReply := some r } } := by
  unfold placeOrWait
  rw [if_neg (fun hf => by have := (placeFree_taken s).1 hf; omega)]
  rfl

/-- A command in execution ends: its one reply is placed, and nothing else changes (R164, R165, R78). -/
theorem endCommand_answered (c : Cell) (status : Status) (units : List ResultUnit) (s : State)
    (h : s.mgmt.executing = some c) : Answered c status units s (endCommand status units s) := by
  have p := placeReport_placed (replyTo c status units) { s with mgmt := { s.mgmt with executing := none } }
  have e : endCommand status units s = placeReport (replyTo c status units)
      (countMgmt (fun n => { n with repliesMade := bump n.repliesMade })
        { s with mgmt := { s.mgmt with executing := none } }) := by
    unfold endCommand
    rw [h]
    rfl
  rw [e]
  exact ⟨p.clock, p.feed, p.route, p.outs, p.progs, p.store, p.engine, p.pending, p.buffers, p.lowMark, p.monitorQueue,
    p.poolCounters, p.grants, p.controlQueue, p.hold, p.flags, p.enabled, p.resetCause, p.executing, p.reply⟩

/-! ### Taking a command -/

theorem placeFree_iff {m : Management} (h : m.executing = none) : placeFree m = true ↔ m.reportQueue.length < 32 := by
  simp [placeFree, heldPlaces, h]

/-- A cell that can be taken is taken by its row (R162). -/
theorem takeCell_takeable {c : Cell} {rest : List Cell} {s : State} (isRow : Cell → Bool) (cmd : Command)
    (h : takeable c rest s) (hr : isRow c = true) : takeCell isRow cmd none s = runCell cmd c (takeHead c rest s) := by
  obtain ⟨h1, h2, h3⟩ := h
  unfold takeCell
  simp only [arrive, h1]
  have : canTake s = true := by simp [canTake, h2, (placeFree_iff h2).2 h3]
  simp [hr, this]

theorem acceptance_none {code : Byte} {c : Cell} {rest : List Cell} {s : State} (h : accepted code c rest s)
    (t : State) (ht : t.mgmt.grants = s.mgmt.grants) : acceptance t c = none := by
  obtain ⟨-, hc, ho, g, hg, hgr⟩ := h
  unfold acceptance
  have hov : originatorValid c = true := by simp [originatorValid, ho]
  simp only [hov, hc, hg]
  have : grantedIn t g c.originator = true := by
    simp only [grantedIn, ht, Bool.or_eq_true]; exact hgr
  simp [this]

/-- An accepted command is executed (R163). -/
theorem takeCommand_accepted {code : Byte} {c : Cell} {rest : List Cell} {s : State} (cmd : Command)
    (h : accepted code c rest s) :
    takeCommand code cmd none s =
      match cmd c.units (takeHead c rest s) with
      | .refused status => endCommand status [] (countExecutionRefusal (takeHead c rest s))
      | .done units s1 => endCommand .ok units s1
      | .stays s1 => s1 := by
  unfold takeCommand
  rw [takeCell_takeable _ _ h.1 (by simp [h.2.1])]
  unfold runCell
  simp only [acceptance_none h (takeHead c rest s) rfl]
  all_goals (cases cmd c.units (takeHead c rest s) <;> rfl)

/-- An accepted command that takes effect (R164). -/
theorem takeCommand_done {code : Byte} {c : Cell} {rest : List Cell} {s u s1 : State} {units : List ResultUnit}
    (cmd : Command) (h : accepted code c rest s) (hd : cmd c.units (takeHead c rest s) = .done units s1)
    (hu : { u with mgmt := { u.mgmt with executing := some c } } = s1) :
    Answered c .ok units u (takeCommand code cmd none s) := by
  rw [takeCommand_accepted cmd h, hd]
  subst hu
  have := endCommand_answered c .ok units { u with mgmt := { u.mgmt with executing := some c } } rfl
  exact ⟨this.clock, this.feed, this.route, this.outs, this.progs, this.store, this.engine, this.pending, this.buffers,
    this.lowMark, this.monitorQueue, this.poolCounters, this.grants, this.controlQueue, this.hold, this.flags,
    this.enabled, this.resetCause, this.executing, this.reply⟩

/-- An accepted command that is refused (R163, R164). -/
theorem takeCommand_refused {code : Byte} {c : Cell} {rest : List Cell} {s : State} {status : Status}
    (cmd : Command) (h : accepted code c rest s) (hd : cmd c.units (takeHead c rest s) = .refused status) :
    RefusedWith c status rest s (takeCommand code cmd none s) := by
  rw [takeCommand_accepted cmd h, hd]
  have := endCommand_answered c status [] (countExecutionRefusal (takeHead c rest s)) rfl
  exact ⟨this.clock, this.feed, this.route, this.outs, this.progs, this.store, this.engine, this.pending, this.buffers,
    this.lowMark, this.monitorQueue, this.poolCounters, this.grants, this.controlQueue, this.hold, this.flags,
    this.enabled, this.resetCause, this.executing, this.reply⟩

/-! ### The fields of a cell (R7) -/

theorem optField_carriesOpt {c : Cell} {k : Nat} {v : Option Nat} (h : carriesOpt c k v) :
    optField c.units k = some v := by
  unfold optField
  cases v with
  | none => simp [show (unitAt c.units k).presence = 0 from h]
  | some v =>
    obtain ⟨h1, h2⟩ := h
    simp [h1, h2]

theorem field_carries {c : Cell} {k v : Nat} (h : carries c k v) : field c.units k = some v := by
  unfold field
  rw [optField_carriesOpt (v := some v) h]
  rfl

theorem fields_carriesAll {c : Cell} {k : Nat} {l : List Nat} (h : carriesAll c k l) :
    fields c.units k l.length = some l := by
  induction l generalizing k with
  | nil => rfl
  | cons v l ih => simp only [List.length_cons, fields, field_carries h.1, ih h.2]

theorem listField_carries {c : Cell} {k size : Nat} {l : List Nat} (hc : carries c k l.length) (hl : carriesAll c (k + 1) l)
    (h1 : 1 ≤ l.length) (h2 : l.length ≤ size) : listField c.units k size = some l := by
  unfold listField
  rw [field_carries hc]
  simp [h1, h2, fields_carriesAll hl]

end Sys2Proof.Machine
end

