-- ==== Sys2Proof/Laws/Passing.lean ====
section
/-!
SUPPORT. Passing.lean: what the passing of ticks and a change of clock state leave of the Site Clock and of the feeds.
-/

namespace Sys2Proof

open Machine

theorem Machine.Passes.policyKept {s t : State} (h : Passes s t) : PolicyKept s t := by
  obtain ⟨r1, r2, r3, r4⟩ := h.routeStep
  obtain ⟨m1, m2, m3, _⟩ := h.mgmt
  have hp := h.policy
  simp only [FeedIntake.policy, Prod.mk.injEq] at hp
  refine ⟨⟨r1, r2, r3⟩, r4, h.entries, fun k => ?_, ⟨hp.1, hp.2.1, hp.2.2⟩, m1, m2, m3, h.pending⟩
  have := h.config k
  simp only [Output.config, Prod.mk.injEq] at this
  exact ⟨this.1, this.2.1, this.2.2.1, this.2.2.2.1, this.2.2.2.2.1, this.2.2.2.2.2.1, this.2.2.2.2.2.2⟩

theorem addTicks_eq (n : Nat) (o : Option Nat) : addTicks n o = o.map (· + n) := by cases o <;> rfl

theorem letPass_zero (s : State) : letPass 0 s = s := rfl

theorem settle_none {f : Nat} {s : State} (h : dueNow s = none) : settle f s = s := by
  cases f <;> simp [settle, h]

theorem settle_some {f : Nat} {s : State} {e : Due} (h : dueNow s = some e) : settle (f + 1) s = settle f (takeDue e s) := by
  simp only [settle, h]

/-- Ticks that reach no instant at which something comes about by itself pass at once (log entry 4). -/
theorem letPass_clear {n : Nat} {s : State} (h : dueNow s = none) (ht : n ≤ timeToNext s) (hn : n ≠ 0) :
    letPass n s = advance n s := by
  obtain ⟨m, rfl⟩ := Nat.exists_eq_succ_of_ne_zero hn
  have hd : max 1 (min (m + 1) (timeToNext s)) = m + 1 := by omega
  unfold letPass passTicks
  simp only [Nat.succ_eq_add_one, Nat.succ_ne_zero, if_false, settle_none h, hd, Nat.sub_self]
  cases m <;> rfl

theorem letPass_eq {n : Nat} {s : State} (h : clearFor n s) : letPass n s = if n = 0 then s else advance n s := by
  split
  · subst_vars; rfl
  · rcases h with h | ⟨h1, h2⟩
    · contradiction
    · exact letPass_clear h1 h2 ‹_›

theorem letPass_passes {n : Nat} {s : State} (h : clearFor n s) : Passes s (letPass n s) := by
  rw [letPass_eq h]
  exact .ite (fun _ => .refl) (fun _ => advance_passes n s)

theorem passClock_eq (n : Nat) (c : SiteClock) : passClock n c = clockAfter n c := by
  unfold passClock clockAfter
  rw [addTicks_eq]

theorem portState_run (n : Nat) (s : State) (p : Port) : portState (runTicks n s).feed p =
    passPort n (portState s.feed p) := by
  cases p <;> rfl

theorem tableMap_get {α : Type} [DecidableEq α] {d : α} (f : α → α) (hd : f d = d) {lo : Option Nat} {t : Table α}
    (ht : tableWfFrom d lo t = true) (k : Nat) : tableGet d (tableMap d f t) k = f (tableGet d t k) := by
  induction t generalizing lo with
  | nil => simp [tableMap, tableGet, hd]
  | cons e t ih =>
    obtain ⟨k', v⟩ := e
    rw [tableWfFrom_cons] at ht
    have ht' : tableWfFrom d (some k') t = true := by simp_all
    have hw : tableWfFrom d (some k') (tableMap d f t) = true := tableMap_wfFrom d f ht'
    simp only [tableMap]
    rw [tableGet_tableCons d _ _ _ hw]
    simp only [tableGet]
    by_cases h : k = k'
    · subst h; simp
    · rw [if_neg h, if_neg h, ih ht']
      by_cases hk : k < k'
      · rw [if_pos hk, tableGet_below d ht' (by omega), hd]
      · rw [if_neg hk]

theorem takeCommand_done' {code : Byte} {c : Cell} {rest : List Cell} {s u : State} {units : List ResultUnit}
    (cmd : Command) (h : accepted code c rest s)
    (hd : cmd c.units (takeHead c rest s) = .done units { u with mgmt := { u.mgmt with executing := some c } }) :
    ∃ t, Host.Outcome.next (φ := Fault) (ρ := Refusal) (takeCommand code cmd none s) = .next t ∧
        Answered c .ok units u t :=
  ⟨_, rfl, takeCommand_done cmd h hd rfl⟩

theorem enterHoldover_facts (s : State) :
    (enterHoldover s).clock = { s.clock with mode := .holdover, holdoverSeconds := 0, pulseWatch := none } ∧
    hasFlag (enterHoldover s).mgmt.flags .refLost = true ∧ (enterHoldover s).feed = s.feed ∧
    (enterHoldover s).store.dram = s.store.dram ∧
    ∀ k : Fin 4, (enterHoldover s).outs[k].sync = (match s.outs[k].sync with | .locked => .holdover | .acquiring => .freeRun | x => x) := by
  unfold enterHoldover
  have h1 := setFlag_moves .refLost (mapClock (fun c => { c with mode := .holdover, holdoverSeconds := 0, pulseWatch := none }) s)
  have h1f := setFlag_hasFlag .refLost (mapClock (fun c => { c with mode := .holdover, holdoverSeconds := 0, pulseWatch := none }) s)
  have h1o := setFlag_outs .refLost (mapClock (fun c => { c with mode := .holdover, holdoverSeconds := 0, pulseWatch := none }) s)
  generalize setFlag .refLost _ = u at *
  have h2 := handClockMode_moves .locked .holdover u (by rw [h1.clock]; rfl)
  refine ⟨by rw [h2.clock, h1.clock]; rfl, h2.mgmtStep.2.2.2.2.2.2 _ h1f, by rw [h2.feed, h1.feed]; rfl, by rw [h2.dram, h1.dram]; rfl, ?_⟩
  intro k
  have := handClockMode_sync .locked .holdover k u (by rw [h1.clock]; rfl)
  rw [h1o] at this
  refine Eq.trans this ?_
  simp only [syncAfter, mapClock_outs]
  cases hs : s.outs[(k : Nat)].sync <;> simp [hs]

theorem pulseEdge_flag (s : State) (h : (edgeResult s.clock).outlier = true) (hb : (edgeResult s.clock).boundary =
    false)
   (hm : (edgeResult s.clock).clock.mode = s.clock.mode) : hasFlag (pulseEdge s).mgmt.flags .ppsOutlier = true := by
  unfold pulseEdge
  simp only [h, hb, hm, if_true, Bool.false_eq_true, if_false]
  exact (jump_moves _ _).mgmtStep.2.2.2.2.2.2 _ ((testHold_moves _).mgmtStep.2.2.2.2.2.2 _ (setFlag_hasFlag _ _))

theorem expireHoldover_clock (s : State) : (expireHoldover s).clock = { s.clock with
      mode := .expired
      counters := { s.clock.counters with holdoverExpiries := bump s.clock.counters.holdoverExpiries } } := by
  unfold expireHoldover
  rw [(handClockMode_moves _ _ _ (by rw [setFlag_clock]; rfl)).clock, setFlag_clock]
  rfl

theorem countBoundary_clock (s : State) : (countBoundary s).clock =
    (if s.clock.mode = .holdover ∧ 2 ^ s.clock.holdoverExp ≤ s.clock.holdoverSeconds + 1 then
      { s.clock with
        mode := .expired, holdoverSeconds := s.clock.holdoverSeconds + 1
        counters := { s.clock.counters with holdoverExpiries := bump s.clock.counters.holdoverExpiries } }
    else countHoldover s.clock) := by
  unfold countBoundary holdoverDue holdoverLimit
  dsimp only
  by_cases h : s.clock.mode = .holdover
  · have hc : countHoldover s.clock = { s.clock with holdoverSeconds := s.clock.holdoverSeconds + 1 } := by
      unfold countHoldover; rw [if_pos h]
    have hm : (mapClock countHoldover s).clock = { s.clock with holdoverSeconds := s.clock.holdoverSeconds + 1 } := hc
    have hd : (((mapClock countHoldover s).clock.mode == .holdover) &&
        decide (2 ^ (mapClock countHoldover s).clock.holdoverExp ≤ (mapClock countHoldover s).clock.holdoverSeconds)) =
        decide (2 ^ s.clock.holdoverExp ≤ s.clock.holdoverSeconds + 1) := by
      rw [hm]; simp [h]
    rw [hc]
    simp only [h, true_and]
    by_cases hl : 2 ^ s.clock.holdoverExp ≤ s.clock.holdoverSeconds + 1
    · rw [if_pos (by rw [hd]; exact decide_eq_true hl), if_pos hl, expireHoldover_clock, hm]
    · rw [if_neg (by rw [hd]; simpa using hl), if_neg hl, hm]; simp [h]
  · have hc : countHoldover s.clock = s.clock := by unfold countHoldover; rw [if_neg h]
    simp [hc, h]

/-- The clock after a wrap of the tick (R15, R17, R27). -/
theorem wrapSecond_clock (s : State) : (wrapSecond s).clock =
    (countBoundary (mapClock (fun c => { c with seconds := c.seconds + 1, tick := 0 }) s)).clock := by
  unfold wrapSecond
  generalize absolute _ Config.ticksPerSecond = before
  refine (jump_testHold_clock _ _).trans ?_
  unfold markBoundary
  exact (closeSecond_arrives _).clock

theorem closeSecond_feedState (s : State) (x : Feed) :
    feedState (closeSecond s).feed x = closeFeedSecond (feedUp s x) (feedState s.feed x) := by
  unfold closeSecond testQuality beginHandover setSelection
  split
  · split <;> cases x <;> rfl
  · cases x <;> rfl

theorem wrapSecond_feed (s : State) : (wrapSecond s).feed =
    (closeSecond (countBoundary (mapClock (fun c => { c with seconds := c.seconds + 1, tick := 0 }) s))).feed := by
  unfold wrapSecond
  generalize absolute _ Config.ticksPerSecond = before
  exact (jump_moves _ _).feed.trans (testHold_moves _).feed

theorem clamp_zero (hi v : Nat) : clamp 0 hi v = min v hi := by unfold clamp; omega

theorem clampOr_eq (hi old : Nat) (v : Option Nat) : clampOr 0 hi old v = (v.map (min hi)).getD old := by
  cases v
  · rfl
  · simp [clampOr, clamp]

end Sys2Proof
end

