-- ==== Sys2Proof/Laws/Answers.lean ====
section
/-!
SUPPORT. Answers.lean: what setting a flag keeps, and what a command row that runs comes to.
-/

namespace Sys2Proof

open Machine

theorem rows_handed : ∀ r ∈ commandRows, ∃ f : Option Handed → State → State, (∀ h s, exec (r.2 h) s =
    .next (f h s)) ∧ (∀ h s, f h s = f none (arrive h s)) ∧
   ∃ cmd, ∀ h s, f h s = takeCommand r.1 cmd h s := by
  intro r hr
  simp only [commandRows, List.mem_cons, List.not_mem_nil, or_false] at hr
  rcases hr with h|h|h|h|h|h|h|h|h|h|h|h|h|h|h|h|h|h|h|h|h|h|h|h|h|h|h|h|h|h|h|h|h <;> subst h <;>
    exact ⟨_, fun _ _ => rfl, fun _ _ => rfl, _, fun _ _ => rfl⟩

theorem secondsUnit_map (v : Option Nat) :
    (v.map fun v => BitVec.ofNat 32 (clamp 0 4294967295 v)).map (fun v => BitVec.ofNat 40 v.toNat) =
    v.map (fun v => BitVec.ofNat 40 (min v 4294967295)) := by
  cases v with
  | none => rfl
  | some v =>
    simp only [Option.map_some, clamp_zero, BitVec.toNat_ofNat]
    congr 2; omega

theorem setFlag_kept (f : Flag) (s : State) : ∃ m p, setFlag f s =
    { s with mgmt := m, pool := { s.pool with port := p } } ∧
   m.controlQueue = s.mgmt.controlQueue ∧ m.executing = s.mgmt.executing ∧ m.hold = s.mgmt.hold ∧
       m.counters.abandonDiscards = s.mgmt.counters.abandonDiscards ∧ m.grants = s.mgmt.grants := by
  have gp : ∀ s : State, ∃ m, givePlaces s = { s with mgmt := m } ∧ m.controlQueue = s.mgmt.controlQueue ∧ m.executing = s.mgmt.executing ∧ m.hold = s.mgmt.hold ∧ m.counters.abandonDiscards = s.mgmt.counters.abandonDiscards ∧ m.grants = s.mgmt.grants := by
    intro s
    have ha : ∃ m, placeAbandonReply s = { s with mgmt := m } ∧ m.controlQueue = s.mgmt.controlQueue ∧ m.executing = s.mgmt.executing ∧ m.hold = s.mgmt.hold ∧ m.counters.abandonDiscards = s.mgmt.counters.abandonDiscards ∧ m.grants = s.mgmt.grants := by
      unfold placeAbandonReply
      split
      · exact ⟨_, rfl, rfl, rfl, rfl, rfl, rfl⟩
      · split <;> exact ⟨_, rfl, rfl, rfl, rfl, rfl, rfl⟩
    obtain ⟨m, hm, a1, a2, a3, a4, a5⟩ := ha
    unfold givePlaces; rw [hm]; unfold placeOwedReport
    split
    · exact ⟨_, rfl, a1, a2, a3, a4, a5⟩
    · exact ⟨_, rfl, a1, a2, a3, a4, a5⟩
  have cp : ∀ s : State, ∃ m p, choosePort s = { s with mgmt := m, pool := { s.pool with port := p } } ∧ m.controlQueue = s.mgmt.controlQueue ∧ m.executing = s.mgmt.executing ∧ m.hold = s.mgmt.hold ∧ m.counters.abandonDiscards = s.mgmt.counters.abandonDiscards ∧ m.grants = s.mgmt.grants := by
    intro s
    unfold choosePort
    split
    · exact ⟨_, _, rfl, rfl, rfl, rfl, rfl, rfl⟩
    · split
      · rename_i r rest _
        obtain ⟨m, h, h1, h2, h3, h4, h5⟩ := gp (sendReport r rest s)
        rw [h]; exact ⟨m, _, rfl, h1, h2, h3, h4, h5⟩
      · split
        · exact ⟨_, _, rfl, rfl, rfl, rfl, rfl, rfl⟩
        · exact ⟨_, _, rfl, rfl, rfl, rfl, rfl, rfl⟩
  unfold setFlag
  split
  · exact ⟨_, _, rfl, rfl, rfl, rfl, rfl, rfl⟩
  · dsimp only
    split
    · split
      · unfold placeReport
        obtain ⟨m, p, h, h1, h2, h3, h4, h5⟩ := cp (appendReport (eventReport (flagBit f) (mapMgmt (fun m => { m with flags := m.flags ||| flagBit f }) s)) (countMgmt (fun c => { c with eventReports := bump c.eventReports }) (mapMgmt (fun m => { m with flags := m.flags ||| flagBit f }) s)))
        rw [h]; exact ⟨m, p, rfl, h1, h2, h3, h4, h5⟩
      · exact ⟨_, _, rfl, rfl, rfl, rfl, rfl, rfl⟩
    · exact ⟨_, _, rfl, rfl, rfl, rfl, rfl, rfl⟩

theorem grantSet_bits (high low : Nat) (h1 : high < 4294967296) (h : low < 4294967296) :
    BitVec.ofNat 32 high ++ BitVec.ofNat 32 low = BitVec.ofNat 64 (high * 4294967296 + low) := by
  apply BitVec.eq_of_toNat_eq
  rw [BitVec.toNat_append]
  simp only [BitVec.toNat_ofNat]
  rw [Nat.mod_eq_of_lt (by omega), Nat.mod_eq_of_lt (a := low) (by omega), Nat.mod_eq_of_lt (by omega), ← Nat.shiftLeft_add_eq_or_of_lt (by omega), Nat.shiftLeft_eq]

theorem exec_done {code : Byte} {c : Cell} {rest : List Cell} {s : State} {row : Option Handed → Instr} (cmd :
    Command) (hrow : exec (row none) s = .next (takeCommand code cmd none s)) (h : accepted code c rest s) : 
   ∃ t, exec (row none) s = .next t ∧ (∀ units u, cmd c.units (takeHead c rest s) = .done units { u with mgmt := { u.mgmt with executing := some c } } → Answered c .ok units u t) ∧ (∀ st, cmd c.units (takeHead c rest s) = .refused st → RefusedWith c st rest s t) :=
  ⟨_, hrow, fun _ _ hd => takeCommand_done cmd h hd rfl, fun _ hd => takeCommand_refused cmd h hd⟩

end Sys2Proof
end

