-- ==== Sys2Proof/Laws/Counting.lean ====
section
/-!
SUPPORT. Counting.lean: counted events, one at a time and many at once.
-/

namespace Sys2Proof

open Machine

/-- No event leaves the count. -/
theorem bumpBy_zero (c : Count) : bumpBy c 0 = c := by
  unfold bumpBy
  have : c.toNat < 2 ^ 32 := c.isLt
  apply BitVec.eq_of_toNat_eq
  simp only [BitVec.toNat_ofNat]
  omega

/-- One event and then `n` are `n + 1`. -/
theorem bumpBy_bump (c : Count) (n : Nat) : bumpBy (bump c) n = bumpBy c (n + 1) := by
  unfold bumpBy bump
  have hc : c.toNat < 2 ^ 32 := c.isLt
  split
  · rename_i h; rw [h]
    congr 1
    have : (BitVec.allOnes 32).toNat = 0xFFFFFFFF := by decide
    rw [this]; omega
  · rename_i h
    have hne : c.toNat ≠ 0xFFFFFFFF := by
      intro e; apply h; apply BitVec.eq_of_toNat_eq; rw [e]; decide
    congr 1
    have : (c + 1).toNat = c.toNat + 1 := by rw [BitVec.toNat_add]; simp; omega
    rw [this]; congr 1; omega

/-- Events counted in two parts. -/
theorem bumpBy_add (c : Count) (n m : Nat) : bumpBy (bumpBy c n) m = bumpBy c (n + m) := by
  unfold bumpBy
  have hc : c.toNat < 2 ^ 32 := c.isLt
  congr 1
  rw [BitVec.toNat_ofNat]
  have : min (c.toNat + n) 0xFFFFFFFF % 2 ^ 32 = min (c.toNat + n) 0xFFFFFFFF := Nat.mod_eq_of_lt (by omega)
  rw [this]; omega

theorem bump_eq_bumpBy (c : Count) : bump c = bumpBy c 1 := by rw [← bumpBy_bump, bumpBy_zero]

end Sys2Proof
end

