-- ==== Sys2Proof/Laws/Ports.lean ====
section
/-!
SUPPORT. Ports.lean: what time, arrivals and expiries do to the ports and to the feeds, port by port.
-/

namespace Sys2Proof

open Machine

theorem portState_mapFeedState (x : Feed) (f : FeedState → FeedState) (s : State) (p : Port) :
    portState (mapFeedState x f s).feed p = portState s.feed p := by
  cases x <;> cases p <;> rfl

theorem feed_of_moves {s t : State} (h : Moves s t) (p : Port) : portState t.feed p =
    portState s.feed p := by rw [h.feed]

theorem portState_setSelection (x : Selection) (h : Handover) (s : State) (p : Port) :
    portState (setSelection x h s).feed p = portState s.feed p := by cases p <;> rfl

theorem portState_closeSecond (s : State) (p : Port) : portState (closeSecond s).feed p = portState s.feed p := by
  unfold closeSecond testQuality beginHandover
  split
  · split
    · rw [portState_setSelection, portState_mapFeedState, portState_mapFeedState]
    · rw [portState_mapFeedState, portState_mapFeedState]
  · rw [portState_mapFeedState, portState_mapFeedState]

theorem expireHoldover_feed (s : State) : (expireHoldover s).feed = s.feed := by
  unfold expireHoldover
  rw [(handClockMode_moves _ _ _ (by rw [setFlag_clock]; rfl)).feed, (setFlag_moves _ _).feed]; rfl

theorem countBoundary_feed (s : State) : (countBoundary s).feed = s.feed := by
  unfold countBoundary
  dsimp only
  split
  · exact expireHoldover_feed _
  · rfl

theorem passPort_add (a b : Nat) (x : PortState) : passPort a (passPort b x) = passPort (b + a) x := by
  unfold passPort addTicks; cases x.lossTimer <;> simp [Nat.add_assoc]

theorem passPort_zero (x : PortState) : passPort 0 x = x := by
  unfold passPort addTicks; cases h : x.lossTimer <;> simp [← h]

theorem advance_port (n : Nat) (s : State) (p : Port) :
    portState (advance n s).feed p = passPort n (portState s.feed p) := by
  unfold advance
  dsimp only
  split
  · rw [wrapSecond_feed, portState_closeSecond, countBoundary_feed]
    exact portState_run n s p
  · exact portState_run n s p

theorem letPass_port {n : Nat} {s : State} (p : Port) (h : clearFor n s) :
    portState (letPass n s).feed p = passPort n (portState s.feed p) := by
  rw [letPass_eq h]
  split
  · subst_vars; rw [passPort_zero]
  · exact advance_port n s p

theorem portState_mapPort_same (p : Port) (f : PortState → PortState) (s : State) :
    portState (mapPort p f s).feed p = f (portState s.feed p) := by cases p <;> rfl

theorem portState_feedLeft (x : Feed) (s : State) (p : Port) : portState (feedLeft x s).feed p =
    portState s.feed p := by
  have hn : ∀ q, portState (enterNoFeed q).feed p = portState q.feed p := by
    intro q; unfold enterNoFeed stopTaking
    rw [feed_of_moves (setFlag_moves _ _), portState_setSelection, portState_mapFeedState, portState_mapFeedState]
  have hs : ∀ y q, portState (stopTaking y q).feed p = portState q.feed p := fun y q => portState_mapFeedState _ _ _ _
  have hr : ∀ q, portState (countReversal q).feed p = portState q.feed p := fun q => by cases p <;> rfl
  unfold feedLeft
  split
  · split
    · split
      · rw [hs, portState_setSelection]
      · exact hn _
    · rfl
  · split
    · unfold turnBack
      dsimp only
      split
      · split <;> rw [hr, portState_setSelection]
      · exact hn _
    · split
      · rw [hs, portState_setSelection]
      · rfl
  · rfl

theorem portState_feedLeavesUp (x : Feed) (s : State) (p : Port) : portState (feedLeavesUp x s).feed p =
    portState s.feed p := by
  unfold feedLeavesUp
  rw [portState_feedLeft, portState_mapFeedState, feed_of_moves (setFlag_moves _ _)]

theorem portState_leaveUp (p : Port) (new : Machine.Alignment) (s : State) : portState (leaveUp p new s).feed p =
   { portState s.feed p with alignment := new, assembly := [], search := [], alignmentLosses := bump (portState s.feed p).alignmentLosses } := by
  unfold leaveUp
  dsimp only
  cases p
  · dsimp only; rw [portState_feedLeavesUp]; rfl
  · dsimp only; rw [portState_feedLeavesUp]; rfl
  · rfl

theorem portState_searchByte (p : Port) (b : Byte) (s : State) : portState (searchByte p b s).feed p =
   if searchSucceeds (portState s.feed p).search b then { portState s.feed p with alignment := .up, wrongLeads := 0, assembly := [b], search := [] }
   else { portState s.feed p with search := (b :: (portState s.feed p).search).take 640 } := by
  have hr : ∀ x q, portState (feedReached x q).feed p = portState q.feed p := by
    intro x q; unfold feedReached; split
    · exact portState_setSelection _ _ _ _
    · rfl
  unfold searchByte
  dsimp only
  by_cases h : searchSucceeds (portState s.feed p).search b = true
  · rw [if_pos h, if_pos h]
    cases p
    · dsimp only; rw [hr]; rfl
    · dsimp only; rw [hr]; rfl
    · rfl
  · rw [if_neg h, if_neg h]; rw [portState_mapPort_same]

theorem bytes_one (p : Port) (b : Byte) (s : State) : arriveBytes p [b] s = arriveByte p s b := by
  unfold arriveBytes
  split
  · rename_i h; unfold arriveByte; simp only [h.1]
  · rfl

/-- what is kept of ports and continuity by the gate and sorting -/
def FeedCore (u u' : FeedIntake) : Prop := (∀ p, portState u' p = portState u p) ∧
    ∀ y, (feedState u' y).continuity = (feedState u y).continuity ∧ (feedState u' y).erroredMark =
    (feedState u y).erroredMark ∧ (feedState u' y).continuityErrors = (feedState u y).continuityErrors

theorem FeedCore.refl (u : FeedIntake) : FeedCore u u := ⟨fun _ => rfl, fun _ => ⟨rfl, rfl, rfl⟩⟩

theorem FeedCore.trans {a b c : FeedIntake} (h1 : FeedCore a b) (h2 : FeedCore b c) : FeedCore a c :=
  ⟨fun p => (h2.1 p).trans (h1.1 p), fun y => ⟨(h2.2 y).1.trans (h1.2 y).1, (h2.2 y).2.1.trans (h1.2 y).2.1,
      (h2.2 y).2.2.trans (h1.2 y).2.2⟩⟩

theorem FeedCore.eq {a b : FeedIntake} (h : b = a) : FeedCore a b := h ▸ .refl a

theorem feedCore_moves {s t : State} (h : Moves s t) : FeedCore s.feed t.feed := .eq h.feed

theorem feedCore_setSelection (x : Selection) (h : Handover) (s : State) :
    FeedCore s.feed (setSelection x h s).feed := ⟨fun p => by cases p <;> rfl, fun y => by cases y <;> exact ⟨rfl, rfl, rfl⟩⟩

theorem feedCore_frame (x : Feed) (n : Option FrameNo) (s : State) :
    FeedCore s.feed (mapFeedState x (fun f => { f with currentFrame := n }) s).feed := ⟨fun p => by cases x <;> cases p <;> rfl, fun y => by cases x <;> cases y <;> exact ⟨rfl, rfl, rfl⟩⟩

theorem feedCore_discard (x : Feed) (pkt : Packet) (s : State) : FeedCore s.feed (gateDiscard x pkt s).feed := by
  unfold gateDiscard; dsimp only
  split <;> exact ⟨fun p => by cases x <;> cases p <;> rfl, fun y => by cases x <;> cases y <;> exact ⟨rfl, rfl, rfl⟩⟩

theorem feedCore_note (x : Feed) (pkt : Packet) (s : State) : FeedCore s.feed (noteFrame x pkt s).feed := by
  unfold noteFrame; split
  · exact feedCore_frame _ _ _
  · exact .refl _

theorem feedCore_gate (x : Feed) (pkt : Packet) (s : State) : FeedCore s.feed (gate x pkt s).2.feed := by
  unfold gate
  split
  · split
    · exact feedCore_note _ _ _
    · exact feedCore_discard _ _ _
  · exact feedCore_discard _ _ _
  · split
    · split
      · exact feedCore_discard _ _ _
      · split
        · exact FeedCore.trans (FeedCore.trans (feedCore_setSelection (.handoverTo _) { s.feed.handover with phase := .stopped, target := .frame (frameOf pkt) } s) (feedCore_frame x none _)) (feedCore_discard _ _ _)
        · exact feedCore_note _ _ _
    · split
      · unfold startTaking
        refine FeedCore.trans ?_ (feedCore_moves (setFlag_moves _ _))
        refine FeedCore.trans (b := (setSelection (.active x) {} s).feed) (feedCore_setSelection _ _ _) ?_
        refine FeedCore.trans (feedCore_frame x (some (frameOf pkt)) (setSelection (.active x) {} s)) ?_
        exact ⟨fun p => by cases p <;> rfl, fun y => by cases y <;> exact ⟨rfl, rfl, rfl⟩⟩
      · exact feedCore_discard _ _ _

theorem feedCore_decode (src : Source) (pkt : Packet) (s : State) : (decodePacket src pkt s).feed = s.feed := by
  have hc : ∀ k (acc : List Candidate × State) r, (handCopy pkt r k acc).2.feed = acc.2.feed := by
    intro k acc r
    unfold handCopy
    dsimp only
    have h := (frameCopy_moves k (countCopy (copyTag acc.2 r k) acc.2)).feed
    have h' : (countCopy (copyTag acc.2 r k) acc.2).feed = acc.2.feed := by unfold countCopy; split <;> rfl
    split <;> rename_i he <;> rw [he] at h <;> exact h.trans h'
  have hl : ∀ (l : List (Fin 4)) (acc : List Candidate × State) r,
      (l.foldl (fun acc k => handCopy pkt r k acc) acc).2.feed = acc.2.feed := by
    intro l; induction l with
    | nil => intros; rfl
    | cons k l ih => intro acc r; exact (ih _ _).trans (hc _ _ _)
  have hd : ∀ q, (applyDefault pkt q).feed = q.feed := by
    intro q; unfold applyDefault; split
    · rfl
    · rw [(admission_moves _ _ _).feed]; rfl
  have hr : ∀ q, (routePacket src pkt q).feed = q.feed := by
    intro q; unfold routePacket; split
    · rw [hd]; rfl
    · unfold makeCopies; dsimp only
      split
      · split <;> rfl
      · split
        · rw [(admission_moves _ _ _).feed]; refine (hl _ _ _).trans ?_; split <;> rfl
        · rw [(admission_moves _ _ _).feed]; refine (hl _ _ _).trans ?_; split <;> rfl
    · rw [hd, (setFlag_moves _ _).feed]; rfl
  unfold decodePacket setDecode
  cases src <;> dsimp only <;> rw [mapRoute_feed, hr] <;> rfl

theorem feedCore_hand (src : Source) (c : Cell) (s : State) : (handCell src c s).feed = s.feed := by
  unfold handCell; split
  · exact (abandon_moves _ _).feed
  · unfold queueCell; split
    · rfl
    · rw [(setFlag_moves _ _).feed]; rfl

theorem feedCore_feed (pkt : Packet) (s : State) : FeedCore s.feed (sortFeed pkt s).feed := by
  unfold sortFeed
  split
  · exact .eq (feedCore_hand _ _ _)
  · split
    · exact ⟨fun p => by cases p <;> rfl, fun y => by cases y <;> exact ⟨rfl, rfl, rfl⟩⟩
    · split
      · exact feedCore_moves (Moves.forAll (takeTiming_moves _) _ _)
      · split
        · exact .refl _
        · split
          · exact feedCore_moves (takeCue_moves _ _ _)
          · exact .eq (feedCore_decode _ _ _)

theorem feedCore_local (pkt : Packet) (s : State) : FeedCore s.feed (sortLocal pkt s).feed := by
  unfold sortLocal
  split
  · exact .eq (feedCore_hand _ _ _)
  · split
    · exact ⟨fun p => by cases p <;> rfl, fun y => by cases y <;> exact ⟨rfl, rfl, rfl⟩⟩
    · split
      · exact ⟨fun p => by cases p <;> rfl, fun y => by cases y <;> exact ⟨rfl, rfl, rfl⟩⟩
      · split
        · exact .refl _
        · split
          · rename_i i f _
            obtain ⟨v, hv, _, hc, _⟩ := appendPacket_fields i f pkt s
            exact .eq (hv.feed.trans hc)
          · split
            · exact ⟨fun p => by cases p <;> rfl, fun y => by cases y <;> exact ⟨rfl, rfl, rfl⟩⟩
            · exact .eq (feedCore_decode _ _ _)

theorem feedState_mapPort (p : Port) (f : PortState → PortState) (s : State) (y : Feed) :
    feedState (mapPort p f s).feed y = feedState s.feed y := by
  cases p <;> cases y <;> rfl

theorem feedState_mapFeedState (x : Feed) (f : FeedState → FeedState) (s : State) :
    feedState (mapFeedState x f s).feed x = f (feedState s.feed x) := by
  cases x <;> rfl

theorem continuityError_iff (e : Continuity) (pkt : Packet) : (continuityError e pkt && pkt.label != fillLabel) =
    true ↔ (e.seen = true ∧ pkt.seq ≠ e.last + 1 ∧ pkt.d = false ∧ pkt.label ≠ 4095) := by
  simp only [continuityError, Bool.and_eq_true, bne_iff_ne, Bool.not_eq_true', and_assoc, fillLabel]

theorem portState_checkContinuity (x : Feed) (pkt : Packet) (s : State) (p : Port) :
    portState (checkContinuity x pkt s).feed p = portState s.feed p := by
  unfold checkContinuity
  dsimp only
  rw [portState_mapFeedState]
  split
  · unfold markErrored; rw [portState_mapFeedState, portState_mapFeedState]
  · rfl

theorem feedCore_packet (x : Feed) (pkt : Packet) (s : State) :
    FeedCore (checkContinuity x pkt s).feed (feedPacket x pkt s).feed := by
  unfold feedPacket
  have h := feedCore_gate x pkt (checkContinuity x pkt s)
  split
  · rename_i s1 e; rw [e] at h; exact h.trans (feedCore_feed _ _)
  · rename_i s1 e; rw [e] at h; exact h

theorem feedCore_port {u u' : FeedIntake} (h : FeedCore u u') (p : Port) : portState u' p = portState u p := h.1 p

theorem errored_leaveUp (p : Port) (new : Machine.Alignment) (s : State) (y : Feed) :
    (feedState (leaveUp p new s).feed y).erroredMark = (feedState s.feed y).erroredMark := by
  have h1 : ∀ x q, (feedState (stopTaking x q).feed y).erroredMark = (feedState q.feed y).erroredMark := by
    intro x q; cases x <;> cases y <;> rfl
  have h2 : ∀ x h q, (feedState (setSelection x h q).feed y).erroredMark = (feedState q.feed y).erroredMark := by
    intro x h q; cases y <;> rfl
  have h3 : ∀ q, (feedState (enterNoFeed q).feed y).erroredMark = (feedState q.feed y).erroredMark := by
    intro q; unfold enterNoFeed; rw [(setFlag_moves _ _).feed, h2, h1, h1]
  have h4 : ∀ q, (feedState (countReversal q).feed y).erroredMark = (feedState q.feed y).erroredMark := by
    intro q; cases y <;> rfl
  have h5 : ∀ x q, (feedState (feedLeft x q).feed y).erroredMark = (feedState q.feed y).erroredMark := by
    intro x q
    unfold feedLeft
    split
    · split
      · split
        · rw [h1, h2]
        · exact h3 _
      · rfl
    · split
      · unfold turnBack; dsimp only
        split
        · split <;> rw [h4, h2]
        · exact h3 _
      · split
        · rw [h1, h2]
        · rfl
    · rfl
  have h6 : ∀ x q, (feedState (feedLeavesUp x q).feed y).erroredMark = (feedState q.feed y).erroredMark := by
    intro x q; unfold feedLeavesUp; rw [h5]
    have : feedState q.feed y = feedState (setFlag (downFlag x) q).feed y := by rw [(setFlag_moves _ _).feed]
    rw [this]
    cases x <;> cases y <;> rfl
  unfold leaveUp; dsimp only
  cases p
  · dsimp only; rw [h6, feedState_mapPort]
  · dsimp only; rw [h6, feedState_mapPort]
  · dsimp only; rw [feedState_mapPort]

theorem expire_port (p : Port) (s : State) : (portState (expireLossTimer p s).feed p).alignment = .down ∧
    (portState (expireLossTimer p s).feed p).lossTimer = none := by
  unfold expireLossTimer
  dsimp only
  split
  · rw [portState_leaveUp, portState_mapPort_same]; exact ⟨rfl, rfl⟩
  · cases p <;> exact ⟨rfl, rfl⟩
  · rename_i h; rw [portState_mapPort_same]; exact ⟨h, rfl⟩

theorem letPass_feed_keeps {α : Type} (φ : FeedIntake → α) (hrun : ∀ n (s : State), φ (runTicks n s).feed = φ s.feed)
    (hclose : ∀ s, φ (closeSecond s).feed = φ s.feed) {n : Nat} {s : State} (h : clearFor n s) :
    φ (letPass n s).feed = φ s.feed := by
  rw [letPass_eq h]
  split
  · rfl
  · unfold advance
    dsimp only
    split
    · rw [wrapSecond_feed, hclose, countBoundary_feed]
      exact hrun n s
    · exact hrun n s

theorem seekingTimeouts_close (s : State) : (closeSecond s).feed.seekingTimeouts = s.feed.seekingTimeouts := by
  unfold closeSecond testQuality beginHandover
  split
  · split <;> rfl
  · rfl

theorem continuity_close (x : Feed) (s : State) :
    (feedState (closeSecond s).feed x).continuity = (feedState s.feed x).continuity := by
  have hf : ∀ u f, (closeFeedSecond u f).continuity = f.continuity := by
    intro u f; unfold closeFeedSecond; dsimp only; split <;> (try split) <;> rfl
  have hm : ∀ y u (q : State), (feedState (mapFeedState y (closeFeedSecond u) q).feed x).continuity
      = (feedState q.feed x).continuity := by
    intro y u q; cases x <;> cases y <;> first | exact hf _ _ | rfl
  unfold closeSecond testQuality beginHandover
  split
  · split
    · exact Eq.trans (by cases x <;> rfl) ((hm _ _ _).trans (hm _ _ _))
    · exact (hm _ _ _).trans (hm _ _ _)
  · exact (hm _ _ _).trans (hm _ _ _)

/-- The selection's part in feed `x`'s leaving UP changes nothing that a feed's unit keeps but its frame in progress. -/
theorem feedLeft_keeps {α : Type} (g : FeedState → α) (hg : ∀ f, g { f with currentFrame := none } = g f) (x y : Feed)
    (q : State) : g (feedState (feedLeft x q).feed y) = g (feedState q.feed y) := by
  have h1 : ∀ z q, g (feedState (stopTaking z q).feed y) = g (feedState q.feed y) := by
    intro z q; cases y <;> cases z <;> first | exact hg _ | rfl
  have h2 : ∀ z h q, g (feedState (setSelection z h q).feed y) = g (feedState q.feed y) := by
    intro z h q; cases y <;> rfl
  have h3 : ∀ q, g (feedState (enterNoFeed q).feed y) = g (feedState q.feed y) := by
    intro q; unfold enterNoFeed; rw [(setFlag_moves _ _).feed, h2, h1, h1]
  have h4 : ∀ q, g (feedState (countReversal q).feed y) = g (feedState q.feed y) := by
    intro q; cases y <;> rfl
  unfold feedLeft
  split
  · split
    · split
      · rw [h1, h2]
      · exact h3 _
    · rfl
  · split
    · unfold turnBack; dsimp only
      split
      · split <;> rw [h4, h2]
      · exact h3 _
    · split
      · rw [h1, h2]
      · rfl
  · rfl

theorem feedLeft_up (x : Feed) (q : State) : (feedState (feedLeft x q).feed x).upThroughout =
    (feedState q.feed x).upThroughout := feedLeft_keeps FeedState.upThroughout (fun _ => rfl) x x q

theorem mapFeedState_handover (x : Feed) (f : FeedState → FeedState) (s : State) :
    (mapFeedState x f s).feed.handover = s.feed.handover := by cases x <;> rfl

theorem expire_other (p q : Port) (s : State) (h : q ≠ p) : portState (expireLossTimer q s).feed p =
    portState s.feed p := by
  have hm : ∀ f s, portState (mapPort q f s).feed p = portState s.feed p := by
    intro f s; cases p <;> cases q <;> first | rfl | exact absurd rfl h
  unfold expireLossTimer
  dsimp only
  split
  · unfold leaveUp; dsimp only
    cases q <;> dsimp only <;> try rw [portState_feedLeavesUp]
    all_goals rw [hm, hm]
  · refine Eq.trans ?_ ((hm (fun x => { x with alignment := .down, search := [] }) (mapPort q (fun x => { x with lossTimer := none }) s)).trans (hm _ _)); cases p <;> rfl
  · exact hm _ _

theorem settle_port (p q : Port) (s : State) : portState (settleLossTimer q s).feed p =
    if q = p ∧ lossTimerDue p s = true then portState (expireLossTimer p s).feed p else portState s.feed p := by
  unfold settleLossTimer
  by_cases h : q = p
  · subst h
    by_cases hd : lossTimerDue q s = true
    · rw [if_pos hd, if_pos ⟨rfl, hd⟩]
    · rw [if_neg hd, if_neg (fun h => hd h.2)]
  · have h2 : ¬(q = p ∧ lossTimerDue p s = true) := fun hc => h hc.1
    rw [if_neg h2]
    by_cases hd : lossTimerDue q s = true
    · rw [if_pos hd]; exact expire_other _ _ _ h
    · rw [if_neg hd]

theorem mode_eq (mode : Option Nat) (hm : ∀ m, mode = some m → m < 2) (d : SwitchMode) :
    (match (generalizing := false) mode with | none => d | some v => switchModeOf v) =
    (match (generalizing := false) mode with | none => d | some 0 => .auto | some _ => .manual) := by
    rcases mode with _ | _ | _ | v
    · rfl
    · rfl
    · rfl
    · exact absurd (hm _ rfl) (by omega)

theorem settleLossTimer_arrives (q : Port) (s : State) : Arrives s (settleLossTimer q s) := by
  unfold settleLossTimer; split
  · exact expireLossTimer_arrives _ _
  · exact .refl

theorem lossTimerDue_congr (p : Port) {s t : State} (h : portState t.feed p = portState s.feed p) (h2 :
    t.feed.lossExp = s.feed.lossExp) : lossTimerDue p t = lossTimerDue p s := by
  unfold lossTimerDue lossLimit; rw [h, h2]

theorem arrives_lossExp {s t : State} (h : Arrives s t) : t.feed.lossExp = s.feed.lossExp := by
  have := h.policy; simp only [FeedIntake.policy, Prod.mk.injEq] at this; exact this.2.2

theorem settle_all (p : Port) (s : State) (h : lossTimerDue p s = true) :
   (portState (forAll allPorts settleLossTimer s).feed p).alignment = .down ∧
       (portState (forAll allPorts settleLossTimer s).feed p).lossTimer = none := by
  have key : ∀ (l : List Port) (s : State), (portState s.feed p).alignment = .down ∧
      (portState s.feed p).lossTimer = none →
     (portState (forAll l settleLossTimer s).feed p).alignment = .down ∧
         (portState (forAll l settleLossTimer s).feed p).lossTimer = none := by
    intro l; induction l with
    | nil => exact fun _ h => h
    | cons q l ih =>
      intro s hs
      refine ih _ ?_
      rw [settle_port, if_neg]
      · exact hs
      · rintro ⟨-, hd⟩; unfold lossTimerDue at hd; rw [hs.2] at hd; cases hd
  have key2 : ∀ (l : List Port) (s : State), p ∈ l → lossTimerDue p s = true →
     (portState (forAll l settleLossTimer s).feed p).alignment = .down ∧
         (portState (forAll l settleLossTimer s).feed p).lossTimer = none := by
    intro l; induction l with
    | nil => exact fun _ h => by cases h
    | cons q l ih =>
      intro s hm hd
      by_cases hq : q = p
      · refine key l _ ?_
        rw [settle_port, if_pos ⟨hq, hd⟩]
        exact expire_port p s
      · have hm' : p ∈ l := by cases hm with
          | head => exact absurd rfl hq
          | tail _ h => exact h
        refine ih _ hm' ?_
        rw [lossTimerDue_congr p (s := s)]
        · exact hd
        · rw [settle_port, if_neg (fun h => hq h.1)]
        · exact arrives_lossExp (settleLossTimer_arrives q s)
  exact key2 allPorts s (by cases p <;> decide) h

theorem settle_noop (l : List Port) (s : State) (h : ∀ p, lossTimerDue p s = false) : forAll l settleLossTimer s =
    s := by
  induction l generalizing s with
  | nil => rfl
  | cons q l ih =>
    have : settleLossTimer q s = s := by unfold settleLossTimer; rw [if_neg (by simp [h])]
    show forAll l settleLossTimer (settleLossTimer q s) = s
    rw [this, ih s h]

theorem clampOr_general (lo hi old : Nat) (v : Option Nat) : clampOr lo hi old v =
    (v.map (fun v => max lo (min hi v))).getD old := by
  cases v <;> rfl

end Sys2Proof
end

