-- ==== Sys2Proof/Laws/Outputs.lean ====
section
/-!
SUPPORT. Outputs.lean: what the operations of the emission side and of the pool do to one output, and what they leave.
-/

namespace Sys2Proof

open Machine

/-- Only the engine, programme, store, management state and the monitor port may change. -/
def Within (s t : State) : Prop := t.outs = s.outs ∧ t.clock = s.clock ∧ t.feed = s.feed ∧ t.route = s.route ∧
    t.pending = s.pending
  ∧ t.pool.buffers = s.pool.buffers ∧ t.pool.monitorQueue = s.pool.monitorQueue ∧
      t.pool.counters = s.pool.counters ∧ t.pool.lowMark = s.pool.lowMark

theorem Within.refl (s : State) : Within s s := ⟨rfl, rfl, rfl, rfl, rfl, rfl, rfl, rfl, rfl⟩

theorem Within.trans {s t u : State} (h : Within s t) (h' : Within t u) : Within s u := by
  obtain ⟨a, b, c, d, e, f, g, i, j⟩ := h
  obtain ⟨a', b', c', d', e', f', g', i', j'⟩ := h'
  exact ⟨a'.trans a, b'.trans b, c'.trans c, d'.trans d, e'.trans e, f'.trans f, g'.trans g, i'.trans i, j'.trans j⟩

theorem Within.after {s t u : State} (h' : Within t u) (h : Within s t) : Within s u := h.trans h'

theorem Within.forAll {α : Type} {f : α → State → State} (hf : ∀ a s, Within s (f a s)) (l : List α) (s : State) :
    Within s (forAll l f s) := by
  induction l generalizing s with
  | nil => exact .refl _
  | cons a l ih => exact (hf a s).trans (ih _)

theorem Within.ite {c : Prop} [Decidable c] {s t u : State} (h1 : Within s t) (h2 : Within s u) :
    Within s (if c then t else u) := by
  split <;> assumption

theorem within_setFlag (f : Flag) (s : State) : Within s (setFlag f s) := by
  obtain ⟨m, p, e, -⟩ := setFlag_kept f s; rw [e]; exact ⟨rfl, rfl, rfl, rfl, rfl, rfl, rfl, rfl, rfl⟩

theorem within_ctx (c : Fin 16) (f : Context → Context) (s : State) :
    Within s (mapContext c f s) := ⟨rfl, rfl, rfl, rfl, rfl, rfl, rfl, rfl, rfl⟩

theorem within_cnt (f : EngineCounters → EngineCounters) (s : State) :
    Within s (countEngine f s) := ⟨rfl, rfl, rfl, rfl, rfl, rfl, rfl, rfl, rfl⟩

theorem within_seg (g : Nat) (f : Segment → Segment) (s : State) :
    Within s (mapSegment g f s) := ⟨rfl, rfl, rfl, rfl, rfl, rfl, rfl, rfl, rfl⟩

theorem within_prog (g : Nat) (f : Programme → Programme) (s : State) :
    Within s (mapProgramme g f s) := ⟨rfl, rfl, rfl, rfl, rfl, rfl, rfl, rfl, rfl⟩

theorem within_pcnt (f : ProgrammeCounters → ProgrammeCounters) (s : State) :
    Within s (countProgs f s) := ⟨rfl, rfl, rfl, rfl, rfl, rfl, rfl, rfl, rfl⟩

theorem within_setPos (c : Fin 16) (p : Position) (s : State) : Within s (setPosition c p s) := by
  unfold setPosition
  refine (within_ctx _ _ _).after ?_
  refine Within.ite ?_ ?_
  · exact .ite (.refl _) (by split <;> first | exact within_seg _ _ _ | exact .refl _)
  · split
    · exact (within_seg _ _ _).after (.ite (.refl _) (by split <;> first | exact within_seg _ _ _ | exact .refl _))
    · exact .ite (.refl _) (by split <;> first | exact within_seg _ _ _ | exact .refl _)

theorem within_setOwner (p : Nat) (c : Option (Fin 16)) (s : State) : Within s (setOwner p c s) := within_prog _ _ _

theorem within_relinquish (c : Fin 16) (s : State) : Within s (relinquish c s) := .ite (within_setOwner _ _ _)
    (.refl _)

theorem within_leaveByEnd (c : Fin 16) (s : State) : Within s (leaveByEnd c s) :=
  (within_setFlag _ _).after ((within_cnt _ _).after ((within_ctx _ _ _).after (within_setPos _ _ _)))

theorem within_cueMissed (s : State) : Within s (cueMissed s) := (within_setFlag _ _).after (within_cnt _ _)

theorem within_offer (c : Fin 16) (x : Splice) (s : State) :
    Within s (offerSplice c x s) := .ite (within_ctx _ _ _) ((within_cueMissed _).after (within_ctx _ _ _))

theorem within_takeLatch (c : Fin 16) (s : State) : Within s (takeLatch c s) := by
  unfold takeLatch; split
  · exact .refl _
  · exact (within_offer _ _ _).after (within_ctx _ _ _)

theorem within_rearm (c : Fin 16) (s : State) : Within s (rearmLatch c s) := .ite (within_takeLatch _ _) (.refl _)

theorem within_endBreaks (k : Fin 4) (s : State) : Within s (endBreaks k s) :=
  (Within.forAll within_rearm _ _).after ((Within.forAll within_relinquish _ _).after (Within.forAll within_leaveByEnd _ _))

theorem within_dropSplice (c : Fin 16) (s : State) : Within s (dropSplice c s) := by
  unfold dropSplice; split
  · exact .refl _
  · exact (within_cueMissed _).after (within_ctx _ _ _)

theorem within_dropSplices (k : Fin 4) (s : State) : Within s (dropSplices k s) := .forAll within_dropSplice _ _

theorem within_dropPassed (k : Fin 4) (x : Point) (s : State) :
    Within s (dropPassedSplices k x s) := .forAll within_dropSplice _ _

theorem within_workOffset (st : Int) (c : Fin 16) (s : State) : Within s (workOffset st c s) := by
  unfold workOffset
  dsimp only
  split
  · exact (within_ctx _ _ _).after (within_pcnt _ _)
  · exact (within_ctx _ _ _).after ((within_prog _ _ _).after ((within_pcnt _ _).after (within_pcnt _ _)))
  · exact (within_ctx _ _ _).after ((within_prog _ _ _).after ((within_pcnt _ _).after (within_pcnt _ _)))

theorem within_halt (c : Fin 16) (r : HaltReason) (s : State) : Within s (haltContext c r s) :=
  (within_relinquish _ _).after ((within_setFlag _ _).after ((within_cnt _ _).after ((within_ctx _ _ _).after (within_setPos _ _ _))))

theorem within_settleOwner (l : List (Fin 16)) (p : Nat) (s : State) : Within s (settleOwner l p s) := by
  unfold settleOwner
  split
  · exact .refl _
  · exact within_setOwner _ _ _
  · exact .ite ((within_setOwner _ _ _).after (within_cnt _ _)) (.refl _)

theorem within_enterHead (c : Fin 16) (s : State) : Within s (enterHead c s) := by
  unfold enterHead; split
  · exact within_halt _ _ _
  · exact within_setPos _ _ _

theorem within_activate (k : Fin 4) (x : Point) (st : Int) (s : State) : Within s (activate k x st s) :=
  (Within.forAll within_enterHead _ _).after ((Within.forAll (within_settleOwner _) _ _).after ((Within.forAll (within_workOffset st) _ _).after
    (Within.forAll (fun _ _ => (within_cnt _ _).after (within_ctx _ _ _)) _ _)))

theorem within_countSlots (k : Fin 4) (d : Option Nat) (s : State) :
    Within s (countSlots k d s) := .forAll (fun _ _ => within_ctx _ _ _) _ _

theorem within_reportSlot (k : Fin 4) (d : Option Nat) (s : State) : Within s (reportSlot k d s) :=
  (within_endBreaks _ _).after (within_countSlots _ _ _)

theorem within_recordSample (p : Nat) (st : Int) (v : Sample) (s : State) : Within s (recordSample p st v s) :=
  (within_prog _ _ _).after (.ite (within_pcnt _ _) (.refl _))

theorem within_recordEntry (k : Fin 4) (d st : Int) (e : Entry) (s : State) : Within s (recordEntry k d st e s) := by
  unfold recordEntry
  dsimp only
  refine .ite ?_ (.refl _)
  split
  · exact (within_recordSample _ _ _ _).after ((within_pcnt _ _).after (.ite (.refl _) (within_pcnt _ _)))
  · exact (within_pcnt _ _).after (.ite (.refl _) (within_pcnt _ _))

theorem within_leaveByStop (c : Fin 16) (s : State) :
    Within s (leaveByStop c s) := (within_cnt _ _).after ((within_ctx _ _ _).after (within_setPos _ _ _))

theorem within_stopActive (l : List (Fin 16)) (s : State) :
    Within s (stopActive l s) := (Within.forAll within_relinquish _ _).after (Within.forAll within_leaveByStop _ _)

theorem within_endHold (st : Status) (s : State) : Within s (endHold st s) := by
  have gp : ∀ s : State, Within s (givePlaces s) := by
    intro s
    unfold givePlaces placeOwedReport placeAbandonReply
    have : Within s (match s.mgmt.abandonReply with
      | none => s
      | some r =>
        if placeFree s.mgmt = true then
          appendReport r (mapMgmt (fun m => { m with
            abandonReply := none
            counters := { m.counters with repliesMade := bump m.counters.repliesMade } }) s)
        else s : State) := by
      split
      · exact .refl _
      · split
        · exact ⟨rfl, rfl, rfl, rfl, rfl, rfl, rfl, rfl, rfl⟩
        · exact .refl _
    refine Within.ite (Within.trans this ⟨rfl, rfl, rfl, rfl, rfl, rfl, rfl, rfl, rfl⟩) this
  unfold endHold
  split
  · exact .refl _
  · unfold endCommand
    split
    · exact ⟨rfl, rfl, rfl, rfl, rfl, rfl, rfl, rfl, rfl⟩
    · unfold placeReport choosePort
      refine Within.trans (t := appendReport _ (mapMgmt _ (mapMgmt _ s))) ⟨rfl, rfl, rfl, rfl, rfl, rfl, rfl,
          rfl, rfl⟩ (.ite (.refl _) ?_)
      split
      · exact (gp _).after ⟨rfl, rfl, rfl, rfl, rfl, rfl, rfl, rfl, rfl⟩
      · split
        · exact ⟨rfl, rfl, rfl, rfl, rfl, rfl, rfl, rfl, rfl⟩
        · exact .refl _

theorem within_testHold (s : State) : Within s (testHold s) := by
  unfold testHold; split
  · exact .refl _
  · exact .ite (within_endHold _ _) (.refl _)

theorem runTicks_zero (s : State) : runTicks 0 s = s := by
  have h1 : ∀ p : PortState, passPort 0 p = p := passPort_zero
  have h2 : passClock 0 s.clock = s.clock := by
    unfold passClock addTicks
    cases hw : s.clock.pulseWatch <;> simp [← hw]
  have h3 : ∀ k s, passOutput 0 k s = s := by
    intro k s; unfold passOutput mapOut
    have : (s.outs[k].slot.map fun x => { x with remaining := x.remaining - 0 }) = s.outs[k].slot := by cases s.outs[k].slot <;> rfl
    simp only [this]
    show { s with outs := s.outs.set k s.outs[k] } = s
    have : s.outs.set k s.outs[k] = s.outs := by
      apply Vector.ext; intro i hi; simp
    rw [this]
  have h4 : ∀ l s, forAll l (passOutput 0) s = s := by
    intro l; induction l with
    | nil => intro s; rfl
    | cons a l ih => intro s; show forAll l (passOutput 0) (passOutput 0 a s) = s; rw [h3, ih]
  unfold runTicks
  rw [h4]
  unfold mapClock mapFeed mapPool mapMgmt
  simp only [h1, h2, Nat.sub_zero, Nat.add_zero]
  have h5 : (s.pool.port.map fun x => x) = s.pool.port := by simp
  have h6 : (s.mgmt.hold.map fun x => x) = s.mgmt.hold := by simp
  simp

theorem letPass_run {n : Nat} {s : State} (ht : s.clock.tick + n < 20000000) (h : clearFor n s) : letPass n s =
    runTicks n s := by
  rw [letPass_eq h]
  split
  · subst_vars; exact (runTicks_zero s).symm
  · exact advance_run ht

theorem endSlot_out (k : Fin 4) (s : State) : (endSlot k s).outs[(k : Nat)] =
    { s.outs[(k:Nat)] with slot := none, line := (if s.outs[(k:Nat)].slot.isSome then none else s.outs[(k:Nat)].line), queue := leftAfterSlot s.outs[(k:Nat)] } := by
  unfold endSlot leftAfterSlot
  cases h : s.outs[(k:Nat)].slot with
  | none => simp [h]; exact (by cases hh : s.outs[(k:Nat)]; simp_all)
  | some x =>
    simp [h]
    cases hx : x.sends with
    | false => simp
    | true =>
      unfold removeHead
      cases hq : s.outs[(k:Nat)].queue with
      | nil => simp [hq]
      | cons e rest =>
        simp only [Fin.getElem_fin, hq, releaseEntry]
        have : ∀ b q, (releaseBuffer b q).outs = q.outs := by
          intro b q; unfold releaseBuffer; dsimp only; split
          · rfl
          · split <;> rfl
        simp [this, countPool]

theorem buffer_put {s : State} (h : tableWf {} s.pool.buffers = true) (b d : Nat) (x : Buffer) :
    tableGet {} (tablePut {} s.pool.buffers b x) d = if d = b then x else buffer s d := by
  rw [tableGet_put _ h]; rfl

theorem buffer_releaseBuffer {s : State} (h : tableWf {} s.pool.buffers = true) (b : Nat) :
    (buffer (releaseBuffer b s) b).refs = (buffer s b).refs - 1 ∧ (∀ d, d ≠ b →
        buffer (releaseBuffer b s) d = buffer s d) ∧
    (releaseBuffer b s).pool.monitorQueue = s.pool.monitorQueue ∧ (releaseBuffer b s).pool.port = s.pool.port
    ∧ (releaseBuffer b s).pool.counters.monitorReleases = s.pool.counters.monitorReleases
    ∧ (releaseBuffer b s).pool.counters.emissionReleases = s.pool.counters.emissionReleases
    ∧ (releaseBuffer b s).outs = s.outs ∧ (releaseBuffer b s).mgmt = s.mgmt ∧ (releaseBuffer b s).clock = s.clock := by
  unfold releaseBuffer
  dsimp only
  split
  · rename_i h0; rw [h0]; exact ⟨rfl, fun _ _ => rfl, rfl, rfl, rfl, rfl, rfl, rfl, rfl⟩
  · split
    · rename_i h0 h1
      refine ⟨?_, fun d hd => ?_, rfl, rfl, rfl, rfl, rfl, rfl, rfl⟩
      · change (tableGet {} (tablePut {} s.pool.buffers b {}) b).refs = _
        rw [buffer_put h, if_pos rfl, h1]
      · change tableGet {} (tablePut {} s.pool.buffers b {}) d = _
        rw [buffer_put h, if_neg hd]
    · refine ⟨?_, fun d hd => ?_, rfl, rfl, rfl, rfl, rfl, rfl, rfl⟩
      · change (tableGet {} (tablePut {} s.pool.buffers b _) b).refs = _
        rw [buffer_put h, if_pos rfl]
      · change tableGet {} (tablePut {} s.pool.buffers b _) d = _
        rw [buffer_put h, if_neg hd]

theorem releaseBuffer_plain (b : Nat) (s : State) : (releaseBuffer b s).pool.monitorQueue = s.pool.monitorQueue ∧
    (releaseBuffer b s).outs = s.outs ∧ (releaseBuffer b s).mgmt = s.mgmt ∧ (releaseBuffer b s).clock = s.clock ∧
    (releaseBuffer b s).pool.port = s.pool.port := by
  unfold releaseBuffer
  dsimp only
  split
  · exact ⟨rfl, rfl, rfl, rfl, rfl⟩
  · split <;> exact ⟨rfl, rfl, rfl, rfl, rfl⟩

theorem givePlaces_pool (s : State) : (givePlaces s).pool = s.pool ∧
    s.mgmt.reportQueue <+: (givePlaces s).mgmt.reportQueue ∧ (givePlaces s).mgmt.sequence = s.mgmt.sequence := by
  obtain ⟨m, e, -, -, -, -, -, -, h7, -, h9⟩ := givePlaces_fields s
  rw [e]; exact ⟨rfl, h9, h7⟩

theorem choosePort_facts (s : State) (hp : s.pool.port = none) :
    (choosePort s).pool.monitorQueue = s.pool.monitorQueue ∧ (choosePort s).pool.buffers = s.pool.buffers ∧
        (choosePort s).pool.counters = s.pool.counters
    ∧ (∀ r rest, s.mgmt.reportQueue = r :: rest → (choosePort s).pool.port = some { isCopy := false, packet := reportPacket r s.mgmt.sequence, remaining := 128 }
        ∧ (choosePort s).mgmt.sequence = s.mgmt.sequence + 1 ∧ rest <+: (choosePort s).mgmt.reportQueue)
    ∧ (∀ b rest, s.mgmt.reportQueue = [] → s.pool.monitorQueue = b :: rest →
        (choosePort s).pool.port = some { isCopy := true, packet := ((buffer s b).contents).getD fillPacket, remaining := 128 } ∧ (choosePort s).mgmt.sequence = s.mgmt.sequence)
    ∧ (s.mgmt.reportQueue = [] → s.pool.monitorQueue = [] → (choosePort s).pool.port = none) := by
  unfold choosePort
  rw [if_neg (by simp [hp])]
  cases hr : s.mgmt.reportQueue with
  | cons r rest =>
    obtain ⟨h1, h2, h3⟩ := givePlaces_pool (sendReport r rest s)
    dsimp only
    rw [h1, h3]
    refine ⟨rfl, rfl, rfl, ?_, ?_, ?_⟩
    · intro r' rest' h
      cases h
      exact ⟨rfl, rfl, h2⟩
    · intro _ _ h; cases h
    · intro h; cases h
  | nil =>
    cases hm : s.pool.monitorQueue with
    | cons b rest =>
      refine ⟨hm, rfl, rfl, fun _ _ h => (by cases h), fun b' rest' _ h => (by cases h; exact ⟨rfl, rfl⟩), fun _ h => by cases h⟩
    | nil => exact ⟨hm, rfl, rfl, fun _ _ h => (by cases h), fun _ _ _ h => (by cases h), fun _ _ => hp⟩

theorem moves_endSlot (k : Fin 4) (s : State) : Moves s (endSlot k s) := endSlot_moves k s

theorem mapOut_other (k j : Fin 4) (f : Output → Output) (s : State) (h : j ≠ k) : (mapOut k f s).outs[(j:Nat)] =
    s.outs[(j:Nat)] := by
  have hkj : (k : Nat) ≠ j := fun e => h (Fin.ext e.symm)
  show (s.outs.set k (f s.outs[k]))[(j:Nat)] = _
  rw [Vector.getElem_set_ne _ _ hkj]

theorem mapOut_same (k : Fin 4) (f : Output → Output) (s : State) : (mapOut k f s).outs[(k:Nat)] =
    f s.outs[(k:Nat)] := by
  show (s.outs.set k (f s.outs[k]))[(k:Nat)] = _
  rw [Vector.getElem_set_self]; rfl

theorem outs_congr {s t : State} (h : t.outs = s.outs) (j : Fin 4) : t.outs[(j:Nat)] = s.outs[(j:Nat)] := by rw [h]

theorem removeHead_other (kd : Removal) (k j : Fin 4) (s : State) (h : j ≠ k) : (removeHead kd k s).outs[(j:Nat)] =
    s.outs[(j:Nat)] := by
  unfold removeHead
  split
  · rfl
  · rename_i e rest _
    exact (outs_congr (releaseBuffer_plain _ _).2.1 j).trans (mapOut_other k j (fun o => { o with queue := rest }) s h)

theorem endSlot_other (k j : Fin 4) (s : State) (h : j ≠ k) : (endSlot k s).outs[(j:Nat)] = s.outs[(j:Nat)] := by
  unfold endSlot
  split
  · rfl
  · rw [mapOut_other _ _ _ _ h]
    split
    · exact removeHead_other _ _ _ _ h
    · rfl

theorem tableGap_free {t : Table Buffer} (h : tableWf {} t = true) : tableGet {} t (tableGap t 0) = {} := by
  have key : ∀ (t : Table Buffer) (lo : Option Nat) (n : Nat), tableWfFrom {} lo t = true → (n = match lo with | none => 0 | some l => l + 1) → tableGet {} t (tableGap t n) = {} := by
    intro t
    induction t with
    | nil => intros; rfl
    | cons e t ih =>
      obtain ⟨k, v⟩ := e
      intro lo n hw hlo
      rw [tableWfFrom_cons] at hw
      have hw' : tableWfFrom {} (some k) t = true := by simp_all
      unfold tableGap
      split
      · rename_i hk
        have hg : n + 1 ≤ tableGap t (n + 1) := by
          have : ∀ (t : Table Buffer) m, m ≤ tableGap t m := by
            intro t; induction t with
            | nil => intro m; exact Nat.le_refl _
            | cons e t ih2 => intro m; unfold tableGap; split
                              · exact Nat.le_trans (Nat.le_succ _) (ih2 _)
                              · exact Nat.le_refl _
          exact this t _
        unfold tableGet
        rw [if_neg (by omega), if_neg (by omega)]
        exact ih (some k) (n + 1) hw' (by rw [hk])
      · rename_i hk
        unfold tableGet
        split
        · rfl
        · rw [if_neg (fun h => hk h.symm)]
          have hnk : n ≤ k := by
            rw [hlo]; cases lo with
            | none => exact Nat.zero_le _
            | some l => simp at hw; exact hw.1
          exact tableGet_below _ hw' hnk
  exact key t none 0 h rfl

theorem choose_within (s : State) : (choosePort s).outs = s.outs ∧ (choosePort s).pool.buffers = s.pool.buffers ∧
    (choosePort s).pool.counters = s.pool.counters ∧ (choosePort s).mgmt.flags = s.mgmt.flags := by
  unfold choosePort
  split
  · exact ⟨rfl, rfl, rfl, rfl⟩
  · split
    · rename_i r rest _
      obtain ⟨m, e, -, -, -, -, h, -⟩ := givePlaces_fields (sendReport r rest s)
      rw [e]; exact ⟨rfl, rfl, rfl, h⟩
    · split <;> exact ⟨rfl, rfl, rfl, rfl⟩

theorem reconcile_idle (k : Fin 4) (p : Int) (s : State) (h :
    (following s.outs[k] && !s.outs[k].waiting && frameOver s.outs[k]) = false) : reconcile k p s = s := by
  unfold reconcile; dsimp only; rw [h]; rfl

theorem takeSlot_eq (k : Fin 4) (sends : Bool) (pkt : Packet) (s : State) (g : Grid) (h : s.outs[(k:Nat)].grid =
    some g) :
   takeSlot k false sends pkt s = mapOut k (fun o => { o with
      grid := some (stepGrid g)
      slot := some { remaining := slotLength g, sends := sends }
      line := some pkt }) s := by
  unfold takeSlot
  rw [show s.outs[k].grid = some g from h]
  rfl

theorem within_out {s t : State} (h : Within s t) (k : Fin 4) : t.outs[(k:Nat)] = s.outs[(k:Nat)] := outs_congr h.1 k

theorem within_buf {s t : State} (h : Within s t) (b : Nat) : buffer t b =
    buffer s b := by unfold buffer; rw [h.2.2.2.2.2.1]

theorem now_run (n : Nat) (s : State) : now (runTicks n s) = now s + n := by
  unfold now absolute; rw [runTicks_clock]; simp only [passClock]; omega

theorem sentPacket_zero (s : State) (k : Fin 4) (d : Int) (e : Entry) (h : e.programme = none) :
    entryPacket s k d e = sentPacket ((buffer s e.buffer).contents) e.label d := by
  unfold entryPacket sentPacket standsFor
  dsimp only
  rw [h]
  rfl

theorem within_draw (c : Fin 16) (s : State) : Within s (draw c s).2 := by
  unfold draw
  split
  · exact .refl _
  · exact .refl _
  · dsimp only
    split
    · exact (within_setPos _ _ _).after (within_cnt _ _)
    · exact (within_setPos _ _ _).after (within_cnt _ _)
    · exact (within_halt _ _ _).after (within_cnt _ _)

theorem within_drawOwner (n p : Nat) (s : State) : Within s (drawOwner n p s).2 := by
  induction n generalizing s with
  | zero => exact .refl _
  | succ n ih =>
    unfold drawOwner
    split
    · exact .refl _
    · rename_i c _
      have := within_draw c s
      split
      · rename_i h; rw [h] at this; exact ((within_cnt _ _).after (within_ctx _ _ _)).after this
      · rename_i h; rw [h] at this; exact ((within_cnt _ _).after (within_ctx _ _ _)).after this
      · rename_i h; rw [h] at this; exact (ih _).after this

theorem within_drawShadow (c : Fin 16) (s : State) : Within s (drawShadow c s) := by
  unfold drawShadow
  have := within_draw c s
  split
  · rename_i h; rw [h] at this; exact ((within_cnt _ _).after (within_ctx _ _ _)).after this
  · rename_i h; rw [h] at this; exact ((within_ctx _ _ _)).after this
  · rename_i h; rw [h] at this; exact this

theorem within_decide (p : Nat) (s : State) : Within s (decideProgramme p s).2 := by
  unfold decideProgramme
  have := within_drawOwner 17 p s
  split
  · rename_i h; rw [h] at this; exact this
  · rename_i h; rw [h] at this; exact (Within.forAll within_drawShadow _ _).after this

theorem within_recordAdvert (p : Nat) (st : Int) (o : Sample) (q : Packet) (s : State) :
    Within s (recordAdvert p st o q s) :=
  .ite ((within_recordSample _ _ _ _).after (within_pcnt _ _)) (.refl _)

/-- what a slot's content leaves of an output, with its grid stepped -/
def OutCore (o' o : Output) (g : Grid) : Prop := o'.grid = some (stepGrid g) ∧ o'.sync = o.sync ∧ o'.current =
    o.current ∧ o'.position = o.position ∧ o'.frameQueue = o.frameQueue ∧ o'.waiting = o.waiting

theorem removeHead_same (kd : Removal) (k : Fin 4) (s : State) : (removeHead kd k s).outs[(k:Nat)] =
    { s.outs[(k:Nat)] with queue := s.outs[(k:Nat)].queue.tail } := by
  unfold removeHead
  cases h : s.outs[(k:Nat)].queue with
  | nil => simp only [Fin.getElem_fin, h]; show s.outs[(k:Nat)] = _; cases ho : s.outs[(k:Nat)]; simp_all
  | cons e rest =>
    simp only [Fin.getElem_fin, h]
    refine (outs_congr (releaseBuffer_plain _ _).2.1 k).trans ?_
    exact mapOut_same k (fun o => { o with queue := rest }) s

theorem outCore_take (k : Fin 4) (sends : Bool) (pkt : Packet) (s : State) (g : Grid) (h : s.outs[(k:Nat)].grid =
    some g) :
    OutCore ((takeSlot k false sends pkt s).outs[(k:Nat)]) s.outs[(k:Nat)] g := by
  rw [takeSlot_eq k sends pkt s g h, mapOut_same]; exact ⟨rfl, rfl, rfl, rfl, rfl, rfl⟩

theorem outCore_fill (k : Fin 4) (s : State) (g : Grid) (h : s.outs[(k:Nat)].grid = some g) :
    OutCore ((fillSlot k false s).outs[(k:Nat)]) s.outs[(k:Nat)] g := by
  unfold fillSlot
  have hc : ((countOut k (fun c => { c with fillSlots := bump c.fillSlots }) s).outs[(k:Nat)]) = { s.outs[(k:Nat)] with counters := { s.outs[(k:Nat)].counters with fillSlots := bump s.outs[(k:Nat)].counters.fillSlots } } :=
    mapOut_same k (fun o => { o with counters := { o.counters with fillSlots := bump o.counters.fillSlots } }) s
  have := outCore_take k false fillPacket (countOut k (fun c => { c with fillSlots := bump c.fillSlots }) s) g (by rw [hc]; exact h)
  rw [hc] at this; exact this

theorem outCore_send (k : Fin 4) (d st : Int) (e : Entry) (s : State) (g : Grid) (h : s.outs[(k:Nat)].grid = some g) :
    OutCore ((sendEntry k false d st e s).outs[(k:Nat)]) s.outs[(k:Nat)] g := by
  unfold sendEntry
  rw [if_neg (by decide)]
  have hc : ((countOut k (fun c => { c with packetsEmitted := bump c.packetsEmitted }) (recordEntry k d st e s)).outs[(k:Nat)]) = { s.outs[(k:Nat)] with counters := { s.outs[(k:Nat)].counters with packetsEmitted := bump s.outs[(k:Nat)].counters.packetsEmitted } } := by
    refine (mapOut_same k (fun o => { o with counters := { o.counters with packetsEmitted := bump o.counters.packetsEmitted } }) _).trans ?_
    rw [within_out (within_recordEntry k d st e s) k]
  have := outCore_take k true (entryPacket s k d e) (countOut k (fun c => { c with packetsEmitted := bump c.packetsEmitted }) (recordEntry k d st e s)) g (by rw [hc]; exact h)
  rw [hc] at this; exact this

theorem outCore_carry (k : Fin 4) (d st : Int) (e : Entry) (s : State) (g : Grid) (h : s.outs[(k:Nat)].grid =
    some g) :
    OutCore ((carryEntry k false d st e s).2.outs[(k:Nat)]) s.outs[(k:Nat)] g := by
  unfold carryEntry
  split
  · exact outCore_send _ _ _ _ _ _ h
  · split
    · rename_i p _ _
      have hw := within_out (within_decide p s) k
      split
      · rename_i he; rw [he] at hw; dsimp only at hw ⊢
        have := outCore_send k d st e _ g (by rw [hw]; exact h); rw [hw] at this; exact this
      · rename_i s1 he; rw [he] at hw; dsimp only at hw ⊢
        have := outCore_fill k (removeHead .substitution k s1) g (by rw [removeHead_same, hw]; exact h)
        rw [removeHead_same, hw] at this; exact this
      · rename_i off st' lb s1 he; rw [he] at hw; dsimp only at hw ⊢
        unfold sendAdvert
        rw [if_neg (by decide)]
        have hw2 := within_out (within_recordAdvert p st off st' s1) k
        have := outCore_take k false (advertPacket s1 p off st' lb) (removeHead .substitution k (recordAdvert p st off st' s1)) g (by rw [removeHead_same, hw2, hw]; exact h)
        rw [removeHead_same, hw2, hw] at this; exact this
    · exact outCore_send _ _ _ _ _ _ h

theorem passHeads_same (k : Fin 4) (p : Entry → Bool) (l : List Entry) (s : State) (h : s.outs[(k:Nat)].queue = l) :
    (passHeads k p l s).outs[(k:Nat)] = { s.outs[(k:Nat)] with queue := l.dropWhile p } ∧ (passHeads k p l s).clock = s.clock := by
  induction l generalizing s with
  | nil => refine ⟨?_, rfl⟩; show s.outs[(k:Nat)] = _; cases ho : s.outs[(k:Nat)]; rw [ho] at h; simp_all
  | cons e rest ih =>
    have he : passHeads k p (e :: rest) s = if p e then passHeads k p rest (removeHead .passed k s) else s := rfl
    rw [he]
    by_cases hp : p e = true
    · rw [if_pos hp]
      have := ih (removeHead .passed k s) (by rw [removeHead_same, h]; rfl)
      rw [this.1, removeHead_same, this.2]
      refine ⟨?_, (removeHead_moves _ _ _).clock⟩
      rw [List.dropWhile_cons_of_pos hp]
    · rw [if_neg hp, List.dropWhile_cons_of_neg hp]
      refine ⟨?_, rfl⟩
      cases ho : s.outs[(k:Nat)]; rw [ho] at h; simp_all

theorem gridFrom_parts (r : Nat) (a : Int) : ((gridFrom r a).next, (gridFrom r a).rate, (gridFrom r a).phase) =
    (a, r, 0) := rfl

theorem clamped_eq (lo hi old : Nat) (v : Option Nat) : (v.map fun x => max lo (min hi x)).getD old =
    clampOr lo hi old v := by cases v <;> rfl

theorem configure_eq (m off tol late fb rate share : Option Nat) (o : Output) (hf : ∀ f, fb = some f → f < 2) :
    configureOutput { multiplex := m, offset := off, tolerance := tol, lateLimit := late, fallback := fb, defaultRate := rate, share := share } o =
    { o with
               multiplex := (m.map (Fin.ofNat 4)).getD o.multiplex, offset := clampOr 0 19999999 o.offset off
               tolerance := clampOr 0 1000 o.tolerance tol, lateLimit := clampOr 1 255 o.lateLimit late
               fallback := match (generalizing := false) fb with | none => o.fallback | some 0 => .mute | some _ => .freeRun
               defaultRate := clampOr 1000000 80000000 o.defaultRate rate, share := clampOr 1 262144 o.share share
               openFrame := if (m.map (Fin.ofNat 4)).getD o.multiplex = o.multiplex then o.openFrame else none
               grid := if rate.isSome ∧
                   o.sync = .freeRun then o.grid.map (fun g => gridFrom (clampOr 1000000 80000000 o.defaultRate rate) g.next) else o.grid } := by
  rcases fb with _ | _ | _ | v
  case some.succ.succ => exact absurd (hf _ rfl) (by omega)
  all_goals
    unfold configureOutput
    cases m <;> cases rate <;> simp [withDefaultRate, withMultiplex, clampOr, fallbackOf] <;> (split <;> simp_all)

theorem flush_out (k : Fin 4) (keep drop : List Entry) (s : State) : (flushQueue k keep drop s).outs[(k:Nat)] =
    { s.outs[(k:Nat)] with queue := keep } := by
  unfold flushQueue
  rw [mapOut_same]
  have : (forAll drop (releaseEntry .flush) s).outs = s.outs := forAll_outs (releaseEntry_outs .flush) drop s
  rw [outs_congr this k]

theorem discard_out (k : Fin 4) (s : State) : ∃ n, (discardRecords k s).outs[(k:Nat)] =
    { s.outs[(k:Nat)] with frameQueue := [], counters := { s.outs[(k:Nat)].counters with recordsDiscarded := n } } :=
  ⟨_, mapOut_same k (fun o => { o with
    frameQueue := []
    counters := { o.counters with recordsDiscarded := bumpBy o.counters.recordsDiscarded o.frameQueue.length } }) s⟩

theorem changeSync_out (k : Fin 4) (new : Sync) (s : State) : (changeSync k new s).outs[(k:Nat)] =
    if s.outs[(k:Nat)].sync = new then s.outs[(k:Nat)] else
    { s.outs[(k:Nat)] with sync := new, position := if new == .locked || new == .holdover then s.outs[(k:Nat)].position else none } := by
  unfold changeSync
  by_cases h : s.outs[(k:Nat)].sync = new
  · rw [if_pos h]; exact (outs_congr (congrArg State.outs (if_pos h)) k)
  · rw [if_neg h]
    refine (outs_congr (congrArg State.outs (if_neg h)) k).trans ?_
    dsimp only
    have hm : ∀ q : State, (setFlag .outputState (countMgmt (fun c => { c with outputChanges := c.outputChanges.set k (bump c.outputChanges[k]) }) q)).outs[(k:Nat)] = q.outs[(k:Nat)] := fun q => within_out (within_setFlag _ _) k
    have key : (mapOut k (fun o => { o with sync := new, position := if new == .locked || new == .holdover then o.position else none }) s).outs[(k:Nat)] = _ := mapOut_same k _ s
    by_cases hb : (new == .locked || new == .holdover) = true
    · rw [if_pos hb, hm]; exact key
    · rw [if_neg hb, within_out (within_dropSplices _ _) k, hm]; exact key

theorem changeSync_flag (k : Fin 4) (new : Sync) (s : State) (h : s.outs[(k:Nat)].sync ≠ new) :
    hasFlag (changeSync k new s).mgmt.flags .outputState = true := by
  unfold changeSync
  rw [if_neg (show ¬ s.outs[k].sync = new from h)]
  dsimp only
  split
  · exact setFlag_hasFlag _ _
  · have : ∀ q, Moves q (dropSplices k q) := fun q => dropSplices_moves k q
    exact (this _).mgmtStep.2.2.2.2.2.2 _ (setFlag_hasFlag _ _)

theorem asOutput_val (k : Fin 4) : asOutput k.val = k := by apply Fin.ext; simp [asOutput]

theorem moves_exec {s t : State} (h : Moves s t) (c : Cell) (he : s.mgmt.executing = some c) : t.mgmt.executing =
    some c ∨ t.mgmt.executing = none := by
  rcases h.mgmtStep.2.2.2.2.1 with ⟨a, -⟩ | ⟨a, -⟩
  · exact .inl (a.trans he)
  · exact .inr a

/-! contexts -/

theorem context_map (c d : Fin 16) (f : Context → Context) (s : State) : context (mapContext c f s) d = if d =
    c then f (context s c) else context s d := by
  show (s.engine.contexts.set c (f s.engine.contexts[c]))[(d:Nat)] = _
  by_cases h : d = c
  · subst h; rw [if_pos rfl, Vector.getElem_set_self]; rfl
  · rw [if_neg h, Vector.getElem_set_ne _ _ (fun e => h (Fin.ext e.symm))]; rfl

theorem setPosition_eq (c : Fin 16) (p : Position) (s : State) : ∃ st, setPosition c p s =
    mapContext c (fun x => { x with position := p }) { s with store := st } := by
  unfold setPosition
  dsimp only
  by_cases h : positionSegment s (context s c).position = positionSegment s p
  · rw [if_pos h]
    refine ⟨s.store, ?_⟩
    rw [if_pos h]
  · rw [if_neg h, if_neg h]
    cases positionSegment s (context s c).position <;> cases positionSegment s p <;> exact ⟨_, rfl⟩

theorem context_setPos (c d : Fin 16) (p : Position) (s : State) : context (setPosition c p s) d = if d =
    c then { context s c with position := p } else context s d := by
  obtain ⟨st, h⟩ := setPosition_eq c p s
  rw [h, context_map]; rfl

theorem context_setFlag (f : Flag) (s : State) (d : Fin 16) : context (setFlag f s) d = context s d := by
  obtain ⟨m, p, e, -⟩ := setFlag_kept f s; rw [e]; rfl

theorem context_leaveByStop (c d : Fin 16) (s : State) : context (leaveByStop c s) d = if d =
    c then { context s c with state := .idle, latch := none, position := .absent } else context s d := by
  show context (mapContext c (fun x => { x with state := .idle, latch := none }) (setPosition c .absent s)) d = _
  rw [context_map]
  by_cases h : d = c
  · rw [if_pos h, if_pos h, context_setPos, if_pos rfl]
  · rw [if_neg h, if_neg h, context_setPos, if_neg h]

theorem context_relinquish (c d : Fin 16) (s : State) : context (relinquish c s) d = context s d := by
  unfold relinquish; split <;> rfl

theorem context_forAll_relinquish (l : List (Fin 16)) (d : Fin 16) (s : State) :
    context (forAll l relinquish s) d = context s d := by
  induction l generalizing s with
  | nil => rfl
  | cons c l ih => exact (ih (relinquish c s)).trans (context_relinquish c d s)

theorem context_forAll_leaveByStop (l : List (Fin 16)) (d : Fin 16) (s : State) :
    context (forAll l leaveByStop s) d =
    if d ∈ l then { context s d with state := .idle, latch := none, position := .absent } else context s d := by
  induction l generalizing s with
  | nil => simp [forAll]
  | cons c l ih =>
    show context (forAll l leaveByStop (leaveByStop c s)) d = _
    rw [ih, context_leaveByStop]
    by_cases h1 : d = c
    · subst h1; by_cases h2 : d ∈ l <;> simp [h2]
    · by_cases h2 : d ∈ l <;> simp [h1, h2]

theorem context_stopActive (l : List (Fin 16)) (d : Fin 16) (s : State) : context (stopActive l s) d =
    if d ∈ l then { context s d with state := .idle, latch := none, position := .absent } else context s d := by
  unfold stopActive; rw [context_forAll_relinquish, context_forAll_leaveByStop]

theorem context_cueMissed (d : Fin 16) (s : State) : context (cueMissed s) d = context s d := context_setFlag _ _ _

theorem context_dropSplice (c d : Fin 16) (s : State) : context (dropSplice c s) d = if d =
    c then { context s c with splice := none } else context s d := by
  unfold dropSplice
  split
  · rename_i h
    by_cases hd : d = c
    · subst hd; rw [if_pos rfl]; cases hc : context s d; rw [hc] at h; simp_all
    · rw [if_neg hd]
  · rw [context_cueMissed, context_map]

theorem context_forAll_drop (l : List (Fin 16)) (d : Fin 16) (s : State) : context (forAll l dropSplice s) d =
    if d ∈ l then { context s d with splice := none } else context s d := by
  induction l generalizing s with
  | nil => simp [forAll]
  | cons c l ih =>
    show context (forAll l dropSplice (dropSplice c s)) d = _
    rw [ih, context_dropSplice]
    by_cases h1 : d = c
    · subst h1; by_cases h2 : d ∈ l <;> simp [h2]
    · by_cases h2 : d ∈ l <;> simp [h1, h2]

theorem context_changeSync (k : Fin 4) (new : Sync) (d : Fin 16) (s : State) :
    (context (changeSync k new s) d).state = (context s d).state := by
  unfold changeSync
  split
  · rfl
  · dsimp only
    split
    · exact congrArg _ (context_setFlag _ _ _)
    · unfold dropSplices; rw [context_forAll_drop]
      split
      · dsimp only; rw [context_setFlag]; rfl
      · rw [context_setFlag]; rfl

theorem mem_allContexts (d : Fin 16) : d ∈ allContexts := by revert d; decide

theorem flush_eq (drop : List Entry) (s : State) : ∃ p, forAll drop (releaseEntry .flush) s =
    { s with pool := p } := by
  induction drop generalizing s with
  | nil => exact ⟨s.pool, rfl⟩
  | cons e l ih =>
    have : ∃ p, releaseEntry .flush e s = { s with pool := p } := by
      unfold releaseEntry releaseBuffer; dsimp only; split
      · exact ⟨_, rfl⟩
      · split <;> exact ⟨_, rfl⟩
    obtain ⟨p, hp⟩ := this
    obtain ⟨p', hp'⟩ := ih { s with pool := p }
    exact ⟨p', by show forAll l _ (releaseEntry .flush e s) = _; rw [hp, hp']⟩

theorem endCommand_keeps (st : Status) (units : List ResultUnit) (u : State) :
    (endCommand st units u).outs = u.outs ∧ (endCommand st units u).engine = u.engine ∧
        (endCommand st units u).clock = u.clock ∧ (endCommand st units u).feed = u.feed ∧
        (endCommand st units u).route = u.route ∧ (endCommand st units u).mgmt.executing = none := by
  cases he : u.mgmt.executing with
  | none => unfold endCommand; rw [he]; exact ⟨rfl, rfl, rfl, rfl, rfl, he⟩
  | some c =>
    have := endCommand_answered c st units u he
    exact ⟨this.outs, this.engine, this.clock, this.feed, this.route, this.executing⟩

end Sys2Proof
end

