-- ==== Sys2Proof/Laws/Records.lean ====
section
/-!
SUPPORT. Records.lean: what the commands do to programme, segment and play records and to contexts, record by record.
-/

namespace Sys2Proof

open Machine

theorem programme_tablePut {s : State} (h : tableWf {} s.progs.records = true) (p q : Nat) (r : Programme) :
   tableGet {} (tablePut {} s.progs.records p r) q = if q = p then r else programme s q := by rw [tableGet_put _ h]; rfl

theorem tablePut_tableGet_from {α : Type} [DecidableEq α] (d : α) {lo : Option Nat} {t : Table α} (ht :
    tableWfFrom d lo t = true) (k : Nat) (hlo : ∀ l, lo = some l → l < k) : tablePut d t k (tableGet d t k) = t := by
  induction t generalizing lo with
  | nil => simp [tablePut, tableGet, tableCons]
  | cons e t ih =>
    obtain ⟨k', v'⟩ := e
    rw [tableWfFrom_cons] at ht
    unfold tablePut tableGet
    by_cases h1 : k < k'
    · rw [if_pos h1, if_pos h1]; simp [tableCons]
    · rw [if_neg h1, if_neg h1]
      by_cases h2 : k = k'
      · subst h2; rw [if_pos rfl, if_pos rfl]; simp [tableCons, ht.2.1]
      · rw [if_neg h2, if_neg h2, ih ht.2.2 (by intro l hl; cases hl; omega)]

theorem tablePut_tableGet {α : Type} [DecidableEq α] (d : α) {t : Table α} (ht : tableWf d t = true) (k : Nat) :
    tablePut d t k (tableGet d t k) = t :=
  tablePut_tableGet_from d ht k (by simp)

theorem context_dropMoved (p : Nat) (d : Fin 16) (s : State) : context (dropMoved p s) d =
    if (context s d).programme = p then { context s d with splice := none } else context s d := by
  unfold dropMoved
  rw [context_forAll_drop]
  simp [List.mem_filter, mem_allContexts]

theorem forAll_dropSplice_progs (l : List (Fin 16)) (s : State) : (forAll l dropSplice s).progs = s.progs := by
  induction l generalizing s with
  | nil => rfl
  | cons c l ih =>
    show (forAll l dropSplice (dropSplice c s)).progs = _
    rw [ih]
    unfold dropSplice
    split
    · rfl
    · unfold cueMissed
      obtain ⟨m, p, e, -⟩ := setFlag_kept .cueMissed (countEngine (fun n => { n with splicesMissed := bump n.splicesMissed }) (mapContext c (fun y => { y with splice := none }) s))
      rw [e]; rfl

theorem optBelow_iff (n : Nat) (o : Option Nat) : optBelow n o = true ↔ ∀ l, o = some l → l < n := by
  cases o <;> simp [optBelow]

/-- the valid records of a table after one record is put -/
theorem tableCount_tablePut {t : Table Programme} {lo : Option Nat} (ht : tableWfFrom {} lo t = true) (p : Nat)
    (r : Programme) :
   (hlo : ∀ l, lo = some l → l < p) → ((tablePut {} t p r).filter fun e => e.2.valid).length = ((t.filter fun e => e.1 != p && e.2.valid).length) + (if r.valid then 1 else 0) := by
  have hc : ∀ (t : Table Programme), ((tableCons {} p r t).filter fun e => e.2.valid).length = (t.filter fun e => e.2.valid).length + (if r.valid then 1 else 0) := by
    intro t
    unfold tableCons
    by_cases h : r = {}
    · subst h; rw [if_pos rfl]; rfl
    · rw [if_neg h]
      cases hv : r.valid <;> simp [hv]
  have hne : ∀ (t : Table Programme) (l : Nat), tableWfFrom {} (some l) t = true → p ≤ l → (t.filter fun e => e.2.valid) = t.filter fun e => e.1 != p && e.2.valid := by
    intro t
    induction t with
    | nil => intros; rfl
    | cons e t ih =>
      obtain ⟨k, v⟩ := e
      intro l hw hl
      rw [tableWfFrom_cons] at hw
      have hw1 := hw.1 l rfl
      have hk : (k != p) = true := by simp; omega
      rw [List.filter_cons, List.filter_cons]
      simp only [hk, Bool.true_and]
      rw [ih k hw.2.2 (by omega)]
  induction t generalizing lo with
  | nil => intro _; simpa [tablePut] using hc []
  | cons e t ih =>
    obtain ⟨k, v⟩ := e
    intro hlo
    rw [tableWfFrom_cons] at ht
    have ht' : tableWfFrom {} (some k) t = true := by simp_all
    unfold tablePut
    by_cases h1 : p < k
    · rw [if_pos h1, hc]
      have : ((k, v) :: t : Table Programme).filter (fun e => e.2.valid) = ((k,
          v) :: t).filter fun e => e.1 != p && e.2.valid := by
        rw [List.filter_cons, List.filter_cons]
        have hk : (k != p) = true := by simp; omega
        simp only [hk, Bool.true_and]
        rw [hne t k ht' (by omega)]
      rw [this]
    · rw [if_neg h1]
      by_cases h2 : p = k
      · subst h2
        rw [if_pos rfl, hc, hne t p ht' (Nat.le_refl _)]
        simp
      · rw [if_neg h2]
        have := ih ht' (by intro l hl; cases hl; omega)
        rw [List.filter_cons, List.filter_cons]
        have hk : (k != p) = true := by simp; omega
        simp only [hk, Bool.true_and]
        cases v.valid <;> simp [this] <;> omega

theorem cueLabelTaken_iff {s : State} (h : tableWf {} s.progs.records = true) (p : Nat) (l : Label) :
   cueLabelTaken s p l = true ↔ ∃ q, q ≠ p ∧ (programme s q).valid = true ∧ (programme s q).cueLabel = some l := by
  unfold cueLabelTaken
  simp only [List.any_eq_true, Bool.and_eq_true, bne_iff_ne, beq_iff_eq]
  constructor
  · rintro ⟨⟨q, r⟩, hm, ⟨h1, h2⟩, h3⟩
    have : programme s q = r := tableGet_of_mem _ h hm
    exact ⟨q, h1, by rw [this]; exact h2, by rw [this]; exact h3⟩
  · rintro ⟨q, h1, h2, h3⟩
    refine ⟨(q, programme s q), tableGet_mem _ rfl ?_, ⟨h1, h2⟩, h3⟩
    intro he; rw [he] at h2; cases h2

theorem endCommand_progs (st : Status) (units : List ResultUnit) (u : State) : (endCommand st units u).progs =
    u.progs ∧ (endCommand st units u).store = u.store ∧ (endCommand st units u).mgmt.flags = u.mgmt.flags := by
  cases he : u.mgmt.executing with
  | none => unfold endCommand; rw [he]; exact ⟨rfl, rfl, rfl⟩
  | some c =>
    have := endCommand_answered c st units u he
    exact ⟨this.progs, this.store, this.flags⟩

theorem segment_tablePut {s : State} (h : tableWf {} s.store.segments = true) (p q : Nat) (r : Segment) :
   tableGet {} (tablePut {} s.store.segments p r) q = if q = p then r else segment s q := by rw [tableGet_put _ h]; rfl

theorem foldl_sum (l : Table Segment) (n : Nat) : l.foldl (fun n e => n + e.2.blocks) n =
    n + (l.map fun e => e.2.blocks).sum := by
  induction l generalizing n with
  | nil => simp
  | cons e l ih => simp only [List.foldl_cons, List.map_cons, List.sum_cons]; rw [ih]; omega

theorem freeBlocks_after (u : State) : freeBlocks u =
    8192 - ((u.store.segments.filter fun e => decide (e.2.state ≠ .free)).map fun e => e.2.blocks).sum := by
  unfold freeBlocks allocatedBlocks
  rw [foldl_sum]
  have : (fun e : Nat × Segment => e.2.state != .free) = fun e => decide (e.2.state ≠ .free) := by
    funext e; cases e.2.state <;> rfl
  rw [this]
  simp [Config.storeBlocks]

theorem rangeTaken_iff {s : State} (h : tableWf {} s.store.segments = true) (hb : blocksApart s) (first count :
    Nat) (hc : 1 ≤ count) :
   rangeTaken s first count = true ↔ ∃ h, (segment s h).state ≠ .free ∧ ∃ b, first ≤ b ∧ b < first + count ∧
       (segment s h).firstBlock ≤ b ∧ b < (segment s h).firstBlock + (segment s h).blocks := by
  unfold rangeTaken rangesMeet
  simp only [List.any_eq_true, Bool.and_eq_true, bne_iff_ne, decide_eq_true_eq]
  constructor
  · rintro ⟨⟨q, r⟩, hm, h1, h2, h3⟩
    have hq : segment s q = r := tableGet_of_mem _ h hm
    dsimp only at h1 h2 h3
    have := hb.1 q (by rw [hq]; exact h1)
    rw [hq] at this
    refine ⟨q, by rw [hq]; exact h1, max first r.firstBlock, ?_⟩
    rw [hq]; omega
  · rintro ⟨q, h1, b, h2, h3, h4, h5⟩
    refine ⟨(q, segment s q), tableGet_mem _ rfl ?_, h1, by dsimp only; omega, by dsimp only; omega⟩
    intro he; rw [he] at h1; exact h1 rfl

theorem nodup_eraseDups {α : Type} [DecidableEq α] (l : List α) (h : l.Nodup) : l.eraseDups = l := by
  induction l with
  | nil => rfl
  | cons a l ih =>
    rw [List.eraseDups_cons]
    have := List.nodup_cons.1 h
    have hf : l.filter (fun b => !b == a) = l := by
      rw [List.filter_eq_self]
      intro b hb
      simp only [Bool.not_eq_true', beq_eq_false_iff_ne]
      rintro rfl; exact this.1 hb
    rw [hf, ih this.2]

theorem eraseDups_length {α : Type} [DecidableEq α] (l : List α) : l.eraseDups.length ≤ l.length := by
  have : ∀ n (l : List α), l.length ≤ n → l.eraseDups.length ≤ l.length := by
    intro n
    induction n with
    | zero => intro l h; cases l with
      | nil => simp
      | cons _ _ => simp at h
    | succ n ih =>
      intro l h
      cases l with
      | nil => simp
      | cons a l =>
        rw [List.eraseDups_cons, List.length_cons, List.length_cons]
        have h1 := List.length_filter_le (fun b => !b == a) l
        have := ih (l.filter fun b => !b == a) (by simp at h; omega)
        omega
  exact this l.length l (Nat.le_refl _)

theorem not_nodup_eraseDups {α : Type} [DecidableEq α] (l : List α) (h : ¬l.Nodup) :
    l.eraseDups.length < l.length := by
  induction l with
  | nil => exact absurd List.nodup_nil h
  | cons a l ih =>
    rw [List.eraseDups_cons, List.length_cons, List.length_cons]
    by_cases ha : a ∈ l
    · have h1 : (l.filter fun b => !b == a).length < l.length := by
        exact List.length_filter_lt_length_iff_exists.2 ⟨a, ha, by simp⟩
      have := eraseDups_length (l.filter fun b => !b == a)
      omega
    · have hf : l.filter (fun b => !b == a) = l := by
        rw [List.filter_eq_self]
        intro b hb
        simp only [Bool.not_eq_true', beq_eq_false_iff_ne]
        rintro rfl; exact ha hb
      rw [hf]
      have := ih (fun hn => h (List.nodup_cons.2 ⟨ha, hn⟩))
      omega

theorem ofNat_inj {a b : Nat} (ha : a < 4096) (hb : b < 4096) (h : BitVec.ofNat 12 a = BitVec.ofNat 12 b) : a =
    b := by
  have := congrArg BitVec.toNat h
  simp only [BitVec.toNat_ofNat] at this
  rwa [Nat.mod_eq_of_lt (by omega), Nat.mod_eq_of_lt (by omega)] at this

theorem labels_nodup {l : List Nat} (h : l.Nodup) (hl : ∀ x ∈ l, x < 4096) : (l.map (BitVec.ofNat 12)).Nodup := by
  unfold List.Nodup at h ⊢
  rw [List.pairwise_map]
  refine List.Pairwise.imp_of_mem ?_ h
  intro a b ha hb hab he
  exact hab (ofNat_inj (hl a ha) (hl b hb) he)

theorem endCommand_store (i : Fin 2) : asStore i.val = i := by apply Fin.ext; simp [asStore]

theorem cueProgramme_iff {s : State} (h : tableWf {} s.progs.records = true) (l : Label) :
   (cueProgramme s l).isSome = true ↔ ∃ p, (programme s p).valid = true ∧ (programme s p).cueLabel = some l := by
  unfold cueProgramme
  rw [Option.isSome_map, List.find?_isSome]
  simp only [Bool.and_eq_true, beq_iff_eq]
  constructor
  · rintro ⟨⟨q, r⟩, hm, h1, h2⟩
    have hq : programme s q = r := tableGet_of_mem _ h hm
    exact ⟨q, by rw [hq]; exact h1, by rw [hq]; exact h2⟩
  · rintro ⟨q, h1, h2⟩
    refine ⟨(q, programme s q), tableGet_mem _ rfl ?_, h1, h2⟩
    intro he; rw [he] at h1; cases h1

theorem filledBy_iff (s : State) (i : Fin 2) (l : Label) : filledBy s (otherStore i) l = true ↔ ∃ j f, j ≠ i ∧
    s.store.contexts[j] = some f ∧ l ∈ f.labels := by
  unfold filledBy
  have hj : ∀ j : Fin 2, j ≠ i ↔ j = otherStore i := by revert i; decide
  constructor
  · intro h
    cases hf : s.store.contexts[otherStore i] with
    | none => rw [hf] at h; cases h
    | some f => rw [hf] at h; exact ⟨otherStore i, f, (hj _).2 rfl, hf, by simpa using h⟩
  · rintro ⟨j, f, h1, h2, h3⟩
    rw [hj] at h1; subst h1
    rw [h2]; simpa using h3

theorem setFlag_rest (f : Flag) (s : State) : (setFlag f s).store = s.store ∧ (setFlag f s).progs = s.progs ∧
    (setFlag f s).engine = s.engine ∧ (setFlag f s).outs = s.outs ∧ (setFlag f s).clock = s.clock ∧
    (setFlag f s).feed = s.feed ∧ (setFlag f s).route = s.route ∧ (setFlag f s).pending = s.pending := by
  obtain ⟨m, p, e, -⟩ := setFlag_kept f s
  rw [e]; exact ⟨rfl, rfl, rfl, rfl, rfl, rfl, rfl, rfl⟩

theorem endCommand_context (x : Fin 16) : asContext x.val = x := by apply Fin.ext; simp [asContext]

theorem asContext_val (n : Nat) (h : n < 16) : (asContext n).val = n := by simp [asContext]; omega

theorem liesIn_iff (s : State) (e : Nat) (x : Fin 16) : liesIn s e x = true ↔ (context s x).state = .active ∧
    ∃ k i, (context s x).position = .at_ e k i := by
  unfold liesIn
  simp only [Bool.and_eq_true, beq_iff_eq]
  constructor
  · rintro ⟨h1, h2⟩
    refine ⟨h1, ?_⟩
    cases hp : (context s x).position with
    | absent => rw [hp] at h2; cases h2
    | at_ e' k i => rw [hp] at h2; simp only [beq_iff_eq] at h2; exact ⟨k, i, by rw [h2]⟩
    | atEnd e' => rw [hp] at h2; cases h2
  · rintro ⟨h1, k, i, h2⟩
    exact ⟨h1, by rw [h2]; simp⟩

theorem positionsIn_pos (s : State) (e : Nat) : 0 < positionsIn s e ↔ ∃ x, (context s x).state = .active ∧
    ∃ k i, (context s x).position = .at_ e k i := by
  unfold positionsIn
  rw [List.length_pos_iff_exists_mem]
  constructor
  · rintro ⟨x, hx⟩; exact ⟨x, (liesIn_iff s e x).1 (List.mem_filter.1 hx).2⟩
  · rintro ⟨x, hx⟩; exact ⟨x, List.mem_filter.2 ⟨mem_allContexts x, (liesIn_iff s e x).2 hx⟩⟩

theorem labelPairs_ofNat (pairs : List (Nat × Nat)) (h : ∀ e ∈ pairs, e.1 < 4096 ∧ e.2 < 4096) :
    (pairs.map fun e => e.1 * 4096 + e.2).map labelPair = pairs := by
  rw [List.map_map]
  conv => rhs; rw [← List.map_id pairs]
  apply List.map_congr_left
  intro e he
  have := h e he
  obtain ⟨a, b⟩ := e
  simp only [Function.comp, labelPair, id]
  dsimp only at this
  congr 1 <;> omega

theorem pointAheadOn_iff (s : State) (p : Nat) (x : Point) : pointAheadOn s p x = true ↔ ∃ k :
    Fin 4, (programme s p).valid = true
       ∧ (programme s p).output = some k ∧ (s.outs[k].sync = .locked ∨ s.outs[k].sync = .holdover)
       ∧ ∀ z, s.outs[k].position = some z → pointBefore z x = true := by
  unfold pointAheadOn programmeOutput
  dsimp only
  cases hv : (programme s p).valid with
  | false => simp
  | true =>
    cases ho : (programme s p).output with
    | none => simp
    | some k =>
      simp only [if_true, true_and, Option.some.injEq]
      unfold pointAhead
      constructor
      · intro h
        simp only [Bool.and_eq_true, Bool.or_eq_true, beq_iff_eq] at h
        refine ⟨k, rfl, h.1, fun z hz => ?_⟩
        have := h.2; rw [hz] at this; exact this
      · rintro ⟨k', rfl, h1, h2⟩
        simp only [Bool.and_eq_true, Bool.or_eq_true, beq_iff_eq]
        refine ⟨h1, ?_⟩
        cases hz : s.outs[k].position with
        | none => rfl
        | some z => exact h2 z hz

theorem ctxset_twice (v : Vector Context 16) (x : Fin 16) (a b : Context) : (v.set x a).set x b = v.set x b := by
  apply Vector.ext
  intro i hi
  rw [Vector.getElem_set, Vector.getElem_set, Vector.getElem_set]
  split <;> rfl

theorem mapContext_twice (x : Fin 16) (f g : Context → Context) (s : State) : mapContext x g (mapContext x f s) =
    mapContext x (fun y => g (f y)) s := by
  show { s with engine := { s.engine with contexts := (s.engine.contexts.set x (f s.engine.contexts[x])).set x (g ((s.engine.contexts.set x (f s.engine.contexts[x]))[(x:Nat)])) } } = _
  rw [ctxset_twice, Vector.getElem_set_self]
  rfl

theorem mapContext_congr (x : Fin 16) (f : Context → Context) (s : State) : mapContext x f s =
    { s with engine := { s.engine with contexts := s.engine.contexts.set x (f (context s x)) } } := rfl

theorem offerSplice_mapContext (x : Fin 16) (f : Context → Context) (s : State) (sp : Splice) (hf :
    (f (context s x)).programme = (context s x).programme) :
   offerSplice x sp (mapContext x f s) = if pointAheadOn s (context s x).programme sp.point then mapContext x (fun y => { f y with splice := some sp }) s else cueMissed (mapContext x (fun y => { f y with splice := none }) s) := by
  unfold offerSplice
  rw [context_map, if_pos rfl, hf, mapContext_twice, mapContext_twice]
  rfl

theorem owner_tablePut {s : State} (h : tableWf {} s.progs.records = true) (p q : Nat) (o : Option (Fin 16)) :
    programme (setOwner p o s) q = if q =
    p then { programme s p with owner := o, discontinuity := true } else programme s q :=
  programme_mapProgramme h p q _

theorem tableWf_setOwner {s : State} (h : tableWf {} s.progs.records = true) (p : Nat) (o : Option (Fin 16)) :
    tableWf {} (setOwner p o s).progs.records = true := tablePut_wf _ h

theorem bestOf_mem (s : State) (l : List (Fin 16)) (c : Fin 16) (h : bestOf s l = some c) : c ∈ l := by
  have : ∀ (l : List (Fin 16)) (b : Option (Fin 16)), l.foldl (fun best c =>
    match best with
    | none => some c
    | some b => if (context s b).priority < (context s c).priority then some c else some b) b = some c →
        b = some c ∨ c ∈ l := by
    intro l
    induction l with
    | nil => intro b h; exact .inl h
    | cons a l ih =>
      intro b h
      rw [List.foldl_cons] at h
      rcases ih _ h with h1 | h1
      · cases b with
        | none => cases h1; exact .inr (by simp)
        | some b =>
          dsimp only at h1
          split at h1
          · cases h1; exact .inr (by simp)
          · exact .inl h1
      · exact .inr (by simp [h1])
  rcases this l none h with h1 | h1
  · cases h1
  · exact h1

theorem relinquish_owner {s : State} (h : tableWf {} s.progs.records = true) (d c : Fin 16) (hc :
    (context s c).state ≠ .active) (p : Nat) (hp : (programme s p).owner ≠ some c) :
    (programme (relinquish d s) p).owner ≠ some c := by
  unfold relinquish
  split
  · unfold passOwnership
    rw [owner_tablePut h]
    split
    · dsimp only
      intro hb
      have := bestOf_mem _ _ _ hb
      have := (List.mem_filter.1 this).2
      unfold activeOn at this
      simp only [Bool.and_eq_true, beq_iff_eq] at this
      exact hc this.1
    · exact hp
  · exact hp

theorem relinquish_self {s : State} (h : tableWf {} s.progs.records = true) (c : Fin 16) (hc :
    (context s c).state ≠ .active) : (programme (relinquish c s) (context s c).programme).owner ≠ some c := by
  unfold relinquish
  split
  · unfold passOwnership
    rw [owner_tablePut h, if_pos rfl]
    dsimp only
    intro hb
    have := bestOf_mem _ _ _ hb
    have := (List.mem_filter.1 this).2
    unfold activeOn at this
    simp only [Bool.and_eq_true, beq_iff_eq] at this
    exact hc this.1
  · assumption

theorem relinquish_rest (c : Fin 16) (s : State) : ∃ q, relinquish c s = { s with progs := q } ∧
    (tableWf {} s.progs.records = true → tableWf {} q.records = true) := by
  unfold relinquish
  split
  · exact ⟨_, rfl, fun h => tablePut_wf _ h⟩
  · exact ⟨s.progs, rfl, fun h => h⟩

theorem forAll_relinquish_rest (l : List (Fin 16)) (s : State) : ∃ q, forAll l relinquish s =
    { s with progs := q } ∧ (tableWf {} s.progs.records = true → tableWf {} q.records = true) := by
  induction l generalizing s with
  | nil => exact ⟨s.progs, rfl, fun h => h⟩
  | cons c l ih =>
    obtain ⟨q1, e1, w1⟩ := relinquish_rest c s
    obtain ⟨q2, e2, w2⟩ := ih (relinquish c s)
    refine ⟨q2, e2.trans (by rw [e1]), fun h => w2 (by rw [e1]; exact w1 h)⟩

theorem forAll_relinquish_owner (l : List (Fin 16)) {s : State} (h : tableWf {} s.progs.records = true) (c :
    Fin 16) (hc : (context s c).state ≠ .active) (hm :
    c ∈ l ∨ (programme s (context s c).programme).owner ≠ some c) : (programme (forAll l relinquish s)
    (context s c).programme).owner ≠ some c := by
  induction l generalizing s with
  | nil => rcases hm with hm | hm; cases hm; exact hm
  | cons d l ih =>
    obtain ⟨q1, e1, w1⟩ := relinquish_rest d s
    have hw : tableWf {} (relinquish d s).progs.records = true := by rw [e1]; exact w1 h
    have hcx : context (relinquish d s) c = context s c := context_relinquish d c s
    show (programme (forAll l relinquish (relinquish d s)) _).owner ≠ _
    rw [← hcx]
    apply ih hw
    · rw [hcx]; exact hc
    · rw [hcx]
      rcases hm with hm | hm
      · rcases List.mem_cons.1 hm with rfl | hm
        · exact .inr (relinquish_self h c hc)
        · exact .inl hm
      · exact .inr (relinquish_owner h d c hc _ hm)

theorem setPosition_rest (c : Fin 16) (p : Position) (s : State) : ∃ st, setPosition c p s =
    { s with store := st, engine := { s.engine with contexts := s.engine.contexts.set c { context s c with position := p } } } := by
  obtain ⟨st, h⟩ := setPosition_eq c p s
  exact ⟨st, h⟩

theorem endHold_keeps (st : Status) (s : State) : (endHold st s).outs = s.outs ∧ (endHold st s).engine = s.engine ∧
    (endHold st s).clock = s.clock ∧ (endHold st s).progs = s.progs ∧ (endHold st s).store = s.store ∧
    (endHold st s).mgmt.flags = s.mgmt.flags := by
  unfold endHold
  split
  · exact ⟨rfl, rfl, rfl, rfl, rfl, rfl⟩
  · have k1 := endCommand_keeps
    have k2 := endCommand_progs
    exact ⟨(k1 _ _ _).1, (k1 _ _ _).2.1, (k1 _ _ _).2.2.1, (k2 _ _ _).1, (k2 _ _ _).2.1, (k2 _ _ _).2.2⟩

theorem testHold_keeps (s : State) : (testHold s).outs = s.outs ∧ (testHold s).engine = s.engine ∧
    (testHold s).clock = s.clock ∧ (testHold s).progs = s.progs ∧ (testHold s).store = s.store ∧
    (testHold s).mgmt.flags = s.mgmt.flags := by
  unfold testHold
  split
  · exact ⟨rfl, rfl, rfl, rfl, rfl, rfl⟩
  · split
    · exact endHold_keeps _ _
    · exact ⟨rfl, rfl, rfl, rfl, rfl, rfl⟩

/-- a context after its break's end, but for what a latched cue changes -/
def ended (y : Context) : Context := { y with position := .absent, completed := bump y.completed, state := if y.mode = .cue ∧ y.rearm = true then .armed else .idle }

theorem context_leaveByEnd (c d : Fin 16) (s : State) : context (leaveByEnd c s) d = if d =
    c then ended (context s c) else context s d := by
  unfold leaveByEnd
  rw [context_setFlag]
  show context (mapContext c (fun x => { x with
          completed := bump x.completed
          state := if x.mode = .cue ∧ x.rearm = true then .armed else .idle })
        (setPosition c .absent s)) d = _
  rw [context_map, context_setPos, context_setPos, if_pos rfl]
  by_cases h : d = c
  · rw [if_pos h, if_pos h]; rfl
  · rw [if_neg h, if_neg h, if_neg h]

theorem context_forAll_leaveByEnd (l : List (Fin 16)) (hl : l.Nodup) (d : Fin 16) (s : State) :
    context (forAll l leaveByEnd s) d = if d ∈ l then ended (context s d) else context s d := by
  induction l generalizing s with
  | nil => simp [forAll]
  | cons c l ih =>
    have hn := List.nodup_cons.1 hl
    show context (forAll l leaveByEnd (leaveByEnd c s)) d = _
    rw [ih hn.2, context_leaveByEnd]
    by_cases h1 : d = c
    · subst h1; simp [hn.1]
    · simp [h1]

/-- A context once it has taken its latched cue, when it has rearmed; `ahead` judges the cue's point (R140, R155). -/
def afterRearm (ahead : Nat → Point → Bool) (y : Context) : Context :=
  if y.state = .armed then
    match y.latch with
    | none => y
    | some q => { y with
        latch := none
        splice := if ahead y.programme q.point then
          some { point := q.point, duration := q.duration, id := some q.id } else none }
  else y

theorem context_rearm (c d : Fin 16) (s : State) : context (rearmLatch c s) d =
    if d = c then afterRearm (pointAheadOn s) (context s c) else context s d := by
  unfold rearmLatch afterRearm
  split
  · unfold takeLatch
    cases hq : (context s c).latch with
    | none => dsimp only; split <;> simp_all
    | some q =>
      have hc : context (mapContext c (fun y => { y with latch := none }) s) c = { context s c with latch := none } := by
        rw [context_map, if_pos rfl]
      have ha : pointAheadOn (mapContext c (fun y => { y with latch := none }) s) = pointAheadOn s := rfl
      dsimp only
      unfold offerSplice
      rw [hc, ha]
      dsimp only
      split
      · rw [context_map, hc]
        split
        · rfl
        · rw [context_map, if_neg ‹_›]
      · rw [context_cueMissed, context_map, hc]
        split
        · rfl
        · rw [context_map, if_neg ‹_›]
  · split
    · subst_vars; rfl
    · rfl

theorem cueMissed_rest (s : State) : (cueMissed s).progs =
    s.progs := by unfold cueMissed; rw [(setFlag_rest _ _).2.1]; rfl

theorem rearm_progs (c : Fin 16) (s : State) : (rearmLatch c s).progs = s.progs := by
  unfold rearmLatch takeLatch offerSplice
  split
  · split
    · rfl
    · split
      · rfl
      · rw [cueMissed_rest]; rfl
  · rfl

theorem pointAheadOn_congr {s t : State} (ho : t.outs = s.outs) (hp : ∀ p, programmeOutput t p = programmeOutput s p) :
    pointAheadOn t = pointAheadOn s := by
  funext p x
  unfold pointAheadOn pointAhead
  rw [hp, ho]

theorem rearm_ahead (c : Fin 16) (s : State) : pointAheadOn (rearmLatch c s) = pointAheadOn s :=
  pointAheadOn_congr (within_rearm c s).1 fun p => by unfold programmeOutput programme; rw [rearm_progs]

/-- Rearmed contexts take their latched cues, each for itself (R155). -/
theorem context_forAll_rearm (l : List (Fin 16)) (hl : l.Nodup) (d : Fin 16) (s : State) :
    context (forAll l rearmLatch s) d = if d ∈ l then afterRearm (pointAheadOn s) (context s d) else context s d := by
  induction l generalizing s with
  | nil => simp [forAll]
  | cons c l ih =>
    have hn := List.nodup_cons.1 hl
    show context (forAll l rearmLatch (rearmLatch c s)) d = _
    rw [ih hn.2, rearm_ahead, context_rearm]
    by_cases h : d = c
    · subst h; simp [hn.1]
    · simp [h]

theorem forAll_rearm_progs (l : List (Fin 16)) (s : State) : (forAll l rearmLatch s).progs = s.progs := by
  induction l generalizing s with
  | nil => rfl
  | cons c l ih => exact (ih (rearmLatch c s)).trans (rearm_progs c s)

theorem leaveByEnd_progs (c : Fin 16) (s : State) : (leaveByEnd c s).progs = s.progs := by
  unfold leaveByEnd; rw [(setFlag_rest _ _).2.1]
  obtain ⟨st, h⟩ := setPosition_rest c .absent s
  rw [h]; rfl

theorem forAll_leaveByEnd_progs (l : List (Fin 16)) (s : State) : (forAll l leaveByEnd s).progs = s.progs := by
  induction l generalizing s with
  | nil => rfl
  | cons c l ih => exact (ih (leaveByEnd c s)).trans (leaveByEnd_progs c s)

theorem forAll_moves {α : Type} {f : α → State → State} (hf : ∀ a s, Moves s (f a s)) (l : List α) (s : State) :
    Moves s (forAll l f s) := by
  induction l generalizing s with
  | nil => exact .refl
  | cons a l ih => exact (hf a s).trans (ih (f a s))

theorem rearm_moves' (l : List (Fin 16)) (s : State) : Moves s (forAll l rearmLatch s) := by
  apply forAll_moves
  intro c s
  unfold rearmLatch
  exact .ite (fun _ => takeLatch_moves _ _) (fun _ => .refl)

theorem tablePut_tablePut_from {α : Type} [DecidableEq α] (d : α) {lo : Option Nat} {t : Table α} (ht :
    tableWfFrom d lo t = true) (k : Nat) (a b : α) (hlo : ∀ l, lo = some l → l < k) :
    tablePut d (tablePut d t k a) k b = tablePut d t k b := by
  have hc : ∀ (t : Table α), tableWfFrom d (some k) t = true →
      tablePut d (tableCons d k a t) k b = tableCons d k b t := by
    intro t ht
    have hp : tablePut d t k b = tableCons d k b t := by
      cases t with
      | nil => rfl
      | cons e t =>
        obtain ⟨k', v⟩ := e
        rw [tableWfFrom_cons] at ht
        unfold tablePut; rw [if_pos (ht.1 k rfl)]
    by_cases ha : a = d
    · rw [show tableCons d k a t = t by unfold tableCons; rw [if_pos ha]]; exact hp
    · rw [show tableCons d k a t = (k, a) :: t by unfold tableCons; rw [if_neg ha]]
      unfold tablePut; rw [if_neg (by omega), if_pos rfl]
  induction t generalizing lo with
  | nil => exact hc [] rfl
  | cons e t ih =>
    obtain ⟨k', v'⟩ := e
    rw [tableWfFrom_cons] at ht
    by_cases h1 : k < k'
    · rw [show tablePut d ((k', v') :: t) k a = tableCons d k a ((k', v') :: t) by unfold tablePut; rw [if_pos h1], show tablePut d ((k', v') :: t) k b = tableCons d k b ((k', v') :: t) by unfold tablePut; rw [if_pos h1]]
      exact hc _ ((tableWfFrom_cons d _ _ _ _).2 ⟨by rintro l ⟨rfl⟩; exact h1, ht.2⟩)
    · by_cases h2 : k = k'
      · subst h2
        rw [show tablePut d ((k, v') :: t) k a = tableCons d k a t by unfold tablePut; rw [if_neg h1, if_pos rfl], show tablePut d ((k, v') :: t) k b = tableCons d k b t by unfold tablePut; rw [if_neg h1, if_pos rfl]]
        exact hc _ ht.2.2
      · rw [show tablePut d ((k', v') :: t) k a = (k', v') :: tablePut d t k a by rw [tablePut, if_neg h1, if_neg h2], show tablePut d ((k', v') :: t) k b = (k', v') :: tablePut d t k b by rw [tablePut, if_neg h1, if_neg h2]]
        rw [tablePut, if_neg h1, if_neg h2, ih ht.2.2 (by rintro l ⟨rfl⟩; omega)]

theorem tablePut_tablePut {α : Type} [DecidableEq α] (d : α) {t : Table α} (ht : tableWf d t = true) (k : Nat)
    (a b : α) : tablePut d (tablePut d t k a) k b = tablePut d t k b :=
  tablePut_tablePut_from d ht k a b (by simp)

end Sys2Proof
end

