-- ==== Sys2Proof/Laws/Breaks.lean ====
section
/-!
SUPPORT. Breaks.lean: what the operations of a break do to contexts, segments and programme records: the search along a
chain, the advance of a context, activation, and the slot of a programme copy.
-/

namespace Sys2Proof

open Machine

theorem contextsOn_mem (s : State) (k : Fin 4) (c : Fin 16) : c ∈ contextsOn s k ↔
    (programme s (context s c).programme).valid = true ∧ (programme s (context s c).programme).output = some k := by
  unfold contextsOn programmeOutput
  simp only [List.mem_filter, mem_allContexts, true_and]
  constructor
  · intro h
    split at h <;> simp_all
  · intro h
    simp [h]

theorem contextsOn_nodup (s : State) (k : Fin 4) : (contextsOn s k).Nodup := by
  unfold contextsOn
  exact List.Nodup.filter _ (by decide)

/-- An operation that changes one context, applied to several. -/
theorem forAll_context {f : Fin 16 → State → State} {F : Fin 16 → Context → Context}
    (hf : ∀ c d s, context (f c s) d = if d = c then F c (context s c) else context s d)
    (l : List (Fin 16)) (hl : l.Nodup) (d : Fin 16) (s : State) :
    context (forAll l f s) d = if d ∈ l then F d (context s d) else context s d := by
  induction l generalizing s with
  | nil => rfl
  | cons a l ih =>
    have := ih hl.of_cons (f a s)
    rw [show forAll (a :: l) f s = forAll l f (f a s) from rfl, this, hf]
    have hn := (List.nodup_cons.mp hl).1
    by_cases h : d = a
    · subst h; simp [hn]
    · simp [h]

theorem allContexts_filter_single {p : Fin 16 → Bool} (c : Fin 16) (h : ∀ y, p y = true ↔ y = c) : allContexts.filter p = [c] := by
  have : p = fun y => decide (y = c) := by
    funext y; rw [Bool.eq_iff_iff, h y]; simp
  rw [this]; clear this h
  revert c; decide

theorem programme_congr {s t : State} (h : t.progs = s.progs) (p : Nat) : programme t p = programme s p := by
  unfold programme; rw [h]

theorem countEngine_context (f : EngineCounters → EngineCounters) (s : State) (d : Fin 16) : context (countEngine f s) d = context s d := rfl

/-- An advance that does not halt changes the position of its context alone, of all the contexts. -/
theorem draw_plain (c : Fin 16) (s : State) (h : (draw c s).1 ≠ .halted) :
    (draw c s).2.progs = s.progs ∧ (draw c s).2.mgmt = s.mgmt ∧ (draw c s).2.pool = s.pool
    ∧ (∀ d, (context (draw c s).2 d).state = (context s d).state ∧ (context (draw c s).2 d).programme = (context s d).programme)
    ∧ ∃ q, context (draw c s).2 c = { context s c with position := q } := by
  revert h
  unfold draw
  have key : ∀ (q : Position) (f : EngineCounters → EngineCounters), (setPosition c q (countEngine f s)).progs = s.progs
      ∧ (setPosition c q (countEngine f s)).mgmt = s.mgmt ∧ (setPosition c q (countEngine f s)).pool = s.pool
      ∧ (∀ d, (context (setPosition c q (countEngine f s)) d).state = (context s d).state ∧ (context (setPosition c q (countEngine f s)) d).programme = (context s d).programme)
      ∧ ∃ q', context (setPosition c q (countEngine f s)) c = { context s c with position := q' } := by
    intro q f
    obtain ⟨st, hst⟩ := setPosition_eq c q (countEngine f s)
    refine ⟨by rw [hst]; rfl, by rw [hst]; rfl, by rw [hst]; rfl, ?_, ?_⟩
    · intro d
      rw [context_setPos]
      split
      · subst_vars; exact ⟨rfl, rfl⟩
      · exact ⟨rfl, rfl⟩
    · exact ⟨q, (context_setPos _ _ _ _).trans (if_pos rfl)⟩
  split
  · exact fun _ => ⟨rfl, rfl, rfl, fun _ => ⟨rfl, rfl⟩, _, rfl⟩
  · exact fun _ => ⟨rfl, rfl, rfl, fun _ => ⟨rfl, rfl⟩, _, rfl⟩
  · dsimp only
    split
    · intro _; exact key _ _
    · intro _; exact key _ _
    · intro h; exact absurd rfl h

theorem releaseEntry_rest (kd : Removal) (e : Entry) (s : State) : (releaseEntry kd e s).progs = s.progs ∧ (releaseEntry kd e s).engine = s.engine
   ∧ (releaseEntry kd e s).store = s.store ∧ (releaseEntry kd e s).mgmt = s.mgmt := by
  unfold releaseEntry releaseBuffer; dsimp only
  split
  · exact ⟨rfl, rfl, rfl, rfl⟩
  · split <;> exact ⟨rfl, rfl, rfl, rfl⟩

theorem removeHead_rest (kd : Removal) (k : Fin 4) (s : State) : (removeHead kd k s).progs = s.progs ∧ (removeHead kd k s).engine = s.engine
   ∧ (removeHead kd k s).store = s.store ∧ (removeHead kd k s).mgmt = s.mgmt := by
  unfold removeHead
  split
  · exact ⟨rfl, rfl, rfl, rfl⟩
  · exact releaseEntry_rest _ _ _

theorem endSlot_rest (k : Fin 4) (s : State) : (endSlot k s).progs = s.progs ∧ (endSlot k s).engine = s.engine
   ∧ (endSlot k s).store = s.store ∧ (endSlot k s).mgmt = s.mgmt := by
  unfold endSlot
  split
  · exact ⟨rfl, rfl, rfl, rfl⟩
  · split
    · exact removeHead_rest _ _ _
    · exact ⟨rfl, rfl, rfl, rfl⟩

theorem endBreaks_none (k : Fin 4) (s : State)
    (h : ∀ x, x ∈ contextsOn s k → ¬((context s x).state = .active ∧ (context s x).countdown = 0)) : endBreaks k s = s := by
  unfold endBreaks
  have : (contextsOn s k).filter (breakEndDue s) = [] := by
    rw [List.filter_eq_nil_iff]
    intro x hx
    unfold breakEndDue
    simpa using h x hx
  rw [this]; rfl

theorem mapProgramme_programme (s : State) (h : tableWf {} s.progs.records = true) (p : Nat) (f : Programme → Programme) : programme (mapProgramme p f s) p = f (programme s p) := by
  unfold programme mapProgramme mapProgs
  dsimp only
  exact (programme_tablePut h _ _ _).trans (if_pos rfl)

theorem testHold_rest (s : State) : (testHold s).progs = s.progs ∧ (testHold s).engine = s.engine ∧ (testHold s).store = s.store := by
  have he : ∀ st u s', (endCommand st u s').progs = s'.progs ∧ (endCommand st u s').engine = s'.engine ∧ (endCommand st u s').store = s'.store := by
    intro st u s'
    have gp : ∀ s : State, (givePlaces s).progs = s.progs ∧ (givePlaces s).engine = s.engine ∧ (givePlaces s).store = s.store := by
      intro s; unfold givePlaces placeOwedReport placeAbandonReply
      repeat (first | exact ⟨rfl, rfl, rfl⟩ | split)
    unfold endCommand
    split
    · exact ⟨rfl, rfl, rfl⟩
    · unfold placeReport choosePort
      split
      · exact ⟨rfl, rfl, rfl⟩
      · split
        · obtain ⟨a, b, c⟩ := gp (sendReport _ _ _); exact ⟨a, b, c⟩
        · split <;> exact ⟨rfl, rfl, rfl⟩
  unfold testHold
  split
  · exact ⟨rfl, rfl, rfl⟩
  · split
    · unfold endHold
      split
      · exact ⟨rfl, rfl, rfl⟩
      · obtain ⟨a, b, c⟩ := he _ _ _; exact ⟨a, b, c⟩
    · exact ⟨rfl, rfl, rfl⟩

theorem countSlots_progs (k : Fin 4) (d : Option Nat) (s : State) : (countSlots k d s).progs = s.progs := by
  unfold countSlots
  generalize List.filter _ _ = l
  induction l generalizing s with
  | nil => rfl
  | cons c l ih => exact ih _

theorem entryPacket_programme (s : State) (k : Fin 4) (d : Int) (e : Entry) (p : Nat) (h : standsFor s k e = some p) :
    entryPacket s k d e = (if (sentPacket ((buffer s e.buffer).contents) e.label d).c then { sentPacket ((buffer s e.buffer).contents) e.label d with d := (sentPacket ((buffer s e.buffer).contents) e.label d).d || (programme s p).discontinuity } else sentPacket ((buffer s e.buffer).contents) e.label d) := by
  unfold entryPacket sentPacket
  dsimp only
  rw [h]
  by_cases hc : ((buffer s e.buffer).contents.getD fillPacket).c = true
  · rw [if_pos hc, if_pos hc, if_pos (by exact hc)]; rfl
  · rw [if_neg hc, if_neg hc, if_neg (by exact hc)]

/-- A scan over packets that have no mapped label. -/
theorem scanPackets_none (s : State) (g : Nat) (m : List (Label × Label)) (n i k : Nat)
    (h : ∀ j, i ≤ j → j < i + n → mapLabel m (storedPacket s g j).label = none) : scanPackets s g m n i k = (none, k + n) := by
  induction n generalizing i k with
  | zero => rfl
  | succ n ih =>
    unfold scanPackets
    rw [h i (Nat.le_refl _) (by omega)]
    dsimp only
    rw [ih (i + 1) (k + 1) (fun j h1 h2 => h j (by omega) (by omega))]
    congr 1; omega

/-- A scan finds the first packet with a mapped label. -/
theorem scanPackets_found (s : State) (g : Nat) (m : List (Label × Label)) (n i k j : Nat) (l : Label) (h1 : i ≤ j) (h2 : j < i + n)
    (hl : mapLabel m (storedPacket s g j).label = some l)
    (h : ∀ x, i ≤ x → x < j → mapLabel m (storedPacket s g x).label = none) :
    scanPackets s g m n i k = (some (storedPacket s g j, l, j + 1), k + (j - i)) := by
  induction n generalizing i k with
  | zero => omega
  | succ n ih =>
    unfold scanPackets
    by_cases hij : i = j
    · subst hij
      rw [hl]
      dsimp only
      congr 1; omega
    · rw [h i (Nat.le_refl _) (by omega)]
      dsimp only
      rw [ih (i + 1) (k + 1) (by omega) (by omega) (fun x h1 h2 => h x (by omega) h2)]
      congr 1; omega

/-- A pass over an entry with no playable packet. -/
theorem scanPass_none (s : State) (m : List (Label × Label)) (e i k : Nat)
    (h : ∀ g, (playEntry s e).segment = some g → ∀ j, i ≤ j → j < (segment s g).packets → mapLabel m (storedPacket s g j).label = none) :
    ∃ n, scanPass s m e i k = (none, n) := by
  unfold scanPass
  cases hs : (playEntry s e).segment with
  | none => exact ⟨_, rfl⟩
  | some g =>
    refine ⟨_, scanPackets_none s g m _ i k ?_⟩
    intro j h1 h2
    exact h g hs j h1 (by omega)

/-- A pass finds the first playable packet. -/
theorem scanPass_found (s : State) (m : List (Label × Label)) (e i k g j : Nat) (l : Label) (hs : (playEntry s e).segment = some g)
    (h1 : i ≤ j) (h2 : j < (segment s g).packets) (hl : mapLabel m (storedPacket s g j).label = some l)
    (h : ∀ x, i ≤ x → x < j → mapLabel m (storedPacket s g x).label = none) :
    scanPass s m e i k = (some (storedPacket s g j, l, j + 1), k + (j - i)) := by
  unfold scanPass
  rw [hs]
  exact scanPackets_found s g m _ i k j l h1 (by omega) hl h

/-- A search ends at the packet that its first pass finds. -/
theorem searchChain_found (s : State) (m : List (Label × Label)) (f e r i k : Nat) (p : Packet) (l : Label) (i' n : Nat)
    (h : scanPass s m e i k = (some (p, l, i'), n)) : searchChain s m f e r i k = (.found p l e r i', n) := by
  cases f <;> (unfold searchChain; rw [h])

/-- A search whose first pass finds none enters the next repeat or entry. -/
theorem searchChain_none (s : State) (m : List (Label × Label)) (f e r i k n : Nat)
    (h : scanPass s m e i k = (none, n)) : searchChain s m (f + 1) e r i k = match nextEntering s e r with
      | none => (.ended e, n)
      | some (e', k') =>
        match entryCheck s e' with
        | some r => (.failed r, n)
        | none => searchChain s m f e' k' 0 n := by
  conv => lhs; unfold searchChain
  cases nextEntering s e r <;> simp only [h] <;> rfl

/-- A search round a loop with no playable packet fails. -/
theorem searchChain_loop (s : State) (m : List (Label × Label)) (e g : Nat) (hs : (playEntry s e).segment = some g) (hr : (segment s g).state = .ready)
    (hm : ∀ j, j < (segment s g).packets → mapLabel m (storedPacket s g j).label = none) (hn : (playEntry s e).next = some e) :
    ∀ f r i k, ∃ n, searchChain s m f e r i k = (.failed .badLink, n) := by
  intro f
  have hnext : ∀ r, ∃ k', nextEntering s e r = some (e, k') := by
    intro r; unfold nextEntering; dsimp only; split
    · exact ⟨_, rfl⟩
    · rw [hn]; exact ⟨_, rfl⟩
  have hchk : entryCheck s e = none := by unfold entryCheck; rw [hs]; dsimp only; rw [if_pos hr]
  induction f with
  | zero =>
    intro r i k
    obtain ⟨n, h⟩ := scanPass_none s m e i k (fun g' h' j h1 h2 => by rw [hs] at h'; cases h'; exact hm j h2)
    obtain ⟨k', hk⟩ := hnext r
    refine ⟨n, ?_⟩
    unfold searchChain; rw [h]; dsimp only; rw [hk]
  | succ f ih =>
    intro r i k
    obtain ⟨n, h⟩ := scanPass_none s m e i k (fun g' h' j h1 h2 => by rw [hs] at h'; cases h'; exact hm j h2)
    obtain ⟨k', hk⟩ := hnext r
    rw [searchChain_none s m f e r i k n h, hk]
    dsimp only
    rw [hchk]
    exact ih k' 0 n

theorem searchFuel : Config.searchEnterings = 8191 + 1 := rfl

theorem mapSegment_segment (s : State) (h : tableWf {} s.store.segments = true) (g q : Nat) (f : Segment → Segment) :
    segment (mapSegment g f s) q = if q = g then f (segment s g) else segment s q := by
  unfold Machine.segment mapSegment mapStore
  exact segment_tablePut h _ _ _

theorem mapSegment_wf (s : State) (h : tableWf {} s.store.segments = true) (g : Nat) (f : Segment → Segment) : tableWf {} (mapSegment g f s).store.segments = true :=
  tablePut_wf _ h

/-- What a change of position does to the use counts. -/
theorem setPosition_segment (c : Fin 16) (q : Position) (s : State) (h : tableWf {} s.store.segments = true) (g : Nat) :
   segment (setPosition c q s) g =
     if positionSegment s (context s c).position = positionSegment s q then segment s g
     else if positionSegment s (context s c).position = some g then { segment s g with uses := (segment s g).uses - 1 }
     else if positionSegment s q = some g then { segment s g with uses := (segment s g).uses + 1 }
     else segment s g := by
  unfold setPosition
  dsimp only
  have e : ∀ u : State, segment (mapContext c (fun x => { x with position := q }) u) g = segment u g := fun _ => rfl
  rw [e]
  by_cases he : positionSegment s (context s c).position = positionSegment s q
  · rw [if_pos he, if_pos he, if_pos he]
  · rw [if_neg he, if_neg he, if_neg he]
    cases ho : positionSegment s (context s c).position with
    | none =>
      cases hn : positionSegment s q with
      | none => simp
      | some g2 =>
        dsimp only
        rw [mapSegment_segment s h]
        by_cases hg : g = g2
        · subst hg; simp
        · have : ¬ g2 = g := fun h => hg h.symm
          simp [hg, this]
    | some g1 =>
      cases hn : positionSegment s q with
      | none =>
        dsimp only
        rw [mapSegment_segment s h]
        by_cases hg : g = g1
        · subst hg; rw [if_pos rfl, if_pos rfl]
        · rw [if_neg hg, if_neg (by simpa using fun h => hg h.symm), if_neg (by simp)]
      | some g2 =>
        dsimp only
        rw [mapSegment_segment _ (mapSegment_wf s h g1 _), mapSegment_segment s h, mapSegment_segment s h]
        have h12 : g1 ≠ g2 := by intro h3; rw [ho, hn, h3] at he; exact he rfl
        by_cases hg : g = g1
        · subst hg; rw [if_neg h12, if_pos rfl, if_pos rfl]
        · have h3 : ¬ g1 = g := fun h => hg h.symm
          by_cases hg2 : g = g2
          · subst hg2; simp [hg, h3]
          · have h4 : ¬ g2 = g := fun h => hg2 h.symm
            simp [hg, hg2, h3, h4]

theorem activating_mem (s : State) (k : Fin 4) (x : Point) (y : Fin 16) : y ∈ activating s k x ↔
   (context s y).state = .armed ∧ (programme s (context s y).programme).valid = true
       ∧ (programme s (context s y).programme).output = some k ∧ (context s y).splice.map (fun q => q.point) = some x := by
  unfold activating
  simp only [List.mem_filter, contextsOn_mem, Bool.and_eq_true, beq_iff_eq]
  constructor
  · rintro ⟨⟨a, b⟩, c, d⟩; exact ⟨c, a, b, d⟩
  · rintro ⟨c, a, b, d⟩; exact ⟨⟨a, b⟩, c, d⟩

theorem activating_nodup (s : State) (k : Fin 4) (x : Point) : (activating s k x).Nodup :=
  List.Nodup.filter _ (contextsOn_nodup s k)

theorem nodup_single {l : List (Fin 16)} (h : l.Nodup) (c : Fin 16) (hm : ∀ y, y ∈ l ↔ y = c) : l = [c] := by
  cases l with
  | nil => exact absurd ((hm c).mpr rfl) (by simp)
  | cons a l =>
    have ha := (hm a).mp (by simp)
    cases l with
    | nil => rw [ha]
    | cons b l =>
      have hb := (hm b).mp (by simp)
      rw [ha, hb] at h
      simp at h

theorem setOwner_programme (s : State) (h : tableWf {} s.progs.records = true) (p q : Nat) (o : Option (Fin 16)) :
   programme (setOwner p o s) q = if q = p then { programme s p with owner := o, discontinuity := true } else programme s q := by
  unfold setOwner programme mapProgramme mapProgs
  exact programme_tablePut h _ _ _

theorem markDiscontinuity_programme (s : State) (h : tableWf {} s.progs.records = true) (p q : Nat) :
   programme (markDiscontinuity p s) q = if q = p then { programme s p with discontinuity := true } else programme s q := by
  unfold markDiscontinuity programme mapProgramme mapProgs
  exact programme_tablePut h _ _ _

/-- The best of a list is one of the list. -/
theorem best_among (s : State) (l : List (Fin 16)) (b : Option (Fin 16)) : ∀ o, (l.foldl (fun best c =>
    match best with
    | none => some c
    | some b => if (context s b).priority < (context s c).priority then some c else some b) b) = some o → o ∈ l ∨ b = some o := by
  induction l generalizing b with
  | nil => intro o h; exact .inr h
  | cons a l ih =>
    intro o h
    rcases ih _ o h with h | h
    · exact .inl (List.mem_cons_of_mem _ h)
    · cases b with
      | none => simp only [Option.some.injEq] at h; subst h; exact .inl List.mem_cons_self
      | some b =>
        dsimp only at h
        split at h
        · cases h; exact .inl List.mem_cons_self
        · exact .inr h

/-- A context that relinquishes owns its programme no more. -/
theorem relinquish_gone (c : Fin 16) (s : State) (h : tableWf {} s.progs.records = true) (hna : (context s c).state ≠ .active) :
    (programme (relinquish c s) (context s c).programme).owner ≠ some c := by
  unfold relinquish
  split
  · unfold passOwnership
    rw [setOwner_programme s h, if_pos rfl]
    intro hb
    dsimp only at hb
    rcases best_among s _ none c hb with hm | hm
    · simp only [List.mem_filter, activeOn, Bool.and_eq_true, beq_iff_eq] at hm
      exact hna hm.2.1
    · cases hm
  · rename_i h2; exact h2

/-- A slot that an output reports is counted in each ACTIVE context on its programmes (R154). -/
theorem context_countSlots (k : Fin 4) (due : Option Nat) (s : State) (d : Fin 16) : context (countSlots k due s) d =
    if (context s d).state = .active ∧ d ∈ contextsOn s k then { context s d with
      countdown := (context s d).countdown - 1
      otherSlots := if due = some (context s d).programme then (context s d).otherSlots else (context s d).otherSlots + 1 }
    else context s d := by
  unfold countSlots
  rw [forAll_context (F := fun _ x => { x with
      countdown := x.countdown - 1
      otherSlots := if due = some x.programme then x.otherSlots else x.otherSlots + 1 })
    (fun c d s => context_map c d _ s) _ (List.Nodup.filter _ (contextsOn_nodup s k))]
  simp only [List.mem_filter, beq_iff_eq, and_comm]

/-- A change of owner leaves every programme on its output. -/
theorem relinquish_output (c : Fin 16) (s : State) (h : tableWf {} s.progs.records = true) (p : Nat) :
    programmeOutput (relinquish c s) p = programmeOutput s p := by
  unfold relinquish
  split
  · unfold passOwnership programmeOutput
    rw [setOwner_programme s h]
    split
    · subst_vars; rfl
    · rfl
  · rfl

theorem forAll_relinquish_output (l : List (Fin 16)) (s : State) (h : tableWf {} s.progs.records = true) (p : Nat) :
    programmeOutput (forAll l relinquish s) p = programmeOutput s p := by
  induction l generalizing s with
  | nil => rfl
  | cons c l ih =>
    obtain ⟨q, e, w⟩ := relinquish_rest c s
    exact (ih (relinquish c s) (by rw [e]; exact w h)).trans (relinquish_output c s h p)

/-- What lies ahead of the outputs is the same once contexts have left ACTIVE and given up their programmes. -/
theorem left_ahead (l : List (Fin 16)) (s : State) (h : tableWf {} s.progs.records = true) :
    pointAheadOn (forAll l relinquish (forAll l leaveByEnd s)) = pointAheadOn s := by
  refine pointAheadOn_congr ?_ fun p => ?_
  · exact ((Within.forAll within_relinquish _ _).after (Within.forAll within_leaveByEnd _ _)).1
  · rw [forAll_relinquish_output _ _ (by rw [forAll_leaveByEnd_progs]; exact h)]
    unfold programmeOutput programme
    rw [forAll_leaveByEnd_progs]

/-- The contexts whose breaks end on output `k`, and what becomes of each: it leaves ACTIVE, and takes its latched cue when
it has rearmed (R155). The judgement of a latched cue's point is that of the state before. -/
theorem context_endBreaks (k : Fin 4) (s : State) : ∃ ahead : Nat → Point → Bool,
    (tableWf {} s.progs.records = true → ahead = pointAheadOn s)
    ∧ ∀ d, context (endBreaks k s) d =
        if d ∈ contextsOn s k ∧ breakEndDue s d = true then afterRearm ahead (ended (context s d)) else context s d := by
  have hnd : ((contextsOn s k).filter (breakEndDue s)).Nodup := List.Nodup.filter _ (contextsOn_nodup s k)
  let l := (contextsOn s k).filter (breakEndDue s)
  refine ⟨pointAheadOn (forAll l relinquish (forAll l leaveByEnd s)), left_ahead l s, fun d => ?_⟩
  unfold endBreaks
  dsimp only
  rw [context_forAll_rearm _ hnd, context_forAll_relinquish, context_forAll_leaveByEnd _ hnd]
  simp only [List.mem_filter]
  split <;> rfl

/-- A context whose break ends on output `k` sets BREAK_END and owns its programme no more (R155, R157). -/
theorem endBreaks_ended (k : Fin 4) (s : State) (c : Fin 16) (hm : c ∈ contextsOn s k) (hd : breakEndDue s c = true) :
    hasFlag (endBreaks k s).mgmt.flags .breakEnd = true
    ∧ (tableWf {} s.progs.records = true → (programme (endBreaks k s) (context s c).programme).owner ≠ some c) := by
  have hl : c ∈ (contextsOn s k).filter (breakEndDue s) := List.mem_filter.2 ⟨hm, hd⟩
  have hnd : ((contextsOn s k).filter (breakEndDue s)).Nodup := List.Nodup.filter _ (contextsOn_nodup s k)
  unfold endBreaks
  dsimp only
  generalize (contextsOn s k).filter (breakEndDue s) = l at *
  constructor
  · have h1 : hasFlag (forAll l leaveByEnd s).mgmt.flags .breakEnd = true := by
      cases l with
      | nil => cases hl
      | cons a l =>
        exact (forAll_moves leaveByEnd_moves l (leaveByEnd a s)).mgmtStep.2.2.2.2.2.2 _ (setFlag_hasFlag _ _)
    exact ((forAll_moves relinquish_moves _ _).trans (forAll_moves rearmLatch_moves _ _)).mgmtStep.2.2.2.2.2.2 _ h1
  · intro hw
    have hc : context (forAll l leaveByEnd s) c = ended (context s c) := by
      rw [context_forAll_leaveByEnd _ hnd, if_pos hl]
    have := forAll_relinquish_owner l (s := forAll l leaveByEnd s) (by rw [forAll_leaveByEnd_progs]; exact hw) c
      (by rw [hc]; unfold ended; dsimp only; split <;> simp) (.inl hl)
    rw [hc] at this
    show (tableGet {} (forAll l rearmLatch _).progs.records _).owner ≠ _
    rw [forAll_rearm_progs]
    exact this

/-- A latched cue whose point is not ahead is missed as it is taken (R140, R155). -/
theorem endBreaks_missed (k : Fin 4) (s : State) (c : Fin 16) (q : Cue) (hw : tableWf {} s.progs.records = true)
    (hm : c ∈ contextsOn s k) (hd : breakEndDue s c = true) (hr : (context s c).mode = .cue ∧ (context s c).rearm = true)
    (hq : (context s c).latch = some q) (hn : pointAheadOn s (context s c).programme q.point = false) :
    hasFlag (endBreaks k s).mgmt.flags .cueMissed = true := by
  have hl : c ∈ (contextsOn s k).filter (breakEndDue s) := List.mem_filter.2 ⟨hm, hd⟩
  have hnd : ((contextsOn s k).filter (breakEndDue s)).Nodup := List.Nodup.filter _ (contextsOn_nodup s k)
  unfold endBreaks
  dsimp only
  generalize (contextsOn s k).filter (breakEndDue s) = l at *
  have hu : context (forAll l relinquish (forAll l leaveByEnd s)) c = ended (context s c) := by
    rw [context_forAll_relinquish, context_forAll_leaveByEnd _ hnd, if_pos hl]
  have ha := left_ahead l s hw
  generalize forAll l relinquish (forAll l leaveByEnd s) = u at *
  have he : ended (context s c) = { context s c with
      position := .absent, completed := bump (context s c).completed, state := .armed } := by
    unfold ended; rw [if_pos hr]
  rw [he] at hu
  have key : ∀ (l : List (Fin 16)) (u : State), c ∈ l → l.Nodup → context u c = { context s c with
      position := .absent, completed := bump (context s c).completed, state := .armed } →
      pointAheadOn u = pointAheadOn s → hasFlag (forAll l rearmLatch u).mgmt.flags .cueMissed = true := by
    intro l
    induction l with
    | nil => intro u h; cases h
    | cons a l ih =>
      intro u hl hnd hu ha
      by_cases hac : a = c
      · subst hac
        have h1 : hasFlag (rearmLatch a u).mgmt.flags .cueMissed = true := by
          unfold rearmLatch takeLatch
          rw [if_pos (by rw [hu]), hu]
          simp only [hq]
          unfold offerSplice
          rw [if_neg]
          · exact setFlag_hasFlag _ _
          · rw [show pointAheadOn (mapContext a (fun y => { y with latch := none }) u) = pointAheadOn u from rfl, ha,
              context_map, if_pos rfl, hu]
            simp [hn]
        exact (forAll_moves rearmLatch_moves l _).mgmtStep.2.2.2.2.2.2 _ h1
      · have hn' := List.nodup_cons.1 hnd
        rcases List.mem_cons.1 hl with h | h
        · exact absurd h.symm hac
        · exact ih (rearmLatch a u) h hn'.2 (by rw [context_rearm, if_neg (Ne.symm hac), hu]) (by rw [rearm_ahead, ha])
  exact key l u hl hnd hu ha

/-- The breaks that end leave a programme as it is on which none of them runs. -/
theorem endBreaks_programme (k : Fin 4) (s : State) (h : tableWf {} s.progs.records = true) (p : Nat)
    (hp : ∀ c, c ∈ contextsOn s k → breakEndDue s c = true → (context s c).programme ≠ p) :
    programme (endBreaks k s) p = programme s p := by
  have hnd : ((contextsOn s k).filter (breakEndDue s)).Nodup := List.Nodup.filter _ (contextsOn_nodup s k)
  have hl : ∀ c ∈ (contextsOn s k).filter (breakEndDue s), (context s c).programme ≠ p := fun c hc =>
    hp c (List.mem_filter.1 hc).1 (List.mem_filter.1 hc).2
  unfold endBreaks
  dsimp only
  generalize (contextsOn s k).filter (breakEndDue s) = l at *
  have key : ∀ (l : List (Fin 16)) (u : State), tableWf {} u.progs.records = true →
      (∀ c ∈ l, (context u c).programme ≠ p) → programme (forAll l relinquish u) p = programme u p := by
    intro l
    induction l with
    | nil => intro u _ _; rfl
    | cons a l ih =>
      intro u hu hc
      obtain ⟨q, e, w⟩ := relinquish_rest a u
      refine (ih (relinquish a u) (by rw [e]; exact w hu) fun c hm => ?_).trans ?_
      · rw [context_relinquish]; exact hc c (List.mem_cons_of_mem _ hm)
      · unfold relinquish
        split
        · exact (setOwner_programme u hu _ p _).trans (if_neg fun h' => hc a List.mem_cons_self h'.symm)
        · rfl
  have h1 : programme (forAll l rearmLatch (forAll l relinquish (forAll l leaveByEnd s))) p
      = programme (forAll l relinquish (forAll l leaveByEnd s)) p := by
    unfold programme; rw [forAll_rearm_progs]
  rw [h1, key l _ (by rw [forAll_leaveByEnd_progs]; exact h) fun c hc => by
    rw [context_forAll_leaveByEnd _ hnd, if_pos hc]; exact hl c hc]
  unfold programme
  rw [forAll_leaveByEnd_progs]

theorem fillSlot_eq (k : Fin 4) (g : Grid) (w : State) (hwg : w.outs[(k:Nat)].grid = some g) :
   fillSlot k false w = mapOut k (fun o => { o with grid := some (stepGrid g), slot := some { remaining := slotLength g, sends := false }, line := some fillPacket })
      (countOut k (fun c => { c with fillSlots := bump c.fillSlots }) w)
   ∧ (fillSlot k false w).outs[(k:Nat)] = { w.outs[(k:Nat)] with
      counters := { w.outs[(k:Nat)].counters with fillSlots := bump w.outs[(k:Nat)].counters.fillSlots }
      grid := some (stepGrid g)
      slot := some { remaining := slotLength g, sends := false }
      line := some fillPacket } := by
  have hc : (countOut k (fun c => { c with fillSlots := bump c.fillSlots }) w).outs[(k:Nat)] = { w.outs[(k:Nat)] with counters := { w.outs[(k:Nat)].counters with fillSlots := bump w.outs[(k:Nat)].counters.fillSlots } } := mapOut_same k _ w
  have h : fillSlot k false w = mapOut k (fun o => { o with grid := some (stepGrid g), slot := some { remaining := slotLength g, sends := false }, line := some fillPacket })
      (countOut k (fun c => { c with fillSlots := bump c.fillSlots }) w) := by
    unfold fillSlot
    rw [if_neg (by decide), takeSlot_eq k false fillPacket _ g (by rw [hc]; exact hwg)]
  refine ⟨h, ?_⟩
  rw [h, mapOut_same, hc]

theorem removeHead_pool (k : Fin 4) (s : State) (e : Entry) (rest : List Entry) (hq : s.outs[(k:Nat)].queue = e :: rest) (hw : tableWf {} s.pool.buffers = true) :
   (buffer (removeHead .substitution k s) e.buffer).refs = (buffer s e.buffer).refs - 1
   ∧ (removeHead .substitution k s).pool.counters.substitutionReleases = bump s.pool.counters.substitutionReleases := by
  unfold removeHead
  rw [show s.outs[k].queue = e :: rest from hq]
  dsimp only
  unfold releaseEntry
  refine ⟨?_, ?_⟩
  · have := buffer_releaseBuffer (s := countPool (countRemoval .substitution) (mapOut k (fun o => { o with queue := rest }) s)) hw e.buffer
    exact this.1
  · unfold releaseBuffer
    dsimp only
    split
    · rfl
    · split <;> rfl

theorem recordAdvert_programme (p : Nat) (st : Int) (off : Sample) (stored : Packet) (s : State) (h : tableWf {} s.progs.records = true) :
   programme (recordAdvert p st off stored s) p = if stored.c then { programme s p with tracker := some (clockSample stored + off, st), discontinuity := false } else programme s p := by
  unfold recordAdvert
  split
  · unfold recordSample
    rw [mapProgramme_programme]
    · have hif : ∀ u : State, programme (if (programme u p).discontinuity then countProgs (fun c => { c with discontinuityMarks := bump c.discontinuityMarks }) u else u) p = programme u p := by
        intro u; split <;> rfl
      rw [hif]; rfl
    · have hx : ∀ u : State, tableWf {} u.progs.records = true → tableWf {} (if (programme u p).discontinuity then countProgs (fun c => { c with discontinuityMarks := bump c.discontinuityMarks }) u else u).progs.records = true := by
          intro u h; split <;> exact h
      exact hx _ h
  · rfl

theorem sendEntry_out (k : Fin 4) (d st : Int) (e : Entry) (g : Grid) (v : State) (hvg : v.outs[(k:Nat)].grid = some g) :
    (sendEntry k false d st e v).outs[(k:Nat)] = { v.outs[(k:Nat)] with
      counters := { v.outs[(k:Nat)].counters with packetsEmitted := bump v.outs[(k:Nat)].counters.packetsEmitted }, grid := some (stepGrid g)
      slot := some { remaining := slotLength g, sends := true }, line := some (entryPacket v k d e) }
    ∧ (sendEntry k false d st e v).progs = (recordEntry k d st e v).progs := by
  have hR := within_recordEntry k d st e v
  have hc : (countOut k (fun c => { c with packetsEmitted := bump c.packetsEmitted }) (recordEntry k d st e v)).outs[(k:Nat)] = { v.outs[(k:Nat)] with counters := { v.outs[(k:Nat)].counters with packetsEmitted := bump v.outs[(k:Nat)].counters.packetsEmitted } } := by
    rw [← within_out hR k]; exact mapOut_same k _ _
  have hse : sendEntry k false d st e v = takeSlot k false true (entryPacket v k d e) (countOut k (fun c => { c with packetsEmitted := bump c.packetsEmitted }) (recordEntry k d st e v)) := rfl
  rw [hse, takeSlot_eq k true (entryPacket v k d e) _ g (by rw [hc]; exact hvg)]
  refine ⟨?_, rfl⟩
  rw [mapOut_same, hc]

theorem recordEntry_programme (k : Fin 4) (d st : Int) (e : Entry) (p : Nat) (v : State) (h : standsFor v k e = some p) (hwf : tableWf {} v.progs.records = true) :
   programme (recordEntry k d st e v) p = if ((buffer v e.buffer).contents.getD fillPacket).c then
     { programme v p with tracker := some (sampleAdd (clockSample ((buffer v e.buffer).contents.getD fillPacket)) d, st), discontinuity := false } else programme v p := by
  unfold recordEntry
  dsimp only
  split
  · rw [h]
    dsimp only
    unfold recordSample
    have hif : ∀ u : State, programme (if (programme u p).discontinuity then countProgs (fun c => { c with discontinuityMarks := bump c.discontinuityMarks }) u else u) p = programme u p := by
      intro u; split <;> rfl
    have hx : ∀ u : State, tableWf {} u.progs.records = true → tableWf {} (if (programme u p).discontinuity then countProgs (fun c => { c with discontinuityMarks := bump c.discontinuityMarks }) u else u).progs.records = true := by
      intro u h; split <;> exact h
    have hpp : ∀ (f : ProgrammeCounters → ProgrammeCounters) (u : State) q, programme (countProgs f u) q = programme u q := fun _ _ _ => rfl
    have hd : ∀ u : State, programme (if d = 0 then u else countProgs (fun c => { c with nonzeroDisplacements := bump c.nonzeroDisplacements }) u) p = programme u p := by
      intro u; split <;> rfl
    have hdw : ∀ u : State, tableWf {} u.progs.records = true → tableWf {} (if d = 0 then u else countProgs (fun c => { c with nonzeroDisplacements := bump c.nonzeroDisplacements }) u).progs.records = true := by
      intro u h; split <;> exact h
    rw [mapProgramme_programme]
    · rw [hif, hpp, hd]
    · apply hx; exact hdw _ hwf
  · rfl

/-- An advance that halts is a halt. -/
theorem draw_halted (c : Fin 16) (s : State) (h : (draw c s).1 = .halted) : ∃ reason f, (draw c s).2 = haltContext c reason (countEngine f s) := by
  revert h
  unfold draw
  split
  · intro h; cases h
  · intro h; cases h
  · dsimp only
    split
    · intro h; cases h
    · intro h; cases h
    · intro _; exact ⟨_, _, rfl⟩

end Sys2Proof
end

