-- ==== Sys2Proof/Laws/Copies.lean ====
section
/-!
SUPPORT. Copies.lean: the copies of a packet: intake framing of several copies, admission and the claim, each said once; and
that admission does not depend on the Route Decoder.
-/

namespace Sys2Proof

open Machine

/-- The state with another Route Decoder: admission reads and writes none of it. -/
def withRoute (r : RouteDecoder) (s : State) : State := { s with route := r }

theorem placeAbandonReply_withRoute (r : RouteDecoder) (s : State) : placeAbandonReply (withRoute r s) = withRoute r (placeAbandonReply s) := by
  unfold placeAbandonReply
  show (match s.mgmt.abandonReply with | none => _ | some _ => _) = _
  cases s.mgmt.abandonReply with
  | none => rfl
  | some a =>
    dsimp only
    show (if placeFree s.mgmt = true then _ else _) = _
    split <;> rfl

theorem placeOwedReport_withRoute (r : RouteDecoder) (s : State) : placeOwedReport (withRoute r s) = withRoute r (placeOwedReport s) := by
  unfold placeOwedReport
  show (if s.mgmt.owed ≠ 0 ∧ placeFree s.mgmt = true then _ else _) = _
  split <;> rfl

theorem givePlaces_withRoute (r : RouteDecoder) (s : State) : givePlaces (withRoute r s) = withRoute r (givePlaces s) := by
  unfold givePlaces; rw [placeAbandonReply_withRoute, placeOwedReport_withRoute]

theorem choosePort_withRoute (r : RouteDecoder) (s : State) : choosePort (withRoute r s) = withRoute r (choosePort s) := by
  unfold choosePort
  show (if s.pool.port.isSome = true then _ else (match s.mgmt.reportQueue with | _ :: _ => _ | [] => _)) = _
  split
  · rfl
  · cases s.mgmt.reportQueue with
    | cons a l => exact givePlaces_withRoute r (sendReport a l s)
    | nil =>
      dsimp only
      show (match s.pool.monitorQueue with | _ :: _ => _ | [] => _) = _
      cases s.pool.monitorQueue <;> rfl

theorem setFlag_withRoute (f : Flag) (r : RouteDecoder) (s : State) : setFlag f (withRoute r s) = withRoute r (setFlag f s) := by
  unfold setFlag
  show (if hasFlag s.mgmt.flags f = true then _ else (if hasFlag s.mgmt.enabled f = true then (if placeFree s.mgmt = true then _ else _) else _)) = _
  split
  · rfl
  · split
    · split
      · dsimp only; unfold placeReport; rw [← choosePort_withRoute]; rfl
      · rfl
    · rfl

theorem forAll_withRoute {α : Type} (f : α → State → State) (r : RouteDecoder) (h : ∀ a s, f a (withRoute r s) = withRoute r (f a s)) (l : List α) (s : State) :
    forAll l f (withRoute r s) = withRoute r (forAll l f s) := by
  induction l generalizing s with
  | nil => rfl
  | cons a l ih => show forAll l f (f a (withRoute r s)) = _; rw [h, ih]; rfl

theorem refuseForRoom_withRoute (r : RouteDecoder) (c : Candidate) (s : State) : refuseForRoom c (withRoute r s) = withRoute r (refuseForRoom c s) := by
  cases c with
  | monitor => rfl
  | output k _ _ _ =>
    unfold refuseForRoom
    show (if s.outs[k].sync = .muted then _ else _) = _
    dsimp only
    split <;> rfl

theorem refuseForPool_withRoute (r : RouteDecoder) (c : Candidate) (s : State) : refuseForPool c (withRoute r s) = withRoute r (refuseForPool c s) := by
  cases c <;> rfl

theorem appendCopy_withRoute (b : Nat) (r : RouteDecoder) (c : Candidate) (s : State) : appendCopy b c (withRoute r s) = withRoute r (appendCopy b c s) := by
  cases c <;> rfl

theorem mapPool_withRoute (f : Machine.Pool → Machine.Pool) (r : RouteDecoder) (s : State) : mapPool f (withRoute r s) = withRoute r (mapPool f s) := rfl

theorem countPool_withRoute (f : PoolCounters → PoolCounters) (r : RouteDecoder) (s : State) : countPool f (withRoute r s) = withRoute r (countPool f s) := rfl

theorem claim_withRoute (p : Packet) (l : List Candidate) (r : RouteDecoder) (s : State) : claim p l (withRoute r s) = withRoute r (claim p l s) := by
  unfold claim
  have : (withRoute r s).pool = s.pool := rfl
  rw [this]
  split
  · rw [forAll_withRoute _ _ (refuseForPool_withRoute r), countPool_withRoute, setFlag_withRoute]
  · dsimp only
    rw [mapPool_withRoute, forAll_withRoute _ _ (appendCopy_withRoute _ r), choosePort_withRoute]

/-- Admission does not depend on the Route Decoder. -/
theorem admission_withRoute (p : Packet) (l : List Candidate) (r : RouteDecoder) (s : State) : admission p l (withRoute r s) = withRoute r (admission p l s) := by
  unfold admission
  have : hasRoom (withRoute r s) = hasRoom s := by funext c; cases c <;> rfl
  rw [this]; dsimp only
  rw [forAll_withRoute _ _ (refuseForRoom_withRoute r)]
  split
  · rfl
  · exact claim_withRoute _ _ _ _

theorem setDecode_withRoute (src : Source) (p : Option Packet) (s : State) : setDecode src p s =
    withRoute (match src with | .feed => { s.route with feedDecode := p } | .localPort => { s.route with localDecode := p }) s := by
  cases src <;> rfl

/-- Admission leaves the Route Decoder as it is. -/
theorem admission_route (p : Packet) (l : List Candidate) (s : State) : (admission p l s).route = s.route := by
  have := admission_withRoute p l s.route s
  have h : withRoute s.route s = s := rfl
  rw [h] at this; rw [this]; rfl

theorem setDecode_admission (src : Source) (q : Packet) (l : List Candidate) (u : State) :
    setDecode src none (admission q l u) = admission q l (setDecode src none u) := by
  rw [setDecode_withRoute, admission_route, ← admission_withRoute, setDecode_withRoute src none u]

theorem setDecode_setFlag (src : Source) (f : Flag) (u : State) :
    setDecode src none (setFlag f u) = setFlag f (setDecode src none u) := by
  rw [setDecode_withRoute, show (setFlag f u).route = u.route from (setFlag_moves f u).route, ← setFlag_withRoute, setDecode_withRoute src none u]

theorem setDecode_countRoute (src : Source) (f : RouteCounters → RouteCounters) (u : State) : setDecode src none (countRoute f u) = countRoute f (setDecode src none u) := by
  cases src <;> rfl

theorem countRoute_setFlag (f : Flag) (g : RouteCounters → RouteCounters) (u : State) : countRoute g (setFlag f u) = setFlag f (countRoute g u) := by
  have h1 : countRoute g (setFlag f u) = withRoute { u.route with counters := g u.route.counters } (setFlag f u) := by
    show ({ setFlag f u with route := { (setFlag f u).route with counters := g (setFlag f u).route.counters } } : State) = _
    rw [(setFlag_moves f u).route]; rfl
  rw [h1, ← setFlag_withRoute]; rfl

/-- A copy that reaches the intake framing of an output goes on to admission. -/
def copyKept (o : Output) : Bool := if o.sync = .muted then false else match o.openFrame with | none => true | some f => decide (f.received < f.record.length)

/-- The point of a copy that goes on. -/
def copyPoint (o : Output) : Option Point := o.openFrame.map fun f => (f.record.number, f.received)

/-- An output after a copy has reached its intake framing. -/
def afterCopy (o : Output) : Output :=
  if o.sync = .muted then { o with counters := { o.counters with mutedRefusals := bump o.counters.mutedRefusals } }
  else match o.openFrame with
    | none => o
    | some f => if f.received < f.record.length then { o with openFrame := some { f with received := f.received + 1 } }
      else { o with counters := { o.counters with overflowCopies := bump o.counters.overflowCopies } }

theorem outs_set_self (k : Fin 4) (s : State) : s.outs.set (k:Nat) s.outs[(k:Nat)] = s.outs := by
  apply Vector.ext; intro i hi
  rw [Vector.getElem_set]
  split
  · rename_i h; subst h; rfl
  · rfl

/-- What `frameCopy` does, said once. -/
theorem frameCopy_eq (k : Fin 4) (s : State) : frameCopy k s = (if copyKept s.outs[k] then .passed (copyPoint s.outs[k]) else .refused, { s with outs := s.outs.set k (afterCopy s.outs[k]) }) := by
  unfold frameCopy copyKept afterCopy copyPoint
  simp only [Fin.getElem_fin]
  generalize ho : s.outs[(k:Nat)] = o
  by_cases hm : o.sync = .muted
  · rw [if_pos hm, if_pos hm, if_pos hm]; simp only [countOut, mapOut, Fin.getElem_fin, ho]; rfl
  · rw [if_neg hm, if_neg hm, if_neg hm]
    cases hf : o.openFrame with
    | none => dsimp only; rw [if_pos rfl]; simp only [Option.map_none]; rw [← ho, outs_set_self]
    | some f =>
      dsimp only
      by_cases h : f.received < f.record.length
      · rw [if_pos h, if_pos h, if_pos (by simp [h])]; simp only [mapOut, Fin.getElem_fin, ho, Option.map_some]
      · rw [if_neg h, if_neg h, if_neg (by simp [h])]; simp only [countOut, mapOut, Fin.getElem_fin, ho, hf]

/-- The programme of a copy, by the Programme Table alone. -/
def copyTagOf (progs : ProgrammeTable) (r : Route) (k : Fin 4) : Option Nat := match r.programme with
  | none => none
  | some p => if (let x := tableGet {} progs.records p; if x.valid then x.output else none) = some k then some p else none

theorem copyTag_eq (s : State) (r : Route) (k : Fin 4) : copyTag s r k = copyTagOf s.progs r k := by
  unfold copyTag copyTagOf; cases r.programme <;> rfl

/-- What handing copies to several outputs does, said once. -/
theorem handCopies (pkt : Packet) (r : Route) : ∀ (L : List (Fin 4)), L.Nodup → ∀ (c : List Candidate) (q : State), ∃ o' : Vector Output 4,
   L.foldl (fun acc k => handCopy pkt r k acc) (c, q) = (c ++ (L.filter fun k => copyKept q.outs[k]).map (fun k => .output k (copyPoint q.outs[k]) (copyTagOf q.progs r k) (r.rewrite.getD pkt.label)),
     { q with
        route := { q.route with counters := { q.route.counters with
          plainCopies := bumpBy q.route.counters.plainCopies (L.filter fun k => (copyTagOf q.progs r k).isNone).length
          programmeCopies := bumpBy q.route.counters.programmeCopies (L.filter fun k => (copyTagOf q.progs r k).isSome).length } }
        outs := o' }) ∧ ∀ k : Fin 4, o'[k] = if k ∈ L then afterCopy q.outs[k] else q.outs[k] := by
  intro L
  induction L with
  | nil =>
    intro _ c q
    refine ⟨q.outs, ?_, fun k => by simp⟩
    simp [bumpBy_zero]
  | cons a L ih =>
    intro hn c q
    obtain ⟨hna, hn'⟩ := List.nodup_cons.1 hn
    rw [List.foldl_cons]
    -- one copy
    have h1 : handCopy pkt r a (c, q) = (c ++ (if copyKept q.outs[a] then [.output a (copyPoint q.outs[a]) (copyTagOf q.progs r a) (r.rewrite.getD pkt.label)] else []),
       { countCopy (copyTagOf q.progs r a) q with outs := q.outs.set a (afterCopy q.outs[a]) }) := by
      unfold handCopy
      dsimp only
      rw [frameCopy_eq, copyTag_eq]
      have ho : (countCopy (copyTagOf q.progs r a) q).outs = q.outs := by unfold countCopy; split <;> rfl
      rw [ho]
      cases copyKept q.outs[a] <;> simp
    rw [h1]
    obtain ⟨o', e, ho⟩ := ih hn' (c ++ (if copyKept q.outs[a] then [.output a (copyPoint q.outs[a]) (copyTagOf q.progs r a) (r.rewrite.getD pkt.label)] else []))
       { countCopy (copyTagOf q.progs r a) q with outs := q.outs.set a (afterCopy q.outs[a]) }
    have hp : ({ countCopy (copyTagOf q.progs r a) q with outs := q.outs.set a (afterCopy q.outs[a]) } : State).progs = q.progs := by
      show (countCopy _ q).progs = _; unfold countCopy; split <;> rfl
    have hoth : ∀ k : Fin 4, k ≠ a → (q.outs.set a (afterCopy q.outs[a]))[k] = q.outs[k] := by
      intro k hk
      simp only [Fin.getElem_fin]
      rw [Vector.getElem_set_ne]
      intro h; exact hk (Fin.ext h.symm)
    refine ⟨o', ?_, ?_⟩
    · rw [e]
      congr 1
      · rw [hp]
        have e1 : (L.filter fun k => copyKept (q.outs.set a (afterCopy q.outs[a]))[k]) = L.filter fun k => copyKept q.outs[k] := by
          apply List.filter_congr
          intro k hk
          rw [hoth k (fun h => hna (h ▸ hk))]
        rw [e1, List.append_assoc]
        congr 1
        rw [List.filter_cons]
        have e2 : List.map (fun k => Candidate.output k (copyPoint (q.outs.set a (afterCopy q.outs[a]))[k]) (copyTagOf q.progs r k) (r.rewrite.getD pkt.label)) (L.filter fun k => copyKept q.outs[k])
          = List.map (fun k => Candidate.output k (copyPoint q.outs[k]) (copyTagOf q.progs r k) (r.rewrite.getD pkt.label)) (L.filter fun k => copyKept q.outs[k]) := by
          apply List.map_congr_left
          intro k hk
          have hk' := (List.mem_filter.1 hk).1
          rw [hoth k (fun h => hna (h ▸ hk'))]
        rw [e2]
        cases copyKept q.outs[a] <;> rfl
      · rw [hp]
        unfold countCopy
        cases ht : copyTagOf q.progs r a with
        | none =>
          simp only [List.filter_cons, ht, Option.isNone_none, Option.isSome_none, if_true, List.length_cons]
          simp only [countRoute, mapRoute]
          congr 1
          simp only [bumpBy_bump]; rfl
        | some p =>
          simp only [List.filter_cons, ht, Option.isNone_some, Option.isSome_some, if_true, List.length_cons]
          simp only [countRoute, mapRoute]
          congr 1
          simp only [bumpBy_bump]; rfl
    · intro k
      rw [ho]
      by_cases hka : k = a
      · subst hka
        rw [if_neg hna, if_pos List.mem_cons_self]
        show (q.outs.set k (afterCopy q.outs[k]))[(k:Nat)] = _
        rw [Vector.getElem_set_self]
      · show (if k ∈ L then afterCopy (q.outs.set a (afterCopy q.outs[a]))[k] else (q.outs.set a (afterCopy q.outs[a]))[k]) = _
        rw [hoth k hka]
        simp only [List.mem_cons, hka, false_or]

theorem copyTagOf_iff (s : State) (r : Route) (k : Fin 4) (p : Nat) : copyTagOf s.progs r k = some p ↔ (r.programme = some p ∧ (programme s p).valid = true
             ∧ (programme s p).output = some k) := by
  unfold copyTagOf
  cases hp : r.programme with
  | none => simp
  | some x =>
    dsimp only
    show (if (if (programme s x).valid = true then (programme s x).output else none) = some k then some x else none) = some p ↔ _
    by_cases hv : (programme s x).valid = true
    · rw [if_pos hv]
      constructor
      · intro h
        split at h
        · cases h; exact ⟨rfl, hv, by assumption⟩
        · cases h
      · rintro ⟨h, -, h3⟩; cases h; rw [if_pos h3]
    · rw [if_neg hv]
      simp only [reduceCtorEq, if_false, false_iff]
      rintro ⟨h, h3, -⟩; cases h; exact hv h3

theorem unbound_iff (s : State) (r : Route) : unbound s r = true ↔ ∃ p, r.programme = some p ∧ (programme s p).valid = false := by
  unfold unbound
  cases r.programme with
  | none => simp
  | some x => simp

/-- The candidate goes to output `k`. -/
def copyGoesTo : Fin 4 → Candidate → Bool := fun k c => match c with | .output j _ _ _ => decide (j = k) | .monitor => false

/-- The candidate goes to M. -/
def copyToM : Candidate → Bool := fun c => match c with | .output _ _ _ _ => false | .monitor => true

theorem filter_monitor (k : Fin 4) (l : List Candidate) : (Candidate.monitor :: l).filter (copyGoesTo k) = l.filter (copyGoesTo k) := rfl

theorem filter_other_output {k j : Fin 4} (h : k ≠ j) (pt : Option Point) (pr : Option Nat) (lb : Label) (l : List Candidate) :
    (Candidate.output j pt pr lb :: l).filter (copyGoesTo k) = l.filter (copyGoesTo k) := by
  apply List.filter_cons_of_neg
  unfold copyGoesTo; simp; exact fun e => h e.symm

/-- What refusing copies for room does, said once. -/
theorem refuseForRoom_all (l : List Candidate) (s : State) :
   (forAll l refuseForRoom s) = { s with
      pool := { s.pool with counters := { s.pool.counters with monitorFullDrops := bumpBy s.pool.counters.monitorFullDrops (l.filter copyToM).length } }
      outs := (forAll l refuseForRoom s).outs }
   ∧ ∀ k : Fin 4, (forAll l refuseForRoom s).outs[k] = { s.outs[k] with counters := { s.outs[k].counters with
       mutedRefusals := if s.outs[k].sync = .muted then bumpBy s.outs[k].counters.mutedRefusals (l.filter (copyGoesTo k)).length else s.outs[k].counters.mutedRefusals
       shareRefusals := if s.outs[k].sync = .muted then s.outs[k].counters.shareRefusals else bumpBy s.outs[k].counters.shareRefusals (l.filter (copyGoesTo k)).length } } := by
  induction l generalizing s with
  | nil =>
    refine ⟨?_, fun k => ?_⟩
    · show s = _
      simp only [List.filter_nil, List.length_nil, bumpBy_zero]; rfl
    · show s.outs[k] = _
      simp only [List.filter_nil, List.length_nil, bumpBy_zero, ite_self]
  | cons c l ih =>
    have e : forAll (c :: l) refuseForRoom s = forAll l refuseForRoom (refuseForRoom c s) := rfl
    rw [e]
    obtain ⟨h1, h2⟩ := ih (refuseForRoom c s)
    cases c with
    | monitor =>
      refine ⟨?_, fun k => ?_⟩
      · rw [h1]
        simp only [refuseForRoom, countPool, mapPool, List.filter_cons, copyToM, if_true, List.length_cons, bumpBy_bump]
      · exact h2 k
    | output j pt pr lb =>
      have ho : ∃ g : Output → Output, refuseForRoom (.output j pt pr lb) s = mapOut j g s := by
        unfold refuseForRoom; dsimp only; split
        · exact ⟨_, rfl⟩
        · exact ⟨_, rfl⟩
      have hs : (refuseForRoom (.output j pt pr lb) s).outs[(j:Nat)] = { s.outs[(j:Nat)] with counters := { s.outs[(j:Nat)].counters with
       mutedRefusals := if s.outs[(j:Nat)].sync = .muted then bump s.outs[(j:Nat)].counters.mutedRefusals else s.outs[(j:Nat)].counters.mutedRefusals
       shareRefusals := if s.outs[(j:Nat)].sync = .muted then s.outs[(j:Nat)].counters.shareRefusals else bump s.outs[(j:Nat)].counters.shareRefusals } } := by
        unfold refuseForRoom; dsimp only
        by_cases hm : s.outs[(j:Nat)].sync = .muted
        · have hm' : s.outs[j].sync = .muted := hm
          rw [if_pos hm', if_pos hm, if_pos hm]; unfold countOut; rw [mapOut_same]
        · have hm' : ¬s.outs[j].sync = .muted := hm
          rw [if_neg hm', if_neg hm, if_neg hm]; unfold countOut; rw [mapOut_same]
      obtain ⟨g, hg⟩ := ho
      refine ⟨?_, fun k => ?_⟩
      · rw [h1, hg]
        simp only [mapOut, List.filter_cons, copyToM, Bool.false_eq_true, if_false]
      · rw [h2]
        by_cases hk : k = j
        · subst hk
          simp only [Fin.getElem_fin]
          rw [hs]
          simp only [List.filter_cons, copyGoesTo, decide_true, if_true, List.length_cons]
          by_cases hm : s.outs[(k:Nat)].sync = .muted
          · simp only [hm, if_true, bumpBy_bump]
          · simp only [hm, if_false, bumpBy_bump]
        · simp only [Fin.getElem_fin]
          have : (refuseForRoom (.output j pt pr lb) s).outs[(k:Nat)] = s.outs[(k:Nat)] := by
            rw [hg]; exact mapOut_other j k g s hk
          rw [this]
          have hg2 : (Candidate.output j pt pr lb :: l).filter (copyGoesTo k) = l.filter (copyGoesTo k) := filter_other_output hk _ _ _ _
          rw [hg2]

/-- What refusing copies for a full pool does, said once. -/
theorem refuseForPool_all (l : List Candidate) (s : State) :
   (forAll l refuseForPool s) = { s with
      pool := { s.pool with counters := { s.pool.counters with monitorPoolRefusals := bumpBy s.pool.counters.monitorPoolRefusals (l.filter copyToM).length } }
      outs := (forAll l refuseForPool s).outs }
   ∧ ∀ k : Fin 4, (forAll l refuseForPool s).outs[k] = { s.outs[k] with counters := { s.outs[k].counters with
       poolRefusals := bumpBy s.outs[k].counters.poolRefusals (l.filter (copyGoesTo k)).length } } := by
  induction l generalizing s with
  | nil =>
    refine ⟨?_, fun k => ?_⟩
    · show s = _
      simp only [List.filter_nil, List.length_nil, bumpBy_zero]; rfl
    · show s.outs[k] = _
      simp only [List.filter_nil, List.length_nil, bumpBy_zero]
  | cons c l ih =>
    have e : forAll (c :: l) refuseForPool s = forAll l refuseForPool (refuseForPool c s) := rfl
    rw [e]
    obtain ⟨h1, h2⟩ := ih (refuseForPool c s)
    cases c with
    | monitor =>
      refine ⟨?_, fun k => ?_⟩
      · rw [h1]
        simp only [refuseForPool, countPool, mapPool, List.filter_cons, copyToM, if_true, List.length_cons, bumpBy_bump]
      · rw [h2]; simp only [refuseForPool, countPool, mapPool, filter_monitor]
    | output j pt pr lb =>
      have hg : refuseForPool (.output j pt pr lb) s = mapOut j (fun o => { o with counters := { o.counters with poolRefusals := bump o.counters.poolRefusals } }) s := rfl
      refine ⟨?_, fun k => ?_⟩
      · rw [h1, hg]
        simp only [mapOut, List.filter_cons, copyToM, Bool.false_eq_true, if_false]
      · rw [h2]
        by_cases hk : k = j
        · subst hk
          simp only [Fin.getElem_fin]
          rw [hg, mapOut_same]
          simp only [List.filter_cons, copyGoesTo, decide_true, if_true, List.length_cons, bumpBy_bump]
        · simp only [Fin.getElem_fin]
          have : (refuseForPool (.output j pt pr lb) s).outs[(k:Nat)] = s.outs[(k:Nat)] := by
            rw [hg]; exact mapOut_other j k _ s hk
          rw [this]
          have hg2 : (Candidate.output j pt pr lb :: l).filter (copyGoesTo k) = l.filter (copyGoesTo k) := filter_other_output hk _ _ _ _
          rw [hg2]

/-- The entries that admitted copies make at output `k`. -/
def entriesMade (b : Nat) (k : Fin 4) (l : List Candidate) : List Entry := l.filterMap fun c => match c with
       | .output j point programme label => if j = k then some { buffer := b, point, programme, label } else none
       | .monitor => none

/-- What appending the admitted copies does, said once. -/
theorem appendCopy_all (b : Nat) (l : List Candidate) (s : State) :
   (forAll l (appendCopy b) s) = { s with
      pool := { s.pool with monitorQueue := s.pool.monitorQueue ++ List.replicate (l.filter copyToM).length b }
      outs := (forAll l (appendCopy b) s).outs }
   ∧ ∀ k : Fin 4, (forAll l (appendCopy b) s).outs[k] = { s.outs[k] with queue := s.outs[k].queue ++ entriesMade b k l } := by
  induction l generalizing s with
  | nil =>
    refine ⟨?_, fun k => ?_⟩
    · show s = _
      simp only [List.filter_nil, List.length_nil, List.replicate_zero, List.append_nil]; rfl
    · show s.outs[k] = _
      simp only [entriesMade, List.filterMap_nil, List.append_nil]
  | cons c l ih =>
    have e : forAll (c :: l) (appendCopy b) s = forAll l (appendCopy b) (appendCopy b c s) := rfl
    rw [e]
    obtain ⟨h1, h2⟩ := ih (appendCopy b c s)
    cases c with
    | monitor =>
      refine ⟨?_, fun k => ?_⟩
      · rw [h1]
        simp only [appendCopy, mapPool, List.filter_cons, copyToM, if_true, List.length_cons, List.append_assoc]
        rfl
      · rw [h2]; simp only [appendCopy, mapPool, entriesMade, List.filterMap_cons]
    | output j pt pr lb =>
      have hg : appendCopy b (.output j pt pr lb) s = mapOut j (fun o => { o with queue := o.queue ++ [{ buffer := b, point := pt, programme := pr, label := lb }] }) s := rfl
      refine ⟨?_, fun k => ?_⟩
      · rw [h1, hg]
        simp only [mapOut, List.filter_cons, copyToM, Bool.false_eq_true, if_false]
      · rw [h2]
        by_cases hk : k = j
        · subst hk
          simp only [Fin.getElem_fin]
          rw [hg, mapOut_same]
          simp only [entriesMade, List.filterMap_cons, if_true, List.append_assoc]; rfl
        · simp only [Fin.getElem_fin]
          have : (appendCopy b (.output j pt pr lb) s).outs[(k:Nat)] = s.outs[(k:Nat)] := by
            rw [hg]; exact mapOut_other j k _ s hk
          rw [this]
          have hg2 : entriesMade b k (Candidate.output j pt pr lb :: l) = entriesMade b k l := by
            unfold entriesMade; rw [List.filterMap_cons]; dsimp only; rw [if_neg (fun h => hk (Eq.symm h))]
          rw [hg2]

/-- A record at the gap is one more. -/
theorem tablePut_gap_length {t : Table Buffer} (h : tableWf {} t = true) (x : Buffer) (hx : x ≠ {}) : (tablePut {} t (tableGap t 0) x).length = t.length + 1 := by
  have hg := tableGap_free h
  generalize tableGap t 0 = b at *
  have key : ∀ (t : Table Buffer) (lo : Option Nat), tableWfFrom {} lo t = true → tableGet {} t b = {} → (tablePut {} t b x).length = t.length + 1 := by
    intro t
    induction t with
    | nil => intro lo _ _; unfold tablePut tableCons; rw [if_neg hx]; rfl
    | cons e t ih =>
      intro lo hw hget
      unfold tablePut
      unfold tableGet at hget
      rcases e with ⟨n, v⟩
      dsimp only at hget ⊢
      simp only [tableWfFrom, Bool.and_eq_true, ne_eq] at hw
      split
      · unfold tableCons; rw [if_neg hx]; rfl
      · split
        · rename_i h1 h2
          subst h2
          simp at hget
          exact absurd hget (by simpa using hw.1.2)
        · rename_i h1 h2
          have h3 : tableGet {} t b = {} := by
            have : ¬(n = b) := fun h => h2 h.symm
            simpa [h1, h2, this] using hget
          rw [List.length_cons, ih _ hw.2 h3]; rfl
  exact key t none h hg

/-- What the choice of the monitor port leaves of the pool. -/
theorem choosePort_pool (s : State) : ∃ p, (choosePort s).pool = { s.pool with port := p } ∧ (∀ x, s.pool.port = some x → p = some x)
   ∧ (∀ e rest, s.pool.port = none → s.mgmt.reportQueue = [] → s.pool.monitorQueue = e :: rest → p = some { isCopy := true, packet := ((buffer s e).contents).getD fillPacket, remaining := 128 }) := by
  unfold choosePort
  cases hp : s.pool.port with
  | some x => exact ⟨some x, by (simp only [Option.isSome_some, if_true]; rw [← hp]), fun y h => h, fun _ _ h => by cases h⟩
  | none =>
    rw [if_neg (by simp)]
    cases hq : s.mgmt.reportQueue with
    | cons r rest => 
      obtain ⟨h, -⟩ := givePlaces_pool (sendReport r rest s)
      refine ⟨some { isCopy := false, packet := reportPacket r s.mgmt.sequence, remaining := Config.monitorTicks }, ?_, fun x h => (by cases h), fun _ _ _ h => (by cases h)⟩
      exact h
    | nil =>
      dsimp only
      cases hm : s.pool.monitorQueue with
      | nil => exact ⟨none, by (show s.pool = _; rw [← hp, ← hm]), fun x h => h, fun _ _ _ _ h => by cases h⟩
      | cons b l => 
        refine ⟨some { isCopy := true, packet := ((tableGet {} s.pool.buffers b).contents).getD fillPacket, remaining := Config.monitorTicks }, ?_, fun x h => (by cases h), fun e rest _ _ h => ?_⟩
        · dsimp only; unfold sendCopy mapPool; dsimp only; rw [← hm]
        · cases h; rfl

end Sys2Proof
end

