-- ==== Sys2Proof/Laws/Steady.lean ====
section
/-!
SUPPORT. Steady.lean: how to show that every step keeps a condition: it is enough to show it of time, arrivals and each command.
-/

namespace Sys2Proof

open Machine

/-- What a command comes to meets a condition: `Q` before its reply is made, `P` when it stays in execution. -/
def ResultKeeps (Q P : State → Prop) : Result → Prop
  | .refused _ => True
  | .done _ t => Q t
  | .stays t => P t

/-- a command keeps a condition, for a cell of code `code` in execution -/
def CmdKeeps (Q P : State → Prop) (code : Byte) (cmd : Command) : Prop :=
  ∀ c s, s.mgmt.executing = some c → c.code = code → Q s → ResultKeeps Q P (cmd c.units s)

/-- A condition `P` that time, arrivals, resets and replies keep; `Q` is what holds while a command is in execution. -/
structure Steady (Q P : State → Prop) : Prop where
  arrives : ∀ s t, Arrives s t → P s → P t
  arrivesQ : ∀ s t, Arrives s t → Q s → Q t
  run : ∀ n s, P s → P (advance n s)
  edge : ∀ s, P s → P (pulseEdge s)
  lose : ∀ s, P s → P (loseRef10 s)
  restore : ∀ s, P s → P (restoreRef10 s)
  watch : ∀ s, s.clock.mode = .locked → P s → P (expirePulseWatch s)
  power : ∀ s : State, P { State.reset with pending := s.pending }
  pin : ∀ s, P s → P (pinReset s)
  take : ∀ c rest s, s.mgmt.controlQueue = c :: rest → canTake s = true → P s → Q (takeHead c rest s)
  fin : ∀ st units t, Q t → P (endCommand st units t)
  swap : ∀ st units t, swapDue t = true → P t → P (endCommand st units t)

theorem countRefusal_arrives (s : State) : Arrives s (countExecutionRefusal s) := .moves (.mgmtCount _ .refl)

theorem countRefusal_arrives' (s : State) : Arrives s (countAcceptanceRefusal s) := .moves (.mgmtCount _ .refl)

variable {Q P : State → Prop}

theorem Steady.cell (H : Steady Q P) (isRow : Cell → Bool) (code : Byte) (hrow : ∀ c, isRow c = true → c.code =
    code) (cmd : Command) (hc : CmdKeeps Q P code cmd) (handed : Option Handed) (s : State) (h : P s) :
    P (takeCell isRow cmd handed s) := by
  have ha := H.arrives _ _ (arrive_arrives handed s) h
  unfold takeCell
  generalize arrive handed s = s1 at *
  dsimp only
  split
  · exact ha
  · rename_i c rest hq
    split
    · rename_i hcond
      simp only [Bool.and_eq_true] at hcond
      have ht := H.take c rest s1 hq hcond.2 ha
      unfold runCell
      split
      · exact H.fin _ _ _ (H.arrivesQ _ _ (countRefusal_arrives' _) ht)
      · have := hc c (takeHead c rest s1) rfl (hrow c hcond.1) ht
        revert this
        cases cmd c.units (takeHead c rest s1) with
        | refused st => intro _; exact H.fin _ _ _ (H.arrivesQ _ _ (countRefusal_arrives _) ht)
        | done u t => intro h; exact H.fin _ _ _ h
        | stays t => intro h; exact h
    · exact ha

theorem Steady.command (H : Steady Q P) (code : Byte) (cmd : Command) (hc : CmdKeeps Q P code cmd) (handed :
    Option Handed) (s : State) (h : P s) : P (takeCommand code cmd handed s) :=
  H.cell _ code (by intro c hc; simpa using hc) cmd hc handed s h

theorem Steady.move (H : Steady Q P) {s t : State} (h : Moves s t) : P s → P t := H.arrives _ _ (.moves h)

/-- Every command of the control queue keeps the condition. -/
structure Cmds (Q P : State → Prop) : Prop where
  c01 : CmdKeeps Q P 0x01 cmdHold
  c03 : CmdKeeps Q P 0x03 cmdSetGrants
  c04 : CmdKeeps Q P 0x04 cmdSetEventEnable
  c05 : CmdKeeps Q P 0x05 cmdAckEvents
  c06 : CmdKeeps Q P 0x06 cmdStatus
  c07 : CmdKeeps Q P 0x07 cmdReadCounters
  c08 : CmdKeeps Q P 0x08 cmdClearCounters
  c09 : CmdKeeps Q P 0x09 cmdSiteReset
  c10 : CmdKeeps Q P 0x10 cmdSetSeconds
  c11 : CmdKeeps Q P 0x11 cmdSetClockPolicy
  c12 : CmdKeeps Q P 0x12 cmdSetOutput
  c13 : CmdKeeps Q P 0x13 cmdOutputMute
  c14 : CmdKeeps Q P 0x14 cmdOutputRestart
  c20 : CmdKeeps Q P 0x20 cmdWriteRoute
  c21 : CmdKeeps Q P 0x21 cmdCopyBank
  c22 : CmdKeeps Q P 0x22 cmdSwapBanks
  c23 : CmdKeeps Q P 0x23 cmdSetDefaultAction
  c24 : CmdKeeps Q P 0x24 cmdWriteProgramme
  c25 : CmdKeeps Q P 0x25 cmdClearProgramme
  c26 : CmdKeeps Q P 0x26 cmdSetFeedPolicy
  c27 : CmdKeeps Q P 0x27 cmdSelectFeed
  c30 : CmdKeeps Q P 0x30 cmdDefineSegment
  c31 : CmdKeeps Q P 0x31 cmdReleaseSegment
  c32 : CmdKeeps Q P 0x32 cmdStartFill
  c33 : CmdKeeps Q P 0x33 cmdSealFill
  c34 : CmdKeeps Q P 0x34 cmdAbortFill
  c35 : CmdKeeps Q P 0x35 cmdSegmentStatus
  c40 : CmdKeeps Q P 0x40 cmdWritePlayEntry
  c41 : CmdKeeps Q P 0x41 cmdConfigureContext
  c42 : CmdKeeps Q P 0x42 cmdStartContext
  c43 : CmdKeeps Q P 0x43 cmdStopContext
  c44 : CmdKeeps Q P 0x44 cmdWakeContext
  c45 : CmdKeeps Q P 0x45 cmdContextStatus

theorem cmdKeeps_refused : CmdKeeps Q P c (fun _ _ => .refused .badCommand) := fun _ _ _ _ _ => trivial

theorem Steady.unknownCell (H : Steady Q P) (isRow : Cell → Bool) (handed : Option Handed) (s : State) (h : P s) :
    P (takeCell isRow (fun _ _ => .refused .badCommand) handed s) := by
  have ha := H.arrives _ _ (arrive_arrives handed s) h
  unfold takeCell
  generalize arrive handed s = s1 at *
  dsimp only
  split
  · exact ha
  · rename_i c rest hq
    split
    · rename_i hcond
      simp only [Bool.and_eq_true] at hcond
      have ht := H.take c rest s1 hq hcond.2 ha
      unfold runCell
      split
      · exact H.fin _ _ _ (H.arrivesQ _ _ (countRefusal_arrives' _) ht)
      · exact H.fin _ _ _ (H.arrivesQ _ _ (countRefusal_arrives _) ht)
    · exact ha

theorem finishMonitor_moves (s : State) : Moves s (finishMonitor s) := by
  unfold finishMonitor
  split
  · exact .refl
  · refine (choosePort_moves _).after (.pool _ (fun h => h) ?_)
    refine .ite (fun _ => ?_) (fun _ => .refl)
    unfold releaseMonitorHead
    split
    · exact .refl
    · exact (releaseBuffer_moves _ _).after (.poolCount _ (.pool _ (fun h => h) .refl))

theorem Steady.startSlot (H : Steady Q P) (k : Fin 4) (s : State) (h : P s) : P (Machine.startSlot k s) := by
  unfold Machine.startSlot; split
  · exact h
  · split
    · exact H.move (testHold_moves _) (H.move (beginSlot_moves _ _ _ _) h)
    · exact h

theorem Steady.startFrameNow (H : Steady Q P) (k : Fin 4) (s : State) (h : P s) : P (Machine.startFrameNow k s) := by
  unfold Machine.startFrameNow; split
  · exact H.move (testHold_moves _) (H.move (startWaiting_moves _ _) h)
  · exact h

/-- The command of every code keeps the condition. -/
theorem Cmds.of (C : Cmds Q P) (code : Byte) : CmdKeeps Q P code (commandOf code) := by
  have key : ∀ n : Nat, code.toNat = n → code = BitVec.ofNat 8 n := fun n h => by rw [← h]; simp
  unfold commandOf
  split
  · exact (key _ ‹_›) ▸ C.c01
  · exact (key _ ‹_›) ▸ C.c03
  · exact (key _ ‹_›) ▸ C.c04
  · exact (key _ ‹_›) ▸ C.c05
  · exact (key _ ‹_›) ▸ C.c06
  · exact (key _ ‹_›) ▸ C.c07
  · exact (key _ ‹_›) ▸ C.c08
  · exact (key _ ‹_›) ▸ C.c09
  · exact (key _ ‹_›) ▸ C.c10
  · exact (key _ ‹_›) ▸ C.c11
  · exact (key _ ‹_›) ▸ C.c12
  · exact (key _ ‹_›) ▸ C.c13
  · exact (key _ ‹_›) ▸ C.c14
  · exact (key _ ‹_›) ▸ C.c20
  · exact (key _ ‹_›) ▸ C.c21
  · exact (key _ ‹_›) ▸ C.c22
  · exact (key _ ‹_›) ▸ C.c23
  · exact (key _ ‹_›) ▸ C.c24
  · exact (key _ ‹_›) ▸ C.c25
  · exact (key _ ‹_›) ▸ C.c26
  · exact (key _ ‹_›) ▸ C.c27
  · exact (key _ ‹_›) ▸ C.c30
  · exact (key _ ‹_›) ▸ C.c31
  · exact (key _ ‹_›) ▸ C.c32
  · exact (key _ ‹_›) ▸ C.c33
  · exact (key _ ‹_›) ▸ C.c34
  · exact (key _ ‹_›) ▸ C.c35
  · exact (key _ ‹_›) ▸ C.c40
  · exact (key _ ‹_›) ▸ C.c41
  · exact (key _ ‹_›) ▸ C.c42
  · exact (key _ ‹_›) ▸ C.c43
  · exact (key _ ‹_›) ▸ C.c44
  · exact (key _ ‹_›) ▸ C.c45
  · exact cmdKeeps_refused

theorem Steady.takeQueued (H : Steady Q P) (C : Cmds Q P) (s : State) (h : P s) : P (Machine.takeQueued s) := by
  unfold Machine.takeQueued
  split
  · exact h
  · split
    · exact Steady.unknownCell H _ _ _ h
    · exact H.command _ _ (C.of _) _ _ h

theorem dueNow_mem {s : State} {e : Due} (h : dueNow s = some e) : some e ∈ dueEvents s := by
  unfold dueNow at h
  obtain ⟨x, hx, he⟩ := List.exists_of_findSome?_eq_some h
  simp only [id_eq] at he
  exact he ▸ hx

theorem dueIf_some {b : Bool} {e f : Due} (h : some f = dueIf b e) : b = true ∧ f = e := by
  unfold dueIf at h
  split at h
  · exact ⟨‹_›, by simpa using h⟩
  · contradiction

/-- An event that is due, when the pulse watch or the end of SWAP BANKS is the one, has its condition. -/
theorem dueNow_cond {s : State} {e : Due} (h : dueNow s = some e) :
    (e = .pulseWatch → pulseWatchDue s = true) ∧ (e = .swap → swapDue s = true) := by
  have hm := dueNow_mem h
  unfold dueEvents dueOutput at hm
  simp only [List.mem_append, List.mem_cons, List.mem_flatMap, List.not_mem_nil, or_false] at hm
  constructor <;> rintro rfl
  all_goals
    rcases hm with ⟨k, _, hm⟩ | hm
    · rcases hm with hm | hm | hm <;> exact absurd (dueIf_some hm).2 (by simp)
    · rcases hm with hm | hm | hm | hm | hm | hm | hm | hm <;>
        first
        | exact (dueIf_some hm).1
        | exact absurd (dueIf_some hm).2 (by simp)

theorem pulseWatchDue_mode {s : State} (h : pulseWatchDue s = true) : s.clock.mode = .locked := by
  unfold pulseWatchDue at h
  simp only [Bool.and_eq_true, beq_iff_eq] at h
  exact h.1

theorem Steady.takeDue (H : Steady Q P) (C : Cmds Q P) (s : State) (e : Due) (hd : dueNow s = some e) (h : P s) :
    P (Machine.takeDue e s) := by
  have hc := dueNow_cond hd
  cases e with
  | slotEnd k => exact H.move (endSlot_moves _ _) h
  | frame k => exact H.startFrameNow k s h
  | slot k => exact H.startSlot k s h
  | lossTimer p => exact H.arrives _ _ (expireLossTimer_arrives _ _) h
  | pulseWatch => exact H.watch _ (pulseWatchDue_mode (hc.1 rfl)) h
  | holdTimeout => exact H.move ((endHold_moves _ _).after (.mgmtCount _ .refl)) h
  | monitor => exact H.move (finishMonitor_moves _) h
  | swap => exact H.swap _ _ _ (hc.2 rfl) h
  | command => exact H.takeQueued C s h

theorem Steady.settle (H : Steady Q P) (C : Cmds Q P) (f : Nat) (s : State) (h : P s) : P (Machine.settle f s) := by
  induction f generalizing s with
  | zero => exact h
  | succ f ih =>
    cases hd : dueNow s with
    | none => rw [settle_none hd]; exact h
    | some e => rw [settle_some hd]; exact ih _ (H.takeDue C s e hd h)

/-- Time that passes keeps the condition, with all that comes due on the way. -/
theorem Steady.letPass (H : Steady Q P) (C : Cmds Q P) (n : Nat) (s : State) (h : P s) : P (Machine.letPass n s) := by
  have : ∀ f m s, P s → P (passTicks f m s) := by
    intro f
    induction f with
    | zero => exact fun _ _ h => h
    | succ f ih =>
      intro m s h
      unfold passTicks
      split
      · exact h
      · exact ih _ _ (H.run _ _ (H.settle C _ _ h))
  exact this n n s h

/-- The event of an output that a row lets time run to keeps the condition. -/
theorem Steady.takeOutputEvent (H : Steady Q P) (C : Cmds Q P) (k : Fin 4) (s : State) (h : P s) :
    P (Machine.takeOutputEvent k s) := by
  unfold Machine.takeOutputEvent
  split
  · exact h
  · exact H.startSlot _ _ (H.letPass C _ _ h)
  · exact H.startFrameNow _ _ (H.letPass C _ _ h)

/-- The slots to the end of a break keep the condition. -/
theorem Steady.runBreaks (H : Steady Q P) (C : Cmds Q P) (l : List (Fin 16)) (n : Nat) (s : State) (h : P s) :
    P (Machine.runBreaks l n s) := by
  induction n generalizing s with
  | zero => exact h
  | succ n ih =>
    unfold Machine.runBreaks
    split
    · exact h
    · split
      · exact h
      · exact ih _ (H.takeOutputEvent C _ _ h)

theorem Steady.exec (H : Steady Q P) (C : Cmds Q P) (i : Instr) (s t : State) (h : P s) (he : exec i s = .next t) :
    P t := by
  have tst : ∀ s, P s → P (testHold s) := fun s => H.move (testHold_moves s)
  have slot := H.startSlot
  have frame := H.startFrameNow
  have pass : ∀ n s, P s → P (Machine.letPass n s) := H.letPass C
  cases i
  case powerOn => cases he; exact H.power s
  case resetPin => cases he; exact H.pin s h
  case byteArrives => cases he; exact tst _ (H.arrives _ _ (arriveByte_arrives _ _ _) (pass _ _ h))
  case packetArrives => cases he; exact tst _ (H.arrives _ _ (arriveBytes_arrives _ _ _) (pass _ _ h))
  case lossTimerExpiry =>
    cases he; split
    · exact H.arrives _ _ (expireLossTimer_arrives _ _) (pass _ _ h)
    · exact pass _ _ h
  case ref10Lost => cases he; exact H.lose _ (pass _ _ h)
  case ref10Restored => cases he; exact H.restore _ (pass _ _ h)
  case pulseEdge => cases he; exact H.edge _ (pass _ _ h)
  case pulseWatchExpiry =>
    cases he; split
    · rename_i hd
      exact H.watch _ (pulseWatchDue_mode hd) (pass _ _ h)
    · exact pass _ _ h
  case secondBoundary => cases he; exact pass _ _ h
  case holdoverExpiry =>
    cases he; split
    · exact pass _ _ h
    · exact h
  case holdTimeout =>
    cases he; split
    · exact H.move ((endHold_moves _ _).after (.mgmtCount _ .refl)) (pass _ _ h)
    · exact pass _ _ h
  case slotStart =>
    change execSlotStart _ s = _ at he
    unfold execSlotStart at he
    split at he <;> cases he
    · exact h
    · exact slot _ _ (pass _ _ h)
  case reanchorStart =>
    change execReanchorStart _ s = _ at he
    unfold execReanchorStart at he
    split at he <;> cases he
    · exact h
    · split
      · exact h
      · exact frame _ _ (pass _ _ h)
  case acquisitionStart =>
    change execAcquisitionStart _ s = _ at he
    unfold execAcquisitionStart at he
    split at he <;> cases he
    · exact h
    · split
      · exact frame _ _ (pass _ _ h)
      · exact h
  case breakEnd => cases he; exact H.runBreaks C _ _ _ h
  case slotEnds o =>
    cases he; split
    · exact H.move (endSlot_moves _ _) (pass _ _ h)
    · exact pass _ _ h
  case monitorPacketSent =>
    cases he; split
    · exact H.move (finishMonitor_moves _) (pass _ _ h)
    · exact pass _ _ h
  case swapBanksCompletion =>
    cases he; split
    · exact H.swap _ _ _ ‹_› h
    · exact h
  case unknownCodeCell => cases he; exact Steady.unknownCell H _ _ _ h
  case abandonHold => cases he; exact H.move (abandon_moves _ _) h
  case hold => cases he; exact H.command _ _ C.c01 _ _ h
  case setGrants => cases he; exact H.command _ _ C.c03 _ _ h
  case setEventEnable => cases he; exact H.command _ _ C.c04 _ _ h
  case ackEvents => cases he; exact H.command _ _ C.c05 _ _ h
  case status => cases he; exact H.command _ _ C.c06 _ _ h
  case readCounters => cases he; exact H.command _ _ C.c07 _ _ h
  case clearCounters => cases he; exact H.command _ _ C.c08 _ _ h
  case siteReset => cases he; exact H.command _ _ C.c09 _ _ h
  case setSeconds => cases he; exact H.command _ _ C.c10 _ _ h
  case setClockPolicy => cases he; exact H.command _ _ C.c11 _ _ h
  case setOutput => cases he; exact H.command _ _ C.c12 _ _ h
  case outputMute => cases he; exact H.command _ _ C.c13 _ _ h
  case outputRestart => cases he; exact H.command _ _ C.c14 _ _ h
  case writeRoute => cases he; exact H.command _ _ C.c20 _ _ h
  case copyBank => cases he; exact H.command _ _ C.c21 _ _ h
  case swapBanks => cases he; exact H.command _ _ C.c22 _ _ h
  case setDefaultAction => cases he; exact H.command _ _ C.c23 _ _ h
  case writeProgramme => cases he; exact H.command _ _ C.c24 _ _ h
  case clearProgramme => cases he; exact H.command _ _ C.c25 _ _ h
  case setFeedPolicy => cases he; exact H.command _ _ C.c26 _ _ h
  case selectFeed => cases he; exact H.command _ _ C.c27 _ _ h
  case defineSegment => cases he; exact H.command _ _ C.c30 _ _ h
  case releaseSegment => cases he; exact H.command _ _ C.c31 _ _ h
  case startFill => cases he; exact H.command _ _ C.c32 _ _ h
  case sealFill => cases he; exact H.command _ _ C.c33 _ _ h
  case abortFill => cases he; exact H.command _ _ C.c34 _ _ h
  case segmentStatus => cases he; exact H.command _ _ C.c35 _ _ h
  case writePlayEntry => cases he; exact H.command _ _ C.c40 _ _ h
  case configureContext => cases he; exact H.command _ _ C.c41 _ _ h
  case startContext => cases he; exact H.command _ _ C.c42 _ _ h
  case stopContext => cases he; exact H.command _ _ C.c43 _ _ h
  case wakeContext => cases he; exact H.command _ _ C.c44 _ _ h
  case contextStatus => cases he; exact H.command _ _ C.c45 _ _ h

theorem Steady.step (H : Steady Q P) (C : Cmds Q P) (hp : ∀ s l, P s → P { s with pending := l }) (s t : State)
    (h : P s) (he : Machine.step s = .next t) : P t := by
  unfold Machine.step at he
  split at he
  · exact H.exec C _ _ _ (hp _ _ h) he
  · unfold idleStep at he
    split at he
    · exact H.exec C _ _ _ h he
    · have ht := Host.Outcome.next.inj he
      exact ht ▸ H.letPass C 1 s h

theorem endCommand_moves (st : Status) (units : List ResultUnit) (s : State) (h : s.mgmt.hold = none) :
    Moves s (endCommand st units s) := by
  have : endCommand st units s = s ∨ ∃ c, s.mgmt.executing = some c ∧ endCommand st units s = choosePort (mapMgmt (fun m => { m with
          executing := none, reportQueue := m.reportQueue ++ [replyTo c st units]
          counters := { m.counters with repliesMade := bump m.counters.repliesMade } }) s) := by
    unfold endCommand
    split
    · exact .inl rfl
    · exact .inr ⟨_, ‹_›, rfl⟩
  rcases this with h1 | ⟨c, he, h1⟩
  · rw [h1]; exact .refl
  · rw [h1]
    refine (choosePort_moves _).after (.mgmt _ ⟨rfl, rfl, rfl, rfl, .inr ⟨rfl, h⟩, ?_, fun _ h => h⟩ .refl)
    simp [heldPlaces, he]

end Sys2Proof
end

