-- ==== Sys2Proof/Laws/Due.lean ====
section
/-!
SUPPORT. Due.lean: an event that is due and the row that names it do the same, and how time passes from one instant to the
next (log entries 1 and 4).
-/

namespace Sys2Proof

open Machine

/-- What `runTicks` leaves of the part. -/
theorem runTicks_timers (n : Nat) (s : State) : TimersRan n s (runTicks n s) :=
  ⟨by simp [addTicks_eq, passPort, feedAfter], rfl, fun k => runTicks_out n s k, rfl, rfl, rfl, rfl, rfl, rfl⟩

theorem runTicks_clock (n : Nat) (s : State) : (runTicks n s).clock = clockAfter n s.clock := passClock_eq n s.clock

theorem letPass_one {s : State} (h : dueNow s = none) : letPass 1 s = advance 1 s := by
  unfold letPass passTicks
  simp only [Nat.succ_ne_zero, if_false, settle_none h]
  rw [show max 1 (min 1 (timeToNext s)) = 1 by omega]
  rfl

theorem dueNow_eq_none {s : State} (h : dueEvent s = none) : dueNow s = none := by
  unfold dueEvent at h; simpa using h

/-- The first argument of `passTicks` is enough when it is no less than the ticks. -/
theorem passTicks_fuel : ∀ f g n s, n ≤ f → n ≤ g → passTicks f n s = passTicks g n s := by
  intro f
  induction f with
  | zero => intro g n s h1 h2; have : n = 0 := by omega
            subst this; cases g <;> simp [passTicks]
  | succ f ih =>
    intro g n s h1 h2
    cases g with
    | zero => have : n = 0 := by omega
              subst this; simp [passTicks]
    | succ g =>
      unfold passTicks
      split
      · rfl
      · dsimp only
        apply ih <;> omega

/-- One turn of `letPass`: what is due is taken, and the ticks to the next instant pass. -/
theorem letPass_step {n : Nat} (hn : n ≠ 0) (s : State) : letPass n s =
    letPass (n - max 1 (min n (timeToNext (settle dueBound s)))) (advance (max 1 (min n (timeToNext (settle dueBound s)))) (settle dueBound s)) := by
  obtain ⟨m, rfl⟩ := Nat.exists_eq_succ_of_ne_zero hn
  show passTicks (m+1) (m+1) s = _
  conv => lhs; unfold passTicks
  rw [if_neg (by omega)]
  dsimp only
  unfold letPass
  apply passTicks_fuel <;> omega

/-- The row of a command code takes a cell by the command of that code. -/
theorem exec_rowOfCode (code : Byte) (h : (groupOf code).isSome = true) (h2 : code ≠ 0x02) (s : State) :
    exec (rowOfCode code) s = .next (takeCommand code (commandOf code) none s) := by
  have hs : ∀ (n : Nat), code.toNat = n → n < 256 → code = BitVec.ofNat 8 n := by
    intro n hn hl; apply BitVec.eq_of_toNat_eq; simp [hn]; omega
  unfold groupOf at h
  dsimp only at h
  have hl : code.toNat < 256 := code.isLt
  have hk : code.toNat ∈ [0x01,0x03,0x04,0x05,0x06,0x07,0x08,0x09,0x10,0x11,0x12,0x13,0x14,0x20,0x21,0x22,0x23,0x24,0x25,0x26,0x27,0x30,0x31,0x32,0x33,0x34,0x35,0x40,0x41,0x42,0x43,0x44,0x45] := by
    have h3 : code.toNat ≠ 2 := by intro h3; exact h2 (hs 2 h3 (by omega))
    simp only [List.mem_cons, List.not_mem_nil, or_false]
    split at h
    · omega
    · split at h
      · omega
      · split at h
        · omega
        · split at h
          · omega
          · split at h
            · omega
            · cases h
  simp only [List.mem_cons, List.not_mem_nil, or_false] at hk
  rcases hk with hk | hk | hk | hk | hk | hk | hk | hk | hk | hk | hk | hk | hk | hk | hk | hk | hk | hk | hk | hk | hk | hk | hk | hk | hk | hk | hk | hk | hk | hk | hk | hk | hk <;>
   (have := hs _ hk (by omega); subst this; rfl)

/-- The row that takes the cell at the head does what the part does by itself. -/
theorem exec_takeQueued (s : State) (c : Cell) (rest : List Cell) (h : s.mgmt.controlQueue = c :: rest) :
    exec (if isUnknownCell c then .unknownCodeCell none else rowOfCode c.code) s = .next (takeQueued s) := by
  unfold takeQueued
  rw [h]
  dsimp only
  by_cases hu : isUnknownCell c = true
  · rw [if_pos hu, if_pos hu]; rfl
  · rw [if_neg hu, if_neg hu]
    unfold isUnknownCell at hu
    simp only [Bool.or_eq_true, not_or, beq_iff_eq] at hu
    apply exec_rowOfCode
    · cases hg : groupOf c.code <;> simp [hg] at hu ⊢
    · exact hu.2

/-- What it says of the state that an event is due. -/
theorem dueNow_means {s : State} {e : Due} (h : dueNow s = some e) :
   match e with
   | .slotEnd k => slotEndDue s k = true
   | .frame k => hasCome s (frameAt s k) = true
   | .slot k => hasCome s (slotAt s k) = true ∧ s.outs[(k:Nat)].sync ≠ .muted
   | .lossTimer p => lossTimerDue p s = true
   | .pulseWatch => pulseWatchDue s = true
   | .holdTimeout => holdTimeoutDue s = true
   | .monitor => monitorSentDue s = true
   | .swap => swapDue s = true
   | .command => commandDue s = true := by
  have hm := dueNow_mem h
  unfold dueEvents dueOutput at hm
  simp only [List.mem_append, List.mem_cons, List.mem_flatMap, List.not_mem_nil, or_false] at hm
  rcases hm with ⟨k, _, hm⟩ | hm
  · rcases hm with hm | hm | hm
    · obtain ⟨a, rfl⟩ := dueIf_some hm; exact a
    · obtain ⟨a, rfl⟩ := dueIf_some hm; exact a
    · obtain ⟨a, rfl⟩ := dueIf_some hm
      simp only [Bool.and_eq_true] at a
      exact ⟨a.1, by simpa using a.2⟩
  · rcases hm with hm | hm | hm | hm | hm | hm | hm | hm <;>
      (obtain ⟨a, rfl⟩ := dueIf_some hm; exact a)

theorem timerLeft_due (l : Nat) (t : Option Nat) (h : timerDue l t = true) : (timerLeft l t).getD 0 = 0 := by
  unfold timerDue at h; unfold timerLeft
  cases t with
  | none => cases h
  | some c => simp at h ⊢; omega

/-- An event that is due and the row that names it do the same. -/
theorem exec_dueRow {s : State} {e : Due} (h : dueNow s = some e) : exec (dueRow s e) s = .next (takeDue e s) := by
  have hc := dueNow_means h
  cases e with
  | slotEnd k =>
    show execSlotEnds k s = _
    unfold execSlotEnds
    dsimp only at hc
    have h0 : (s.outs[k].slot.map SlotInProgress.remaining).getD 0 = 0 := by
      unfold slotEndDue at hc
      cases hs : s.outs[k].slot with
      | none => rfl
      | some x => rw [hs] at hc; simpa using hc
    rw [h0]; dsimp only; rw [letPass_zero, if_pos hc]; rfl
  | frame k =>
    dsimp only at hc
    have hf : ∃ f, frameAt s k = some f ∧ f ≤ now s := by
      unfold hasCome at hc
      cases hf : frameAt s k with
      | none => rw [hf] at hc; cases hc
      | some f => rw [hf] at hc; exact ⟨f, rfl, by simpa using hc⟩
    obtain ⟨f, hf, hl⟩ := hf
    have h0 : untilInstant f s = s := by
      unfold untilInstant; rw [show (f - now s).toNat = 0 by omega]; rfl
    unfold dueRow; dsimp only
    by_cases ha : s.outs[k].sync = .acquiring
    · rw [if_pos ha]
      show execAcquisitionStart k s = _
      unfold execAcquisitionStart
      rw [hf]; dsimp only; rw [if_pos ha, h0]; rfl
    · rw [if_neg ha]
      show execReanchorStart k s = _
      unfold execReanchorStart
      rw [hf]; dsimp only; rw [if_neg ha, h0]; rfl
  | slot k =>
    dsimp only at hc
    have hf : ∃ f, slotAt s k = some f ∧ f ≤ now s := by
      have hc := hc.1
      unfold hasCome at hc
      cases hf : slotAt s k with
      | none => rw [hf] at hc; cases hc
      | some f => rw [hf] at hc; exact ⟨f, rfl, by simpa using hc⟩
    obtain ⟨f, hf, hl⟩ := hf
    show execSlotStart k s = _
    unfold execSlotStart
    rw [hf]; dsimp only
    unfold untilInstant; rw [show (f - now s).toNat = 0 by omega]; rfl
  | lossTimer p =>
    dsimp only at hc
    show execLossTimerExpiry p s = _
    unfold execLossTimerExpiry untilLossTimer
    rw [timerLeft_due _ _ hc]; dsimp only; rw [letPass_zero, if_pos hc]; rfl
  | pulseWatch =>
    dsimp only at hc
    show execPulseWatchExpiry s = _
    unfold execPulseWatchExpiry
    have : timerDue Config.pulseWatchLimit s.clock.pulseWatch = true := by
      unfold pulseWatchDue at hc; simp at hc; exact hc.2
    rw [timerLeft_due _ _ this]; dsimp only; rw [letPass_zero, if_pos hc]; rfl
  | holdTimeout =>
    dsimp only at hc
    show execHoldTimeout s = _
    unfold execHoldTimeout
    have : (holdLeft s).getD 0 = 0 := by
      unfold holdTimeoutDue at hc; unfold holdLeft
      cases hh : s.mgmt.hold with
      | none => rfl
      | some x =>
        rw [hh] at hc; dsimp only at hc
        cases hl : holdLimit x with
        | none => simp [hl]
        | some l => rw [hl] at hc; simp [hl] at hc ⊢; omega
    rw [this]; dsimp only; rw [letPass_zero, if_pos hc]; rfl
  | monitor =>
    dsimp only at hc
    show execMonitorPacketSent s = _
    unfold execMonitorPacketSent
    have : (s.pool.port.map Sending.remaining).getD 0 = 0 := by
      unfold monitorSentDue at hc
      cases hs : s.pool.port with
      | none => rfl
      | some x => rw [hs] at hc; simpa using hc
    rw [this]; dsimp only; rw [letPass_zero, if_pos hc]; rfl
  | swap =>
    dsimp only at hc
    show execSwapBanksCompletion s = _
    unfold execSwapBanksCompletion; rw [if_pos hc]; rfl
  | command =>
    dsimp only at hc
    unfold dueRow; dsimp only
    cases hq : s.mgmt.controlQueue with
    | nil => unfold commandDue at hc; rw [hq] at hc; simp at hc
    | cons c rest => exact exec_takeQueued s c rest hq

theorem foldMin_le (l : List (Option Nat)) (m : Nat) : l.foldl (fun m o => min m (o.getD m)) m ≤ m := by
  induction l generalizing m with
  | nil => exact Nat.le_refl _
  | cons o l ih => exact Nat.le_trans (ih _) (Nat.min_le_left _ _)

/-- No instant lies beyond the second boundary. -/
theorem timeToNext_le (s : State) : timeToNext s ≤ 20000000 - s.clock.tick := by
  unfold timeToNext ticksAhead
  rw [List.append_assoc, List.singleton_append, List.foldl_cons]
  refine Nat.le_trans (foldMin_le _ _) ?_
  exact Nat.min_le_right _ _

/-- What `clearFor` says of the ticks. -/
theorem clearFor_le {n : Nat} {s : State} (h : clearFor n s) : n = 0 ∨ n ≤ 20000000 - s.clock.tick := by
  rcases h with h | ⟨_, h⟩
  · exact .inl h
  · exact .inr (Nat.le_trans h (timeToNext_le s))

/-- The clock after ticks outside HOLDOVER. -/
theorem advance_clock (n : Nat) (s : State) (hm : s.clock.mode ≠ .holdover) (hl : s.clock.tick < 20000000) (hn : n ≤ 20000000 - s.clock.tick) :
    (advance n s).clock = { clockAfter n s.clock with seconds := (advance n s).clock.seconds, tick := (s.clock.tick + n) % 20000000 } := by
  unfold advance
  dsimp only
  rw [runTicks_tick]
  split
  · rename_i h
    have h : 20000000 ≤ s.clock.tick + n := h
    rw [wrapSecond_clock, countBoundary_clock]
    simp only [mapClock_clock, runTicks_clock]
    rw [if_neg (by rintro ⟨h1, _⟩; exact hm h1)]
    unfold countHoldover
    rw [if_neg (by exact hm)]
    rw [show (s.clock.tick + n) % 20000000 = 0 by omega]
  · rename_i h
    have h : ¬ 20000000 ≤ s.clock.tick + n := h
    rw [runTicks_clock, Nat.mod_eq_of_lt (by omega)]
    rfl

/-- SECOND_BOUNDARY with nothing on the way. -/
theorem letPass_boundary (s : State) (ht : s.clock.tick < 20000000) (hclr : clearFor (20000000 - s.clock.tick) s) :
    letPass (Config.ticksPerSecond - s.clock.tick) s = wrapSecond (runTicks (20000000 - s.clock.tick) s) := by
  rw [show Config.ticksPerSecond - s.clock.tick = 20000000 - s.clock.tick from rfl, letPass_eq hclr, if_neg (by omega)]
  apply advance_wrap
  show 20000000 ≤ _; omega

theorem enterFreeRun_sync (k j : Fin 4) (a : Int) (s : State) : (enterFreeRun k a s).outs[(j:Nat)].sync = if j = k then .freeRun else s.outs[(j:Nat)].sync := by
  unfold enterFreeRun discardRecords
  by_cases h : j = k
  · subst h
    rw [changeSync_out, if_pos rfl]
    split
    · assumption
    · rfl
  · rw [if_neg h]
    have hm : ∀ (f : Output → Output) (u : State), (mapOut k f u).outs[(j:Nat)] = u.outs[(j:Nat)] := fun f u => mapOut_other k j f u h
    have hcm : ∀ (f : ManagementCounters → ManagementCounters) (u : State), (countMgmt f u).outs[(j:Nat)] = u.outs[(j:Nat)] := fun _ _ => rfl
    unfold changeSync
    split
    · rw [hm, hm]
    · dsimp only; rw [if_neg (by decide), within_out (within_dropSplices _ _) j, within_out (within_setFlag _ _) j, hcm, hm, hm, hm]

/-- A jump backward of more than a second frees the outputs that are not MUTED, one by one. -/
theorem jumpOutput_back_sync (d : Int) (hd : d < -20000000) (k j : Fin 4) (s : State) : (jumpOutput d k s).outs[(j:Nat)].sync =
    if j = k ∧ s.outs[(j:Nat)].sync ≠ .muted then .freeRun else s.outs[(j:Nat)].sync := by
  unfold jumpOutput
  by_cases hm : s.outs[(k:Nat)].sync = .muted
  · rw [if_pos (by exact hm)]
    by_cases h : j = k
    · subst h; rw [if_neg (by rintro ⟨_, h⟩; exact h hm)]
    · rw [if_neg (by rintro ⟨h2, _⟩; exact h h2)]
  · rw [if_neg (by exact hm), if_pos (by left; show d < -20000000; exact hd), enterFreeRun_sync]
    have : (countOut k (fun c => { c with timeJumps := bump c.timeJumps }) s).outs[(j:Nat)].sync = s.outs[(j:Nat)].sync := by
      by_cases h : j = k
      · subst h; show (mapOut j _ s).outs[(j:Nat)].sync = _; rw [mapOut_same]
      · show (mapOut k _ s).outs[(j:Nat)].sync = _; rw [mapOut_other _ _ _ _ h]
    rw [this]
    by_cases h : j = k
    · subst h; rw [if_pos rfl, if_pos ⟨rfl, hm⟩]
    · rw [if_neg h, if_neg (by rintro ⟨h2, _⟩; exact h h2)]

/-- A jump backward of more than a second frees the outputs that are not MUTED. -/
theorem jump_back_sync (d : Int) (hd : d < -20000000) (j : Fin 4) (s : State) : (jump d s).outs[(j:Nat)].sync =
    if s.outs[(j:Nat)].sync = .muted then .muted else .freeRun := by
  unfold jump
  rw [if_neg (by omega)]
  have hf : ∀ f : Fin 4 → State → State, forAll allOutputs f s = f 3 (f 2 (f 1 (f 0 s))) := fun _ => rfl
  rw [hf]
  rw [jumpOutput_back_sync d hd, jumpOutput_back_sync d hd, jumpOutput_back_sync d hd, jumpOutput_back_sync d hd]
  generalize s.outs[(j:Nat)].sync = x
  rcases fin4_cases j with rfl | rfl | rfl | rfl <;> cases x <;> simp

end Sys2Proof
end

