-- ==== Sys2Proof/Laws/Selection.lean ====
section
/-!
SUPPORT. Selection.lean: what the selection state machine does when a feed leaves UP and when a second closes (R37, R40, R41,
R43, R45), when a HOLD in force is satisfied (R166), and a jump as a fold over the outputs (R90, log entry 44).
-/

namespace Sys2Proof

open Machine

/-- Closing the second of both feeds, and the quality test after it (R37, R41). -/
theorem closeSecond_closed (s : State) : SecondClosed s.feed (closeSecond s).feed := by
  have hb : ∀ x, closeFeedSecond (feedUp s x) (feedState s.feed x) =
    (let f := feedState s.feed x
    { f with
      erroredMark := false, upThroughout := (portState s.feed (feedPort x)).alignment == .up
      erroredRun := if f.erroredMark then min (f.erroredRun + 1) 65535 else 0
      cleanRun := if f.erroredMark then 0 else if f.upThroughout then min (f.cleanRun + 1) 65535 else 0
      erroredSeconds := if f.erroredMark then bump f.erroredSeconds else f.erroredSeconds }) := by
    intro x
    unfold closeFeedSecond hold16 feedUp
    dsimp only
    cases h1 : (feedState s.feed x).erroredMark <;> cases h2 : (feedState s.feed x).upThroughout <;> simp
  unfold SecondClosed
  intro closed base quality
  have hc : closed = fun x => closeFeedSecond (feedUp s x) (feedState s.feed x) := by funext x; exact (hb x).symm
  unfold closeSecond
  generalize hq : mapFeedState .b (closeFeedSecond (feedUp s .b)) (mapFeedState .a (closeFeedSecond (feedUp s .a)) s) = q
  have hf : q.feed = base := by
    rw [← hq]
    show _ = { s.feed with feedA := closed .a, feedB := closed .b }
    rw [hc]; rfl
  have hsel : q.feed.selection = s.feed.selection := by rw [hf]
  have hcl : ∀ x, feedState q.feed x = closed x := by intro x; rw [hf]; cases x <;> rfl
  have hup : ∀ x, feedUp q x = ((portState s.feed (feedPort x)).alignment == .up) := by
    intro x; unfold feedUp; rw [hf]; cases x <;> rfl
  have hqc : ∀ x, qualityCause q x = true ↔ quality x := by
    intro x
    unfold qualityCause
    simp only [hcl, hup]
    rw [hf]
    show _ ↔ (s.feed.mode = .auto ∧ s.feed.threshold ≤ (closed x).erroredRun
      ∧ (portState s.feed (feedPort (otherFeed x))).alignment = .up
      ∧ (closed x).erroredRun ≤ (closed (otherFeed x)).cleanRun)
    simp only [Bool.and_eq_true, beq_iff_eq, decide_eq_true_eq, and_assoc]
    exact Iff.rfl
  unfold testQuality
  constructor
  · intro x hx hqx
    rw [hsel, hx]
    dsimp only
    rw [if_pos ((hqc x).2 hqx)]
    have hbh : (beginHandover (otherFeed x) q).feed = { q.feed with
        selection := .handoverTo (otherFeed x)
        handover := { oldFeed := some (otherFeed (otherFeed x)), phase := .running, target := .absent } } := rfl
    rw [hbh, hf]
    cases x <;> rfl
  · intro h
    rw [hsel]
    cases hx : s.feed.selection with
    | active x =>
      dsimp only
      rw [if_neg (fun hh => h x hx ((hqc x).1 hh))]
      exact hf
    | handoverTo y => exact hf
    | noFeed => exact hf

/-- What a feed's leaving UP makes of the selection, the handover and the frames in progress (R40, R43, R45). -/
theorem feedLeft_selection (x : Feed) (q : State) : SelectionTurned x q (feedLeft x q) := by
  have hno : ∀ u : State, ((enterNoFeed u).feed.selection = .noFeed ∧ (enterNoFeed u).feed.handover = {})
      ∧ hasFlag (enterNoFeed u).mgmt.flags .noFeed = true ∧ ∀ y, (feedState (enterNoFeed u).feed y).currentFrame = none := by
    intro u
    unfold enterNoFeed
    rw [(setFlag_moves _ _).feed]
    exact ⟨⟨rfl, rfl⟩, setFlag_hasFlag _ _, fun y => by cases y <;> rfl⟩
  have hne : otherFeed x ≠ x := by cases x <;> decide
  have hup : ((portState q.feed (feedPort (otherFeed x))).alignment = .up) = (feedUp q (otherFeed x) = true) := by
    unfold feedUp; simp
  unfold SelectionTurned
  dsimp only
  rw [hup]
  unfold feedLeft
  refine ⟨?_, ?_, ?_, ?_, ?_, ?_, ?_, ?_, ?_⟩
  · intro h1 h2; simp only [h1, h2, if_true]; cases x <;> exact ⟨⟨rfl, rfl⟩, rfl⟩
  · intro h1 h2; simp only [h1, if_true]; rw [if_neg h2]; exact hno _
  · intro h1; simp only [h1, if_neg hne]; exact ⟨⟨trivial, trivial⟩, fun _ => trivial⟩
  · intro h1; simp only [h1]; exact ⟨⟨trivial, trivial⟩, fun _ => trivial⟩
  · intro h1 h2; simp only [h1, h2, if_neg hne]; cases x <;> exact ⟨⟨rfl, rfl⟩, rfl⟩
  · intro h1 h2; simp only [h1, h2, if_neg hne]; exact ⟨⟨trivial, trivial⟩, fun _ => trivial⟩
  · intro h1 h2 h3; simp only [h1, if_true]; unfold turnBack; simp only [h2, h3, if_true]; exact ⟨⟨rfl, rfl⟩, rfl⟩
  · intro h1 h2 h3; simp only [h1, if_true]; unfold turnBack; simp only [h2, h3, if_true]; exact ⟨⟨rfl, rfl⟩, rfl⟩
  · intro h1 h2; simp only [h1, if_true]; unfold turnBack; dsimp only; rw [if_neg h2]; exact hno _

/-- The selection reads of the state before no more than itself, the handover, whether the other feed is UP, the frames in
progress and the count of reversals; and of the state after no more than the Feed Intake Unit and NO_FEED. -/
theorem selectionTurned_congr {x : Feed} {q s t u : State} (h : SelectionTurned x q t)
    (hs : s.feed.selection = q.feed.selection) (hh : s.feed.handover = q.feed.handover)
    (hp : (portState s.feed (feedPort (otherFeed x))).alignment = (portState q.feed (feedPort (otherFeed x))).alignment)
    (hc : ∀ y, (feedState s.feed y).currentFrame = (feedState q.feed y).currentFrame)
    (hr : s.feed.handoverReversals = q.feed.handoverReversals) (hf : u.feed = t.feed)
    (hn : hasFlag t.mgmt.flags .noFeed = true → hasFlag u.mgmt.flags .noFeed = true) : SelectionTurned x s u := by
  unfold SelectionTurned targetAfterLoss at h ⊢
  simp only [hs, hh, hp, hc, hr, hf]
  dsimp only at h
  obtain ⟨h1, h2, h3, h4, h5, h6, h7, h8, h9⟩ := h
  exact ⟨h1, fun a b => ⟨(h2 a b).1, hn (h2 a b).2.1, (h2 a b).2.2⟩, h3, h4, h5, h6, h7, h8,
    fun a b => ⟨(h9 a b).1, hn (h9 a b).2.1, (h9 a b).2.2⟩⟩

/-- A table whose records have all lost their seen flags shows none, canonical or not. -/
theorem tableMap_unseen (t : Table Continuity) (l : Nat) :
    (tableGet {} (tableMap {} (fun e : Continuity => { e with seen := false }) t) l).seen = false := by
  induction t with
  | nil => rfl
  | cons e t ih =>
    simp only [tableMap, tableCons]
    split
    · exact ih
    · simp only [tableGet]
      split
      · rfl
      · split
        · rfl
        · exact ih

/-- A feed's port leaves UP: what becomes of the feed's marks, and of the selection (R35, R40, R43, R45). -/
theorem leaveUp_left (x : Feed) (new : Machine.Alignment) (s : State) :
    FeedLeftUp x s (leaveUp (feedPort x) new s) ∧ SelectionTurned x s (leaveUp (feedPort x) new s) := by
  have hl : leaveUp (feedPort x) new s = feedLeavesUp x (mapPort (feedPort x) (fun v => { v with
      alignment := new, assembly := [], search := [], alignmentLosses := bump v.alignmentLosses }) s) := by
    cases x <;> rfl
  rw [hl]
  have hf := setFlag_hasFlag (downFlag x) (mapPort (feedPort x) (fun v => { v with
    alignment := new, assembly := [], search := [], alignmentLosses := bump v.alignmentLosses }) s)
  have hfeed := (setFlag_moves (downFlag x) (mapPort (feedPort x) (fun v => { v with
    alignment := new, assembly := [], search := [], alignmentLosses := bump v.alignmentLosses }) s)).feed
  unfold feedLeavesUp
  generalize setFlag (downFlag x) _ = q at hf hfeed ⊢
  have hcont : (feedState (feedLeft x (mapFeedState x (fun f => { f with
      continuity := tableMap {} (fun e => { e with seen := false }) f.continuity, upThroughout := false }) q)).feed x).continuity
      = tableMap {} (fun e => { e with seen := false }) (feedState s.feed x).continuity := by
    rw [feedLeft_keeps FeedState.continuity (fun _ => rfl)]
    cases x <;> · show tableMap _ _ (feedState q.feed _).continuity = _
                  rw [hfeed]; rfl
  refine ⟨⟨?_, ?_, hcont, ?_⟩, selectionTurned_congr (feedLeft_selection x _) ?_ ?_ ?_ ?_ ?_ rfl id⟩
  · have := (feedLeft_arrives x (mapFeedState x (fun f => { f with
      continuity := tableMap {} (fun e => { e with seen := false }) f.continuity
      upThroughout := false }) q)).mgmt.2.2.2.2.2.2 (downFlag x) hf
    cases x <;> exact this
  · rw [feedLeft_up]; cases x <;> rfl
  · intro l; rw [hcont]; exact tableMap_unseen _ l
  · cases x <;> exact (congrArg FeedIntake.selection hfeed).symm
  · cases x <;> exact (congrArg FeedIntake.handover hfeed).symm
  · cases x
    · exact (congrArg (fun u => (portState u .b).alignment) hfeed).symm
    · exact (congrArg (fun u => (portState u .a).alignment) hfeed).symm
  · intro y
    cases x <;> cases y <;>
      first
      | exact (congrArg (fun u => (feedState u .a).currentFrame) hfeed).symm
      | exact (congrArg (fun u => (feedState u .b).currentFrame) hfeed).symm
  · cases x <;> exact (congrArg FeedIntake.handoverReversals hfeed).symm

/-- A HOLD is satisfied exactly when every condition that it names is true (R166). -/
theorem holdSatisfied_iff (h : Hold) (s : State) : holdSatisfied h s = true ↔ holdConditionsTrue h s := by
  have e1 : holdFrameTrue h s = true ↔ (∀ k n, h.frame = some (k, n) →
      ∃ b, s.outs[k].lastBegun = some b ∧ (b - n).toNat ≤ 32767) := by
    unfold holdFrameTrue
    rcases hf : h.frame with _ | ⟨k, n⟩
    · simp
    · simp only [Option.some.injEq, Prod.mk.injEq, and_imp]
      rcases hz : s.outs[k].lastBegun with _ | b
      · simp only [Fin.getElem_fin] at hz ⊢
        simp [hz]
      · simp only [Fin.getElem_fin] at hz ⊢
        simp [hz, frameAtOrAfter]
  have e2 : holdContextTrue h s = true ↔ (∀ x, h.context = some x →
      (context s x).state = .idle ∨ (context s x).state = .halted) := by
    unfold holdContextTrue
    cases h.context <;> simp
  have e3 : holdStoreTrue h s = true ↔ (∀ i, h.store = some i → s.store.contexts[i] = none) := by
    unfold holdStoreTrue
    cases h.store <;> simp
  have e4 : holdSecondsTrue h s = true ↔ (∀ v, h.seconds = some v → v.toNat ≤ s.clock.seconds.toNat) := by
    unfold holdSecondsTrue
    cases h.seconds <;> simp
  simp only [holdSatisfied, Bool.and_eq_true, holdConditionsTrue, e1, e2, e3, e4, and_assoc]

theorem jumpOutput_zero (k : Fin 4) (s : State) : jumpOutput 0 k s = s := by
  unfold jumpOutput
  split
  · rfl
  · rw [if_neg (by unfold Config.jumpLimit; omega), if_neg (by omega)]

theorem jump_eq_foldl (d : Int) (s : State) : jump d s = [0, 1, 2, 3].foldl (fun v k => jumpOutput d k v) s := by
  unfold jump
  split
  · rename_i h; subst h
    simp only [List.foldl_cons, List.foldl_nil, jumpOutput_zero]
  · rfl

end Sys2Proof
end

