-- ==== Sys2Proof/Laws/Slots.lean ====
section
/-!
SUPPORT. Slots.lean: an output at its slots, at a frame's start, at the late limit and at a jump of site time.
-/

namespace Sys2Proof

open Machine

theorem changeSync_within (k : Fin 4) (new : Sync) (s : State) (h : s.outs[(k:Nat)].sync ≠ new) :
    hasFlag (changeSync k new s).mgmt.flags .outputState = true := changeSync_flag k new s h

/-- An output enters ACQUIRING: it has left its frame, and seeks among its records. -/
theorem enterAcquiring_out (k : Fin 4) (s : State) (hs : s.outs[(k:Nat)].sync ≠ .acquiring) :
   ∃ u, enterAcquiring k s = seek k s.outs[(k:Nat)].frameQueue u
    ∧ u.outs[(k:Nat)] = { s.outs[(k:Nat)] with
        sync := .acquiring, position := none, current := none, waiting := false, lateCount := 0, muteCause := none
        queue := sendingEntry s.outs[(k:Nat)] ++ (waitingEntries s.outs[(k:Nat)]).drop (unclaimedEntries s.outs[(k:Nat)]).length }
    ∧ u.clock = s.clock ∧ hasFlag u.mgmt.flags .outputState = true
    ∧ (∀ f, hasFlag s.mgmt.flags f = true → hasFlag u.mgmt.flags f = true) ∧ u.feed = s.feed ∧ u.route = s.route := by
  unfold enterAcquiring
  dsimp only
  have h1 := flush_out k (sendingEntry s.outs[k] ++ (waitingEntries s.outs[k]).drop (unclaimedEntries s.outs[k]).length) (unclaimedEntries s.outs[k]) s
  have hm := flushQueue_moves k (sendingEntry s.outs[k] ++ (waitingEntries s.outs[k]).drop (unclaimedEntries s.outs[k]).length) (unclaimedEntries s.outs[k]) s
  generalize flushQueue k (sendingEntry s.outs[k] ++ (waitingEntries s.outs[k]).drop (unclaimedEntries s.outs[k]).length) (unclaimedEntries s.outs[k]) s = v at *
  have h2 := mapOut_same k (fun o => { o with current := none, waiting := false, lateCount := 0, muteCause := none }) v
  have hm2 := Moves.outPlain k (fun o => { o with current := none, waiting := false, lateCount := 0, muteCause := none }) hm
  generalize mapOut k (fun o => { o with current := none, waiting := false, lateCount := 0, muteCause := none }) v = w at *
  have hw : w.outs[(k:Nat)] = { s.outs[(k:Nat)] with current := none, waiting := false, lateCount := 0, muteCause := none, queue := sendingEntry s.outs[(k:Nat)] ++ (waitingEntries s.outs[(k:Nat)]).drop (unclaimedEntries s.outs[(k:Nat)]).length } := by
    rw [h2, h1]; rfl
  have hws : w.outs[(k:Nat)].sync ≠ .acquiring := by rw [hw]; exact hs
  have hc := changeSync_out k .acquiring w
  rw [if_neg hws] at hc
  have hcw := changeSync_flag k .acquiring w hws
  have hfr : (changeSync k .acquiring w).outs[k].frameQueue = s.outs[(k:Nat)].frameQueue := by
    show (changeSync k .acquiring w).outs[(k:Nat)].frameQueue = _
    rw [hc, hw]
  have hcm : (changeSync k .acquiring w).clock = w.clock ∧ (changeSync k .acquiring w).feed = w.feed ∧ (changeSync k .acquiring w).route = w.route ∧ (∀ f, hasFlag w.mgmt.flags f = true → hasFlag (changeSync k .acquiring w).mgmt.flags f = true) := by
    have hset : ∀ q : State, Moves q (setFlag .outputState (countMgmt (fun c => { c with outputChanges := c.outputChanges.set k (bump c.outputChanges[k]) }) q)) := fun q => (setFlag_moves _ _).after (Moves.mgmtCount _ .refl)
    unfold changeSync
    rw [if_neg (show ¬ w.outs[k].sync = _ from hws)]
    dsimp only
    rw [if_neg (by decide)]
    generalize hq : mapOut k _ w = q
    have e1 : q.clock = w.clock := by rw [← hq]; rfl
    have e2 : q.feed = w.feed := by rw [← hq]; rfl
    have e3 : q.route = w.route := by rw [← hq]; rfl
    have e4 : q.mgmt = w.mgmt := by rw [← hq]; rfl
    have hM := (dropSplices_moves k _).after (hset q)
    exact ⟨hM.clock.trans e1, hM.feed.trans e2, hM.route.trans e3, fun f hf => hM.mgmtStep.2.2.2.2.2.2 _ (by rw [e4]; exact hf)⟩
  rw [hfr]
  refine ⟨_, rfl, ?_, ?_, hcw, ?_, ?_, ?_⟩
  · rw [hc, hw]; rfl
  · rw [hcm.1, hm2.clock]
  · intro f hf; exact hcm.2.2.2 _ (hm2.mgmtStep.2.2.2.2.2.2 _ hf)
  · rw [hcm.2.1, hm2.feed]
  · rw [hcm.2.2.1, hm2.route]

/-- The search among one record. -/
theorem seek_one (k : Fin 4) (r : FrameRecord) (u : State) (hq : u.outs[(k:Nat)].frameQueue = [r]) (hw : u.outs[(k:Nat)].waiting = false) :
    (unsought u k r = false → (seek k [r] u).outs[(k:Nat)].frameQueue = [r] ∧ (seek k [r] u).outs[(k:Nat)].waiting = true)
    ∧ (unsought u k r = true → (seek k [r] u).outs[(k:Nat)].frameQueue = [] ∧ (seek k [r] u).outs[(k:Nat)].waiting = false
        ∧ (seek k [r] u).outs[(k:Nat)].counters.recordsDiscarded = bump u.outs[(k:Nat)].counters.recordsDiscarded) := by
  constructor
  · intro h
    have : seek k [r] u = mapOut k (fun o => { o with waiting := true }) u := by
      unfold seek; rw [h]; rfl
    rw [this, mapOut_same]
    exact ⟨hq, rfl⟩
  · intro h
    have : seek k [r] u = discardHead k u := by
      unfold seek; rw [h]; rfl
    rw [this]
    unfold discardHead
    rw [mapOut_same]
    refine ⟨?_, hw, rfl⟩
    dsimp only
    rw [hq]; rfl

/-- What the search for a frame leaves of its output. -/
theorem seek_keeps (k : Fin 4) (l : List FrameRecord) (u : State) :
   (seek k l u).outs[(k:Nat)].sync = u.outs[(k:Nat)].sync ∧ (seek k l u).outs[(k:Nat)].openFrame = u.outs[(k:Nat)].openFrame
   ∧ (seek k l u).outs[(k:Nat)].previous = u.outs[(k:Nat)].previous ∧ (seek k l u).outs[(k:Nat)].muteCause = u.outs[(k:Nat)].muteCause
   ∧ (seek k l u).outs[(k:Nat)].lateCount = u.outs[(k:Nat)].lateCount ∧ (seek k l u).outs[(k:Nat)].current = u.outs[(k:Nat)].current
   ∧ (seek k l u).outs[(k:Nat)].lastBegun = u.outs[(k:Nat)].lastBegun ∧ (seek k l u).outs[(k:Nat)].position = u.outs[(k:Nat)].position
   ∧ (seek k l u).outs[(k:Nat)].grid = u.outs[(k:Nat)].grid ∧ (seek k l u).outs[(k:Nat)].counters.lateFrames = u.outs[(k:Nat)].counters.lateFrames
   ∧ (seek k l u).mgmt = u.mgmt ∧ (seek k l u).clock = u.clock ∧ (seek k l u).feed = u.feed ∧ (seek k l u).route = u.route
   ∧ (seek k l u).outs[(k:Nat)].frameQueue <:+ u.outs[(k:Nat)].frameQueue := by
  induction l generalizing u with
  | nil => exact ⟨rfl, rfl, rfl, rfl, rfl, rfl, rfl, rfl, rfl, rfl, rfl, rfl, rfl, rfl, List.suffix_refl _⟩
  | cons r l ih =>
    unfold seek
    split
    · have := ih (discardHead k u)
      have hd : (discardHead k u).outs[(k:Nat)] = { u.outs[(k:Nat)] with frameQueue := u.outs[(k:Nat)].frameQueue.tail, counters := { u.outs[(k:Nat)].counters with recordsDiscarded := bump u.outs[(k:Nat)].counters.recordsDiscarded } } := mapOut_same k _ u
      rw [hd] at this
      obtain ⟨a1, a2, a3, a4, a5, a6, a7, a8, a9, a10, a11, a12, a13, a14, a15⟩ := this
      exact ⟨a1, a2, a3, a4, a5, a6, a7, a8, a9, a10, a11, a12, a13, a14, a15.trans (List.tail_suffix _)⟩
    · have hd : (mapOut k (fun o => { o with waiting := true }) u).outs[(k:Nat)] = { u.outs[(k:Nat)] with waiting := true } := mapOut_same k _ u
      rw [hd]
      exact ⟨rfl, rfl, rfl, rfl, rfl, rfl, rfl, rfl, rfl, rfl, rfl, rfl, rfl, rfl, List.suffix_refl _⟩

theorem mapOut_of_set (k : Fin 4) (f : Output → Output) (x : Output) (s : State) : mapOut k f { s with outs := s.outs.set k x } = { s with outs := s.outs.set k (f x) } := by
  unfold mapOut
  simp

/-- An output after the entry to FREE_RUN. -/
theorem enterFreeRun_out (k : Fin 4) (a : Int) (s : State) : (enterFreeRun k a s).outs[(k:Nat)] = { s.outs[(k:Nat)] with
    sync := .freeRun, position := if s.outs[(k:Nat)].sync = .freeRun then s.outs[(k:Nat)].position else none
    frameQueue := [], grid := some (gridFrom s.outs[(k:Nat)].defaultRate a), current := none, waiting := false, muteCause := none
    counters := { s.outs[(k:Nat)].counters with recordsDiscarded := bumpBy s.outs[(k:Nat)].counters.recordsDiscarded s.outs[(k:Nat)].frameQueue.length } } := by
  unfold enterFreeRun discardRecords
  rw [changeSync_out, mapOut_same, mapOut_same]
  dsimp only
  split
  · rename_i h; rw [h]
  · rename_i h; rfl

theorem enterFreeRun_flag (k : Fin 4) (a : Int) (s : State) (h : s.outs[(k:Nat)].sync ≠ .freeRun) : hasFlag (enterFreeRun k a s).mgmt.flags .outputState = true := by
  unfold enterFreeRun discardRecords
  apply changeSync_flag
  rw [mapOut_same, mapOut_same]; exact h

theorem lateFrame_out (k : Fin 4) (n : Nat) (s : State) :
  (setFlag .lateFrame (mapOut k (fun o => { o with
    lateCount := n
    counters := { o.counters with lateFrames := bump o.counters.lateFrames } }) s)).outs[(k:Nat)] = { s.outs[(k:Nat)] with lateCount := n, counters := { s.outs[(k:Nat)].counters with lateFrames := bump s.outs[(k:Nat)].counters.lateFrames } } := by
  rw [within_out (within_setFlag _ _) k, mapOut_same]

/-- SLOT_START with nothing on the way begins the slot at the state that the ticks leave. -/
theorem exec_slotStart_row (k : Fin 4) (s : State) (g : Grid)
    (hslot : ∀ u : State, u.outs[(k:Nat)].grid = s.outs[(k:Nat)].grid → u.outs[(k:Nat)].waiting = s.outs[(k:Nat)].waiting →
       u.outs[(k:Nat)].frameQueue = s.outs[(k:Nat)].frameQueue → slotAt u k = some g.next)
    (ht : s.clock.tick + (g.next - now s).toNat < 20000000) (hh : clearFor (g.next - now s).toNat s) :
    ∃ v : State, execSlotStart k s = .next (testHold (decideSlot k false (testHold (reconcile k g.next v))))
      ∧ v = endSlot k (runTicks (g.next - now s).toNat s)
      ∧ v.outs[(k:Nat)] = { s.outs[(k:Nat)] with slot := none, line := (if s.outs[(k:Nat)].slot.isSome then none else s.outs[(k:Nat)].line), queue := leftAfterSlot s.outs[(k:Nat)] }
      ∧ v.clock.tick = s.clock.tick + (g.next - now s).toNat := by
  have hrun := letPass_run ht hh
  have hs0 := hslot s rfl rfl rfl
  generalize hn : (g.next - now s).toNat = n at *
  have huo : ∀ j : Fin 4, (runTicks n s).outs[(j:Nat)] = { s.outs[(j:Nat)] with slot := s.outs[(j:Nat)].slot.map fun x => { x with remaining := x.remaining - n } } := fun j => runTicks_out n s j
  have hsu := hslot (runTicks n s) (by rw [huo]) (by rw [huo]) (by rw [huo])
  refine ⟨_, ?_, rfl, ?_, ?_⟩
  · unfold execSlotStart
    rw [hs0]
    dsimp only
    unfold untilInstant
    rw [hn, hrun]
    unfold startSlot
    rw [hsu]
    dsimp only
    rw [if_pos]
    · rfl
    · rw [now_run]; omega
  · rw [endSlot_out, huo]
    unfold leftAfterSlot
    cases s.outs[(k:Nat)].slot <;> simp
  · rw [(endSlot_moves _ _).clock]; rfl

/-- A slot that a jump passes takes the grid on and puts nothing on the line. -/
theorem takeSlot_passed (k : Fin 4) (sends : Bool) (pkt : Packet) (s : State) (g : Grid) (h : s.outs[(k:Nat)].grid = some g) :
    (takeSlot k true sends pkt s).outs[(k:Nat)] = { s.outs[(k:Nat)] with
      grid := some (stepGrid g), slot := none, line := none
      counters := { s.outs[(k:Nat)].counters with passedSlots := bump s.outs[(k:Nat)].counters.passedSlots } }
    ∧ (takeSlot k true sends pkt s).pool = s.pool ∧ (takeSlot k true sends pkt s).clock = s.clock := by
  unfold takeSlot
  rw [show s.outs[k].grid = some g from h]
  dsimp only
  refine ⟨?_, rfl, rfl⟩
  rw [mapOut_same]; rfl

/-- An output after a slot that a jump passed, with the delay queue that it leaves. -/
def afterPassedSlot (g : Grid) (o : Output) (q : List Entry) : Output := { o with
  queue := q, grid := some (stepGrid g), slot := none, line := none
  counters := { o.counters with passedSlots := bump o.counters.passedSlots } }

theorem fillSlot_passed (k : Fin 4) (s : State) (g : Grid) (h : s.outs[(k:Nat)].grid = some g) :
    (fillSlot k true s).outs[(k:Nat)] = afterPassedSlot g s.outs[(k:Nat)] s.outs[(k:Nat)].queue :=
  (takeSlot_passed k false fillPacket s g h).1

theorem sendEntry_passed (k : Fin 4) (d st : Int) (e : Entry) (s : State) (g : Grid) (h : s.outs[(k:Nat)].grid = some g) :
    (sendEntry k true d st e s).outs[(k:Nat)] = afterPassedSlot g s.outs[(k:Nat)] s.outs[(k:Nat)].queue.tail := by
  have h1 := removeHead_same .passed k s
  show (takeSlot k true false fillPacket (removeHead .passed k s)).outs[(k:Nat)] = _
  rw [(takeSlot_passed k false fillPacket (removeHead .passed k s) g (by rw [h1]; exact h)).1, h1]; rfl

theorem carryEntry_passed (k : Fin 4) (d st : Int) (e : Entry) (s : State) (g : Grid) (h : s.outs[(k:Nat)].grid = some g) :
    (carryEntry k true d st e s).2.outs[(k:Nat)] = afterPassedSlot g s.outs[(k:Nat)] s.outs[(k:Nat)].queue.tail := by
  unfold carryEntry
  split
  · exact sendEntry_passed k d st e s g h
  · rename_i p _
    split
    · have hw := within_decide p s
      split
      · rename_i s1 heq; rw [heq] at hw
        rw [sendEntry_passed k d st e s1 g (by rw [within_out hw k]; exact h), within_out hw k]
      · rename_i s1 heq; rw [heq] at hw
        have h1 := removeHead_same .substitution k s1
        dsimp only at hw ⊢
        rw [fillSlot_passed _ _ g (by rw [h1, within_out hw k]; exact h), h1, within_out hw k]; rfl
      · rename_i s1 heq; rw [heq] at hw
        have h1 := removeHead_same .substitution k s1
        dsimp only at hw ⊢
        show (takeSlot k true false _ (removeHead .substitution k s1)).outs[(k:Nat)] = _
        rw [(takeSlot_passed k false _ _ g (by rw [h1, within_out hw k]; exact h)).1, h1, within_out hw k]; rfl
    · exact sendEntry_passed k d st e s g h

theorem stepGrid_eq (g : Grid) : ({ g with
    next := g.next + ((if g.rate ≤ g.phase + g.rem then g.interval + 1 else g.interval : Nat) : Int), phase := if g.rate ≤ g.phase + g.rem then g.phase + g.rem - g.rate else g.phase + g.rem } : Grid) = stepGrid g := rfl

theorem freeSlot_passed (k : Fin 4) (start : Int) (s : State) (g : Grid) (h : s.outs[(k:Nat)].grid = some g) :
    (freeSlot k true start s).outs[(k:Nat)] = afterPassedSlot g s.outs[(k:Nat)] s.outs[(k:Nat)].queue.tail := by
  unfold freeSlot
  rw [within_out (within_reportSlot _ _ _) k]
  cases hq : s.outs[(k:Nat)].queue with
  | nil => 
    dsimp only
    rw [fillSlot_passed k s g h, hq]; rfl
  | cons e rest =>
    dsimp only
    rw [carryEntry_passed k 0 start e s g h, hq]

theorem frameSlot_passed (k : Fin 4) (start : Int) (c : Current) (s : State) (g : Grid) (h : s.outs[(k:Nat)].grid = some g) :
    ∃ q, (frameSlot k true start c s).outs[(k:Nat)] = afterPassedSlot g { s.outs[(k:Nat)] with current := some { c with slot := c.slot + 1 }, position := some (c.record.number, c.slot) } q := by
  unfold frameSlot
  dsimp only
  rw [within_out (within_reportSlot _ _ _) k]
  generalize hs1 : mapOut k (fun o => { o with current := some { c with slot := c.slot + 1 }, position := some (c.record.number, c.slot) }) s = s1
  have h1 : s1.outs[(k:Nat)] = { s.outs[(k:Nat)] with current := some { c with slot := c.slot + 1 }, position := some (c.record.number, c.slot) } := by
    rw [← hs1, mapOut_same]
  have h2 : (activate k (c.record.number, c.slot) start (dropPassedSplices k (c.record.number, c.slot) s1)).outs[(k:Nat)] = s1.outs[(k:Nat)] := by
    rw [within_out (within_activate _ _ _ _) k, within_out (within_dropPassed _ _ _) k]
  generalize activate k (c.record.number, c.slot) start (dropPassedSplices k (c.record.number, c.slot) s1) = s2 at *
  have h3 := (passHeads_same k (passedAt (c.record.number, c.slot) c.late) s2.outs[(k:Nat)].queue s2 rfl).1
  rw [show s2.outs[k] = s2.outs[(k:Nat)] from rfl]
  generalize passHeads k (passedAt (c.record.number, c.slot) c.late) s2.outs[(k:Nat)].queue s2 = w at *
  have hg : w.outs[(k:Nat)].grid = some g := by rw [h3, h2, h1]; exact h
  unfold carryFrame
  cases hq : w.outs[(k:Nat)].queue with
  | nil =>
    dsimp only
    rw [fillSlot_passed k w g hg, h3, h2, h1]; exact ⟨_, rfl⟩
  | cons e rest =>
    dsimp only
    split
    · rw [carryEntry_passed k _ start e w g hg, h3, h2, h1]; exact ⟨_, rfl⟩
    · rw [fillSlot_passed k w g hg, h3, h2, h1]; exact ⟨_, rfl⟩

end Sys2Proof
end

