-- ==== Sys2Proof/WellFormed.lean ====
section
/-!
DEFINITION. WellFormed.lean: which terms of Instr are commands that the outside world can send: the bytes of a packet's
arrival, the cells that sorting hands on (R6, R7, R161), and the row that a cell belongs to.
-/

namespace Sys2Proof

open Sys2Proof.Machine

/-- A control cell has 25 parameter units (R6, R7). -/
def Cell.wellFormed (c : Cell) : Bool := c.units.length == 25

/-- A cell that sorting hands on as a command row begins: it is no ABANDON HOLD, which does not enter the control
queue (R161). -/
def handedWellFormed (h : Option Handed) : Bool :=
  match h with
  | none => true
  | some x => x.cell.wellFormed && x.cell.code != abandonCode

/-- The checks of a command. -/
def Instr.wellFormed : Instr → Bool
  | .powerOn => true
  | .resetPin => true
  | .byteArrives _ _ _ => true
  | .packetArrives _ _ bytes => decide (1 ≤ bytes.length) && decide (bytes.length ≤ Config.packetBytes)
  | .lossTimerExpiry _ => true
  | .ref10Lost _ => true
  | .ref10Restored _ => true
  | .pulseEdge _ => true
  | .pulseWatchExpiry => true
  | .secondBoundary => true
  | .holdoverExpiry => true
  | .holdTimeout => true
  | .slotStart _ => true
  | .reanchorStart _ => true
  | .acquisitionStart _ => true
  | .breakEnd => true
  | .slotEnds _ => true
  | .monitorPacketSent => true
  | .swapBanksCompletion => true
  | .unknownCodeCell h => handedWellFormed h
  | .hold h => handedWellFormed h
  | .abandonHold cell => cell.wellFormed && cell.code == abandonCode
  | .setGrants h => handedWellFormed h
  | .setEventEnable h => handedWellFormed h
  | .ackEvents h => handedWellFormed h
  | .status h => handedWellFormed h
  | .readCounters h => handedWellFormed h
  | .clearCounters h => handedWellFormed h
  | .siteReset h => handedWellFormed h
  | .setSeconds h => handedWellFormed h
  | .setClockPolicy h => handedWellFormed h
  | .setOutput h => handedWellFormed h
  | .outputMute h => handedWellFormed h
  | .outputRestart h => handedWellFormed h
  | .writeRoute h => handedWellFormed h
  | .copyBank h => handedWellFormed h
  | .swapBanks h => handedWellFormed h
  | .setDefaultAction h => handedWellFormed h
  | .writeProgramme h => handedWellFormed h
  | .clearProgramme h => handedWellFormed h
  | .setFeedPolicy h => handedWellFormed h
  | .selectFeed h => handedWellFormed h
  | .defineSegment h => handedWellFormed h
  | .releaseSegment h => handedWellFormed h
  | .startFill h => handedWellFormed h
  | .sealFill h => handedWellFormed h
  | .abortFill h => handedWellFormed h
  | .segmentStatus h => handedWellFormed h
  | .writePlayEntry h => handedWellFormed h
  | .configureContext h => handedWellFormed h
  | .startContext h => handedWellFormed h
  | .stopContext h => handedWellFormed h
  | .wakeContext h => handedWellFormed h
  | .contextStatus h => handedWellFormed h

end Sys2Proof
end

