-- ==== Sys2Proof/Tests/Slice0.lean ====
section
/-!
SUPPORT. Slice0.lean: the model's own tests: ill-formed commands, the byte layouts of chapter 1, small steps from the
worked examples of the spec, and for each statement with hypotheses a state that meets them. Expected values are the
spec's or worked out from its rules by hand.
-/

namespace Sys2Proof.Tests

open Sys2Proof Sys2Proof.Machine

/-! ### Small states -/

/-- A parameter unit with a value. -/
def given (v : Nat) : ParamUnit := { presence := 1, value := BitVec.ofNat 40 v }

/-- An absent parameter unit. -/
def missing : ParamUnit := { presence := 0, value := 0 }

/-- A cell of originator 5 with 25 units, of which the first are given. -/
def cellWith (code : Byte) (units : List ParamUnit) : Cell :=
  { originator := 5, tag := 0x1234, code := code, units := units ++ List.replicate (25 - units.length) missing }

/-- The state with one cell in its control queue. -/
def asked (c : Cell) (s : State) : State := { s with mgmt := { s.mgmt with controlQueue := [c] } }

/-- Four outputs that software has muted. -/
def quiet : Vector Output 4 := Vector.replicate 4 { sync := .muted, muteCause := some .command, grid := none }

/-- A part with another Site Clock and four muted outputs. -/
def clocked (c : SiteClock) : State := { State.reset with clock := c, outs := quiet }

/-- The part after reset with another output 3 and the others muted. -/
def emitting (o : Output) : State := { State.reset with outs := quiet.set 3 o }

/-- The part after reset with another Feed Intake Unit and four muted outputs. -/
def fed (u : FeedIntake) : State := { State.reset with feed := u, outs := quiet }

/-- The part after reset with another Management Unit. -/
def managed (m : Management) : State := { State.reset with mgmt := m }

/-- The part after reset with another context 15. -/
def playing (x : Context) : State :=
  { State.reset with engine := { State.reset.engine with contexts := State.reset.engine.contexts.set 15 x } }

/-- The part after reset with programme records. -/
def programmed (t : Table Programme) (s : State) : State := { s with progs := { s.progs with records := t } }

/-- The part after reset with segment records. -/
def segmented (t : Table Segment) (s : State) : State := { s with store := { s.store with segments := t } }

/-- The state that a step answers. -/
def after (i : Instr) (s : State) : State :=
  match exec i s with
  | .next t => t
  | _ => s

/-- A packet of one label with a payload that begins with given bytes. -/
def packetWith (label : Label) (payload : List Byte) : Packet :=
  { label := label, c := false, d := false, seq := 0, cls := 0
    payload := payload ++ List.replicate (156 - payload.length) 0 }

/-- A cell of a code stands alone in the control queue of a Management Unit that is as after reset: it is accepted. -/
theorem asked_accepted {code : Byte} {units : List ParamUnit} {s : State} (g : Group) (hg : groupOf code = some g)
    (h : s.mgmt = {}) : accepted code (cellWith code units) [] (asked (cellWith code units) s) := by
  have hi : g.val < 5 := g.isLt
  refine ⟨⟨rfl, ?_, ?_⟩, rfl, (by decide : (5#8).toNat < 64), g, hg, .inl ?_⟩
  · show s.mgmt.executing = none
    rw [h]
  · show s.mgmt.reportQueue.length < 32
    rw [h]; decide
  · show (s.mgmt.grants[g]).any = true
    rw [h]; simp

/-- The first unit of a cell carries its value. -/
theorem carries_given (code : Byte) {v : Nat} (h : v < 2 ^ 40) : carries (cellWith code [given v]) 0 v :=
  ⟨rfl, Nat.mod_eq_of_lt h⟩

/-! ### Ill-formed commands -/

theorem test_packetArrives_needs_a_byte : Instr.wellFormed (.packetArrives 0 .a []) = false := by decide
theorem test_packetArrives_has_at_most_160_bytes :
    Instr.wellFormed (.packetArrives 0 .l (List.replicate 161 0)) = false
      ∧ Instr.wellFormed (.packetArrives 0 .l (List.replicate 160 0)) = true := by
  have h : ∀ n, Instr.wellFormed (.packetArrives 0 .l (List.replicate n 0)) = (decide (1 ≤ n) && decide (n ≤ 160)) :=
    fun n => by rw [Instr.wellFormed, List.length_replicate]
  exact ⟨h 161, h 160⟩
theorem test_handed_cell_has_25_units :
    Instr.wellFormed (.status (some { source := .feed, cell := { originator := 1, tag := 0, code := 6, units := [] } })) = false
      ∧ Instr.wellFormed (.status (some { source := .feed, cell := cellWith 6 [] })) = true := ⟨rfl, rfl⟩
theorem test_abandon_cell_is_not_handed_on_to_the_queue :
    Instr.wellFormed (.hold (some { source := .localPort, cell := cellWith 0x02 [] })) = false := by decide
theorem test_abandonHold_takes_its_own_code_and_25_units :
    Instr.wellFormed (.abandonHold (cellWith 0x01 [])) = false
      ∧ Instr.wellFormed (.abandonHold { cellWith 0x02 [] with units := [] }) = false
      ∧ Instr.wellFormed (.abandonHold (cellWith 0x02 [])) = true := by decide

/-! ### Byte layouts (chapter 1), each from the layout tables, bit by bit -/

/-- R1: label 0x123, C set, D clear, sequence 0b100111, class 0xA. Byte 2 is 0011 1 0 10, byte 3 is 0111 1010. -/
theorem test_packet_header_fields :
    (let p := packetOfBytes ([0x5A, 0x12, 0x3A, 0x7A] ++ List.replicate 156 0)
     p.label = 0x123 ∧ p.c = true ∧ p.d = false ∧ p.seq = 0b100111 ∧ p.cls = 0xA
       ∧ (packetBytes p).take 4 = [0x5A, 0x12, 0x3A, 0x7A]) := ⟨rfl, rfl, rfl, rfl, rfl, rfl⟩

/-- R1: D is bit 2 of byte 2. -/
theorem test_packet_discontinuity_bit :
    (let p := packetOfBytes [0x5A, 0xFF, 0xF4, 0x00]
     p.label = 4095 ∧ p.c = false ∧ p.d = true ∧ p.seq = 0 ∧ p.cls = 0) := by decide

/-- R2: five payload bytes, most significant first. -/
theorem test_clock_sample_bytes :
    clockSample (packetWith 1 [0x01, 0x02, 0x03, 0x04, 0x05]) = 0x0102030405
      ∧ (withSample (packetWith 1 [9, 9, 9, 9, 9, 7]) 0xFFFFFFFF38).payload.take 6 = [0xFF, 0xFF, 0xFF, 0xFF, 0x38, 7] := by
  decide

/-- R4: frame 9,000, multiplex 1, L = 2,000, low8 = 44, tick 19,990,000, rate 24,000,000 (chapter 7's timing packet). -/
theorem test_timing_packet_fields :
    timingOf (packetWith 4090 [0x23, 0x28, 1, 0x07, 0xD0, 44, 0x01, 0x31, 0x05, 0xF0, 0x01, 0x6E, 0x36, 0x00])
      = { number := 9000, multiplex := 1, length := 2000, low8 := 44, tick := 19990000, rate := 24000000 } := by decide

/-- R5: cue out and cancel; slot 65,535, a duration of 0 and other kinds are ignored. -/
theorem test_cue_message_fields :
    cueOf (packetWith 5 [0, 7, 1, 3, 0x23, 0x28, 0, 6, 0, 0x09, 0x60])
        = some (.out 3 { id := 7, point := (9000, 6), duration := 2400 })
      ∧ cueOf (packetWith 5 [0, 7, 2, 3]) = some (.cancel 3 7)
      ∧ cueOf (packetWith 5 [0, 7, 1, 3, 0x23, 0x28, 0xFF, 0xFF, 0, 0x09, 0x60]) = none
      ∧ cueOf (packetWith 5 [0, 7, 1, 3, 0x23, 0x28, 0, 6, 0, 0, 0]) = none
      ∧ cueOf (packetWith 5 [0, 7, 3, 3]) = none := by decide

/-- R6, R7: the worked example of chapter 1: SEGMENT STATUS of segment 17 from originator 2 with the tag 0x1234. -/
theorem test_control_cell_fields :
    (let c := cellOf (packetWith 4088 [2, 0x12, 0x34, 0x35, 1, 0, 0, 0, 0, 17])
     c.originator = 2 ∧ c.tag = 0x1234 ∧ c.code = 0x35 ∧ c.units.length = 25
       ∧ unitAt c.units 0 = given 17 ∧ unitAt c.units 24 = missing ∧ rowOfCode c.code = .segmentStatus none
       ∧ groupOf c.code = some 3) := by decide

/-- R8: the worked example of chapter 1: the RANGE reply for segment 1,500 is zeros after byte 5. -/
theorem test_reply_bytes :
    reportPayload (.reply 2 0x1234 0x35 .range []) = [0, 2, 0x12, 0x34, 0x35, 3] ++ List.replicate 150 0
      ∧ (reportPayload (.reply 2 0x1234 0x35 .ok [some 17, none])).take 18
          = [0, 2, 0x12, 0x34, 0x35, 0, 1, 0, 0, 0, 0, 17, 0, 0, 0, 0, 0, 0] := by decide

/-- R8: an event report: type 1, originator 255, then flags, seconds and tick. -/
theorem test_event_report_bytes :
    (reportPayload (.event 0x8001 0x01020304 19999999)).take 17
      = [1, 255, 0, 0, 0, 0, 0x80, 0x01, 1, 2, 3, 4, 0x01, 0x31, 0x2C, 0xFF, 0] := by decide

/-- R6: codes that are in no table belong to no group and to the row for unknown codes. -/
theorem test_codes_in_no_table :
    groupOf 0x00 = none ∧ groupOf 0x0A = none ∧ groupOf 0x15 = none ∧ groupOf 0x28 = none ∧ groupOf 0x46 = none
      ∧ rowOfCode 0xFF = .unknownCodeCell none ∧ rowOfCode 0x45 = .contextStatus none ∧ groupOf 0x45 = some 4 := by decide

/-! ### Conventions of time and number -/

/-- R10: the table of comparisons. -/
theorem test_frame_comparisons :
    frameAfter 3 65530 = true ∧ frameAtOrAfter 65530 3 = false ∧ frameAtOrAfter 100 32868 = false
      ∧ frameAtOrAfter 32868 100 = false ∧ pointAtOrAfter (0, 2) (65535, 10) = true
      ∧ pointAtOrAfter (7, 4) (7, 4) = true := by decide

/-- R11: -400 on 200, and 3,200 on the result. -/
theorem test_samples_wrap :
    sampleAdd 200 (-400) = 1099511627576 ∧ sampleAdd 1099511627576 3200 = 3000 := by decide

/-- R12: a counter that is full keeps its value. -/
theorem test_counters_saturate : bump 4294967295 = 4294967295 ∧ bump 4294967294 = 4294967295 := by decide

/-- R28 and chapter 7's timing packet: low8 = 44 in second 300 resolves to 300, and the window is 172 to 427. -/
theorem test_second_resolution :
    resolveSecond 300 44 = 300 ∧ resolveSecond 300 172 = 172 ∧ resolveSecond 300 171 = 427 ∧ resolveSecond 0 200 = -56 := by
  decide

/-- R87's example: slots 1, 2 and 3 start 1,066, 2,133 and 3,200 after the anchor, with the phases of the table. -/
theorem test_grid_at_24_megabit :
    (let g := gridFrom 24000000 6020139600
     (stepGrid g).next = 6020140666 ∧ (stepGrid g).phase = 16000000
       ∧ (stepGrid (stepGrid g)).next = 6020141733 ∧ (stepGrid (stepGrid g)).phase = 8000000
       ∧ (stepGrid (stepGrid (stepGrid g))).next = 6020142800 ∧ (stepGrid (stepGrid (stepGrid g))).phase = 0) := by decide

/-- R85 on chapter 7's timing packet at second 300, tick 19,850,000, with site offset 150,000. -/
theorem test_frame_record_of_a_timing_packet :
    (let s := { emitting { offset := 150000 } with clock := { seconds := 300, tick := 19850000 } }
     let r := recordOf s 3
      { number := 9000, multiplex := 1, length := 2000, low8 := 44, tick := 19990000, rate := 24000000 }
     r.target = 6019990000 ∧ r.release = 6020140000 ∧ r.tooEarly = false ∧ r.interval = 1066 ∧ r.rem = 16000000) := by decide

/-! ### The Site Clock: the worked sequence of chapter 2 -/

/-- A LOCKED clock of the worked sequence: step limit 20, h = 2, REF10 PRESENT. -/
def sequenceClock (seconds : BitVec 32) (tick outliers : Nat) : SiteClock :=
  { seconds := seconds, tick := tick, mode := .locked, holdoverExp := 2, outliers := outliers, ref10 := true
    pulseWatch := some 1 }

/-- Event 1: an edge 10 ticks early. -/
theorem test_pulseEdge_early_step :
    (after (.pulseEdge 0) (clocked (sequenceClock 500 19999990 0))).clock
      = { sequenceClock 501 0 0 with pulseWatch := some 0, counters := { steps := 1 } } := by decide

/-- Event 4: the third outlier. -/
theorem test_pulseEdge_outlier :
    (let t := after (.pulseEdge 0) (clocked (sequenceClock 503 45 2))
     t.clock = { sequenceClock 503 45 3 with pulseWatch := some 0, counters := { outlierEdges := 1 } }
       ∧ t.mgmt.flags = 0x8000) := by decide

/-- Event 6: REF10 lost. -/
theorem test_ref10Lost_enters_holdover :
    (let t := after (.ref10Lost 0) { clocked (sequenceClock 504 6000000 0) with outs := #v[{ sync := .locked }, {}, {}, {}] }
     t.clock.mode = .holdover ∧ t.clock.tick = 6000000 ∧ t.mgmt.flags = 0x0050 ∧ t.outs[(0 : Fin 4)].sync = .holdover) := by
  decide

/-- Event 12: REF10 restored in EXPIRED changes no clock state. -/
theorem test_ref10Restored_in_expired :
    (let t := after (.ref10Restored 0) (clocked { mode := .expired, holdoverSeconds := 4, absentTicks := 20000 })
     t.clock.mode = .expired ∧ t.clock.ref10 = true ∧ t.clock.holdoverSeconds = 4) := by decide

/-- R16: 19,999 ticks after the loss REF10 is not yet PRESENT, and a tick later it is. -/
theorem test_ref10Restored_needs_a_millisecond :
    (after (.ref10Restored 0) (clocked { absentTicks := 19999 })).clock.ref10 = false
      ∧ (after (.ref10Restored 1) (clocked { absentTicks := 19999 })).clock.ref10 = true := by decide +kernel

/-- R16: a gap restarts the 1 ms, of which all but one tick had passed. -/
theorem test_ref10Lost_is_a_gap :
    (after (.ref10Restored 19999) (after (.ref10Lost 0) (clocked { absentTicks := 19999 }))).clock.ref10 = false
      ∧ (after (.ref10Restored 20000) (after (.ref10Lost 0) (clocked { absentTicks := 19999 }))).clock.ref10 = true := by
  decide +kernel

/-- Event 10: the boundary to 508 brings the holdover seconds to 4 = 2^2, and HOLDOVER_EXPIRY then expires it. -/
theorem test_holdoverExpiry_at_the_limit :
    (let t := after .holdoverExpiry (clocked { seconds := 508, mode := .holdover, holdoverExp := 2, holdoverSeconds := 4 })
     t.clock.mode = .expired ∧ t.clock.counters.holdoverExpiries = 1 ∧ t.mgmt.flags = 0x0020) := by decide

/-- SECOND_BOUNDARY counts the holdover second and closes an errored second (R27, R37). -/
theorem test_secondBoundary_counts :
    (let t := after .secondBoundary { clocked { seconds := 507, tick := 19999999, mode := .holdover, holdoverSeconds := 3 } with
        feed := { feedA := { erroredMark := true, erroredRun := 2 } } }
     t.clock.seconds = 508 ∧ t.clock.tick = 0 ∧ t.clock.holdoverSeconds = 4 ∧ t.feed.feedA.erroredRun = 3
       ∧ t.feed.feedA.erroredMark = false ∧ t.feed.feedA.erroredSeconds = 1) := by decide

/-- R27: the boundary that brings the holdover seconds to 4 = 2^2 expires the HOLDOVER, with REF10 PRESENT or not. -/
theorem test_secondBoundary_expires_the_holdover :
    (let t := after .secondBoundary
        (clocked { seconds := 507, tick := 19999999, mode := .holdover, holdoverExp := 2, holdoverSeconds := 3, ref10 := true })
     t.clock.mode = .expired ∧ t.clock.counters.holdoverExpiries = 1 ∧ t.mgmt.flags = 0x0020) := by decide +kernel

/-- R41: three errored seconds in a row on feed A hand over to feed B, clean for three. -/
theorem test_secondBoundary_hands_over :
    (after .secondBoundary { clocked { tick := 19999999 } with feed := {
        portB := { alignment := .up }, selection := .active .a, feedA := { erroredMark := true, erroredRun := 2 }
        feedB := { upThroughout := true, cleanRun := 2 } } }).feed.selection = .handoverTo .b := by decide

/-- R26: an edge one tick after the watch's 1.02 s finds the clock in HOLDOVER, and returns it to LOCKED as a forced step. -/
theorem test_pulseEdge_after_the_watch :
    (let t := after (.pulseEdge 11) (clocked { mode := .locked, ref10 := true, pulseWatch := some 20399990 })
     t.clock.counters.pulseTimeouts = 1 ∧ t.clock.counters.forcedSteps = 1 ∧ t.mgmt.flags = 0x0010) := by decide +kernel

/-- R26: the watch at 1.02 s. -/
theorem test_pulseWatchExpiry :
    (let t := after .pulseWatchExpiry (clocked { mode := .locked, ref10 := true, pulseWatch := some 20399990 })
     t.clock.mode = .holdover ∧ t.clock.tick = 10 ∧ t.clock.counters.pulseTimeouts = 1) := by decide

/-! ### Replies: the report cells that a command leaves while the monitor port is busy -/

/-- A monitor port that is sending. -/
def busyPort : Option Sending := some { isCopy := false, packet := fillPacket, remaining := 128 }

/-- The state after the command of a cell. -/
def afterCell (code : Byte) (units : List ParamUnit) (s : State) : State :=
  after (rowOfCode code) (asked (cellWith code units) { s with pool := { s.pool with port := busyPort } })

/-- The report cells after the command of a cell. -/
def replies (code : Byte) (units : List ParamUnit) (s : State) : List Report := (afterCell code units s).mgmt.reportQueue

/-- The one reply to a cell. -/
def answer (code : Byte) (status : Status) (units : List ResultUnit) : List Report := [.reply 5 0x1234 code status units]

theorem test_hold_with_true_conditions :
    replies 0x01 [missing, missing, given 15, given 1, given 0, given 70000] State.reset
      = answer 0x01 .ok [some 0, some 65535, some 14] := by decide
theorem test_hold_with_an_output_and_no_frame :
    replies 0x01 [given 1, missing, missing, missing, missing, given 0] State.reset = answer 0x01 .badCommand [] := by decide
theorem test_setGrants :
    (afterCell 0x03 [given 4, given 0x20, given 1, given 0] State.reset).mgmt.grants[(4 : Fin 5)]
      = { originators := 0x100000020, any := false } := by decide
theorem test_command_not_granted :
    replies 0x45 [given 0] (managed { grants := #v[{}, {}, {}, {}, { any := false }] }) = answer 0x45 .notGranted [] := by decide
theorem test_setEventEnable_of_17_bits : replies 0x04 [given 65536] State.reset = answer 0x04 .range [] := by decide
theorem test_ackEvents : replies 0x05 [given 1] (managed { flags := 3 }) = answer 0x05 .ok [some 2] := by decide
theorem test_status_after_reset :
    replies 0x06 [] State.reset
      = answer 0x06 .ok ([some 0, some 0, some 0, some 4] ++ List.replicate 16 (some 0)) := by decide
theorem test_readCounters_of_a_block_that_is_not : replies 0x07 [given 12] State.reset = answer 0x07 .range [] := by decide
theorem test_clearCounters :
    (afterCell 0x08 [] (clocked { counters := { steps := 9 } })).clock.counters.steps = 0 := by decide
theorem test_siteReset_keeps_time :
    (let t := afterCell 0x09 [] (clocked { seconds := 77, tick := 5, mode := .locked, stepLimit := 3 })
     t.clock.seconds = 77 ∧ t.clock.tick = 5 ∧ t.clock.mode = .locked ∧ t.clock.stepLimit = 20
       ∧ t.mgmt.resetCause = .siteReset) := by decide
theorem test_setSeconds_is_clamped : replies 0x10 [given 4294967296] State.reset = answer 0x10 .ok [some 4294967295] := by
  decide
theorem test_setClockPolicy_is_clamped : replies 0x11 [given 1001] State.reset = answer 0x11 .ok [some 1000, some 6] := by
  decide
theorem test_setOutput_replies_with_what_is_in_force :
    replies 0x12 [given 2, missing, given 150000, missing, given 0] State.reset
      = answer 0x12 .ok [some 150000, some 100, some 1, some 24000000, some 65536, some 2, some 0] := by decide
theorem test_outputMute : replies 0x13 [given 3] (clocked {}) = answer 0x13 .ok [some 4] := by decide
theorem test_outputRestart : replies 0x14 [given 3] State.reset = answer 0x14 .ok [some 0] := by decide
theorem test_writeRoute_writes_bank_1_after_reset :
    (afterCell 0x20 [given 5, given 1, given 1, given 1024, given 1023, given 0, given 4, missing, given 9] State.reset).route.bank1
      = [(5, { valid := true, input := .localPort, value := 1024, mask := 1023, outputs := 4, programme := some 9 })] := by
  decide
theorem test_copyBank_counts_the_start_up_route : replies 0x21 [] State.reset = answer 0x21 .ok [some 1, some 1] := by decide
theorem test_swapBanks_stays_in_execution :
    (let t := afterCell 0x22 [] State.reset
     t.route.active = true ∧ t.mgmt.reportQueue = []
       ∧ (after .swapBanksCompletion t).mgmt.reportQueue = answer 0x22 .ok [some 1, some 0]) := by decide
theorem test_setDefaultAction : replies 0x23 [given 1] State.reset = answer 0x23 .ok [some 1] := by decide
theorem test_writeProgramme : replies 0x24 [given 12, given 1, given 3012] State.reset = answer 0x24 .ok [some 1, some 0] := by
  decide
theorem test_writeProgramme_label_4088 : replies 0x24 [given 12, given 1, given 4088] State.reset = answer 0x24 .range [] := by
  decide
theorem test_clearProgramme_of_an_owned_one :
    replies 0x25 [given 63] (programmed [(63, { valid := true, output := some 0, owner := some 1 })] State.reset)
      = answer 0x25 .busy [] := by decide
theorem test_setFeedPolicy_is_clamped :
    replies 0x26 [missing, given 0, given 11] State.reset = answer 0x26 .ok [some 1, some 10, some 0] := by decide
theorem test_selectFeed_with_no_feed : replies 0x27 [given 1] State.reset = answer 0x27 .notReady [] := by decide
/-- A code in no table. -/
theorem test_unknown_code : replies 0x46 [] State.reset = answer 0x46 .badCommand [] := by decide

/-! The worked sequence of chapter 8. -/

/-- Segment 40 over blocks 100 to 103. -/
def advert : Segment := { state := .empty, firstBlock := 100, blocks := 4 }

/-- Event 1. -/
theorem test_defineSegment : replies 0x30 [given 40, given 100, given 4] State.reset = answer 0x30 .ok [some 8188] := by decide
/-- Event 2. -/
theorem test_defineSegment_overlap :
    replies 0x30 [given 41, given 103, given 2] (segmented [(40, advert)] State.reset) = answer 0x30 .overlap [] := by decide
theorem test_releaseSegment_in_use :
    replies 0x31 [given 40] (segmented [(40, { advert with state := .ready, uses := 1 })] State.reset)
      = answer 0x31 .busy [] := by decide
/-- Event 4. -/
theorem test_startFill :
    replies 0x32 [given 0, given 40, given 2, given 1801, given 1802] (segmented [(40, advert)] State.reset)
      = answer 0x32 .ok [some 1024, some 2] := by decide
/-- Event 5, for the cue label alone. -/
theorem test_startFill_cue_label :
    replies 0x32 [given 1, given 41, given 2, given 1802, given 3012]
        (programmed [(12, { valid := true, output := some 1, cueLabel := some 3012 })]
          (segmented [(41, { state := .empty, firstBlock := 104, blocks := 1 })] State.reset))
      = answer 0x32 .labelConflict [] := by decide

/-- Context 0 fills segment 40, which holds 700 packets. -/
def filling : State :=
  { State.reset with store := { State.reset.store with
      segments := [(40, { advert with state := .filling, packets := 700, a0 := some 1000000000000, errors := 1 })]
      contexts := #v[some { segment := 40, labels := [1801, 1802], continuity := [] }, none] } }

/-- Event 11. -/
theorem test_sealFill : replies 0x33 [given 0] filling = answer 0x33 .ok [some 40, some 700, some 1000000000000] := by decide
theorem test_abortFill :
    segment (afterCell 0x34 [given 0] filling) 40 = advert ∧ replies 0x34 [given 1] filling = answer 0x34 .state [] := by decide
theorem test_segmentStatus :
    replies 0x35 [given 40] filling
      = answer 0x35 .ok [some 2, some 100, some 4, some 700, some 1000000000000, some 1, some 0, some 0] := by decide
/-- Event 9: sequence 8 after 6 with D clear, stored at the packet count. -/
theorem test_append_counts_a_skipped_sequence :
    (let f : Fill := { segment := 40, labels := [1801], continuity := [(1801, { last := 6, seen := true })] }
     let t := appendPacket 0 f { packetWith 1801 [] with seq := 8 } filling
     (segment t 40).packets = 701 ∧ (segment t 40).errors = 2 ∧ (t.store.dram.map Prod.fst) = [26300]) := by decide

/-! The Insertion Engine's commands. -/

theorem test_writePlayEntry_is_clamped :
    replies 0x40 [given 511, given 1023, given 17, missing] State.reset = answer 0x40 .ok [some 16, some 0] := by decide
theorem test_configureContext_with_a_label_twice :
    replies 0x41 [given 3, given 12, given 4, given 0, missing, given 20000, given 0, given 0, given 2,
        given (1801 * 4096 + 410), given (1801 * 4096 + 411)] State.reset = answer 0x41 .duplicate [] := by decide
theorem test_startContext_without_its_programme : replies 0x42 [given 3] State.reset = answer 0x42 .notReady [] := by decide
theorem test_stopContext_halted :
    replies 0x43 [given 15] (playing { state := .halted }) = answer 0x43 .ok [some 0] := by decide
theorem test_wakeContext_idle : replies 0x44 [given 15] State.reset = answer 0x44 .state [] := by decide
theorem test_contextStatus_out_of_range : replies 0x45 [given 16] State.reset = answer 0x45 .range [] := by decide
/-! The other steps of the Management Unit. -/

/-- A HOLD of 1 ms that has run for all but 5 ticks. -/
def timedHold : Hold :=
  { frame := none, context := none, store := none, seconds := some 9, timeout := 1, elapsed := 19995 }

/-- A Management Unit in which that HOLD is in execution. -/
def holding : Management := { executing := some (cellWith 0x01 []), hold := some timedHold }

theorem test_holdTimeout :
    (let t := after .holdTimeout { clocked {} with mgmt := holding, pool := { port := busyPort } }
     t.clock.tick = 5 ∧ t.mgmt.reportQueue = answer 0x01 .holdTimeout [some 9, some 1, some 0]) := by decide
theorem test_abandonHold_without_a_hold :
    (after (.abandonHold (cellWith 0x02 [])) { State.reset with pool := { port := busyPort } }).mgmt.reportQueue
      = answer 0x02 .ok [] := by decide

/-! ### The Route Decoder: the worked example of chapter 4 -/

/-- Bank 1 of the example, active, with the default action MONITOR and a busy monitor port. -/
def smallBank : State :=
  { State.reset with
    route := { bank1 := [
        (0, { valid := true, value := 256, mask := 0xF, exclude := 0x8000, outputs := 1, programme := some 5 }),
        (1, { valid := true, value := 300, outputs := 0x16, rewrite := some 1300 }),
        (2, { valid := true, value := 260, outputs := 8 }),
        (3, { valid := true, input := .localPort, value := 1024, mask := 0x3FF, outputs := 4, programme := some 9 }),
        (4, { valid := true, value := 700 })], active := true, defaultAction := .monitor }
    pool := { port := busyPort }
    progs := { records := [(5, { valid := true, output := some 0 })] } }

/-- Row 3: entries 0 and 2 match label 260. -/
theorem test_decode_conflict :
    (let t := decodePacket .feed (packetWith 260 []) smallBank
     t.mgmt.flags = 0x4000 ∧ t.route.counters = { feedDecoded := 1, conflicts := 1, defaultMonitorCopies := 1 }
       ∧ t.pool.monitorQueue.length = 1) := by decide

/-- Row 4: outputs 1 and 2 with label 1300, and M with the label as it arrived. -/
theorem test_decode_plain_copies :
    (let t := decodePacket .feed (packetWith 300 []) smallBank
     t.route.counters = { feedDecoded := 1, plainCopies := 2, routeMonitorCopies := 1 }
       ∧ t.outs[(1 : Fin 4)].queue.map Entry.label = [1300] ∧ t.outs[(2 : Fin 4)].queue.map Entry.label = [1300]
       ∧ t.pool.buffers.map (fun e => (e.2.refs, e.2.contents.map Packet.label)) = [(3, some 300)]) := by decide

/-- Row 5: a programme that is not valid makes plain copies. -/
theorem test_decode_unbound_programme :
    (decodePacket .localPort (packetWith 1500 []) smallBank).route.counters
      = { localDecoded := 1, plainCopies := 1, unboundProgrammes := 1 } := by decide

/-! ### The Emission Schedulers: the worked sequence of chapter 6, in ticks from second 0 -/

/-- A record of the sequence: five slots at 8,000,000 bit/s. -/
def fiveSlots (n : FrameNo) (release : Int) : FrameRecord :=
  { number := n, length := 5, target := release - 150000, release := release, rate := 8000000, interval := 3200, rem := 0
    tooEarly := false }

/-- Output 3 in a second whose tick is given. -/
def scheduling (tick : Nat) (o : Output) : State := { emitting o with clock := { tick := tick, mode := .locked } }

/-- Event 7. -/
theorem test_acquisitionStart :
    (let o := (after (.acquisitionStart 3) (scheduling 350000
        { sync := .acquiring, waiting := true, frameQueue := [fiveSlots 700 350000]
          grid := some (gridFrom 24000000 349866) })).outs[(3 : Fin 4)]
     o.sync = .locked ∧ o.current.map (fun c => (c.start, c.displ)) = some (350000, 0) ∧ o.frameQueue = []
       ∧ o.counters.acquisitions = 1) := by decide

/-- Event 9: F - P = 50 is within the tolerance of 100, so 701 starts at P with E = -50. -/
theorem test_slotStart_within_tolerance :
    (let o := (after (.slotStart 3) (scheduling 366000
        { sync := .locked, frameQueue := [fiveSlots 701 366050], grid := some (gridFrom 8000000 366000)
          current := some { record := fiveSlots 700 350000, start := 350000, slot := 5, displ := 0, late := false } })).outs[(3 : Fin 4)]
     o.current.map (fun c => (c.start, c.displ, c.slot)) = some (366000, -50, 1) ∧ o.position = some (701, 0)) := by decide

/-- Event 11: F - P = -400, so 702 is late. -/
theorem test_slotStart_late_frame :
    (let t := after (.slotStart 3) (scheduling 382000
        { sync := .locked, frameQueue := [fiveSlots 702 381600], grid := some (gridFrom 8000000 382000)
          current := some { record := fiveSlots 701 366050, start := 366000, slot := 5, displ := -50, late := false } })
     t.outs[(3 : Fin 4)].lateCount = 1 ∧ t.outs[(3 : Fin 4)].current.map Current.late = some true ∧ t.mgmt.flags = 0x0080) := by
  decide

theorem test_reanchorStart :
    (let o := (after (.reanchorStart 3) (scheduling 349900
        { sync := .locked, waiting := true, frameQueue := [fiveSlots 700 350000], grid := some (gridFrom 24000000 349866)
          lateCount := 3 })).outs[(3 : Fin 4)]
     o.sync = .locked ∧ o.current.map (fun c => (c.start, c.displ)) = some (350000, 0) ∧ o.lateCount = 0
       ∧ o.counters.reAnchors = 1) := by decide

/-- R97: with record 705 in the frame queue, the flush stops at the entry 705/4, which is being sent; with record 706 alone,
that entry belongs to none, and stays for its slot alone. -/
theorem test_acquiring_flushes_what_belongs_to_no_record :
    (let entry := fun x : Point => ({ buffer := 0, point := some x, programme := none, label := 9 } : Entry)
     let queueAfter := fun n : FrameNo => (enterAcquiring 3 (emitting {
       frameQueue := [fiveSlots n 350000], slot := some { remaining := 7, sends := true }
       queue := [entry (705, 4), entry (706, 0)] })).outs[(3 : Fin 4)].queue.map Entry.point
     queueAfter 705 = [some (705, 4), some (706, 0)] ∧ queueAfter 706 = [some (705, 4), some (706, 0)]
       ∧ queueAfter 707 = [some (705, 4)]) := by decide +kernel

/-- R166: a jump in which frame 100 begins and then frame 40000 ends a HOLD on frame 100, which 40000 alone would not. -/
theorem test_hold_is_tested_at_each_frame_of_a_jump :
    (let s : State := { scheduling 20000
       { sync := .locked, frameQueue := [fiveSlots 100 1000, fiveSlots 40000 17000], grid := some (gridFrom 8000000 1000) } with
         mgmt := { holding with hold := some { timedHold with seconds := none, frame := some (3, 100) } } }
     (jumpOutput 20000 3 s).outs[(3 : Fin 4)].lastBegun = some 40000 ∧ (jumpOutput 20000 3 s).mgmt.hold = none) := by
  decide +kernel

/-- Context 15 on programme 0, which it owns and which output 3 carries, while the other outputs are muted. -/
def breaking (o : Output) (x : Context) : State :=
  { programmed [(0, { valid := true, output := some 3, owner := some 15 })] (playing x) with outs := quiet.set 3 o }

/-- R154, R155: the slot that brings the countdown from 1 to 0 ends the break, in its own step. -/
theorem test_slotStart_ends_the_break :
    (let t := after (.slotStart 3) (breaking { grid := some resetGrid } { state := .active, countdown := 1 })
     (context t 15).state = .idle ∧ (programme t 0).owner = none ∧ t.mgmt.flags = 0x0800) := by decide

/-- R155: BREAK_END lets the two slots that the break has left come about; it then rearms. -/
theorem test_breakEnd_rearms :
    (let t := after .breakEnd (breaking { grid := some resetGrid } { state := .active, rearm := true, countdown := 2 })
     (context t 15).state = .armed ∧ (context t 15).completed = 1 ∧ t.outs[(3 : Fin 4)].counters.fillSlots = 2) := by
  decide +kernel

/-- R154, R166: in a jump the last slot of frame 100 ends the break of context 15, and then frame 40000 begins: a HOLD on
frame 100 and on context 15 ends between the two. -/
theorem test_hold_is_tested_between_a_break_end_and_the_next_frame :
    (let frame : Current := { record := fiveSlots 100 1000, start := 1000, slot := 4, displ := 0, late := false }
     let s : State := { breaking { sync := .locked, current := some frame, lastBegun := some 100
                                   grid := some (gridFrom 8000000 13800), frameQueue := [fiveSlots 40000 17000] }
                          { state := .active, countdown := 1 } with
         clock := { tick := 20000, mode := .locked }
         mgmt := { holding with hold := some { timedHold with seconds := none, frame := some (3, 100), context := some 15 } } }
     (jumpOutput 20000 3 s).outs[(3 : Fin 4)].lastBegun = some 40000 ∧ (jumpOutput 20000 3 s).mgmt.hold = none) := by
  decide +kernel

/-- R166: an edge with a pending value begins second 508, and the jump of site time then begins frame 40000: a HOLD on frame
100 and on second 508 ends between the two. -/
theorem test_hold_is_tested_before_the_jump_of_an_edge :
    (let s : State := { emitting { sync := .locked, lastBegun := some 100, grid := some (gridFrom 8000000 10159999100)
                                   frameQueue := [fiveSlots 40000 10159999500] } with
         clock := { seconds := 507, tick := 19999000, mode := .locked, pendingSeconds := some 508 }
         mgmt := { holding with hold := some { timedHold with seconds := some 508, frame := some (3, 100) } } }
     let t := after (.pulseEdge 0) s
     t.clock.seconds = 508 ∧ t.outs[(3 : Fin 4)].lastBegun = some 40000 ∧ t.mgmt.hold = none) := by decide +kernel

/-- An output that is sending the entry at the head of its delay queue. -/
def sendingOutput : Output :=
  { slot := some { remaining := 7, sends := true }
    grid := some (gridFrom 24000000 7)
    queue := [{ buffer := 4, point := none, programme := none, label := 9 }] }

/-- Its state, with the entry's buffer. -/
def sendingState : State :=
  { scheduling 0 sendingOutput with pool := { buffers := [(4, { refs := 1, contents := some fillPacket })] } }

/-- The entry leaves at its slot's end, and its buffer with it (R75). -/
theorem test_slotEnds_releases :
    (let t := after (.slotEnds 3) sendingState
     t.clock.tick = 7 ∧ t.outs[(3 : Fin 4)].queue = [] ∧ t.pool.buffers = [] ∧ t.pool.counters.emissionReleases = 1) := by
  decide +kernel

theorem test_monitorPacketSent_takes_the_oldest_report :
    (let t := after .monitorPacketSent { State.reset with
        pool := { port := some { isCopy := false, packet := fillPacket, remaining := 0 } }
        mgmt := { reportQueue := answer 0x06 .ok [], sequence := 63 } }
     t.mgmt.reportQueue = [] ∧ t.mgmt.sequence = 0
       ∧ t.pool.port.map (fun x => (x.packet.label, x.packet.seq, x.remaining)) = some (4089, 63, 128)) := by decide

/-! ### The worked case of chapter 7: the activation at slot 6 -/

/-- Context 3 of the case. -/
def spliceContext : Context :=
  { state := .armed, programme := 12, priority := 4, lead := 20000, chainHead := 9
    splice := some { point := (9000, 6), duration := 2400, id := some 1 } }

/-- Programme 12 on output 1 with the tracker of slot 3, context 3 with its splice, and the head segment. -/
def spliceCase : State :=
  { State.reset with
    progs := { records := [(12, { valid := true, output := some 1, tracker := some (1099511627576, 6020142800) })] }
    store := { segments := [(40, { state := .ready, firstBlock := 100, blocks := 4, packets := 700, a0 := some 1000000000000 })] }
    engine := { entries := [(9, { segment := some 40 })], contexts := (Vector.replicate 16 {}).set 3 spliceContext } }

theorem test_activation_works_the_offset :
    (let t := activate 1 (9000, 6) 6020146000 spliceCase
     (context t 3).state = .active ∧ (context t 3).offset = 99511650776 ∧ (context t 3).countdown = 2400
       ∧ (programme t 12).owner = some 3 ∧ (programme t 12).discontinuity = true ∧ (segment t 40).uses = 1) := by decide

/-- The first stored packet goes out with 23,000 and D set. -/
theorem test_first_advert_packet :
    (let p := advertPacket (activate 1 (9000, 6) 6020146000 spliceCase) 12 99511650776
        (withSample { packetWith 1801 [0, 0, 0, 0, 0] with c := true } 1000000000000) 410
     clockSample p = 23000 ∧ p.d = true ∧ p.label = 410) := by decide

/-! ### The Feed Intake Unit -/

/-- The 160 bytes of a packet with a header and the start of its payload. -/
def arriving (header payload : List Byte) : List Byte :=
  header ++ payload ++ List.replicate (160 - header.length - payload.length) 0

/-- Chapter 3, event 12: B's timing packet for the target frame. -/
theorem test_packetArrives_ends_a_handover :
    (let t := after (.packetArrives 0 .b (arriving [0x5A, 0xFF, 0xA0, 0x00] [0x11, 0x3B, 0, 0x07, 0xD0]))
        { fed { portA := { alignment := .up }, portB := { alignment := .up, lossTimer := some 9 }
                selection := .handoverTo .b
                handover := { oldFeed := some .a, phase := .stopped, target := .frame 4411 } } with outs := quiet }
     t.feed.selection = .active .b ∧ t.feed.feedB.currentFrame = some 4411 ∧ t.mgmt.flags = 0x0004
       ∧ t.feed.portB.lossTimer = some 0) := by decide +kernel

/-- Chapter 3, event 1: label 301, sequence 14 after 12. -/
theorem test_packetArrives_continuity_error :
    (let t := after (.packetArrives 0 .a (arriving [0x5A, 0x12, 0xD0, 0xE0] []))
        (fed { portA := { alignment := .up }, selection := .active .b
               feedA := { continuity := [(301, { last := 12, seen := true })] } })
     t.feed.feedA.continuityErrors = 1 ∧ t.feed.feedA.erroredMark = true
       ∧ t.feed.feedA.continuity = [(301, { last := 14, seen := true })]) := by decide +kernel

theorem test_byteArrives_begins_the_search :
    (after (.byteArrives 0 .l 0x12) State.reset).feed.portL
      = { alignment := .seeking, lossTimer := some 0, search := [0x12] } := by decide

theorem test_lossTimerExpiry_in_seeking :
    (let t := after (.lossTimerExpiry .b) (fed { portB := { alignment := .seeking, lossTimer := some 639999 } })
     t.feed.portB.alignment = .down ∧ t.feed.seekingTimeouts = 1 ∧ t.clock.tick = 1) := by decide

/-! ### Resets -/

theorem test_powerOn : after .powerOn filling = State.reset := by decide
theorem test_resetPin :
    (after .resetPin (clocked { seconds := 9 })).clock.seconds = 0
      ∧ (after .resetPin (clocked { seconds := 9 })).mgmt.resetCause = .resetPin := by decide

/-! ### Witnesses: for each statement with hypotheses, states and operands that meet them, clause by clause -/

/-- Output 0's first slot is due right after reset; nothing is due one tick before the second's last, and at its last. -/
theorem witness_IdlePartLetsOneTickPass :
    (State.reset.pending = [] ∧ dueEvent State.reset = some (.slotStart 0))
      ∧ ((clocked { tick := 19999998 }).pending = [] ∧ dueEvent (clocked { tick := 19999998 }) = none
        ∧ (clocked { tick := 19999998 }).clock.tick + 1 < 20000000)
      ∧ ((clocked { tick := 19999999 }).pending = [] ∧ dueEvent (clocked { tick := 19999999 }) = none
        ∧ (clocked { tick := 19999999 }).clock.tick + 1 = 20000000) := by decide

/-- A slot that is due, after which nothing is; and two ticks that cross a second boundary one tick off. -/
theorem witness_ArrivalsComeAfterTheirWait :
    (let s := emitting { grid := some resetGrid }
     dueEvent s = some (.slotStart 3) ∧ ∃ t, exec (.slotStart 3) s = .next t ∧ dueEvent t = none)
      ∧ (let s := clocked { tick := 19999999 }
         dueEvent s = none ∧ 0 < timeToNext s ∧ timeToNext s < 2) := by
  refine ⟨⟨by decide, after (.slotStart 3) (emitting { grid := some resetGrid }), rfl, by decide +kernel⟩, by decide⟩

theorem witness_SiteResetKeepsTimeAndRecords :
    (let s := segmented [(1023, { advert with state := .filling })]
       (programmed [(63, { valid := true, output := some 0, owner := some 15 })] State.reset)
     accepted 0x09 (cellWith 0x09 []) [] (asked (cellWith 0x09 []) s)
       ∧ tableWf {} s.progs.records = true ∧ tableWf {} s.store.segments = true) :=
  ⟨asked_accepted 0 rfl rfl, rfl, rfl⟩

/-- The tick that makes 1 ms since the loss; the one before it, with no wait right after reset; and REF10 PRESENT. -/
theorem witness_Ref10RestoredChangesNoClockState :
    (let s := clocked { mode := .holdover, holdoverSeconds := 63, absentTicks := 19999 }
     s.clock.tick + 1 < 20000000 ∧ clearFor 1 s ∧ s.clock.ref10 = false ∧ 20000 ≤ (clockAfter 1 s.clock).absentTicks)
      ∧ (State.reset.clock.tick + 0 < 20000000 ∧ clearFor 0 State.reset
        ∧ (clockAfter 0 State.reset.clock).absentTicks < 20000)
      ∧ (let s := clocked { ref10 := true }
         s.clock.tick + 19999999 < 20000000 ∧ clearFor 19999999 s ∧ s.clock.ref10 = true) := by
  unfold clearFor; decide

/-- A gap one tick before 1 ms has passed; and REF10 PRESENT in EXPIRED and in LOCKED. -/
theorem witness_Ref10LostSendsALockedClockToHoldover :
    (clocked { absentTicks := 19999 }).clock.ref10 = false
      ∧ ((clocked { ref10 := true, mode := .expired }).clock.ref10 = true
        ∧ (clocked { ref10 := true, mode := .expired }).clock.mode ≠ .locked)
      ∧ ((clocked { ref10 := true, mode := .locked }).clock.ref10 = true
        ∧ (clocked { ref10 := true, mode := .locked }).clock.mode = .locked) := by decide

/-- A LOCKED clock with the step limit 20. -/
def lockedAt (tick outliers : Nat) : State := clocked { tick := tick, outliers := outliers, mode := .locked }

/-- The error of an edge, as R19 gives it. -/
def errorAt (tick : Nat) : Int := if tick < 10000000 then (tick : Int) else (tick : Int) - 20000000

/-- Outliers 3; an error of 0; of 20, -20, 21, -21 and -10,000,000 ticks against the limit 20. An error of -20 adds a second, as
does one of -10,000,000 after three outliers; errors of 20 and of -21 do not. -/
theorem witness_PulseEdgeInLockedGoesByItsError :
    (∀ tick outliers, tick < 20000000 → (lockedAt tick outliers).clock.mode = .locked
        ∧ (lockedAt tick outliers).clock.pendingSeconds = none ∧ tickInSecond (lockedAt tick outliers))
      ∧ 3 ≤ (lockedAt 0 3).clock.outliers ∧ (lockedAt 0 2).clock.outliers ≤ 2 ∧ errorAt 0 = 0
      ∧ (errorAt 20).natAbs ≤ (lockedAt 20 2).clock.stepLimit ∧ (errorAt 19999980).natAbs ≤ (lockedAt 0 2).clock.stepLimit
      ∧ (lockedAt 21 2).clock.stepLimit < (errorAt 21).natAbs ∧ (lockedAt 0 2).clock.stepLimit < (errorAt 19999979).natAbs
      ∧ errorAt 10000000 = -10000000
      ∧ ((errorAt 19999980).natAbs ≤ 20 ∧ errorAt 19999980 < 0) ∧ (3 ≤ (lockedAt 10000000 3).clock.outliers ∧ errorAt 10000000 < 0)
      ∧ ¬errorAt 20 < 0 ∧ ¬((3 : Nat) ≤ 2 ∨ (errorAt 19999979).natAbs ≤ 20) :=
  ⟨fun _ _ h => ⟨rfl, rfl, h⟩, by decide⟩

/-- A clock in a state, with REF10 PRESENT, and output 3 in HOLDOVER. -/
def awaitingEdge (mode : ClockMode) (tick : Nat) (v : Option (BitVec 32)) : State :=
  { clocked { mode := mode, ref10 := true, tick := tick, pendingSeconds := v } with
    outs := quiet.set 3 { sync := .holdover, grid := none } }

/-- Returns to LOCKED at the last early tick and the first, with an output that follows and others that do not; edges that do
not count; and pending values in FREE, in HOLDOVER and in EXPIRED. -/
theorem witness_PulseEdgeOutsideLockedOrWithAPendingValue :
    (∀ mode ∈ [ClockMode.holdover, .expired], ∀ tick ∈ [9999999, 10000000, 19999999],
      (let s := awaitingEdge mode tick none
       s.clock.mode ≠ .locked ∧ s.clock.mode ≠ .free ∧ s.clock.pendingSeconds = none ∧ s.clock.tick < 20000000
         ∧ s.clock.ref10 = true ∧ s.outs[(3 : Fin 4)].sync = .holdover ∧ s.outs[(0 : Fin 4)].sync ≠ .holdover))
      ∧ (clocked { mode := .free, ref10 := true }).clock.mode = .free
      ∧ (clocked { mode := .holdover }).clock.ref10 = false
      ∧ ((clocked { pendingSeconds := some 0xFFFFFFFF }).clock.pendingSeconds = some 0xFFFFFFFF
        ∧ (clocked { pendingSeconds := some 0xFFFFFFFF }).clock.mode = .free)
      ∧ (∀ mode ∈ [ClockMode.holdover, .expired],
        (let s := awaitingEdge mode 5 (some 0)
         s.clock.pendingSeconds = some 0 ∧ s.clock.ref10 = true ∧ s.clock.mode = mode ∧ s.outs[(3 : Fin 4)].sync = .holdover)) := by
  decide

theorem witness_PulseWatchExpiresIntoHoldover :
    (let s := clocked { mode := .locked, tick := 19999999, pulseWatch := some 20399999 }
     tickInSecond s ∧ s.clock.mode = .locked ∧ s.clock.pulseWatch = some 20399999 ∧ clearFor (20400000 - 20399999) s) := by
  unfold tickInSecond clearFor; decide +kernel

/-- The last tick of a second with feed A taken, which closes its third errored second in a row; feed B has been clean for
some seconds before this one. -/
def qualityCase (clean : Nat) : State :=
  { clocked { tick := 19999999 } with feed := {
      portA := { alignment := .up }, portB := { alignment := .up }, selection := .active .a
      feedA := { erroredMark := true, erroredRun := 2 }, feedB := { upThroughout := true, cleanRun := clean } } }

/-- The quality cause with the other feed's clean run at the errored run, and one below it. -/
theorem witness_SecondBoundaryClosesTheSecond_quality :
    (∀ clean ∈ [1, 2],
      (let s := qualityCase clean
       tickInSecond s ∧ clearFor (20000000 - s.clock.tick) s ∧ s.feed.selection = .active .a ∧ s.feed.mode = .auto
         ∧ s.feed.threshold ≤ min (2 + 1) 65535 ∧ (portState s.feed (feedPort .b)).alignment = .up))
      ∧ min (2 + 1) 65535 ≤ min (2 + 1) 65535 ∧ ¬min (2 + 1) 65535 ≤ min (1 + 1) 65535 := by
  unfold tickInSecond clearFor; decide

/-- The last tick of a second in FREE; in a HOLDOVER of 62 s, and in one of 63 s, which the boundary brings to its limit. -/
theorem witness_SecondBoundaryClosesTheSecond :
    (∀ mode ∈ [ClockMode.free, .holdover], ∀ n ∈ [62, 63],
      (let s := clocked { mode := mode, tick := 19999999, holdoverSeconds := n }
       tickInSecond s ∧ clearFor (20000000 - s.clock.tick) s ∧ s.clock.mode = mode))
      ∧ 62 + 1 < 2 ^ (clocked {}).clock.holdoverExp ∧ 2 ^ (clocked {}).clock.holdoverExp ≤ 63 + 1 := by
  unfold tickInSecond clearFor; decide

/-- A HOLDOVER of 63 s in its second's last tick, with two outputs in HOLDOVER, one for each fallback. -/
def holdoverEnding (seconds : BitVec 32) : State :=
  { clocked { seconds := seconds, mode := .holdover, tick := 19999999, holdoverSeconds := 63 } with
    outs := (quiet.set 2 { sync := .holdover, grid := none }).set 3 { sync := .holdover, fallback := .freeRun, grid := none } }

/-- Outside HOLDOVER; and in HOLDOVER in the last second before the wrap and in the one before it. -/
theorem witness_HoldoverExpiryTakesTheFallback :
    (tickInSecond (clocked {}) ∧ (clocked {}).clock.mode ≠ .holdover)
      ∧ (∀ v : BitVec 32, v = 4294967294 ∨ v = 4294967295 →
        tickInSecond (holdoverEnding v) ∧ (holdoverEnding v).clock.mode = .holdover
          ∧ 2 ^ (holdoverEnding v).clock.holdoverExp ≤ (holdoverEnding v).clock.holdoverSeconds + 1
          ∧ clearFor (20000000 - (holdoverEnding v).clock.tick) (holdoverEnding v) ∧ (holdoverEnding v).clock.seconds = v
          ∧ (holdoverEnding v).outs[(2 : Fin 4)].sync = .holdover ∧ (holdoverEnding v).outs[(3 : Fin 4)].sync = .holdover) := by
  unfold tickInSecond clearFor
  refine ⟨by decide, ?_⟩
  rintro v (rfl | rfl) <;> exact ⟨by decide, rfl, by decide, .inr ⟨by decide, by decide⟩, rfl, rfl, rfl⟩

/-- A seconds value above 32 bits; an exponent of 13, taken as 12, with 4,095 s of HOLDOVER and with 4,096. -/
theorem witness_SetSecondsAndSetClockPolicySetTheirFields :
    (accepted 0x10 (cellWith 0x10 [given 4294967296]) [] (asked (cellWith 0x10 [given 4294967296]) State.reset)
        ∧ carries (cellWith 0x10 [given 4294967296]) 0 4294967296)
      ∧ (let c := cellWith 0x11 [given 1001, given 13]
         let s := clocked { mode := .holdover, holdoverSeconds := 4095 }
         accepted 0x11 c [] (asked c s) ∧ carriesOpt c 0 (some 1001) ∧ carriesOpt c 1 (some 13)
           ∧ s.clock.holdoverSeconds < 2 ^ min 12 13)
      ∧ (let c := cellWith 0x11 [missing, given 12]
         let s := clocked { mode := .holdover, holdoverSeconds := 4096 }
         accepted 0x11 c [] (asked c s) ∧ carriesOpt c 0 none ∧ carriesOpt c 1 (some 12)
           ∧ 2 ^ min 12 12 ≤ s.clock.holdoverSeconds) :=
  ⟨⟨asked_accepted 1 rfl rfl, rfl, rfl⟩, ⟨asked_accepted 1 rfl rfl, ⟨rfl, rfl⟩, ⟨rfl, rfl⟩, by decide⟩,
    ⟨asked_accepted 1 rfl rfl, rfl, ⟨rfl, rfl⟩, by decide⟩⟩

/-- 64 cells and 63 cells wait; a command is in execution; 32 report cells; no cell; another row's cell, which is no unknown
one. -/
theorem witness_CellWaitsInTheControlQueue :
    (Instr.contextStatus ∈ commandRows.map Prod.snd ++ [.unknownCodeCell]
        ∧ Instr.unknownCodeCell ∈ commandRows.map Prod.snd ++ [.unknownCodeCell])
      ∧ 64 ≤ (managed { controlQueue := List.replicate 64 (cellWith 6 []) }).mgmt.controlQueue.length
      ∧ (0x45, Instr.contextStatus) ∈ commandRows
      ∧ (cellWith 0x45 []).code ≠ 0x02 ∧ (managed { controlQueue := List.replicate 63 (cellWith 6 []) }).mgmt.controlQueue.length < 64
      ∧ (managed holding).mgmt.executing ≠ none
      ∧ 32 ≤ (managed { reportQueue := List.replicate 32 (.event 1 0 0) }).mgmt.reportQueue.length
      ∧ State.reset.mgmt.controlQueue = [] ∧ (cellWith 0x44 []).code ≠ 0x45
      ∧ (asked (cellWith 0x45 []) State.reset).mgmt.controlQueue = [cellWith 0x45 []] ∧ (cellWith 0x45 []).code = 0x45
      ∧ (cellWith 0x45 []).originator.toNat < 64 := by
  refine ⟨⟨by simp [commandRows], by simp⟩, ?_, by simp [commandRows], by decide, ?_, by decide, ?_, rfl, by decide,
    rfl, rfl, by decide⟩
  all_goals simp [managed]

/-- Originator 64; a code in no table; a group without grants. -/
theorem witness_AcceptanceChecksDecideTheReply :
    (let c : Cell := { cellWith 0x06 [] with originator := 64 }
     takeable c [] (asked c State.reset) ∧ 64 ≤ c.originator.toNat)
      ∧ takeable (cellWith 0x0A []) [] (asked (cellWith 0x0A []) State.reset) ∧ groupOf (cellWith 0x0A []).code = none
      ∧ (let s := asked (cellWith 0x45 []) (managed { grants := Vector.replicate 5 { any := false } })
         takeable (cellWith 0x45 []) [] s ∧ groupOf (cellWith 0x45 []).code = some 4 ∧ ¬granted s 4 5) :=
  ⟨⟨⟨rfl, rfl, by decide⟩, by decide⟩, ⟨rfl, rfl, by decide⟩, rfl,
    ⟨rfl, rfl, by decide⟩, rfl, by unfold granted; decide⟩

/-- A HOLD in force on site seconds 9, with every kind of condition it can name besides: in second 9, and in second 8. -/
theorem witness_HoldStaysUntilItsConditionsAreTrue_test :
    (let h : Hold := { timedHold with frame := some (3, 65535), context := some 15, store := some 1 }
     let s := fun n : BitVec 32 => { emitting { lastBegun := some 32766 } with
       clock := { seconds := n }, mgmt := { holding with hold := some h } }
     (s 9).mgmt.hold = some h ∧ (s 9).mgmt.executing = some (cellWith 0x01 []) ∧ holdConditionsTrue h (s 9)
       ∧ ¬holdConditionsTrue h (s 8)) ∧ State.reset.mgmt.hold = none := by
  refine ⟨⟨rfl, rfl, ⟨?_, ?_, ?_, ?_⟩, ?_⟩, rfl⟩
  · rintro k n ⟨⟩; exact ⟨32766, rfl, by decide⟩
  · rintro x ⟨⟩; exact .inl rfl
  · rintro i ⟨⟩; rfl
  · rintro v ⟨⟩; exact Nat.le_refl _
  · intro h; exact absurd (h.2.2.2 9 rfl) (by decide)

/-- Every condition named and true, at the largest indices; and a seconds condition that is not yet true. -/
theorem witness_HoldStaysUntilItsConditionsAreTrue :
    (let c := cellWith 0x01 [given 3, given 65535, given 15, given 1, given 0, given 65536]
     let s := emitting { lastBegun := some 32766 }
     accepted 0x01 c [] (asked c s) ∧ carriesOpt c 0 (some 3) ∧ carriesOpt c 1 (some 65535) ∧ carriesOpt c 2 (some 15)
       ∧ carriesOpt c 3 (some 1) ∧ carriesOpt c 4 (some 0) ∧ carries c 5 65536
       ∧ conditionsTrue (asked c s) (some 3) (some 65535) (some 15) (some 1) (some 0))
      ∧ (let c := cellWith 0x01 [missing, missing, missing, missing, given 1, given 0]
         let s := asked c State.reset
         accepted 0x01 c [] s ∧ carriesOpt c 0 none ∧ carriesOpt c 1 none ∧ carriesOpt c 2 none ∧ carriesOpt c 3 none
           ∧ carriesOpt c 4 (some 1) ∧ carries c 5 0 ∧ ¬conditionsTrue s none none none none (some 1)) := by
  refine ⟨⟨asked_accepted 0 rfl rfl, ⟨rfl, rfl⟩, ⟨rfl, rfl⟩, ⟨rfl, rfl⟩, ⟨rfl, rfl⟩, ⟨rfl, rfl⟩, ⟨rfl, rfl⟩, ?_, ?_, ?_, ?_⟩,
    asked_accepted 0 rfl rfl, rfl, rfl, rfl, rfl, ⟨rfl, rfl⟩, ⟨rfl, rfl⟩, ?_⟩
  · rintro k n ⟨⟩ ⟨⟩; exact ⟨32766, rfl, by decide⟩
  · rintro x ⟨⟩; exact .inl rfl
  · rintro i ⟨⟩; rfl
  · rintro v ⟨⟩; exact Nat.zero_le _
  · intro h; exact absurd (h.2.2.2 1 rfl) (by decide)

theorem witness_HoldTimesOut :
    (let s : State := { clocked { tick := 19979999 } with mgmt := { holding with hold := some { timedHold with elapsed := 0 } } }
     s.mgmt.executing = some (cellWith 0x01 []) ∧ s.mgmt.hold = some { timedHold with elapsed := 0 } ∧ timedHold.timeout ≠ 0
       ∧ s.clock.tick + (timedHold.timeout * 20000 - 0) < 20000000 ∧ clearFor (timedHold.timeout * 20000 - 0) s) := by
  unfold clearFor
  refine ⟨rfl, rfl, ?_⟩; decide

/-- A Management Unit with a number of report cells, with or without grants, and with the HOLD in force or none. -/
def reporting (n : Nat) (any hold : Bool) : State :=
  managed { (if hold then holding else {}) with
    grants := Vector.replicate 5 { any := any }, reportQueue := List.replicate n (.event 1 0 0) }

theorem reporting_places (n : Nat) (any hold : Bool) : placesTaken (reporting n any hold) = n + if hold then 1 else 0 := by
  cases hold <;> simp [placesTaken, reporting, managed, holding]

/-- The place occupied; without grants and with them, each with 31 places taken and with 32, and without a HOLD and with one in
force; and an originator of 64. -/
theorem witness_AbandonHoldActsAtItsArrival :
    (cellWith 0x02 []).code = 0x02
      ∧ (managed { abandonReply := some (.event 1 0 0) }).mgmt.abandonReply ≠ none
      ∧ (∀ n hold, (reporting n true hold).mgmt.abandonReply = none ∧ granted (reporting n true hold) 0 63)
      ∧ (∀ n hold, (reporting n false hold).mgmt.abandonReply = none ∧ ¬granted (reporting n false hold) 0 63)
      ∧ ¬({ cellWith 0x02 [] with originator := 64 } : Cell).originator.toNat < 64
      ∧ (∀ n any, (reporting n any false).mgmt.hold = none)
      ∧ (∀ n any, (reporting n any true).mgmt.hold = some timedHold ∧ (reporting n any true).mgmt.executing = some (cellWith 0x01 []))
      ∧ (∀ any, placesTaken (reporting 31 any false) < 32 ∧ 32 ≤ placesTaken (reporting 32 any false))
      ∧ (∀ any, placesTaken (reporting 30 any true) < 32 ∧ 32 ≤ placesTaken (reporting 31 any true)) := by
  refine ⟨rfl, by decide, fun n h => ⟨by cases h <;> rfl, .inl rfl⟩, fun n h => ⟨by cases h <;> rfl, ?_⟩, by decide, fun _ _ => rfl,
    fun _ _ => ⟨rfl, rfl⟩, fun any => ?_, fun any => ?_⟩
  · have e : (reporting n false h).mgmt.grants = Vector.replicate 5 { any := false } := by cases h <;> rfl
    unfold granted
    rw [e]
    decide
  · simp only [reporting_places]; decide
  · simp only [reporting_places]; decide

theorem witness_SetGrantsReplacesOneGroup :
    (let c := cellWith 0x03 [given 4, given 4294967295, given 4294967295, given 1]
     accepted 0x03 c [] (asked c State.reset) ∧ carriesAll c 0 [4, 4294967295, 4294967295, 1]) :=
  ⟨asked_accepted 0 rfl rfl, ⟨rfl, rfl⟩, ⟨rfl, rfl⟩, ⟨rfl, rfl⟩, ⟨rfl, rfl⟩, trivial⟩

theorem witness_SetEventEnableAndAckEvents :
    (∀ v ∈ [65535, 65536], accepted 0x04 (cellWith 0x04 [given v]) [] (asked (cellWith 0x04 [given v]) State.reset)
        ∧ carries (cellWith 0x04 [given v]) 0 v)
      ∧ (∀ v ∈ [65535, 65536], accepted 0x05 (cellWith 0x05 [given v]) [] (asked (cellWith 0x05 [given v]) State.reset)
        ∧ carries (cellWith 0x05 [given v]) 0 v) := by
  constructor <;> intro v hv <;> refine ⟨asked_accepted 0 rfl rfl, rfl, ?_⟩ <;>
    (rcases List.mem_cons.mp hv with rfl | hv
     · rfl
     · rw [List.mem_singleton.mp hv]; rfl)

theorem witness_StatusReportsTwentyUnits :
    accepted 0x06 (cellWith 0x06 []) [] (asked (cellWith 0x06 []) State.reset) := asked_accepted 0 rfl rfl

theorem witness_ReadCountersChangesNoCount :
    ∀ v ∈ [0, 1, 2, 3, 4, 7, 8, 9, 10, 11, 12], accepted 0x07 (cellWith 0x07 [given v]) [] (asked (cellWith 0x07 [given v]) State.reset)
      ∧ carries (cellWith 0x07 [given v]) 0 v := by
  intro v hv
  refine ⟨asked_accepted 0 rfl rfl, ?_⟩
  exact carries_given _ (by revert v; decide)

theorem witness_ClearCountersSetsEveryCounterToZero :
    accepted 0x08 (cellWith 0x08 []) [] (asked (cellWith 0x08 []) State.reset) := asked_accepted 0 rfl rfl

/-- A flag that is set; not enabled; enabled with no free place; enabled with one place free beside the command in
execution. -/
theorem witness_FlagIsReportedOnceWhenEnabled :
    hasFlag (managed { flags := 0x8000 }).mgmt.flags .ppsOutlier = true
      ∧ hasFlag State.reset.mgmt.flags .ppsOutlier = false ∧ hasFlag State.reset.mgmt.enabled .ppsOutlier = false
      ∧ (let s := managed { holding with enabled := 0x8000, reportQueue := List.replicate 31 (.event 1 0 0) }
         hasFlag s.mgmt.enabled .ppsOutlier = true
           ∧ 32 ≤ s.mgmt.reportQueue.length + (if s.mgmt.executing.isSome then 1 else 0))
      ∧ (let s : State := { managed { holding with enabled := 1, reportQueue := List.replicate 30 (.event 1 0 0) } with
           pool := { port := busyPort } }
         hasFlag s.mgmt.enabled .feedADown = true
           ∧ s.mgmt.reportQueue.length + (if s.mgmt.executing.isSome then 1 else 0) < 32 ∧ s.pool.port = busyPort) := by
  refine ⟨by decide, by decide, by decide, ⟨by decide, ?_⟩, by decide, ?_, rfl⟩ <;> simp [managed, holding]

/-! #### The Feed Intake Unit -/

/-- DOWN; SEEKING with the four bytes at its back, and without; UP with 158 bytes of a packet. -/
theorem witness_ByteGoesByTheAlignmentOfItsPort :
    (portState (fed {}).feed .l).alignment = .down
      ∧ (let s := fed { portA := { alignment := .seeking, search := List.replicate 640 0x5A } }
         (portState s.feed .a).search[159]? = some 0x5A#8 ∧ (portState s.feed .a).search[319]? = some 0x5A#8
           ∧ (portState s.feed .a).search[479]? = some 0x5A#8 ∧ (portState s.feed .a).search[639]? = some 0x5A#8
           ∧ s.feed.selection = .noFeed)
      ∧ (portState (fed { portA := { alignment := .seeking, search := List.replicate 639 0x5A } }).feed .a).search[639]? ≠ some 0x5A#8
      ∧ (portState (fed { portL := { alignment := .up, assembly := List.replicate 158 0 } }).feed .l).assembly.length < 159 := by
  have h : ∀ i n, i < n → (List.replicate n (0x5A#8))[i]? = some 0x5A#8 := fun i n hi => by
    rw [List.getElem?_replicate, if_pos hi]
  refine ⟨rfl, ⟨h 159 640 (by decide), h 319 640 (by decide), h 479 640 (by decide), h 639 640 (by decide), rfl⟩, ?_, ?_⟩
  · show (List.replicate 639 (0x5A#8))[639]? ≠ some 0x5A#8
    rw [List.getElem?_replicate, if_neg (by decide)]; nofun
  · show (List.replicate 158 (0#8)).length < 159
    rw [List.length_replicate]; decide

/-- A good lead in one whole packet, at a feed's port and at port L; the last byte alone after a wrong lead, as the second and the third in a row. -/
theorem witness_PacketGoesByItsLead :
    (let s := fed { portB := { alignment := .up }, feedB := { continuity := [(0, { last := 5, seen := true })] } }
     (portState s.feed .b).alignment = .up
       ∧ (portState s.feed .b).assembly.length = 0 ∧ (0x5A#8 :: List.replicate 159 0).length = 160
       ∧ byteAt (0x5A#8 :: List.replicate 159 0) 0 = 0x5A ∧ feedPort .b = .b)
      ∧ (let s := fed { portL := { alignment := .up } }
         (portState s.feed .l).alignment = .up ∧ (portState s.feed .l).assembly = [])
      ∧ (∀ n ∈ [1, 2], (let s := fed { portA := { alignment := .up, wrongLeads := n, assembly := List.replicate 159 0 } }
         (portState s.feed .a).alignment = .up ∧ (portState s.feed .a).assembly.length + [0#8].length = 160
           ∧ byteAt ((portState s.feed .a).assembly ++ [0#8]) 0 ≠ 0x5A)) := by
  have h : ∀ (b : Byte) n, (b :: List.replicate n 0).length = n + 1 := fun b n => by simp
  refine ⟨⟨rfl, rfl, h 0x5A 159, rfl, rfl⟩, ⟨rfl, rfl⟩, fun n _ => ⟨rfl, ?_, ?_⟩⟩
  · show (List.replicate 159 (0#8)).length + 1 = 160
    rw [List.length_replicate]
  · have hb : ∀ k, byteAt (List.replicate (k + 1) (0#8) ++ [0#8]) 0 = 0#8 := fun _ => rfl
    have e : byteAt (List.replicate 159 (0#8) ++ [0#8]) 0 = 0#8 := hb 158
    exact fun x => absurd (e.symm.trans x) (by decide)

/-- The third wrong lead in a row at port A, in every selection state, phase and state of the other port, with a seen label. -/
theorem witness_PacketGoesByItsLead_leavesUp :
    ∀ x ∈ [Selection.active .a, .active .b, .noFeed, .handoverTo .a, .handoverTo .b], ∀ phase ∈ [OldPhase.running, .stopped],
      ∀ b ∈ [Machine.Alignment.up, .down],
      (let s := fed { portA := { alignment := .up, wrongLeads := 2 }, portB := { alignment := b }, selection := x
                      handover := { phase := phase, target := .any }
                      feedA := { continuity := [(301, { last := 9, seen := true })] } }
       (portState s.feed .a).alignment = .up ∧ 2 ≤ (portState s.feed .a).wrongLeads ∧ feedPort .a = .a
         ∧ s.feed.selection = x ∧ s.feed.handover.phase = phase
         ∧ (portState s.feed (feedPort (otherFeed .a))).alignment = b
         ∧ (tableGet {} (feedState s.feed .a).continuity 301).seen = true) := by decide

/-- A packet with a header of a label, and the first bytes of its payload. -/
def labelled (l : Nat) : Packet := packetWith (BitVec.ofNat 12 l) [0x11, 0x3B]

/-- The timing packet of frame 4411 from feed B: taken already; the target of a handover to B, at its own frame and with any
frame. From A, the old feed of a running handover, frame 4411 goes on and another frame's packet stops it. A packet from a
feed that is not taken is discarded, as is one of the new feed before the target. -/
theorem witness_PacketGoesByItsLead_gate :
    (timingOf (labelled 4090)).number = 4411
      ∧ ((fed { selection := .active .b }).feed.selection = .active .b ∧ (labelled 4090).label = 4090
        ∧ (labelled 301).label ≠ 4090)
      ∧ (∀ n : FrameNo, n = 4411 ∨ n = 4410 →
        (let s := fed { selection := .handoverTo .b, feedA := { currentFrame := some n }, handover := { phase := .running } }
         s.feed.selection = .handoverTo .b ∧ s.feed.handover.phase = .running ∧ (feedState s.feed .a).currentFrame = some n
           ∧ Feed.b ≠ Feed.a))
      ∧ (∀ target ∈ [Target.any, .frame 4411, .frame 4412],
        (let s := fed { selection := .handoverTo .b, handover := { phase := .stopped, target := target } }
         s.feed.selection = .handoverTo .b ∧ s.feed.handover.phase = .stopped ∧ s.feed.handover.target = target))
      ∧ frameAtOrAfter 4411 4411 = true ∧ frameAtOrAfter 4411 4412 = false := by
  refine ⟨by decide, by decide, ?_, by decide, by decide, by decide⟩
  rintro n (rfl | rfl) <;> decide

/-- Each label that sorting tells apart; label 3012, which is programme 12's cue label; and label 1801, which context 0
stores. -/
theorem witness_PacketGoesByItsLead_sorting :
    (let s := programmed [(12, { valid := true, output := some 1, cueLabel := some 3012 })] filling
     cueLabelsDistinct s ∧ tableWf {} s.progs.records = true ∧ (programme s 12).valid = true
       ∧ (programme s 12).cueLabel = some 3012 ∧ (3012 : Label).toNat < 4088 ∧ (1801 : Label).toNat < 4088
       ∧ s.store.contexts[(0 : Fin 2)].map Fill.labels = some [1801, 1802] ∧ s.store.contexts[(1 : Fin 2)] = none)
      ∧ (∀ l ∈ [300, 1801, 3012, 4087, 4088, 4089, 4090, 4091, 4094, 4095], (labelled l).label = BitVec.ofNat 12 l) := by
  refine ⟨⟨?_, rfl, rfl, rfl, by decide, by decide, rfl, rfl⟩, by intro l _; rfl⟩
  intro p q l hp hq _ _
  have h : ∀ r, (programme (programmed [(12, { valid := true, output := some 1, cueLabel := some 3012 })] filling) r).valid = true
      → r = 12 := by
    intro r hr
    rw [Machine.programme, programmed, show (({ filling with progs := { filling.progs with records :=
        [(12, { valid := true, output := some 1, cueLabel := some 3012 })] } } : State)).progs.records
        = [(12, { valid := true, output := some 1, cueLabel := some 3012 })] from rfl] at hr
    simp only [tableGet] at hr
    split at hr
    · cases hr
    · split at hr
      · omega
      · cases hr
  rw [h p hp, h q hq]

/-- No cue message; a cue out of avail 3 and its cancel, which an ARMED, an ACTIVE and no context is offered, with its point
ahead of programme 0's output and not. -/
theorem witness_PacketGoesByItsLead_cues :
    cueOf (packetWith 5 []) = none
      ∧ cueOf (packetWith 5 [0, 7, 1, 3, 0x23, 0x28, 0, 6, 0, 0x09, 0x60])
        = some (.out 3 { id := 7, point := (9000, 6), duration := 2400 })
      ∧ cueOf (packetWith 5 [0, 7, 2, 3]) = some (.cancel 3 7)
      ∧ (∀ state ∈ [ContextState.armed, .active],
        (let s := programmed [(0, { valid := true, output := some 3 })]
           { playing { state := state, filter := some 3, splice := some { point := (9000, 6), duration := 1, id := some 7 } } with
             outs := State.reset.outs.set 3 { sync := .locked, position := some (9000, 5) } }
         (context s 15).mode = .cue ∧ (context s 15).programme = 0 ∧ (context s 15).filter = some 3 ∧ (context s 15).state = state
           ∧ pointAheadOn s 0 (9000, 6) = true ∧ pointAheadOn s 0 (9000, 5) = false
           ∧ (context s 15).splice.bind (fun a => a.id) = some 7))
      ∧ (∀ x : Fin 16, (context State.reset x).mode = .cue ∧ (context State.reset x).programme = 0 ∧ (0 : Nat) ≠ 63) := by
  decide

/-- Port A's timer a tick before its limit of 32 ms, two ticks before the second's end, with a selection and a handover. -/
def losing (x : Selection) (phase : OldPhase) (b : Machine.Alignment) : State :=
  { fed { portA := { alignment := .up, lossTimer := some 639999 }, portB := { alignment := b }, selection := x
          handover := { phase := phase, target := .any } } with clock := { tick := 19999998 } }

/-- Port A in UP, in every selection state, with the old phase RUNNING and STOPPED, and with the other feed UP and DOWN; its
timer at the limit; and port L in SEEKING. -/
theorem witness_LossTimerTakesThePortDown :
    (∀ x ∈ [Selection.active .a, .active .b, .noFeed, .handoverTo .a, .handoverTo .b], ∀ phase ∈ [OldPhase.running, .stopped],
      ∀ b ∈ [Alignment.up, .down],
      (let s := losing x phase b
       (portState s.feed .a).lossTimer = some 639999 ∧ tickInSecond s ∧ clearFor (2 ^ s.feed.lossExp * 20000 - 639999) s
         ∧ s.clock.tick + (2 ^ s.feed.lossExp * 20000 - 639999) < 20000000 ∧ (portState s.feed .a).alignment = .up
         ∧ s.feed.selection = x ∧ s.feed.handover.phase = phase ∧ (portState s.feed (feedPort (otherFeed .a))).alignment = b))
      ∧ 2 ^ (fed {}).feed.lossExp * 20000 ≤ 640000
      ∧ (let s := fed { portL := { alignment := .seeking, lossTimer := some 639999 } }
         (portState s.feed .l).lossTimer = some 639999 ∧ clearFor (2 ^ s.feed.lossExp * 20000 - 639999) s
           ∧ (portState s.feed .l).alignment = .seeking) := by
  unfold tickInSecond clearFor; decide

/-- An exponent of 0 with the timers below 1 ms; with A's at it and B's below; and a mode of 2. -/
theorem witness_SetFeedPolicySetsWhatIsPresent :
    (let c := cellWith 0x26 [given 1, given 0, given 0]
     let s := fed { portA := { alignment := .up, lossTimer := some 19999 } }
     accepted 0x26 c [] (asked c s) ∧ carriesOpt c 0 (some 1) ∧ carriesOpt c 1 (some 0) ∧ carriesOpt c 2 (some 0)
       ∧ ∀ p w, (portState s.feed p).lossTimer = some w → w < 2 ^ min 10 0 * 20000)
      ∧ (let c := cellWith 0x26 [missing, missing, given 0]
         let s := fed { portA := { alignment := .up, lossTimer := some 20000 }, portB := { alignment := .up, lossTimer := some 19999 } }
         accepted 0x26 c [] (asked c s) ∧ carriesOpt c 0 none ∧ carriesOpt c 1 none ∧ carriesOpt c 2 (some 0)
           ∧ (portState s.feed .a).lossTimer = some 20000 ∧ (portState s.feed .b).lossTimer = some 19999
           ∧ 2 ^ min 10 0 * 20000 = 20000)
      ∧ (let c := cellWith 0x26 [given 2]
         accepted 0x26 c [] (asked c (fed {})) ∧ carriesOpt c 0 (some 2) ∧ carriesOpt c 1 none ∧ carriesOpt c 2 none) := by
  refine ⟨⟨asked_accepted 2 rfl rfl, ⟨rfl, rfl⟩, ⟨rfl, rfl⟩, ⟨rfl, rfl⟩, ?_⟩,
    ⟨asked_accepted 2 rfl rfl, rfl, rfl, ⟨rfl, rfl⟩, rfl, rfl, by decide⟩, asked_accepted 2 rfl rfl, ⟨rfl, rfl⟩, rfl, rfl⟩
  intro p w h
  match p with
  | .a => cases h; decide
  | .b => cases h
  | .l => cases h

/-- The feed named 1 is B; each selection state that the statement tells apart, with B UP and with B DOWN. -/
theorem witness_SelectFeedGoesByTheSelection :
    (∀ v ∈ [0, 1, 2], accepted 0x27 (cellWith 0x27 [given v]) [] (asked (cellWith 0x27 [given v]) State.reset)
        ∧ carries (cellWith 0x27 [given v]) 0 v)
      ∧ (∀ sel ∈ [Selection.active .a, .active .b, .handoverTo .a, .handoverTo .b, .noFeed], ∀ a ∈ [Alignment.up, .seeking],
        ∀ phase ∈ [OldPhase.running, .stopped],
          (let s := fed { selection := sel, portB := { alignment := a }, handover := { phase := phase } }
           s.feed.selection = sel ∧ feedUp s .b = (a == .up) ∧ s.feed.handover.phase = phase)) := by
  refine ⟨fun v hv => ⟨asked_accepted 2 rfl rfl, ?_⟩, by decide⟩
  exact carries_given _ (by revert v; decide)

/-! #### The Route Decoder -/

theorem witness_RouteMatchTestsTheBitsOutsideTheMask :
    startUpRoute.mask = 0xFFF ∧ ({} : Route).mask = 0 ∧ routeMatches .feed fillPacket startUpRoute = true := by decide

/-- Under the small bank with either default action: no entry matches label 301, two match 260, and one matches 700, with no
destination, 300, 257, whose programme output 0 carries, and the local label 1500, whose programme is not valid. -/
theorem witness_DecodeGoesByTheNumberOfMatches :
    (∀ action ∈ [DefaultAction.drop, .monitor],
      (let s : State := { smallBank with route := { smallBank.route with defaultAction := action } }
       let matched := fun src l => (s.route.bank1.map Prod.snd).filter (routeMatches src (packetWith l []))
       s.route.feedDecode = none ∧ s.route.localDecode = none ∧ s.route.active = true ∧ s.route.defaultAction = action
         ∧ matched .feed 301 = [] ∧ (matched .feed 260).length = 2
         ∧ matched .feed 700 = [{ valid := true, value := 700 }]
         ∧ matched .feed 300 = [{ valid := true, value := 300, outputs := 0x16, rewrite := some 1300 }]
         ∧ (matched .feed 257).map Route.programme = [some 5] ∧ (programme s 5).valid = true ∧ (programme s 5).output = some 0
         ∧ (matched .localPort 1500).map Route.programme = [some 9] ∧ (programme s 9).valid = false
         ∧ (matched .localPort 1500).map Route.outputs = [4]))
      ∧ ({ valid := true, programme := some 9 } : Route).outputs = 0 := by decide

/-- An output that is not one of the destinations; MUTED; without an open intake frame; and with one that has a slot left, and
with one that is full. -/
theorem witness_DecodeGoesByTheNumberOfMatches_copies :
    (0x16 : BitVec 5).getLsbD 0 = false ∧ (0x16 : BitVec 5).getLsbD 1 = true ∧ (0x16 : BitVec 5).getLsbD 4 = true
      ∧ (clocked {}).outs[(1 : Fin 4)].sync = .muted
      ∧ smallBank.outs[(1 : Fin 4)].sync ≠ .muted ∧ smallBank.outs[(1 : Fin 4)].openFrame = none
      ∧ (∀ n ∈ [4, 5], (let f : OpenFrame := { record := fiveSlots 700 350000, received := n }
         (emitting { openFrame := some f }).outs[(3 : Fin 4)].openFrame = some f
           ∧ (emitting { openFrame := some f }).outs[(3 : Fin 4)].sync ≠ .muted
           ∧ decide (f.received < f.record.length) = (n == 4))) := by decide

/-- Every field at its largest value, with either bank active; and a label of 4,088. -/
theorem witness_WriteRouteWritesTheStandbyBank :
    (∀ active value, value = 4087 ∨ value = 4088 →
      (let c := cellWith 0x20 [given 127, given 1, given 1, given value, given 4095, given 65535, given 31, given 4087, given 63]
       let s := { State.reset with route := { active := active } }
       accepted 0x20 c [] (asked c s) ∧ carriesAll c 0 [127, 1, 1, value, 4095, 65535, 31]
         ∧ carriesOpt c 7 (some 4087) ∧ carriesOpt c 8 (some 63) ∧ s.route.active = active)) := by
  rintro active value (rfl | rfl) <;>
    exact ⟨asked_accepted 2 rfl rfl, ⟨⟨rfl, rfl⟩, ⟨rfl, rfl⟩, ⟨rfl, rfl⟩, ⟨rfl, rfl⟩, ⟨rfl, rfl⟩, ⟨rfl, rfl⟩, ⟨rfl, rfl⟩, trivial⟩,
      ⟨rfl, rfl⟩, ⟨rfl, rfl⟩, rfl⟩

theorem witness_CopyBankMakesTheBanksEqual :
    accepted 0x21 (cellWith 0x21 []) [] (asked (cellWith 0x21 []) State.reset) := asked_accepted 2 rfl rfl

/-- As it is taken; in execution with no decode; and with a decode in progress. -/
theorem witness_SwapBanksAnswersWhenNoDecodeRuns :
    accepted 0x22 (cellWith 0x22 []) [] (asked (cellWith 0x22 []) State.reset)
      ∧ (let s := managed { executing := some (cellWith 0x22 []) }
         s.mgmt.executing = some (cellWith 0x22 []) ∧ (cellWith 0x22 []).code = 0x22 ∧ s.route.feedDecode = none
           ∧ s.route.localDecode = none)
      ∧ ({ localDecode := some fillPacket } : RouteDecoder).localDecode ≠ none :=
  ⟨asked_accepted 2 rfl rfl, ⟨rfl, rfl, rfl, rfl⟩, by decide⟩

theorem witness_SetDefaultActionSetsIt :
    ∀ v ∈ [0, 1, 2], accepted 0x23 (cellWith 0x23 [given v]) [] (asked (cellWith 0x23 [given v]) State.reset)
      ∧ carries (cellWith 0x23 [given v]) 0 v := by
  intro v hv
  refine ⟨asked_accepted 2 rfl rfl, ?_⟩
  exact carries_given _ (by revert v; decide)

/-! #### The Packet Pool and the monitor port -/

/-- A port at the end of a copy's packet, with another copy behind it. -/
def monitoring : State :=
  { clocked { tick := 19999871 } with
    pool := { buffers := [(4, { refs := 1 }), (5, { refs := 2 })], monitorQueue := [4, 5]
              port := some { isCopy := true, packet := fillPacket, remaining := 128 } } }

/-- The last tick of a second; a copy with a copy behind it; a report cell that waits; nothing that waits. -/
theorem witness_MonitorPacketSentTakesTheNext :
    (monitoring.pool.port = some { isCopy := true, packet := fillPacket, remaining := 128 }
        ∧ monitoring.clock.tick + 128 < 20000000 ∧ clearFor 128 monitoring ∧ monitoring.pool.monitorQueue = [4, 5]
        ∧ monitoring.mgmt.reportQueue = [] ∧ tableWf {} monitoring.pool.buffers = true)
      ∧ (let s : State := { monitoring with mgmt := { reportQueue := [.event 1 0 0] } }
         s.mgmt.reportQueue = [.event 1 0 0] ∧ clearFor 128 s)
      ∧ (let s : State := { clocked {} with pool := { port := busyPort } }
         s.pool.monitorQueue = [] ∧ s.mgmt.reportQueue = [] ∧ clearFor 128 s) := by
  unfold clearFor; decide

/-- Buffers 0 to n - 1 in use. -/
def usedBuffers (n : Nat) : Table Buffer := (List.range n).map fun b => (b, { refs := 1 })

/-- A table of consecutive numbers is in the one form. -/
theorem usedBuffers_wf (n : Nat) : tableWf {} (usedBuffers n) = true := by
  have h : ∀ m start lo, (∀ l, lo = some l → l < start) →
      tableWfFrom ({} : Buffer) lo ((List.range' start m).map fun b => (b, { refs := 1 })) = true := by
    intro m
    induction m with
    | zero => intro start lo _; rfl
    | succ m ih =>
      intro start lo hlo
      have hi := ih (start + 1) (some start) (fun l h => by cases h; omega)
      cases lo with
      | none => simpa [List.range', tableWfFrom] using hi
      | some l => simpa [List.range', tableWfFrom, hlo l rfl] using hi
  rw [tableWf, usedBuffers, List.range_eq_range']
  exact h n 0 none (fun l h => by cases h)

/-- The part after reset with n buffers in use. -/
def crowded (n : Nat) : State := { State.reset with pool := { buffers := usedBuffers n } }

/-- Two copies to output 3 and one to M, all with room, with one buffer left (n = 262,143) and with none left (n = 262,144);
a MUTED output; a share that is used up; and no candidate at all. -/
theorem witness_AdmissionClaimsOneBuffer :
    (let one : Candidate := .output 3 none none 0
     let room : State → Candidate → Bool := fun s c => match c with
       | .output k _ _ _ => decide (s.outs[k].sync ≠ .muted) && decide (s.outs[k].queue.length < s.outs[k].share)
       | .monitor => decide (s.pool.monitorQueue.length < 1024)
     (∀ n, tableWf {} (crowded n).pool.buffers = true ∧ (crowded n).pool.buffers.length = n
          ∧ ([one, one, .monitor].filter (room (crowded n))).length = 3)
        ∧ (crowded 0).pool.port = none ∧ (crowded 0).mgmt.reportQueue = []
        ∧ ([one].filter (room (clocked {}))).length = 0 ∧ ((clocked {}).outs[(3 : Fin 4)]).sync = .muted
        ∧ (let s := emitting { share := 1, queue := [{ buffer := 0, point := none, programme := none, label := 0 }] }
           ([one].filter (room s)).length = 0 ∧ s.outs[(3 : Fin 4)].sync ≠ .muted)) :=
  ⟨fun n => ⟨usedBuffers_wf n, by simp [crowded, usedBuffers], rfl⟩, rfl, rfl, by decide, by decide, by decide⟩

/-! #### The Emission Schedulers -/

/-- A slot that ends with the second's last tick and sends no entry; and one that sends its head. -/
theorem witness_SlotEndReleasesTheSentEntry :
    (let s := emitting { slot := some { remaining := 19999999, sends := false }, grid := some (gridFrom 24000000 19999999) }
     s.outs[(3 : Fin 4)].slot = some { remaining := 19999999, sends := false } ∧ s.clock.tick + 19999999 < 20000000
       ∧ clearFor 19999999 s)
      ∧ (sendingState.outs[(3 : Fin 4)].slot = some { remaining := 7, sends := true }
        ∧ sendingState.outs[(3 : Fin 4)].queue = sendingOutput.queue ∧ tableWf {} sendingState.pool.buffers = true
        ∧ sendingState.clock.tick + 7 < 20000000 ∧ clearFor 7 sendingState) := by
  unfold clearFor; decide

/-- A jump of a second back and one of a tick more, of no tick, of a second forward and of a tick more, at a MUTED output and
at one in FREE_RUN. At tick 1,000 the grid's next start is now, one tick before, and a whole slot before, with an empty queue
and with one that waits; and an ACQUIRING output waits for an F one tick before now, and a whole slot before. -/
theorem witness_SlotEndReleasesTheSentEntry_jump :
    (clocked {}).outs[(3 : Fin 4)].sync = .muted ∧ (emitting {}).outs[(3 : Fin 4)].sync ≠ .muted
      ∧ (-20000001 : Int) < -20000000 ∧ (20000000 : Int) < 20000001
      ∧ (∀ back ∈ [0, 1, 1066], ∀ queue ∈ [[], sendingOutput.queue],
        (let g := gridFrom 24000000 (1000 - back)
         let s := scheduling 1000 { grid := some g, queue := queue }
         s.outs[(3 : Fin 4)].sync = .freeRun ∧ s.outs[(3 : Fin 4)].grid = some g ∧ s.outs[(3 : Fin 4)].waiting = false
           ∧ ¬g.rate ≤ g.phase + g.rem ∧ now s = g.next + back ∧ now s ≤ g.next + g.interval
           ∧ leftAfterSlot s.outs[(3 : Fin 4)] = queue))
      ∧ (∀ back ∈ [1, 3200],
        (let r := fiveSlots 700 (4000 - back)
         let g := gridFrom 8000000 3000
         let s := scheduling 4000 { sync := .acquiring, waiting := true, frameQueue := [r], grid := some g }
         s.outs[(3 : Fin 4)].sync = .acquiring ∧ s.outs[(3 : Fin 4)].waiting = true
           ∧ s.outs[(3 : Fin 4)].frameQueue = [r] ∧ 1 ≤ r.length ∧ s.outs[(3 : Fin 4)].grid = some g
           ∧ r.release < g.next + g.interval ∧ r.release < now s ∧ now s ≤ r.release + 3200
           ∧ 25600000000 / r.rate = 3200 ∧ ¬r.rate ≤ 25600000000 % r.rate)) := by decide

/-- The entry at the head of output 3's queue is a programme copy; the programme has no owner, and its discontinuity mark is
set. -/
def ownerless : State :=
  { programmed [(12, { valid := true, output := some 3, discontinuity := true })]
      (emitting { grid := some resetGrid, queue := [{ buffer := 4, point := none, programme := some 12, label := 9 }] }) with
    pool := { buffers := [(4, { refs := 1, contents := some { packetWith 9 [] with c := true } })] } }

/-- An empty queue at the second's last tick, with the phase that makes the slot long; a head entry that waits; a programme
copy; and, in ACQUIRING, entries that no queued record is for before one that the record is for, with the slot's end at F. -/
theorem witness_FreeRunSlotCarriesTheHead :
    (let g : Grid := { resetGrid with next := 19999999, phase := 8000000 }
     let s := emitting { grid := some g }
     s.outs[(3 : Fin 4)].sync = .freeRun ∧ s.outs[(3 : Fin 4)].grid = some g ∧ s.outs[(3 : Fin 4)].waiting = false
       ∧ s.clock.tick + (g.next - now s).toNat < 20000000 ∧ clearFor (g.next - now s).toNat s
       ∧ leftAfterSlot s.outs[(3 : Fin 4)] = [] ∧ g.rate ≤ g.phase + g.rem)
      ∧ (let s := emitting { queue := sendingOutput.queue, grid := some resetGrid }
         s.outs[(3 : Fin 4)].grid = some resetGrid ∧ clearFor 0 s ∧ (resetGrid.next - now s).toNat = 0
           ∧ leftAfterSlot s.outs[(3 : Fin 4)] = sendingOutput.queue ∧ ¬resetGrid.rate ≤ resetGrid.phase + resetGrid.rem)
      ∧ (ownerless.outs[(3 : Fin 4)].sync = .freeRun ∧ ownerless.outs[(3 : Fin 4)].grid = some resetGrid
        ∧ clearFor 0 ownerless ∧ (resetGrid.next - now ownerless).toNat = 0
        ∧ (leftAfterSlot ownerless.outs[(3 : Fin 4)]).map Entry.programme = [some 12] ∧ (programme ownerless 12).valid = true
        ∧ (programme ownerless 12).output = some 3 ∧ (programme ownerless 12).owner = none
        ∧ tableWf {} ownerless.progs.records = true
        ∧ ∀ x, (context ownerless x).state = .active → (context ownerless x).programme = 12 →
            1 < (context ownerless x).countdown)
      ∧ (let g := gridFrom 8000000 346800
         let s := scheduling 346799 { sync := .acquiring, grid := some g, waiting := true, frameQueue := [fiveSlots 700 350000]
                                      queue := [{ buffer := 4, point := none, programme := none, label := 9 },
                                        { buffer := 5, point := some (699, 4), programme := none, label := 9 },
                                        { buffer := 6, point := some (700, 0), programme := none, label := 9 }] }
         s.outs[(3 : Fin 4)].sync = .acquiring ∧ s.outs[(3 : Fin 4)].grid = some g
           ∧ s.clock.tick + (g.next - now s).toNat < 20000000 ∧ clearFor (g.next - now s).toNat s
           ∧ g.next + (g.interval : Int) ≤ (fiveSlots 700 350000).release ∧ ¬g.rate ≤ g.phase + g.rem) := by
  unfold clearFor; decide

/-- The last slot of frame 700 is next. -/
def lastSlot : Current := { record := fiveSlots 700 350000, start := 350000, slot := 4, displ := -50, late := false }

/-- An entry of a delay queue. -/
def queued (b : Nat) (x : Point) : Entry := { buffer := b, point := some x, programme := none, label := 0 }

/-- A LOCKED output at its last slot in the second's last tick, with an entry for an earlier slot at its head. -/
def inFrame (n : FrameNo) : State :=
  scheduling 19999999 { sync := .locked, grid := some (gridFrom 8000000 19999999), current := some lastSlot
                        queue := [queued 1 (700, 3), queued 2 (n, 4)] }

/-- Behind the earlier entry stands one for the slot itself, or one for frame 701. -/
theorem witness_FrameSlotCarriesItsOwnEntry :
    (∀ n, n = 700 ∨ n = 701 →
      (inFrame n).outs[(3 : Fin 4)].sync = .locked ∧ (inFrame n).outs[(3 : Fin 4)].grid = some (gridFrom 8000000 19999999)
        ∧ (inFrame n).outs[(3 : Fin 4)].waiting = false ∧ (inFrame n).outs[(3 : Fin 4)].current = some lastSlot
        ∧ lastSlot.slot < lastSlot.record.length ∧ lastSlot.late = false
        ∧ (inFrame n).clock.tick + ((gridFrom 8000000 19999999).next - now (inFrame n)).toNat < 20000000
        ∧ clearFor ((gridFrom 8000000 19999999).next - now (inFrame n)).toNat (inFrame n)
        ∧ (leftAfterSlot (inFrame n).outs[(3 : Fin 4)]).dropWhile
            (fun e : Entry => match e.point with | none => true | some y => pointBefore y (700, 4)) = [queued 2 (n, 4)]) := by
  rintro n (rfl | rfl) <;> exact ⟨rfl, rfl, rfl, rfl, by decide, rfl, by decide, .inl rfl, rfl⟩

/-- The slot's start is now, and a tick before. -/
theorem witness_FrameSlotCarriesItsOwnEntry_steps :
    ∀ t ∈ [0, 1], slotAt (scheduling t { sync := .locked, grid := some (gridFrom 8000000 0), current := some lastSlot }) 3 = some 0
      ∧ (0 : Int) ≤ now (scheduling t { sync := .locked, grid := some (gridFrom 8000000 0), current := some lastSlot }) := by decide

/-- The head entry of the frame's slot is a programme copy for the slot's own point. -/
theorem witness_FrameSlotCarriesItsOwnEntry_entry :
    (let e : Entry := { buffer := 2, point := some (700, 4), programme := some 12, label := 0 }
     let s := scheduling 0 { sync := .holdover, grid := some (gridFrom 8000000 0), current := some lastSlot
                             queue := [queued 1 (700, 3), e] }
     let x : Point := (700, 4)
     let s1 := { s with outs := s.outs.set 3 { s.outs[(3 : Fin 4)] with current := some { lastSlot with slot := 5 }, position := some x } }
     let u := activate 3 x 0 (dropPassedSplices 3 x s1)
     let w := passHeads 3 (passedAt x false) u.outs[(3 : Fin 4)].queue u
     s.outs[(3 : Fin 4)].sync = .holdover ∧ s.outs[(3 : Fin 4)].waiting = false ∧ w.outs[(3 : Fin 4)].queue = [e]) := by decide

/-- No context's splice comes; the worked case's context 3 comes, with its head segment READY, EMPTY and without a segment. -/
theorem witness_FrameSlotCarriesItsOwnEntry_activation :
    (∀ y, ¬((context State.reset y).state = .armed))
      ∧ (∀ state ∈ [SegmentState.ready, .empty], ∀ head ∈ [some 40, none],
        (let s : State := { spliceCase with
           store := { segments := [(40, { state := state, firstBlock := 100, blocks := 4, packets := 700, a0 := some 1000000000000 })] }
           engine := { spliceCase.engine with entries := tablePut {} [] 9 { segment := head } } }
         tableWf {} s.progs.records = true ∧ tableWf {} s.store.segments = true ∧ (context s 3).state = .armed
           ∧ (programme s (context s 3).programme).valid = true ∧ (programme s (context s 3).programme).output = some 1
           ∧ (context s 3).splice.map (fun q => q.point) = some (9000, 6) ∧ (context s 3).position = .absent
           ∧ (∀ y, y ≠ 3 → ¬((context s y).state = .armed)) ∧ (playEntry s (context s 3).chainHead).segment = head
           ∧ (segment s 40).state = state)) := by decide

/-- Context 15 in repeat 1 of entry 510, at index `i` of segment 7, which holds one packet of the mapped label 0 at index 0
and then packets of label 5; entry 511 follows as given, and names a segment or none. -/
def drawing (i packets repeats : Nat) (next g : Option Nat) : State :=
  let s := playing { state := .active, position := .at_ 510 1 i, countdown := 9 }
  { s with
    engine := { s.engine with entries := [(510, { segment := some 7, repeats := repeats, next := next }), (511, { segment := g })] }
    store := { segments := [(7, { state := .ready, blocks := 1, packets := packets, uses := 1 }), (8, { state := .empty, blocks := 1 })]
               dram := [(0, packetWith 0 []), (1, packetWith 5 []), (2, packetWith 5 [])] } }

/-- A mapped packet at the index, and unmapped ones up to the segment's end; with a repeat to go, with no next entry, and
with a next entry whose segment is READY, EMPTY, or not named. -/
theorem witness_FrameSlotCarriesItsOwnEntry_draw :
    (∀ i ∈ [0, 1], ∀ repeats ∈ [1, 2], ∀ next ∈ [none, some 511, some 510], ∀ g ∈ [none, some 7, some 8],
      (let s := drawing i 3 repeats next g
       (context s 15).position = .at_ 510 1 i ∧ tableWf {} s.store.segments = true ∧ (playEntry s 510).segment = some 7
         ∧ (playEntry s 510).repeats = repeats ∧ (playEntry s 510).next = next ∧ (playEntry s 511).segment = g
         ∧ (segment s 7).state = .ready ∧ (segment s 8).state ≠ .ready ∧ (segment s 7).packets = 3
         ∧ (storedPacket s 7 0).label = 0 ∧ (storedPacket s 7 1).label = 5 ∧ (storedPacket s 7 2).label = 5
         ∧ (context s 15).labelMap = [(0, 0)]))
      ∧ (segment (drawing 0 0 1 (some 510) none) 7).packets = 0 := by decide

/-- A break of context 15 on programme 0, which output 3 carries: what it draws is a packet, the chain's end, or a halt. -/
theorem witness_FrameSlotCarriesItsOwnEntry_carry :
    ∀ i next, (i, next) = (0, none) ∨ (i, next) = (1, none) ∨ (i, next) = (1, some 511) →
      (let e : Entry := { buffer := 4, point := some (9000, 5), programme := some 0, label := 9 }
       let s0 := drawing i 3 1 next none
       let s : State := { s0 with
         outs := quiet.set 3 { sync := .locked, grid := some resetGrid, queue := [e] }
         progs := { records := [(0, { valid := true, output := some 3, owner := some 15 })] } }
       s.outs[(3 : Fin 4)].queue = e :: [] ∧ s.outs[(3 : Fin 4)].grid = some resetGrid ∧ (programme s 0).valid = true
         ∧ (programme s 0).output = some 3 ∧ (programme s 0).owner = some 15 ∧ (context s 15).state = .active
         ∧ (context s 15).programme = 0
         ∧ (∀ y : Fin 16, y ≠ 15 → ¬((context s y).state = .active ∧ (context s y).programme = 0))
         ∧ tableWf {} s.progs.records = true ∧ tableWf {} s.pool.buffers = true
         ∧ (draw 15 s).1 = (if i = 0 then .packet (storedPacket s 7 0) 0 else if next = none then .ended else .halted)) := by
  rintro i next (h | h | h) <;> cases h <;> decide +kernel

/-- Contexts 14 and 15 are both ACTIVE on programme 0, which 15 owns; and a slot of output 3 counts for both and for no other. -/
theorem witness_FrameSlotCarriesItsOwnEntry_shadow :
    (let s0 := drawing 0 3 1 none none
     let s : State := { s0 with
       progs := { records := [(0, { valid := true, output := some 3, owner := some 15 })] }
       engine := { s0.engine with contexts := s0.engine.contexts.set 14 { state := .active, position := .at_ 510 1 1, countdown := 9 } } }
     (programme s 0).owner = some 15 ∧ (15 : Fin 16) ≠ 14 ∧ (context s 14).state = .active ∧ (context s 14).programme = 0
       ∧ (∀ y : Fin 16, y ≠ 14 → y ≠ 15 → ¬((context s y).state = .active ∧ (context s y).programme = 0))
       ∧ (draw 15 s).1 ≠ .halted ∧ (draw 14 s).1 = .ended ∧ (programme s 0).valid = true ∧ (programme s 0).output = some 3
       ∧ (context s 13).state ≠ .active) := by decide +kernel

/-- Contexts of output 3 with two slots, one and none to go; one that rearms, and one that does not, with a latched cue whose
point is ahead of the emission position and is not; and one without. -/
theorem witness_FrameSlotCarriesItsOwnEntry_report :
    (∀ n ∈ [0, 1, 2], ∀ frame ∈ [8000, 10000], ∀ rearm ∈ [true, false],
      (let q : Cue := { point := (BitVec.ofNat 16 frame, 0), duration := 9, id := 1 }
       let s := breaking { sync := .locked, position := some (9000, 5) }
         { state := .active, countdown := n, rearm := rearm, latch := some q }
       (context s 15).state = .active ∧ (context s 15).mode = .cue ∧ (programme s (context s 15).programme).valid = true
         ∧ (programme s (context s 15).programme).output = some 3 ∧ tableWf {} s.progs.records = true
         ∧ (context s 15).latch = some q ∧ pointAheadOn s 0 q.point = (frame == 10000)))
      ∧ (context (breaking {} {}) 15).latch = none ∧ (context (breaking {} {}) 14).state ≠ .active := by decide

/-- A grid whose next slot would end one tick after F, in ACQUIRING and in HOLDOVER; and no grid. -/
theorem witness_WaitingRecordStartsAtItsInstant :
    ∀ x ∈ [Sync.acquiring, .holdover], ∀ grid ∈ [some (gridFrom 8000000 346801), none],
      (let r := fiveSlots 700 350000
       let s := scheduling 349999 { sync := x, waiting := true, frameQueue := [r], grid := grid
                                    slot := some { remaining := 1, sends := false } }
       s.outs[(3 : Fin 4)].waiting = true ∧ s.outs[(3 : Fin 4)].frameQueue = [r]
         ∧ (∀ g ∈ s.outs[(3 : Fin 4)].grid, r.release < g.next + (g.interval : Int) ∧ ¬g.rate ≤ g.phase + g.rem)
         ∧ s.clock.tick + (r.release - now s).toNat < 20000000 ∧ clearFor (r.release - now s).toNat s
         ∧ s.outs[(3 : Fin 4)].sync = x) := by
  unfold clearFor; decide

/-- Between frames at P = 10,000 with the tolerance 100: no record; F at the tolerance's two ends and a tick beyond each; a
record too early; and the late limit 4 with 2 and with 3 frames late, in LOCKED and in HOLDOVER. -/
theorem witness_WaitingRecordStartsAtItsInstant_reconcile :
    (∀ x ∈ [Sync.locked, .holdover], ∀ late ∈ [2, 3],
      (let s := scheduling 10000 { sync := x, lateCount := late, frameQueue := [fiveSlots 701 9900]
                                   current := some { lastSlot with slot := 5 } }
       s.outs[(3 : Fin 4)].sync = x ∧ s.outs[(3 : Fin 4)].waiting = false
         ∧ (∀ c ∈ s.outs[(3 : Fin 4)].current, c.record.length ≤ c.slot)
         ∧ (s.outs[(3 : Fin 4)].tolerance = 100 ∧ s.outs[(3 : Fin 4)].lateLimit = 4)
         ∧ (decide (4 ≤ min (late + 1) 255) = (late == 3))))
      ∧ (∀ f ∈ [9899, 9900, 10100, 10101], (fiveSlots 701 f).tooEarly = false ∧ (fiveSlots 701 f).release = f)
      ∧ ((10000 : Int) - 100 ≤ 9900 ∧ (10100 : Int) ≤ 10000 + 100 ∧ (10000 : Int) + 100 < 10101 ∧ (9899 : Int) < 10000 - 100)
      ∧ { fiveSlots 701 10000 with tooEarly := true }.tooEarly = true
      ∧ (scheduling 0 { sync := .locked }).outs[(3 : Fin 4)].frameQueue = [] := by decide

/-- A timing packet of frame 9,000 at output 3's multiplex and at another's; with a length of 0; with a full frame queue; and
at an output in LOCKED, ACQUIRING and waiting, FREE_RUN, MUTED by its fallback and MUTED by command, with the clock LOCKED and
not. F is 1 tick ahead of now, and now. -/
theorem witness_WaitingRecordStartsAtItsInstant_timing :
    (let p : TimingPacket := { number := 9000, multiplex := 3, length := 2000, low8 := 0, tick := 10000, rate := 24000000 }
     (1 ≤ p.length ∧ p.tick ≤ 19999999 ∧ 1000000 ≤ p.rate ∧ p.rate ≤ 80000000 ∧ { p with length := 0 }.length < 1
        ∧ p.multiplex = (emitting {}).outs[(3 : Fin 4)].multiplex.val + 3 ∧ { p with multiplex := 0 }.multiplex = 0
        ∧ resolveSecond 0 p.low8 = 0)
      ∧ (∀ x ∈ [Sync.locked, .holdover, .acquiring, .freeRun, .muted], ∀ cause ∈ [none, some MuteCause.fallback, some .command],
        ∀ t ∈ [9999, 10000], ∀ mode ∈ [ClockMode.locked, .free],
          (let s : State := { emitting { multiplex := 3, sync := x, muteCause := cause, waiting := x == .acquiring, grid := none } with
             clock := { tick := t, mode := mode } }
           s.outs[(3 : Fin 4)].sync = x ∧ s.outs[(3 : Fin 4)].muteCause = cause ∧ s.outs[(3 : Fin 4)].frameQueue = []
             ∧ s.clock.mode = mode ∧ s.outs[(3 : Fin 4)].grid = none
             ∧ decide (now s < resolveSecond 0 p.low8 * 20000000 + (p.tick : Int)) = (t == 9999)))) := by decide +kernel

/-- A frame queue of 63 records and one of 64. -/
theorem witness_WaitingRecordStartsAtItsInstant_room :
    ∀ n, (emitting { frameQueue := List.replicate n (fiveSlots 700 0) }).outs[(3 : Fin 4)].frameQueue.length = n :=
  fun _ => List.length_replicate

/-- Every field above its limit, in range; a fallback of 2; and an output of 4. -/
theorem witness_SetOutputSetsWhatIsPresent :
    (∀ n f, (n, f) = (3, 1) ∨ (n, f) = (3, 2) ∨ (n, f) = (4, 0) →
      (let c := cellWith 0x12 [given n, given 3, given 20000000, given 1001, given 0, given f, given 80000001, given 0]
       accepted 0x12 c [] (asked c State.reset) ∧ carries c 0 n ∧ carriesOpt c 1 (some 3) ∧ carriesOpt c 2 (some 20000000)
         ∧ carriesOpt c 3 (some 1001) ∧ carriesOpt c 4 (some 0) ∧ carriesOpt c 5 (some f) ∧ carriesOpt c 6 (some 80000001)
         ∧ carriesOpt c 7 (some 0))) := by
  rintro n f (h | h | h) <;> cases h <;>
    exact ⟨asked_accepted 1 rfl rfl, ⟨rfl, rfl⟩, ⟨rfl, rfl⟩, ⟨rfl, rfl⟩, ⟨rfl, rfl⟩, ⟨rfl, rfl⟩, ⟨rfl, rfl⟩, ⟨rfl, rfl⟩, ⟨rfl, rfl⟩⟩

/-- Output 3 MUTED and not; and a restart with an ACTIVE context on a programme that it carries. -/
theorem witness_OutputMuteSilencesAndRestartReturns :
    (let c := cellWith 0x13 [given 3]
     carries c 0 (3 : Fin 4).val ∧ accepted 0x13 c [] (asked c (clocked {})) ∧ accepted 0x13 c [] (asked c sendingState)
       ∧ (clocked {}).outs[(3 : Fin 4)].sync = .muted ∧ sendingState.outs[(3 : Fin 4)].sync ≠ .muted)
      ∧ (let c := cellWith 0x14 [given 3]
         let s := programmed [(0, { valid := true, output := some 3, owner := some 15 })] (playing { state := .active, countdown := 1 })
         carries c 0 (3 : Fin 4).val ∧ accepted 0x14 c [] (asked c s) ∧ (context s 15).state = .active
           ∧ (programme s (context s 15).programme).valid = true
           ∧ (programme s (context s 15).programme).output = some 3) :=
  ⟨⟨⟨rfl, rfl⟩, asked_accepted 1 rfl rfl, asked_accepted 1 rfl rfl, rfl, by decide⟩,
    ⟨rfl, rfl⟩, asked_accepted 1 rfl rfl, rfl, rfl, rfl⟩

/-! #### The Programme Table -/

/-- Programmes 12 and 63, of which 63 has no owner. -/
def twoProgrammes (owner : Option (Fin 16)) : State :=
  programmed [(12, { valid := true, output := some 0, cueLabel := some 4086 }),
    (63, { valid := true, output := some 2, cueLabel := some 4087, owner := owner })] (playing { programme := 12, state := .halted })

/-- WRITE PROGRAMME of 63: an output of 4; an owner; a label that 12 holds; the same output; another output. CLEAR PROGRAMME:
64; an owned one; one that a HALTED context names; a valid one; one that is not valid. -/
theorem witness_WriteAndClearProgrammeSetOneRecord :
    (∀ k l owner, (k, l) = (4, 4087) ∨ (k, l) = (2, 4086) ∨ (k, l) = (2, 4087) ∨ (k, l) = (3, 4087) →
      (let c := cellWith 0x24 [given 63, given k, given l]
       let s := twoProgrammes owner
       carries c 0 63 ∧ tableWf {} s.progs.records = true ∧ accepted 0x24 c [] (asked c s) ∧ carries c 1 k
         ∧ carriesOpt c 2 (some l) ∧ (programme s 63).owner = owner ∧ (programme s 63).output = some 2
         ∧ (programme s 12).cueLabel = some (BitVec.ofNat 12 4086)))
      ∧ (∀ p owner, p = 64 ∨ p = 63 ∨ p = 12 ∨ p = 0 →
        (let c := cellWith 0x25 [given p]
         let s := twoProgrammes owner
         carries c 0 p ∧ accepted 0x25 c [] (asked c s) ∧ (context s 15).programme = 12 ∧ (context s 15).state ≠ .idle
           ∧ (programme s 0).valid = false ∧ (programme s 63).owner = owner)) := by
  constructor
  · rintro k l owner (h | h | h | h) <;> cases h <;>
      exact ⟨⟨rfl, rfl⟩, by simp [twoProgrammes, programmed, tableWf, tableWfFrom],
        asked_accepted 2 rfl rfl, ⟨rfl, rfl⟩, ⟨rfl, rfl⟩, rfl, rfl, rfl⟩
  · rintro p owner (rfl | rfl | rfl | rfl) <;>
      exact ⟨⟨rfl, rfl⟩, asked_accepted 2 rfl rfl, rfl, (by decide : ContextState.halted ≠ .idle), rfl, rfl⟩

/-! #### The Segment Store -/

/-- A table of one record. -/
theorem tableGet_single {α : Type} (d x : α) (g h : Nat) : tableGet d [(g, x)] h = if h = g then x else d := by
  simp only [tableGet]
  split
  · rename_i hl
    rw [if_neg (by omega)]
  · rfl

/-- One segment keeps to itself. -/
theorem blocksApart_single {s : State} {g : Nat} {x : Segment} (hs : s.store.segments = [(g, x)]) (h1 : 1 ≤ x.blocks)
    (h2 : x.firstBlock + x.blocks ≤ 8192) : blocksApart s := by
  have hg : ∀ h, segment s h = if h = g then x else {} := fun h => by rw [Machine.segment, hs, tableGet_single]
  constructor
  · intro h hh
    rw [hg] at hh ⊢
    split at hh
    · rename_i e; rw [if_pos e]; exact ⟨h1, h2⟩
    · exact absurd rfl hh
  · intro h k hne hh hk
    rw [hg] at hh hk
    split at hh
    · split at hk
      · omega
      · exact absurd rfl hk
    · exact absurd rfl hh

/-- DEFINE SEGMENT against segment 40 over blocks 100 to 103: the last block and one too many; the segment itself; the block
before it, its first and last, and the block after it. RELEASE SEGMENT of a segment in each state, with no use and with one. -/
theorem witness_DefineAndReleaseSegment :
    (∀ g first count, (g, first, count) = (1023, 8191, 1) ∨ (g, first, count) = (1023, 8191, 2) ∨ (g, first, count) = (40, 0, 1)
        ∨ (g, first, count) = (41, 99, 1) ∨ (g, first, count) = (41, 99, 2) ∨ (g, first, count) = (41, 103, 1)
        ∨ (g, first, count) = (41, 104, 1) →
      (let c := cellWith 0x30 [given g, given first, given count]
       let s := segmented [(40, advert)] State.reset
       carries c 0 g ∧ accepted 0x30 c [] (asked c s) ∧ carries c 1 first ∧ carries c 2 count))
      ∧ (∀ x uses, (let c := cellWith 0x31 [given 40]
         let s := segmented [(40, { advert with state := x, uses := uses })] State.reset
         carries c 0 40 ∧ accepted 0x31 c [] (asked c s) ∧ (segment s 40).state = x ∧ (segment s 40).uses = uses
           ∧ tableWf {} s.store.segments = true ∧ blocksApart s)) := by
  constructor
  · rintro g first count (h | h | h | h | h | h | h) <;> cases h <;>
      exact ⟨⟨rfl, rfl⟩, asked_accepted 3 rfl rfl, ⟨rfl, rfl⟩, ⟨rfl, rfl⟩⟩
  · intro x uses
    exact ⟨⟨rfl, rfl⟩, asked_accepted 3 rfl rfl, rfl, rfl, by simp [segmented, tableWf, tableWfFrom, advert],
      blocksApart_single rfl (by decide : 1 ≤ 4) (by decide : 100 + 4 ≤ 8192)⟩

/-- Four labels, the last a traffic label and then none; context 1, IDLE, beside context 0 that fills segment 40 with
labels 1801 and 1802; a READY segment 41 with no use and with one. -/
theorem witness_StartFillMakesItsContextFilling :
    (∀ l, l = 4087 ∨ l = 4088 ∨ l = 1802 →
      (let c := cellWith 0x32 [given 1, given 41, given 4, given 0, given 1, given 2, given l]
       accepted 0x32 c [] (asked c filling) ∧ carries c 0 (1 : Fin 2).val ∧ carries c 1 41 ∧ carries c 2 [0, 1, 2, l].length
         ∧ carriesAll c 3 [0, 1, 2, l] ∧ [0, 1, 2, l].Nodup ∧ tableWf {} filling.progs.records = true
         ∧ filling.store.contexts[(1 : Fin 2)] = none
         ∧ filling.store.contexts[(0 : Fin 2)].map Fill.labels = some [1801, 1802]))
      ∧ (∀ uses, (let s := segmented [(41, { state := .ready, firstBlock := 104, blocks := 1, uses := uses })] State.reset
         (segment s 41).state = .ready ∧ (segment s 41).uses = uses)) := by
  refine ⟨?_, fun uses => ⟨rfl, rfl⟩⟩
  rintro l (rfl | rfl | rfl) <;>
    exact ⟨asked_accepted 3 rfl rfl, ⟨rfl, rfl⟩, ⟨rfl, rfl⟩, ⟨rfl, rfl⟩, ⟨⟨rfl, rfl⟩, ⟨rfl, rfl⟩, ⟨rfl, rfl⟩, ⟨rfl, rfl⟩, trivial⟩,
      by decide, rfl, rfl, rfl⟩

/-- Context 0 of `filling` and its IDLE context 1. -/
theorem witness_SealAndAbortEndAFill :
    (∀ (i : Fin 2), carries (cellWith 0x33 [given i.val]) 0 i.val ∧ carries (cellWith 0x34 [given i.val]) 0 i.val
        ∧ accepted 0x33 (cellWith 0x33 [given i.val]) [] (asked (cellWith 0x33 [given i.val]) filling)
        ∧ accepted 0x34 (cellWith 0x34 [given i.val]) [] (asked (cellWith 0x34 [given i.val]) filling))
      ∧ filling.store.contexts[(1 : Fin 2)] = none ∧ filling.store.contexts[(0 : Fin 2)].map Fill.segment = some 40 := by
  refine ⟨fun i => ?_, rfl, rfl⟩
  match i with
  | 0 => exact ⟨⟨rfl, rfl⟩, ⟨rfl, rfl⟩, asked_accepted 3 rfl rfl, asked_accepted 3 rfl rfl⟩
  | 1 => exact ⟨⟨rfl, rfl⟩, ⟨rfl, rfl⟩, asked_accepted 3 rfl rfl, asked_accepted 3 rfl rfl⟩

/-- The packet that brings segment 40 to its capacity of 1,024, and the one before it; and a skipped sequence. -/
theorem witness_AppendedPacketGoesToTheSegmentsEnd :
    (∀ n ∈ [1022, 1023], (let s := segmented [(40, { advert with state := .filling, packets := n })] State.reset
       tableWf {} s.store.segments = true ∧ tableWf none s.store.dram = true ∧ (segment s 40).packets = n
         ∧ (segment s 40).blocks * 256 = 1024))
      ∧ (let e : Continuity := { last := 63, seen := true }
         e.seen = true ∧ (1 : BitVec 6) ≠ e.last + 1 ∧ (0 : BitVec 6) = e.last + 1) := by decide

theorem witness_SegmentAndContextStatusReport :
    (∀ n ∈ [1023, 1024], accepted 0x35 (cellWith 0x35 [given n]) [] (asked (cellWith 0x35 [given n]) State.reset)
        ∧ carries (cellWith 0x35 [given n]) 0 n)
      ∧ (∀ n ∈ [15, 16], accepted 0x45 (cellWith 0x45 [given n]) [] (asked (cellWith 0x45 [given n]) State.reset)
        ∧ carries (cellWith 0x45 [given n]) 0 n) := by
  constructor
  · intro n hn
    refine ⟨asked_accepted 3 rfl rfl, ?_⟩
    exact carries_given _ (by revert n; decide)
  · intro n hn
    refine ⟨asked_accepted 4 rfl rfl, ?_⟩
    exact carries_given _ (by revert n; decide)

/-! #### The Insertion Engine -/

/-- An ACTIVE context 15 in play entry 511, which names segment 7. -/
def inEntry : State :=
  { playing { state := .active, position := .at_ 511 1 0, countdown := 9 } with
    engine := { (playing { state := .active, position := .at_ 511 1 0, countdown := 9 }).engine with
      entries := [(511, { segment := some 7 })] } }

/-- Segment 1,023 and then 1,024 for an entry that no position lies in; another segment and the same one for the entry that
context 15 is in. -/
theorem witness_WritePlayEntryWritesOneEntry :
    (∀ g s, (g = 1023 ∨ g = 1024) ∧ s = State.reset ∨ (g = 8 ∨ g = 7) ∧ s = inEntry →
      (let c := cellWith 0x40 [given 511, given g, given 17, missing]
       accepted 0x40 c [] (asked c s) ∧ carries c 0 511 ∧ carriesOpt c 1 (some g) ∧ carries c 2 17 ∧ carriesOpt c 3 none))
      ∧ (playEntry inEntry 511).segment = some 7 ∧ (context inEntry 15).state = .active
      ∧ (context inEntry 15).position = .at_ 511 1 0 := by
  refine ⟨?_, rfl, rfl, rfl⟩
  rintro g s (⟨rfl | rfl, rfl⟩ | ⟨rfl | rfl, rfl⟩) <;>
    exact ⟨asked_accepted 4 rfl rfl, ⟨rfl, rfl⟩, ⟨rfl, rfl⟩, ⟨rfl, rfl⟩, rfl⟩

/-- A programme of 63 and of 64; an ARMED context; two pairs of one stored label; four pairs. -/
theorem witness_ConfigureContextSetsAnIdleContext :
    (∀ p, p = 63 ∨ p = 64 → ∀ state,
      (let pairs : List (Nat × Nat) := [(0, 4087), (1, 4087), (2, 4087), (4087, 0)]
       let c := cellWith 0x41 ([given 15, given p, given 8, given 1, given 255, given 2000001, given 511, given 1, given 4]
         ++ pairs.map fun e => given (e.1 * 4096 + e.2))
       let s := playing { state := state }
       accepted 0x41 c [] (asked c s) ∧ carriesAll c 0 [(15 : Fin 16).val, p, 8, 1] ∧ carriesOpt c 4 (some 255)
         ∧ carriesAll c 5 [2000001, 511, 1] ∧ carries c 8 pairs.length
         ∧ carriesAll c 9 (pairs.map fun e => e.1 * 4096 + e.2) ∧ (∀ e ∈ pairs, e.1 < 4096 ∧ e.2 < 4096)
         ∧ (pairs.map Prod.fst).Nodup ∧ (context s 15).state = state))
      ∧ (let c := cellWith 0x41 [given 15, given 0, given 0, given 0, missing, given 0, given 0, given 0, given 2, given 1, given 2]
         accepted 0x41 c [] (asked c State.reset) ∧ carriesAll c 0 [(15 : Fin 16).val, 0, 0, 0] ∧ carriesOpt c 4 none
           ∧ carriesAll c 5 [0, 0, 0] ∧ carries c 8 [(0, 1), (0, 2)].length
           ∧ carriesAll c 9 ([(0, 1), (0, 2)].map fun e => e.1 * 4096 + e.2) ∧ ¬([(0, 1), (0, 2)].map Prod.fst).Nodup) := by
  constructor
  · rintro p (rfl | rfl) state <;>
      exact ⟨asked_accepted 4 rfl rfl, ⟨⟨rfl, rfl⟩, ⟨rfl, rfl⟩, ⟨rfl, rfl⟩, ⟨rfl, rfl⟩, trivial⟩, ⟨rfl, rfl⟩,
        ⟨⟨rfl, rfl⟩, ⟨rfl, rfl⟩, ⟨rfl, rfl⟩, trivial⟩, ⟨rfl, rfl⟩,
        ⟨⟨rfl, rfl⟩, ⟨rfl, rfl⟩, ⟨rfl, rfl⟩, ⟨rfl, rfl⟩, trivial⟩, by decide, by decide, rfl⟩
  · exact ⟨asked_accepted 4 rfl rfl, ⟨⟨rfl, rfl⟩, ⟨rfl, rfl⟩, ⟨rfl, rfl⟩, ⟨rfl, rfl⟩, trivial⟩, rfl,
      ⟨⟨rfl, rfl⟩, ⟨rfl, rfl⟩, ⟨rfl, rfl⟩, trivial⟩, ⟨rfl, rfl⟩, ⟨⟨rfl, rfl⟩, ⟨rfl, rfl⟩, trivial⟩, by decide⟩

/-- Context 15 on programme 0, which output 3 carries at point (9000, 5). -/
def ready (x : Context) (valid : Bool) : State :=
  programmed [(0, { valid := valid, output := some 3 })]
    { playing x with outs := State.reset.outs.set 3 { sync := .locked, position := some (9000, 5) } }

/-- CUE mode: not IDLE; no valid programme; no latch; a latched cue for the slot after the output's. FRAME mode: a slot of
65,535; the slot after the output's, which is ahead; the output's own, which is not. -/
theorem witness_StartContextArmsAnIdleContext :
    (∀ x valid, (let c := cellWith 0x42 [given 15]
       accepted 0x42 c [] (asked c (ready x valid)) ∧ carries c 0 (15 : Fin 16).val ∧ context (ready x valid) 15 = x
         ∧ (programme (ready x valid) 0).valid = valid ∧ (programme (ready x valid) 0).output = some 3
         ∧ (ready x valid).outs[(3 : Fin 4)].sync = .locked ∧ (ready x valid).outs[(3 : Fin 4)].position = some (9000, 5)))
      ∧ ({} : Context).mode = .cue ∧ pointBefore (9000, 5) (9000, 6) = true
      ∧ (∀ slot, slot = 65535 ∨ slot = 6 ∨ slot = 5 → (let c := cellWith 0x42 [given 15, given 9000, given slot, given 0]
         let s := ready { mode := .frame } true
         accepted 0x42 c [] (asked c s) ∧ carriesAll c 1 [9000, slot, 0] ∧ (context s 15).mode = .frame))
      ∧ pointBefore (9000, 5) (9000, 5) = false := by
  refine ⟨fun x valid => ⟨asked_accepted 4 rfl rfl, ⟨rfl, rfl⟩, rfl, rfl, rfl, rfl, rfl⟩, rfl, by decide, ?_, by decide⟩
  rintro slot (rfl | rfl | rfl) <;>
    exact ⟨asked_accepted 4 rfl rfl, ⟨⟨rfl, rfl⟩, ⟨rfl, rfl⟩, ⟨rfl, rfl⟩, trivial⟩, rfl⟩

/-- STOP CONTEXT and WAKE CONTEXT of context 15 in every state; and at the end of an entry without a next entry, and of one
whose next entry names a READY segment. -/
theorem witness_StopAndWakeContext :
    (∀ x, carries (cellWith 0x43 [given 15]) 0 (15 : Fin 16).val ∧ carries (cellWith 0x44 [given 15]) 0 (15 : Fin 16).val
        ∧ accepted 0x43 (cellWith 0x43 [given 15]) [] (asked (cellWith 0x43 [given 15]) (playing x))
        ∧ accepted 0x44 (cellWith 0x44 [given 15]) [] (asked (cellWith 0x44 [given 15]) (playing x))
        ∧ context (playing x) 15 = x)
      ∧ (playEntry (playing { state := .active, position := .atEnd 0, countdown := 1 }) 0).next = none
      ∧ (let s := segmented [(7, { state := .ready })] { inEntry with engine := { inEntry.engine with
           entries := [(510, { segment := some 1, next := some 511 }), (511, { segment := some 7 })] } }
         (playEntry s 510).next = some 511 ∧ (playEntry s 511).segment = some 7 ∧ (segment s 7).state = .ready) :=
  ⟨fun _ => ⟨⟨rfl, rfl⟩, ⟨rfl, rfl⟩, asked_accepted 4 rfl rfl, asked_accepted 4 rfl rfl, rfl⟩, rfl, rfl, rfl, rfl⟩

/-- No break; a break whose countdown stands at 1, and at 0, on a free-running output with an empty queue and with a plain copy
at its head; and that break on an output at its record's F, in ACQUIRING and in HOLDOVER, which then begins the frame and
does not end it. -/
theorem witness_BreakEndEndsTheDueBreaks :
    (∀ x, (context State.reset x).state ≠ .active)
      ∧ (∀ n ∈ [0, 1], ∀ queue ∈ [[], [queued 4 (700, 3)]], ∀ rearm ∈ [true, false],
          (let s := breaking { grid := some resetGrid, queue := queue } { state := .active, rearm := rearm, countdown := n }
           slotAt s 3 = some resetGrid.next ∧ (s.clock.tick + (resetGrid.next - now s).toNat < 20000000)
             ∧ nextBreakOutput (breaksRunning s) s = some 3 ∧ (context s 15).state = .active ∧ (context s 15).countdown ≤ 1
             ∧ ((context (takeOutputEvent 3 s) 15).state = if rearm then .armed else .idle)
             ∧ (programme s (context s 15).programme).valid = true ∧ (programme s (context s 15).programme).output = some 3
             ∧ (∀ j : Fin 4, j ≠ 3 → nextInstant s j = none) ∧ (leftAfterSlot s.outs[(3 : Fin 4)] = queue)
             ∧ tableWf {} s.progs.records = true))
      ∧ (∀ x ∈ [Sync.acquiring, .holdover],
          (let s := breaking { sync := x, waiting := true, frameQueue := [fiveSlots 700 350000], grid := none }
             { state := .active, countdown := 1 }
           frameAt s 3 = some 350000 ∧ s.outs[(3 : Fin 4)].sync = x)) := by
  decide +kernel

/-- The wait is clear of every other event. -/
theorem witness_BreakEndEndsTheDueBreaks_clear :
    clearFor (resetGrid.next - now (breaking { grid := some resetGrid } {})).toNat (breaking { grid := some resetGrid } {}) :=
  .inl rfl

/-! #### Comparisons, and what every step keeps -/

/-- Frames 0 and 32,768 apart; an emission position in LOCKED. -/
theorem witness_FrameNumbersAndPointsCompare :
    (((0x8000 : FrameNo).toNat : Int) - (0 : FrameNo).toNat) % 65536 = 32768
      ∧ (ready {} true).outs[(3 : Fin 4)].sync = .locked ∧ (ready {} true).outs[(3 : Fin 4)].position = some (9000, 5) := by decide

/-- The low byte 255 in second 0: -1 is the one integer in the window. -/
theorem witness_SecondResolutionIsTheOneInTheWindow :
    255 < 256 ∧ (-1 : Int) % 256 = ((255 : Nat) : Int) ∧ ((0 : Nat) : Int) - 128 ≤ -1 ∧ (-1 : Int) ≤ ((0 : Nat) : Int) + 127 := by
  decide

/-- A LOCKED clock and output in the second's last tick, with the loss of REF10 to come. -/
theorem witness_EveryStepKeepsTimeAndSync :
    (let s : State := { clocked { mode := .locked, tick := 19999999, ref10 := true } with
       outs := #v[{ sync := .locked }, {}, {}, {}], pending := [.ref10Lost 0] }
     tickInSecond s ∧ syncFollowsClock s ∧ ∃ t, step s = .next t ∧ t.clock.mode = .holdover) := by
  refine ⟨(by decide : 19999999 < 20000000), by unfold syncFollowsClock; decide, _, rfl, rfl⟩

/-- A HOLD in execution with 31 report cells, and its timeout to come. -/
theorem witness_EveryStepKeepsTheQueues :
    (let s : State := { clocked {} with
       mgmt := { holding with reportQueue := List.replicate 31 (.event 1 0 0) }, pool := { port := busyPort }
       pending := [.holdTimeout] }
     queuesHaveRoom s ∧ holdIsInExecution s ∧ ∃ t, step s = .next t ∧ t.mgmt.hold = none) := by
  refine ⟨by unfold queuesHaveRoom; decide, fun _ => ⟨cellWith 0x01 [], rfl, rfl⟩, _, rfl, rfl⟩

/-- A store context that fills a segment, and a programme with a cue label. -/
theorem witness_EveryStepKeepsTheRecords :
    (let s : State := { programmed [(12, { valid := true, output := some 1, cueLabel := some 3012 })] filling with
       pending := [.secondBoundary] }
     tablesCanonical s ∧ cueLabelsDistinct s ∧ blocksApart s ∧ fillsApart s ∧ ∃ t, step s = .next t) := by
  refine ⟨by unfold tablesCanonical; decide, ?_, blocksApart_single rfl (by decide) (by decide), ⟨?_, ?_⟩, _, rfl⟩
  · intro p q l hp hq _ _
    have h : ∀ r, (programme (programmed [(12, { valid := true, output := some 1, cueLabel := some 3012 })] filling) r).valid = true
        → r = 12 := by
      intro r hr
      rw [Machine.programme, programmed, tableGet_single] at hr
      split at hr
      · assumption
      · cases hr
    rw [h p hp, h q hq]
  · intro i f hf
    match i with
    | 0 => cases hf; rfl
    | 1 => cases hf
  · intro i j f h hf hh _
    match i, j with
    | 0, 0 => rfl
    | 1, 1 => rfl
    | 0, 1 => cases hh
    | 1, 0 => cases hf

end Sys2Proof.Tests
end

section
/-!
PROOFS. How frame numbers and points compare (R10), and where a splice point lies against an emission position that is
there (R147).
-/

namespace Sys2Proof.Machine

/-- The model's 16-bit subtraction is R10's difference modulo 65,536. -/
theorem frameAtOrAfter_iff (a b : FrameNo) :
    frameAtOrAfter a b = true ↔ ((a.toNat : Int) - b.toNat) % 65536 ≤ 32767 := by
  have hdiff : ((a - b).toNat : Int) = ((a.toNat : Int) - b.toNat) % 65536 := by
    rw [BitVec.toNat_sub]
    omega
  rw [frameAtOrAfter, decide_eq_true_iff, ← hdiff]
  omega

theorem frameAfter_iff (a b : FrameNo) : frameAfter a b = true ↔ frameAtOrAfter a b = true ∧ a ≠ b := by
  rw [frameAfter, Bool.and_eq_true, decide_eq_true_iff]

/-- The negated comparison, in the same integer form. -/
theorem frameAtOrAfter_eq_false_iff (a b : FrameNo) :
    frameAtOrAfter a b = false ↔ 32767 < ((a.toNat : Int) - b.toNat) % 65536 := by
  rw [← Bool.not_eq_true, frameAtOrAfter_iff, not_le]

/-- 32,768 is its own negative modulo 65,536, so that neither of two such frames is at or after the other. -/
theorem frameAtOrAfter_of_half_apart {a b : FrameNo} (h : ((a.toNat : Int) - b.toNat) % 65536 = 32768) :
    frameAtOrAfter a b = false ∧ frameAtOrAfter b a = false := by
  have hback : ((b.toNat : Int) - a.toNat) % 65536 = 32768 := by omega
  rw [frameAtOrAfter_eq_false_iff, frameAtOrAfter_eq_false_iff, h, hback]
  decide

/-- Frame numbers decide, and then slots. -/
theorem pointAtOrAfter_iff (a b : FrameNo) (i j : Nat) :
    pointAtOrAfter (a, i) (b, j) = true ↔ frameAfter a b = true ∨ (a = b ∧ j ≤ i) := by
  rw [pointAtOrAfter, Bool.or_eq_true, Bool.and_eq_true, decide_eq_true_iff, decide_eq_true_iff]

theorem pointBefore_iff (x y : Point) : pointBefore x y = true ↔ pointAtOrAfter x y = false := by
  rw [pointBefore, Bool.not_eq_true']

/-- An output that keeps time judges a splice point by the emission position that it has (R147). -/
theorem pointAhead_of_position {s : State} {k : Fin 4} {y : Point}
    (hsync : s.outs[k].sync = .locked ∨ s.outs[k].sync = .holdover) (hpos : s.outs[k].position = some y) (x : Point) :
    pointAhead s k x = pointBefore y x := by
  have hkeeps : (s.outs[k].sync == .locked || s.outs[k].sync == .holdover) = true := by
    rwa [Bool.or_eq_true, beq_iff_eq, beq_iff_eq]
  rw [pointAhead, hkeeps, hpos, Bool.true_and]

/-- Settles O55: one lemma for each comparison of R10, and R147's judgement of a splice point. -/
theorem frameNumbersAndPointsCompare : Obligations.FrameNumbersAndPointsCompare := by
  intro a b
  refine ⟨frameAtOrAfter_iff a b, frameAfter_iff a b, frameAtOrAfter_of_half_apart, fun i j => ?_, ?_⟩
  · exact ⟨pointAtOrAfter_iff a b i j, pointBefore_iff (a, i) (b, j)⟩
  · intro s k x y hsync hpos
    rw [pointAhead_of_position hsync hpos]

end Sys2Proof.Machine
end

section
/-!
PROOFS. What the second resolution answers (R28), and the target that intake framing makes from it (R85).
-/

namespace Sys2Proof.Machine

/-- The resolved second stands above the window's lower end by a remainder modulo 256, so that it agrees with the low byte. -/
theorem resolveSecond_emod {low8 : Nat} (h : low8 < 256) (nowsec : Nat) : resolveSecond nowsec low8 % 256 = (low8 : Int) := by
  rw [resolveSecond, Int.add_emod_emod, add_sub_cancel, Int.emod_eq_of_lt (Int.natCast_nonneg low8) (by omega)]

/-- That remainder is less than 256, the window's width. -/
theorem resolveSecond_mem_window (nowsec low8 : Nat) :
    (nowsec : Int) - 128 ≤ resolveSecond nowsec low8 ∧ resolveSecond nowsec low8 ≤ (nowsec : Int) + 127 := by
  have hnonneg := Int.emod_nonneg ((low8 : Int) - ((nowsec : Int) - 128)) (by decide : (256 : Int) ≠ 0)
  have hlt := Int.emod_lt_of_pos ((low8 : Int) - ((nowsec : Int) - 128)) (by decide : (0 : Int) < 256)
  rw [resolveSecond]
  exact ⟨by omega, by omega⟩

/-- Integers that agree modulo 256 and lie in one window of 256 are equal: their difference is a multiple of 256 and less
than 256 in size. -/
theorem eq_of_emod_eq_of_mem_window {n x y : Int} (hmod : x % 256 = y % 256) (hx : n - 128 ≤ x ∧ x ≤ n + 127)
    (hy : n - 128 ≤ y ∧ y ≤ n + 127) : x = y := by
  have hdvd : (256 : Int) ∣ x - y := Int.ModEq.dvd hmod.symm
  have hsmall : |x - y| < 256 := abs_lt.mpr ⟨by omega, by omega⟩
  exact sub_eq_zero.mp (Int.eq_zero_of_abs_lt_dvd hdvd hsmall)

theorem resolveSecond_eq_iff {low8 : Nat} (h : low8 < 256) (nowsec : Nat) (x : Int) :
    resolveSecond nowsec low8 = x ↔ x % 256 = (low8 : Int) ∧ (nowsec : Int) - 128 ≤ x ∧ x ≤ (nowsec : Int) + 127 := by
  constructor
  · rintro rfl
    exact ⟨resolveSecond_emod h nowsec, resolveSecond_mem_window nowsec low8⟩
  · rintro ⟨hmod, hwindow⟩
    exact eq_of_emod_eq_of_mem_window ((resolveSecond_emod h nowsec).trans hmod.symm)
      (resolveSecond_mem_window nowsec low8) hwindow

/-- A record's target is its tick in the second that its packet's low byte resolves to. -/
theorem recordOf_target (s : State) (k : Fin 4) (p : TimingPacket) :
    (recordOf s k p).target = resolveSecond s.clock.seconds.toNat p.low8 * 20000000 + (p.tick : Int) := rfl

/-- Settles O56: the resolved second has the residue and lies in the window, and no other integer does both. -/
theorem secondResolutionIsTheOneInTheWindow : Obligations.SecondResolutionIsTheOneInTheWindow :=
  fun nowsec _ h x => ⟨resolveSecond_eq_iff h nowsec x, recordOf_target⟩

end Sys2Proof.Machine
end

section
/-!
PROOFS. What STATUS reports, and that it changes nothing (R173).
-/

namespace Sys2Proof.Machine

/-- The STATUS row takes its cell through the shared taking of commands (R162). -/
theorem exec_status (handed : Option Handed) (s : State) :
    exec (.status handed) s = .next (takeCommand 0x06 cmdStatus handed s) := rfl

/-- R173's table in its order: an output's entries stand once for each of the four outputs. -/
theorem statusUnits_eq (s : State) :
    statusUnits s =
      [natUnit (alignmentCode s.feed.portA.alignment), natUnit (alignmentCode s.feed.portB.alignment),
        natUnit (alignmentCode s.feed.portL.alignment), natUnit (selectionCode s.feed.selection),
        natUnit (clockCode s.clock.mode), natUnit s.clock.seconds.toNat, natUnit s.clock.tick,
        natUnit (syncCode s.outs[(0 : Fin 4)].sync), natUnit (syncCode s.outs[(1 : Fin 4)].sync),
        natUnit (syncCode s.outs[(2 : Fin 4)].sync), natUnit (syncCode s.outs[(3 : Fin 4)].sync),
        natUnit s.mgmt.flags.toNat, natUnit s.mgmt.enabled.toNat, natUnit (resetCauseCode s.mgmt.resetCause),
        natUnit s.mgmt.controlQueue.length,
        natUnit s.mgmt.counters.outputChanges[(0 : Fin 4)].toNat, natUnit s.mgmt.counters.outputChanges[(1 : Fin 4)].toNat,
        natUnit s.mgmt.counters.outputChanges[(2 : Fin 4)].toNat, natUnit s.mgmt.counters.outputChanges[(3 : Fin 4)].toNat,
        natUnit s.mgmt.reportQueue.length] := rfl

/-- No unit of STATUS tells of the command in execution, so that the taken cell shows only in the control queue, which it
has left. -/
theorem statusUnits_takeHead (c : Cell) (rest : List Cell) (s : State) :
    statusUnits (takeHead c rest s) = statusUnits (unqueued rest s) := rfl

/-- STATUS takes effect whatever its parameter units are, and leaves the state that it is executed in. -/
theorem cmdStatus_takeHead (u : List ParamUnit) (c : Cell) (rest : List Cell) (s : State) :
    cmdStatus u (takeHead c rest s) = .done (statusUnits (unqueued rest s)) (takeHead c rest s) := by
  rw [cmdStatus, statusUnits_takeHead]

/-- An accepted STATUS is answered with the units of the state without its cell (R164, R173). -/
theorem exec_status_answered {c : Cell} {rest : List Cell} {s : State} (h : accepted 0x06 c rest s) :
    ∃ t, exec (.status none) s = .next t ∧ Answered c .ok (statusUnits (unqueued rest s)) (unqueued rest s) t := by
  rw [exec_status]
  exact takeCommand_done' cmdStatus h (cmdStatus_takeHead c.units c rest s)

/-- Settles O21: the answer's units are those of R173's table, each enumeration by its code. -/
theorem statusReportsTwentyUnits : Obligations.StatusReportsTwentyUnits := by
  intro s c rest h
  obtain ⟨t, hexec, hanswered⟩ := exec_status_answered h
  rw [statusUnits_eq] at hanswered
  exact ⟨t, hexec, hanswered⟩

end Sys2Proof.Machine
end
